-- ==== Sys2Proof/Word.lean ====
section
/-! DEFINITION. The words of the LX-24: bytes on its wires, two-byte fields of its frames, and the index types
of its ports, inputs, lines, channels and song slots. -/

namespace Sys2Proof

/-- A byte on a link or on a MIDI port (R41, R179). -/
abbrev Byte := BitVec 8

/-- A two-byte field of a frame (R196). -/
abbrev Word := BitVec 16

/-- OUT0 to OUT7. -/
abbrev Port := Fin 8

/-- IN0 to IN5. -/
abbrev Input := Fin 6

/-- A MIDI channel as it is carried, 0 to 15 for channels 1 to 16 (R196). -/
abbrev Chan := Fin 16

/-- FS0 to FS3. -/
abbrev FootLine := Fin 4

/-- CK0 to CK3. -/
abbrev ClickNo := Fin 4

/-- Song slots 0 to 47 (R100). -/
abbrev SlotNo := Fin 48

/-- Every output port in order, OUT0 first. -/
def allPorts : List Port := [0, 1, 2, 3, 4, 5, 6, 7]

/-- Every input in order, IN0 first. -/
def allInputs : List Input := [0, 1, 2, 3, 4, 5]

/-- Every footswitch line in order, FS0 first. -/
def allFoots : List FootLine := [0, 1, 2, 3]

/-- Every channel in order, channel 1 first. -/
def allChans : List Chan := [0, 1, 2, 3, 4, 5, 6, 7, 8, 9, 10, 11, 12, 13, 14, 15]

/-- Every click channel in order, CK0 first. -/
def allClicks : List ClickNo := [0, 1, 2, 3]

/-- The high byte, then the low byte: a two-byte number goes high byte first (R196). -/
def Word.bytes (w : Word) : List Byte := [w.extractLsb' 8 8, w.extractLsb' 0 8]

end Sys2Proof
end

