-- ==== Sys2Proof/Syntax.lean ====
section
/-! DEFINITION. The commands of the LX-24: one constructor for each row of spec/opcode_table.json. A request carries the
link it arrives on, its tag and its field bytes just as R197 lays them out, so that every refusal a field can cause
is expressible. Receive events carry the byte and whether its stop bit was at the right level. -/

namespace Sys2Proof

/-- LINK A (the rig host) and LINK B (the director's system). -/
inductive Link where
  | a
  | b
deriving DecidableEq, Repr

/-- The other link. -/
def Link.other : Link → Link
  | .a => .b
  | .b => .a

/-- The level of a footswitch contact line (R53). -/
inductive Level where
  | opened
  | closed
deriving DecidableEq, Repr

/-- The field bytes of CLICK_SET in order (R197). -/
structure ClickFields where
  channel : Byte
  mode : Byte
  port : Byte
  midiChannel : Byte
  accentNote : Byte
  beatNote : Byte
  subNote : Byte
  accentLevel : Byte
  beatLevel : Byte
  subLevel : Byte
  subdivision : Byte
  gate : Byte
deriving DecidableEq, Repr

/-- The field bytes of SONG_SEGMENT in order (R197). -/
structure SegmentFields where
  startBar : Word
  numerator : Byte
  denominator : Byte
  tempo : Word
  rampBars : Byte
  rampTarget : Word
deriving DecidableEq, Repr

/-- The field bytes of SCENE_ZONE in order (R197). -/
structure ZoneFields where
  inputs : Byte
  sourceChannel : Byte
  keyLow : Byte
  keyHigh : Byte
  velLow : Byte
  velHigh : Byte
  direction : Byte
  targetPort : Byte
  targetChannel : Byte
  transpose : Byte
  curve : Byte
  fixedVelocity : Byte
  scale : Byte
  offset : Byte
  pedalMode : Byte
  forward : Byte
deriving DecidableEq, Repr

/-- The field bytes of OUTPUT_SET in order (R197). -/
structure OutputFields where
  port : Byte
  runningStatus : Byte
  clockFlag : Byte
  keepAlive : Byte
  settleTime : Byte
  settlePolicy : Byte
  interval : Byte
  laneMode : Byte
  weight : Byte
deriving DecidableEq, Repr

/-- The commands, one for each row of spec/opcode_table.json. -/
inductive Instr where
  /-- PIN_RESET (R185, R58): the RESET pin, with the levels of the straps CKSEL1 and CKSEL0 it samples. -/
  | pinReset (cksel1 cksel0 : Bool)
  /-- INITIALISATION_END (R185). -/
  | initialisationEnd
  /-- LINK_BYTE_RECEIVED (R179): `stopOk` is false for a framing error. -/
  | linkByteReceived (l : Link) (byte : Byte) (stopOk : Bool)
  /-- LINK_INTER_BYTE_TIMEOUT (R179). -/
  | linkInterByteTimeout (l : Link)
  /-- BAD_FRAME (R182): a complete frame whose CHECK byte is wrong. -/
  | badFrame (l : Link) (kind tag : Byte) (fields : List Byte) (check : Byte)
  /-- UNKNOWN_KIND (R182): a complete frame whose KIND names no request. -/
  | unknownKind (l : Link) (kind tag : Byte) (fields : List Byte)
  /-- LINK_TRANSMIT_END (R184). -/
  | linkTransmitEnd (l : Link)
  /-- START (R83): the skip count-in flag. -/
  | start (l : Link) (tag skip : Byte)
  /-- STOP (R84). -/
  | stop (l : Link) (tag : Byte)
  /-- HOLD (R85). -/
  | hold (l : Link) (tag : Byte)
  /-- GO (R86). -/
  | go (l : Link) (tag : Byte)
  /-- EXTEND (R87). -/
  | extend (l : Link) (tag : Byte)
  /-- TEMPO_SET (R71): a tempo, or 0000h for CLEAR. -/
  | tempoSet (l : Link) (tag : Byte) (tempo : Word)
  /-- TAP (R75). -/
  | tap (l : Link) (tag : Byte)
  /-- CLICK_SET (R94). -/
  | clickSet (l : Link) (tag : Byte) (f : ClickFields)
  /-- SONG_OPEN (R107). -/
  | songOpen (l : Link) (tag slot countIn startMode phrase : Byte) (stopBar : Word) (name : List Byte)
  /-- SONG_SEGMENT (R108). -/
  | songSegment (l : Link) (tag : Byte) (f : SegmentFields)
  /-- SCENE_BEGIN (R109). -/
  | sceneBegin (l : Link) (tag timing : Byte) (name : List Byte)
  /-- SCENE_ZONE (R110). -/
  | sceneZone (l : Link) (tag : Byte) (f : ZoneFields)
  /-- SCENE_PROGRAM (R111). -/
  | sceneProgram (l : Link) (tag port channel msb lsb program : Byte)
  /-- SONG_CLOSE (R112). -/
  | songClose (l : Link) (tag : Byte)
  /-- SONG_ERASE (R113). -/
  | songErase (l : Link) (tag slot : Byte)
  /-- SONG_QUERY (R114). -/
  | songQuery (l : Link) (tag slot : Byte)
  /-- SET_INSERT (R118). -/
  | setInsert (l : Link) (tag position slot : Byte)
  /-- SET_REMOVE (R119). -/
  | setRemove (l : Link) (tag position : Byte)
  /-- SET_CLEAR (R120). -/
  | setClear (l : Link) (tag : Byte)
  /-- SET_QUERY (R120). -/
  | setQuery (l : Link) (tag : Byte)
  /-- CUE (R123). -/
  | cue (l : Link) (tag form number timing : Byte)
  /-- CUE_CANCEL (R132). -/
  | cueCancel (l : Link) (tag : Byte)
  /-- AUDITION (R151). -/
  | audition (l : Link) (tag scene : Byte)
  /-- AUDITION_END (R152). -/
  | auditionEnd (l : Link) (tag : Byte)
  /-- OUTPUT_SET (R157). -/
  | outputSet (l : Link) (tag : Byte) (f : OutputFields)
  /-- INPUT_SET (R50). -/
  | inputSet (l : Link) (tag input cueChannel watch : Byte)
  /-- FOOTSWITCH_SET (R56). -/
  | footswitchSet (l : Link) (tag line function polarity sustainInput sustainChannel : Byte)
  /-- NOTICE_MASK (R187). -/
  | noticeMask (l : Link) (tag : Byte) (mask : Word)
  /-- LINK_NOTE (R188). -/
  | linkNote (l : Link) (tag : Byte) (text : List Byte)
  /-- STATUS_GET (R189). -/
  | statusGet (l : Link) (tag part : Byte)
  /-- COUNTERS_GET (R190). -/
  | countersGet (l : Link) (tag group number clear : Byte)
  /-- FAULT_GET (R192). -/
  | faultGet (l : Link) (tag : Byte)
  /-- FAULT_CLEAR (R192). -/
  | faultClear (l : Link) (tag : Byte)
  /-- PANIC (R193). -/
  | panic (l : Link) (tag : Byte)
  /-- SOFT_RESET (R194). -/
  | softReset (l : Link) (tag : Byte)
  /-- INPUT_BYTE_RECEIVED (R42): `stopOk` is false for a framing error (R46). -/
  | inputByteReceived (i : Input) (byte : Byte) (stopOk : Bool)
  /-- INPUT_WATCH_EXPIRY (R52). -/
  | inputWatchExpiry (i : Input)
  /-- FOOTSWITCH_LINE_CHANGE (R53): the level the line now has. -/
  | footswitchLineChange (n : FootLine) (level : Level)
  /-- FOOTSWITCH_DEBOUNCE_EXPIRY (R53). -/
  | footswitchDebounceExpiry (n : FootLine)
  /-- GRID_STEP_END (R81). -/
  | gridStepEnd
  /-- CLICK_GATE_EXPIRY (R96): the pending record is named by its port, channel and note. -/
  | clickGateExpiry (p : Port) (c : Chan) (note : Nat)
  /-- OUTPUT_ITEM_END (R158). -/
  | outputItemEnd (p : Port)
  /-- SETTLE_TIMER_EXPIRY (R169). -/
  | settleTimerExpiry (p : Port)
  /-- KEEP_ALIVE_EXPIRY (R168). -/
  | keepAliveExpiry (p : Port)
  /-- CONTROLLER_INTERVAL_EXPIRY (R167). -/
  | controllerIntervalExpiry (p : Port)
deriving DecidableEq, Repr

end Sys2Proof
end

