-- ==== Sys2Proof/Config.lean ====
section
/-! DEFINITION. The figures the spec fixes for this part: capacities, timer lengths in µs of the timebase, and the
constants of the tempo arithmetic. The spec leaves no RESULT open, so no free value stands here. -/

namespace Sys2Proof.Config

/-- R185: initialisation lasts 50 ms. -/
def initialisation : Nat := 50000
/-- R51: the watch timer expires 300 ms after it was last started. -/
def watch : Nat := 300000
/-- R53: the debounce timer is 12 ms. -/
def debounce : Nat := 12000
/-- R179: the inter-byte timer expires 5 ms after it was last started. -/
def interByte : Nat := 5000
/-- R168: the keep-alive timer is 250 ms. -/
def keepAlive : Nat := 250000
/-- R41, R158: a byte on a performance port takes 320 µs. -/
def midiByte : Nat := 320
/-- R184, chapter 10: a byte on a link takes 40 µs. -/
def linkByte : Nat := 40
/-- R60: Q, 62,500,000. -/
def stepQ : Nat := 62500000
/-- R60: the least and the greatest tempo. -/
def tempoMin : Nat := 2000
/-- R60: the greatest tempo. -/
def tempoMax : Nat := 30000
/-- R63: the tempo of the default map. -/
def tempoDefault : Nat := 12000
/-- R73: a tap sooner than this after the last one is bounce. -/
def tapMin : Nat := 200000
/-- R73: a tap later than this after the last one begins a new series. -/
def tapMax : Nat := 3000000
/-- R74: the dividend of the tap tempo for one interval. -/
def tapDividend : Nat := 6000000000
/-- R20: the held-note table holds at most 96 entries. -/
def heldMax : Nat := 96
/-- R9: the layer list holds at most four targets. -/
def layerMax : Nat := 4
/-- R104: items of the zone pool. -/
def zonePool : Nat := 768
/-- R104: items of the program pool. -/
def programPool : Nat := 512
/-- R102: segments of a song. -/
def segmentMax : Nat := 8
/-- R103: scenes of a song. -/
def sceneMax : Nat := 12
/-- R103: zones of a scene, and assignments of a scene. -/
def sceneListMax : Nat := 16
/-- R117: positions of the setlist. -/
def setlistMax : Nat := 64
/-- R80: extension beats of a bar. -/
def extensionMax : Nat := 4
/-- R81: the bar field holds at 9999. -/
def barMax : Nat := 9999
/-- R159: bytes of a REALTIME lane. -/
def realtimeMax : Nat := 8
/-- R159: entries of a CLICK lane. -/
def clickLaneMax : Nat := 8
/-- R159: entries of a NOTE lane. -/
def noteLaneMax : Nat := 64
/-- R166: merge slots of a port. -/
def slotMax : Nat := 24
/-- R181: frames of an input buffer, and replies of a reply queue. -/
def bufferMax : Nat := 4
/-- The Conventions of 00_scope.md: a counter holds at 65535. -/
def counterMax : Nat := 65535
/-- R186, R191: repeat counts and the count of later faults hold at 255. -/
def smallCountMax : Nat := 255
/-- R24: the velocity of a note-off the part makes itself. -/
def offVelocity : Nat := 64

end Sys2Proof.Config
end

