-- ==== Sys2Proof/Machine/State.lean ====
section
/-! DEFINITION. The state of the LX-24 as plain data, unit by unit, and its value right after a pin reset. What the spec says
follows from other state is not stored twice: the target map (R22), the bar length (R80), the map in use (R63), the
pools' free counts (R104), the owners of OPEN slots (R105), IN USE (R101) and the states of the changeover record and of
its port entries (R136, R137) are views defined beside the operations. -/

namespace Sys2Proof.Machine

/-! ### Stops -/

/-- Why the machine would stop with a fault. The spec stops it nowhere, so there is no constructor: safe, since no
claim can rest on a fault. What R191 calls a fault is recorded in `State.faultRecord`. -/
inductive Fault where
deriving DecidableEq, Repr

/-- Why a command would be refused without a meaning. -/
inductive Refusal where
  /-- Raised only by an arm of `exec` for a command that has no meaning yet; no arm does so now. Safe: the run stops. -/
  | notModelled (mnemonic : String)
deriving DecidableEq, Repr

/-! ### Names shared by several units -/

/-- The CLKIN frequency the straps select (R58). -/
inductive Clkin where
  | mhz8
  | mhz12
  | mhz16
  | mhz24
deriving DecidableEq, Repr

/-- The result codes other than OK (R183). -/
inductive Result where
  | badFrame
  | busy
  | unknownKind
  | badField
  | wrongState
  | inUse
  | full
  | notFound
  | notReady
  | endOfList
  | cueHeld
  | tooLate
  | badSong
deriving DecidableEq, Repr

/-- The limits a FULL reply names (R200). -/
inductive Limit where
  | segments
  | scenes
  | sceneList
  | pool
  | setlist
  | extension
deriving DecidableEq, Repr

/-- The reasons of BAD_SONG (R112). -/
inductive SongFault where
  | noSegment
  | noScene
  | rampOverlap
deriving DecidableEq, Repr

/-- The claimants of the cue slot (R121). -/
inductive Claimant where
  | stage
  | linkA
  | linkB
deriving DecidableEq, Repr

/-- Where a cue, a PANIC or a transport request came from (R98, R121, R193): a footswitch line, the cue channel of an
input, or a link. -/
inductive Origin where
  | foot (n : FootLine)
  | input (i : Input)
  | link (l : Link)
deriving DecidableEq, Repr

/-- A timing that can be resolved; DEFAULT is the absence of one in a request (R121, R122). -/
inductive Timing where
  | now
  | beat
  | bar
  | phrase
deriving DecidableEq, Repr

/-- SCENE or SONG (R121, R136). -/
inductive Kind where
  | scene
  | song
deriving DecidableEq, Repr

/-! ### Input parsers (chapter 3) -/

/-- The parse states of R42. -/
inductive ParseState where
  | ready
  | collecting (status : Byte) (data : List Byte)
  | exclusive
  | common (left : Nat)
deriving DecidableEq, Repr

/-- The watch states of R51. -/
inductive WatchState where
  | unwatched
  | watched
  | lost
deriving DecidableEq, Repr

/-- One input parser: parse state, running status, watch, settings and counters (R42, R43, R49 to R51). -/
structure InputState where
  parse : ParseState
  running : Option Byte
  watch : WatchState
  watchDue : Option Nat
  cueChannel : Option Chan
  watchOn : Bool
  framing : Nat
  discard : Nat
  orphan : Nat
  transposeSkip : Nat
  layerLimit : Nat
deriving DecidableEq, Repr

/-! ### Footswitches (chapter 3) -/

/-- The functions of R55. -/
inductive FootFunction where
  | none
  | nextScene
  | prevScene
  | nextSong
  | tap
  | startStop
  | holdGo
  | panic
  | sustain
deriving DecidableEq, Repr

/-- The polarities of R54. -/
inductive Polarity where
  | make
  | break
deriving DecidableEq, Repr

/-- One footswitch line (R53, R54, R56). -/
structure FootState where
  level : Level
  debounced : Level
  debounceDue : Option Nat
  function : FootFunction
  polarity : Polarity
  sustain : Option (Input × Chan)
deriving DecidableEq, Repr

/-! ### Zones (chapter 1) -/

/-- NORMAL or REVERSE (R8). -/
inductive Direction where
  | normal
  | reverse
deriving DecidableEq, Repr

/-- The velocity curves of R11; FIXED carries its fixed velocity, which is present only with it (R2). -/
inductive Curve where
  | linear
  | soft
  | hard
  | fixed (velocity : Nat)
deriving DecidableEq, Repr

/-- CHIP or MODULE (R2). -/
inductive PedalMode where
  | chip
  | module
deriving DecidableEq, Repr

/-- The forward flags of a zone (R2, R13, R15). -/
structure Forward where
  controllers : Bool
  bend : Bool
  pressure : Bool
  poly : Bool
deriving DecidableEq, Repr

/-- A zone (R2). `inputs` is the source input set, bit n for INn; `sourceChannel` is `none` for ANY. -/
structure Zone where
  inputs : BitVec 6
  sourceChannel : Option Chan
  keyLow : Nat
  keyHigh : Nat
  velLow : Nat
  velHigh : Nat
  direction : Direction
  port : Port
  chan : Chan
  transpose : Int
  curve : Curve
  scale : Nat
  offset : Int
  pedal : PedalMode
  forward : Forward
deriving DecidableEq, Repr

/-! ### Note table (chapter 2) -/

/-- A (port, channel, output key) triple of the target map (R22). -/
structure Triple where
  port : Port
  chan : Chan
  key : Nat
deriving DecidableEq, Repr

/-- A target of a held-note entry (R21). -/
structure HeldTarget where
  triple : Triple
  velocity : Nat
  pedal : PedalMode
  forward : Forward
  sent : Bool
deriving DecidableEq, Repr

/-- DOWN or SUSTAINED (R21). -/
inductive HeldState where
  | down
  | sustained
deriving DecidableEq, Repr

/-- The source of a held note: input, channel and key as played (R21). -/
structure Source where
  input : Input
  chan : Chan
  key : Nat
deriving DecidableEq, Repr

/-- A held-note entry (R21). -/
structure HeldEntry where
  source : Source
  state : HeldState
  scene : Nat
  targets : List HeldTarget
deriving DecidableEq, Repr

/-- A pedal record (R31): `down` is its state, `pairs` its pedal target set. -/
structure PedalRecord where
  down : Bool
  pairs : List (Port × Chan)
deriving DecidableEq, Repr

/-! ### Tempo unit (chapter 4) -/

/-- A tempo segment (R63). -/
structure Segment where
  startBar : Nat
  numerator : Nat
  denominator : Nat
  tempo : Nat
  rampBars : Nat
  rampTarget : Option Nat
deriving DecidableEq, Repr

/-- The ramp states of R67. -/
inductive RampState where
  | none
  | ramping (k : Nat)
  | arrived
  | ended
deriving DecidableEq, Repr

/-- The value part of a staged value (R70). -/
inductive StagedValue where
  | tempo (t : Nat)
  | clear
deriving DecidableEq, Repr

/-- The due point of a staged value (R70). -/
inductive StagedDue where
  | downbeat
  | beat
deriving DecidableEq, Repr

/-- A staged value (R70). -/
structure Staged where
  value : StagedValue
  due : StagedDue
deriving DecidableEq, Repr

/-- The tempo unit (R60, R65, R67, R69, R70, R73). `segment` is the index of the segment in use. -/
structure TempoState where
  current : Nat
  acc : Nat
  segment : Option Nat
  ramp : RampState
  override : Option Nat
  staged : Option Staged
  lastTap : Option Nat
  taps : List Nat
deriving DecidableEq, Repr

/-- The sources the TEMPO notice names (R78). -/
inductive TempoSource where
  | map
  | ramp
  | override
deriving DecidableEq, Repr

/-! ### Transport (chapter 5) -/

/-- The transport states of R80. -/
inductive TransportMode where
  | stopped
  | countIn
  | running
  | held
deriving DecidableEq, Repr

/-- The causes of R98. -/
inductive Cause where
  | start
  | stop
  | hold
  | go
  | extend
  | stopBar
  | songChange
deriving DecidableEq, Repr

/-- The transport record (R80), with the end of the grid step in progress (R81) and whether a count-in came from a song
change (R98). The bar length is the view `TransportState.barLength`. -/
structure TransportState where
  mode : TransportMode
  bar : Nat
  beat : Nat
  step : Nat
  numerator : Nat
  denominator : Nat
  extension : Nat
  holdPending : Bool
  countIn : Nat
  countInFromSong : Bool
  stepEnd : Option Nat
deriving DecidableEq, Repr

/-! ### Click unit (chapter 5) -/

/-- The click modes of R94. -/
inductive ClickMode where
  | off
  | always
  | countInOnly
  | runningOnly
deriving DecidableEq, Repr

/-- The subdivisions of R94. -/
inductive Subdivision where
  | none
  | eighth
  | sixteenth
  | triplet
deriving DecidableEq, Repr

/-- The settings of a click channel (R94); the gate is in ms. -/
structure ClickChannel where
  mode : ClickMode
  port : Port
  chan : Chan
  accentNote : Nat
  beatNote : Nat
  subNote : Nat
  accentLevel : Nat
  beatLevel : Nat
  subLevel : Nat
  subdivision : Subdivision
  gate : Nat
deriving DecidableEq, Repr

/-- A pending click note-off (R96). `waiting` is set once its NOTE_OFF has been refused by a full lane. -/
structure ClickOff where
  port : Port
  chan : Chan
  note : Nat
  due : Nat
  waiting : Bool
deriving DecidableEq, Repr

/-- The click unit (R94, R96). -/
structure ClickState where
  channels : Vector ClickChannel 4
  offs : List ClickOff
deriving DecidableEq, Repr

/-! ### Song library (chapter 6) -/

/-- A program assignment (R103). -/
structure Assignment where
  port : Port
  chan : Chan
  msb : Option Nat
  lsb : Option Nat
  program : Nat
deriving DecidableEq, Repr

/-- A scene (R103). -/
structure Scene where
  name : List Byte
  timing : Timing
  zones : List Zone
  assignments : List Assignment
deriving DecidableEq, Repr

/-- FOLLOW or WAIT (R102). -/
inductive StartMode where
  | follow
  | wait
deriving DecidableEq, Repr

/-- A song record (R102). -/
structure Song where
  name : List Byte
  countIn : Nat
  startMode : StartMode
  phrase : Nat
  stopBar : Option Nat
  segments : List Segment
  scenes : List Scene
deriving DecidableEq, Repr

/-- A song slot (R100): EMPTY, OPEN with its owner and scene cursor, or READY. -/
inductive Slot where
  | empty
  | building (owner : Link) (song : Song) (cursor : Option Nat)
  | ready (song : Song)
deriving DecidableEq, Repr

/-- The states of a slot without their contents (R100). -/
inductive SlotMode where
  | empty
  | building
  | ready
deriving DecidableEq, Repr

/-! ### Cue arbiter (chapter 7) -/

/-- The forms of a change request (R122). -/
inductive CueForm where
  | nextScene
  | prevScene
  | scene (n : Nat)
  | nextSong
  | prevSong
  | position (n : Nat)
deriving DecidableEq, Repr

/-- A change (R121). `displaced` is the claimant it displaced at its taking (R133). -/
structure Change where
  claimant : Claimant
  position : Nat
  slot : SlotNo
  scene : Nat
  kind : Kind
  timing : Timing
  relative : Bool
  source : Origin
  displaced : Option Claimant
deriving DecidableEq, Repr

/-- The details of the CUE notice, which are the outcomes of a CUE too (R123, R133). -/
inductive CueDetail where
  | taken
  | replaced
  | displaced
  | cancelled
  | triggered
deriving DecidableEq, Repr

/-! ### Changeover unit (chapter 8) -/

/-- The audition marks of R136. -/
inductive Mark where
  | none
  | audition
  | ret
deriving DecidableEq, Repr

/-- The states of a port entry (R137). -/
inductive EntryState where
  | queued
  | settling
  | done
deriving DecidableEq, Repr

/-- The states of the changeover record (R136). -/
inductive RecordState where
  | idle
  | sending
  | settling
deriving DecidableEq, Repr

/-- A port entry (R137). `settling` says that the port's settle timer, started by this record's last transmission
there, is running. -/
structure PortEntry where
  port : Port
  outstanding : Nat
  settling : Bool
deriving DecidableEq, Repr

/-- A current selection: position, song slot and scene, each possibly absent (R131, R136). -/
structure Selection where
  position : Option Nat
  slot : Option SlotNo
  scene : Option Nat
deriving DecidableEq, Repr

/-- An active changeover record (R136). -/
structure Changeover where
  kind : Kind
  claimant : Claimant
  mark : Mark
  source : Selection
  position : Nat
  slot : SlotNo
  scene : Nat
  ports : List PortEntry
deriving DecidableEq, Repr

/-- A program setting (R138). -/
structure ProgramSetting where
  msb : Option Nat
  lsb : Option Nat
  program : Nat
deriving DecidableEq, Repr

/-- The details of the CHANGE notice (R153). -/
inductive ChangeDetail where
  | started
  | superseded
  | done
deriving DecidableEq, Repr

/-! ### Output schedulers (chapter 9) -/

/-- The settle policies of R170. -/
inductive SettlePolicy where
  | hold
  | drop
  | pass
deriving DecidableEq, Repr

/-- The lane modes of R164. -/
inductive LaneMode where
  | round
  | noteFirst
deriving DecidableEq, Repr

/-- The settings of a port (R156): the settle time in 10 ms units, the controller interval in ms. -/
structure PortSettings where
  runningStatus : Bool
  clockFlag : Bool
  keepAlive : Bool
  settleTime : Nat
  policy : SettlePolicy
  interval : Nat
  laneMode : LaneMode
  weight : Nat
deriving DecidableEq, Repr

/-- The bytes of the REALTIME lane (R93, R159). -/
inductive RealTime where
  | clock
  | start
  | continue
  | stop
deriving DecidableEq, Repr

/-- A CLICK lane entry (R161): NOTE_ON when `on` is true. -/
structure ClickEntry where
  on : Bool
  chan : Chan
  note : Nat
  velocity : Nat
  due : Nat
deriving DecidableEq, Repr

/-- A NOTE lane entry (R162). -/
inductive NoteEntry where
  | noteOn (c : Chan) (key velocity : Nat)
  | noteOff (c : Chan) (key velocity : Nat)
  | polyPressure (c : Chan) (key pressure : Nat)
  | pedal (c : Chan) (down : Bool)
  | program (c : Chan) (msb lsb : Option Nat) (number : Nat)
  | sweep (c : Chan)
deriving DecidableEq, Repr

/-- The kind part of a merge slot's key (R166). -/
inductive MergeKind where
  | controller (n : Nat)
  | bend
  | pressure
deriving DecidableEq, Repr

/-- A merge slot's key (R166). -/
structure MergeKey where
  chan : Chan
  kind : MergeKind
deriving DecidableEq, Repr

/-- The state of a merge slot that is not FREE (R166). DIRTY carries its dirtied time. `sending` is a slot whose message
is in transmission, with the arrival time of a value that came meanwhile (R167). -/
inductive MergeState where
  | dirty (at_ : Nat)
  | clean
  | sending (again : Option Nat)
deriving DecidableEq, Repr

/-- A merge slot that is not FREE (R166). -/
structure MergeSlot where
  key : MergeKey
  value : Nat
  state : MergeState
  sent : Option Nat
deriving DecidableEq, Repr

/-- NOTE or CONTROL, as the ROUND record keeps it (R164). -/
inductive LaneChoice where
  | note
  | control
deriving DecidableEq, Repr

/-- A channel message without the effect of running status (R162, R165). -/
structure Message where
  status : Byte
  data : List Byte
deriving DecidableEq, Repr

/-- What is on a port's wire now: the bytes of one message or single byte as they are sent, the status byte when it is a
channel message, and the instant its last byte has been sent (R158, R165). -/
structure Wire where
  bytes : List Byte
  status : Option Byte
  ends : Nat
deriving DecidableEq, Repr

/-- The lane entry a transmitter holds (R158). -/
inductive LaneEntry where
  | click (e : ClickEntry)
  | note (e : NoteEntry)
  | control (key : MergeKey)
deriving DecidableEq, Repr

/-- An entry in transmission (R158): its messages still to begin, whether it is a PROGRAM entry of the active changeover
record (R169), and whether the last status is emptied at its end (R165). -/
structure InProgress where
  entry : LaneEntry
  left : List Message
  ofRecord : Bool
  emptyStatus : Bool
deriving DecidableEq, Repr

/-- One output scheduler (chapter 9). `slots` holds the merge slots that are not FREE; the DIRTY ones stand in the order
in which they were dirtied. The transmitter is IDLE when `wire` is `none`. The places of the NOTE lane are its
first 64 entries; an entry behind them waits for a place that frees at the instant it was offered (R178, log 37). -/
structure PortState where
  settings : PortSettings
  realtime : List RealTime
  clickLane : List ClickEntry
  noteLane : List NoteEntry
  slots : List MergeSlot
  lastGrant : Option LaneChoice
  grantCount : Nat
  settleDue : Option Nat
  lastStatus : Option Byte
  keepAliveDue : Option Nat
  sweepPending : List Chan
  wire : Option Wire
  entry : Option InProgress
  settleDrop : Nat
  noteDiscard : Nat
  overflow : Nat
  mergeDrop : Nat
  clickDrop : Nat
  realtimeDrop : Nat
deriving DecidableEq, Repr

/-! ### Links and reporting (chapters 10 and 11) -/

/-- The fault classes of R191. -/
inductive FaultClass where
  | inputLost
  | inputFraming
  | noteLaneOverflow
  | heldTableSteal
  | linkBadFrame
  | linkOverrun
deriving DecidableEq, Repr

/-- The sources of R191. -/
inductive FaultSource where
  | input (i : Input)
  | port (p : Port)
  | link (l : Link)
deriving DecidableEq, Repr

/-- The fault record when it holds a fault (R191). -/
structure FaultRecord where
  cls : FaultClass
  source : FaultSource
  bar : Nat
  beat : Nat
  step : Nat
  later : Nat
deriving DecidableEq, Repr

/-- The thirteen kinds of notice (chapter 10). -/
inductive NoticeKind where
  | beat
  | bar
  | transport
  | tempo
  | cue
  | cueRefused
  | change
  | input
  | fault
  | panic
  | steal
  | linkNote
  | library
deriving DecidableEq, Repr

/-- A notice with its details (R199). In `transport`, `origin` is `none` where R98 gives none; a footswitch is any
`Origin.foot`. -/
inductive Notice where
  | beat (bar beat tempo : Nat)
  | bar (bar beat tempo : Nat)
  | transport (mode : TransportMode) (bar beat step countIn : Nat) (holdPending : Bool) (extension : Nat)
      (cause : Cause) (origin : Option Origin)
  | tempo (tempo : Nat) (source : TempoSource) (override : Bool) (staged : Option StagedValue)
  | cue (detail : CueDetail) (change : Change) (canceller : Option Link) (displaced : Option Claimant)
      (sceneName : List Byte)
  | cueRefused (reason : Result) (form : CueForm) (source : Origin) (position scene : Option Nat)
  | change (detail : ChangeDetail) (record : Changeover) (enqueued dropped : Nat) (sceneName : List Byte)
  | input (i : Input) (watch : WatchState)
  | fault (cls : FaultClass) (source : FaultSource) (first : Bool) (record : FaultRecord)
  | panic (origin : Origin) (bar beat step : Nat)
  | steal (source : Source) (state : HeldState) (scene : Nat)
  | linkNote (sender : Link) (text : List Byte)
  | library (slot : SlotNo) (before after : SlotMode) (owner : Option Link) (name : List Byte)
deriving DecidableEq, Repr

/-- An entry of a notice queue (R186). -/
structure NoticeEntry where
  notice : Notice
  repeats : Nat
deriving DecidableEq, Repr

/-- A complete frame as received, without SYNC (chapter 10, Frames). -/
structure Frame where
  len : Byte
  kind : Byte
  tag : Byte
  fields : List Byte
  check : Byte
deriving DecidableEq, Repr

/-- A reply waiting to be sent (R183): the KIND byte of its request as received, the tag, the result (`none` for OK) and
the data R198 lays out. -/
structure Reply where
  request : Byte
  tag : Byte
  result : Option Result
  data : List Byte
deriving DecidableEq, Repr

/-- The receive states of R179. BODY holds the LEN byte and the bytes stored so far, CHECK the LEN byte and all of them. -/
inductive RxState where
  | hunt
  | length
  | body (len : Byte) (stored : List Byte)
  | check (len : Byte) (stored : List Byte)
deriving DecidableEq, Repr

/-- A frame in transmission on a link (R184): all its bytes, SYNC to CHECK, and the instant the last has been sent. -/
structure LinkWire where
  bytes : List Byte
  ends : Nat
deriving DecidableEq, Repr

/-- One link interface (chapter 10). The transmitter is IDLE when `tx` is `none`. -/
structure LinkState where
  rx : RxState
  interByteDue : Option Nat
  buffer : List Frame
  replies : List Reply
  mask : BitVec 13
  notices : List NoticeEntry
  tx : Option LinkWire
  framesTaken : Nat
  badFrames : Nat
  overruns : Nat
deriving DecidableEq, Repr

/-! ### The whole state -/

/-- The state of the LX-24, and the commands that wait. Instants are counts of the 1 µs timebase (R58). -/
structure State where
  now : Nat
  init : Option Nat
  clkin : Clkin
  inputs : Vector InputState 6
  foots : Vector FootState 4
  live : List Zone
  liveId : Option (SlotNo × Nat)
  held : List HeldEntry
  pedals : Vector (Vector PedalRecord 16) 6
  stealCount : Nat
  tempo : TempoState
  transport : TransportState
  click : ClickState
  library : Vector Slot 48
  setlist : List SlotNo
  curPos : Option Nat
  curScene : Option Nat
  cue : Option Change
  departure : Option Change
  changeover : Option Changeover
  progMem : Vector (Vector (Option ProgramSetting) 16) 8
  audition : Option Nat
  ports : Vector PortState 8
  linkA : LinkState
  linkB : LinkState
  faultRecord : Option FaultRecord
  panicCount : Nat
  pending : List Instr
deriving DecidableEq, Repr

/-! ### Reset values -/

/-- An input parser after a pin reset (R43, R49, R50, R51). -/
def InputState.reset : InputState :=
  { parse := .ready, running := none, watch := .unwatched, watchDue := none, cueChannel := none, watchOn := true,
    framing := 0, discard := 0, orphan := 0, transposeSkip := 0, layerLimit := 0 }

/-- A footswitch line after a pin reset (R53, R54, R56). DESIGN CHOICE: the contact is taken as OPEN; unsafe (logs 6, 7). -/
def FootState.reset : FootState :=
  { level := .opened, debounced := .opened, debounceDue := none, function := .none, polarity := .make, sustain := none }

/-- A pedal record that is UP (R31). -/
def PedalRecord.up : PedalRecord := { down := false, pairs := [] }

/-- The tempo unit after a pin reset (R79). -/
def TempoState.reset : TempoState :=
  { current := Config.tempoDefault, acc := 0, segment := none, ramp := .none, override := none, staged := none,
    lastTap := none, taps := [] }

/-- The transport after a pin reset (R80). -/
def TransportState.reset : TransportState :=
  { mode := .stopped, bar := 1, beat := 1, step := 0, numerator := 4, denominator := 4, extension := 0,
    holdPending := false, countIn := 0, countInFromSong := false, stepEnd := none }

/-- A click channel after a pin reset (R94). -/
def ClickChannel.reset : ClickChannel :=
  { mode := .off, port := 0, chan := 9, accentNote := 76, beatNote := 77, subNote := 77, accentLevel := 31,
    beatLevel := 24, subLevel := 16, subdivision := .none, gate := 20 }

/-- The default settings of a port (R156). -/
def PortSettings.reset : PortSettings :=
  { runningStatus := true, clockFlag := false, keepAlive := false, settleTime := 0, policy := .pass, interval := 0,
    laneMode := .round, weight := 4 }

/-- A port after a pin reset (R175). -/
def PortState.reset : PortState :=
  { settings := .reset, realtime := [], clickLane := [], noteLane := [], slots := [], lastGrant := none, grantCount := 0,
    settleDue := none, lastStatus := none, keepAliveDue := none, sweepPending := [], wire := none,
    entry := none, settleDrop := 0, noteDiscard := 0, overflow := 0, mergeDrop := 0, clickDrop := 0, realtimeDrop := 0 }

/-- The mask that admits FAULT alone: bit 8, KIND C8h (R185, R197). -/
def faultMask : BitVec 13 := 0x100#13

/-- A link after a pin reset (R179, R181, R184, R185, R190). -/
def LinkState.reset : LinkState :=
  { rx := .hunt, interByteDue := none, buffer := [], replies := [], mask := faultMask, notices := [], tx := none,
    framesTaken := 0, badFrames := 0, overruns := 0 }

/-- The part right after a pin reset, the 50 ms of initialisation just begun (R185). DESIGN CHOICE: the timebase stands at 0,
the straps are both low and the footswitch contacts are open; unsafe (log 6). -/
def State.reset : State :=
  { now := 0
    init := some Config.initialisation
    clkin := .mhz8
    inputs := Vector.replicate 6 .reset
    foots := Vector.replicate 4 .reset
    live := []
    liveId := none
    held := []
    pedals := Vector.replicate 6 (Vector.replicate 16 .up)
    stealCount := 0
    tempo := .reset
    transport := .reset
    click := { channels := Vector.replicate 4 .reset, offs := [] }
    library := Vector.replicate 48 .empty
    setlist := []
    curPos := none
    curScene := none
    cue := none
    departure := none
    changeover := none
    progMem := Vector.replicate 8 (Vector.replicate 16 none)
    audition := none
    ports := Vector.replicate 8 .reset
    linkA := .reset
    linkB := .reset
    faultRecord := none
    panicCount := 0
    pending := [] }

end Sys2Proof.Machine
end

