-- ==== Sys2Proof/Machine/Flags.lean ====
section
/-! DEFINITION. The codes of R200 and the bytes of replies, notices and frames (R196, R198, R199): how each state the part
reports is carried. -/

namespace Sys2Proof.Machine

/-! ### Numbers -/

/-- A one-byte number. -/
def b1 (n : Nat) : Byte := BitVec.ofNat 8 n

/-- A two-byte number, high byte first (R196). -/
def b2 (n : Nat) : List Byte := [b1 (n / 256), b1 n]

/-- A flag (R196). -/
def bFlag (f : Bool) : Byte := if f then 1#8 else 0#8

/-- A one-byte field that is FFh when absent (R196). -/
def bOpt {α : Type} (code : α → Byte) : Option α → Byte
  | none => 0xFF#8
  | some x => code x

/-! ### Codes (R200) -/

/-- The result codes. -/
def Result.code : Result → Byte
  | .badFrame => 0x01#8
  | .busy => 0x02#8
  | .unknownKind => 0x03#8
  | .badField => 0x04#8
  | .wrongState => 0x05#8
  | .inUse => 0x06#8
  | .full => 0x07#8
  | .notFound => 0x08#8
  | .notReady => 0x09#8
  | .endOfList => 0x0A#8
  | .cueHeld => 0x0B#8
  | .tooLate => 0x0C#8
  | .badSong => 0x0D#8

/-- The FULL limits. -/
def Limit.code : Limit → Byte
  | .segments => 1#8
  | .scenes => 2#8
  | .sceneList => 3#8
  | .pool => 4#8
  | .setlist => 5#8
  | .extension => 6#8

/-- The BAD_SONG reasons. -/
def SongFault.code : SongFault → Byte
  | .noSegment => 1#8
  | .noScene => 2#8
  | .rampOverlap => 3#8

/-- The link codes 00h and 01h (R196). -/
def linkCode : Link → Byte
  | .a => 0#8
  | .b => 1#8

/-- The origin and source codes: FS0 to FS3, IN0 to IN5, LINK A and LINK B. -/
def Origin.code : Origin → Byte
  | .foot n => b1 n.val
  | .input i => b1 (0x10 + i.val)
  | .link .a => 0x20#8
  | .link .b => 0x21#8

/-- The origin code of a transport request, where any footswitch is 08h (R98, R200). -/
def Origin.transportCode : Origin → Byte
  | .foot _ => 0x08#8
  | o => o.code

/-- The source codes of a fault. -/
def FaultSource.code : FaultSource → Byte
  | .input i => b1 (0x10 + i.val)
  | .port p => b1 (0x18 + p.val)
  | .link .a => 0x20#8
  | .link .b => 0x21#8

/-- The claimant codes. -/
def Claimant.code : Claimant → Byte
  | .stage => 0#8
  | .linkA => 1#8
  | .linkB => 2#8

/-- The transport state codes. -/
def TransportMode.code : TransportMode → Byte
  | .stopped => 0#8
  | .countIn => 1#8
  | .running => 2#8
  | .held => 3#8

/-- The transport cause codes. -/
def Cause.code : Cause → Byte
  | .start => 0#8
  | .stop => 1#8
  | .hold => 2#8
  | .go => 3#8
  | .extend => 4#8
  | .stopBar => 5#8
  | .songChange => 6#8

/-- The tempo source codes. -/
def TempoSource.code : TempoSource → Byte
  | .map => 0#8
  | .ramp => 1#8
  | .override => 2#8

/-- The cue form codes. -/
def CueForm.code : CueForm → Byte
  | .nextScene => 0#8
  | .prevScene => 1#8
  | .scene _ => 2#8
  | .nextSong => 3#8
  | .prevSong => 4#8
  | .position _ => 5#8

/-- The number of a cue form, 00h for a form that takes none (R196). -/
def CueForm.number : CueForm → Byte
  | .scene n => b1 n
  | .position n => b1 n
  | _ => 0#8

/-- The codes of a timing that is not DEFAULT. -/
def Timing.code : Timing → Byte
  | .now => 1#8
  | .beat => 2#8
  | .bar => 3#8
  | .phrase => 4#8

/-- The kind codes. -/
def Kind.code : Kind → Byte
  | .scene => 0#8
  | .song => 1#8

/-- The cue outcome and detail codes. -/
def CueDetail.code : CueDetail → Byte
  | .taken => 0#8
  | .replaced => 1#8
  | .displaced => 2#8
  | .cancelled => 3#8
  | .triggered => 4#8

/-- The CHANGE detail codes. -/
def ChangeDetail.code : ChangeDetail → Byte
  | .started => 0#8
  | .superseded => 1#8
  | .done => 2#8

/-- The changeover state codes. -/
def RecordState.code : RecordState → Byte
  | .idle => 0#8
  | .sending => 1#8
  | .settling => 2#8

/-- The port entry state codes. -/
def EntryState.code : EntryState → Byte
  | .queued => 0#8
  | .settling => 1#8
  | .done => 2#8

/-- The audition mark codes. -/
def Mark.code : Mark → Byte
  | .none => 0#8
  | .audition => 1#8
  | .ret => 2#8

/-- The slot state codes. -/
def SlotMode.code : SlotMode → Byte
  | .empty => 0#8
  | .building => 1#8
  | .ready => 2#8

/-- The held-entry state codes. -/
def HeldState.code : HeldState → Byte
  | .down => 0#8
  | .sustained => 1#8

/-- The watch state codes. -/
def WatchState.code : WatchState → Byte
  | .unwatched => 0#8
  | .watched => 1#8
  | .lost => 2#8

/-- The fault class codes. -/
def FaultClass.code : FaultClass → Byte
  | .inputLost => 0#8
  | .inputFraming => 1#8
  | .noteLaneOverflow => 2#8
  | .heldTableSteal => 3#8
  | .linkBadFrame => 4#8
  | .linkOverrun => 5#8

/-- The start mode codes. -/
def StartMode.code : StartMode → Byte
  | .follow => 0#8
  | .wait => 1#8

/-- The real-time bytes (R93). -/
def RealTime.byte : RealTime → Byte
  | .clock => 0xF8#8
  | .start => 0xFA#8
  | .continue => 0xFB#8
  | .stop => 0xFC#8

/-! ### Notices (R199) -/

/-- A notice's kind. -/
def Notice.kind : Notice → NoticeKind
  | .beat .. => .beat
  | .bar .. => .bar
  | .transport .. => .transport
  | .tempo .. => .tempo
  | .cue .. => .cue
  | .cueRefused .. => .cueRefused
  | .change .. => .change
  | .input .. => .input
  | .fault .. => .fault
  | .panic .. => .panic
  | .steal .. => .steal
  | .linkNote .. => .linkNote
  | .library .. => .library

/-- A notice kind's member of the mask: bit k for KIND C0h + k (R197). -/
def NoticeKind.bit : NoticeKind → Nat
  | .beat => 0
  | .bar => 1
  | .transport => 2
  | .tempo => 3
  | .cue => 4
  | .cueRefused => 5
  | .change => 6
  | .input => 7
  | .fault => 8
  | .panic => 9
  | .steal => 10
  | .linkNote => 11
  | .library => 12

/-- The state a port entry stands in (R137). -/
def PortEntry.state (e : PortEntry) : EntryState :=
  if 0 < e.outstanding then .queued else if e.settling then .settling else .done

/-- The port entries of a record that stand in one state. -/
def entriesIn (st : EntryState) (ports : List PortEntry) : Nat :=
  (ports.filter (fun e => decide (e.state = st))).length

/-- The staged value of a TEMPO notice: 0000h none, FFFFh CLEAR (R199). -/
def stagedBytes : Option StagedValue → List Byte
  | none => [0#8, 0#8]
  | some .clear => [0xFF#8, 0xFF#8]
  | some (.tempo t) => b2 t

/-- The fields of a notice after its repeat count (R199). -/
def Notice.fields : Notice → List Byte
  | .beat n m t => b2 n ++ [b1 m] ++ b2 t
  | .bar n m t => b2 n ++ [b1 m] ++ b2 t
  | .transport mode n m step countIn holdPending ext cause origin =>
    [mode.code] ++ b2 n ++ [b1 m] ++ b2 step ++
      [b1 countIn, bFlag holdPending, b1 ext, cause.code, bOpt Origin.transportCode origin]
  | .tempo t source override staged => b2 t ++ [source.code, bFlag override] ++ stagedBytes staged
  | .cue detail c canceller displaced name =>
    [detail.code, c.claimant.code, c.source.code, b1 c.position, b1 c.slot.val, b1 c.scene, c.kind.code, c.timing.code,
      bOpt linkCode canceller, bOpt Claimant.code displaced] ++ name
  | .cueRefused reason form source position scene =>
    [reason.code, form.code, form.number, source.code, bOpt b1 position, bOpt b1 scene]
  | .change detail r enqueued dropped name =>
    [detail.code, r.kind.code, r.claimant.code, r.mark.code, bOpt b1 r.source.position,
      bOpt (fun s => b1 s.val) r.source.slot, bOpt b1 r.source.scene, b1 r.position, b1 r.slot.val, b1 r.scene,
      b1 r.ports.length, b1 (entriesIn .queued r.ports), b1 (entriesIn .settling r.ports), b1 (entriesIn .done r.ports),
      b1 enqueued, b1 dropped] ++ name
  | .input i w => [b1 i.val, w.code]
  | .fault cls source first r =>
    [cls.code, source.code, bFlag first, r.cls.code, r.source.code] ++ b2 r.bar ++ [b1 r.beat] ++ b2 r.step ++ [b1 r.later]
  | .panic origin n m step => [origin.code] ++ b2 n ++ [b1 m] ++ b2 step
  | .steal source state scene => [b1 source.input.val, b1 source.chan.val, b1 source.key, state.code, b1 scene]
  | .linkNote sender t => [linkCode sender] ++ t
  | .library slot before after owner name =>
    [b1 slot.val, before.code, after.code, bOpt linkCode owner] ++ name

/-! ### Frames -/

/-- The sum of a frame's bytes from LEN to the last field, modulo 256. -/
def frameSum (len kind tag : Byte) (fields : List Byte) : Byte :=
  fields.foldl (· + ·) (len + kind + tag)

/-- R182 check 1: the sum from LEN to CHECK is 0 modulo 256. -/
def Frame.checkOk (f : Frame) : Bool :=
  decide (frameSum f.len f.kind f.tag f.fields + f.check = 0#8)

/-- The LEN byte of a frame with these fields: KIND, TAG and the fields (R196). -/
def lenByte (fields : List Byte) : Byte := b1 (fields.length + 2)

/-- A frame whose CHECK is right. -/
def mkFrame (kind tag : Byte) (fields : List Byte) : Frame :=
  { len := lenByte fields, kind, tag, fields, check := 0#8 - frameSum (lenByte fields) kind tag fields }

/-- A frame's bytes on the line, SYNC first. -/
def Frame.bytes (f : Frame) : List Byte :=
  [0xA5#8, f.len, f.kind, f.tag] ++ f.fields ++ [f.check]

/-- A reply as a frame: KIND 80h above the request's for OK, else KIND 80h with the request's KIND and the result code
before the data (R196, R198). -/
def Reply.frame (r : Reply) : Frame :=
  match r.result with
  | none => mkFrame (r.request + 0x80#8) r.tag r.data
  | some c => mkFrame 0x80#8 r.tag (r.request :: c.code :: r.data)

/-- A notice entry as a frame: KIND C0h to CCh, TAG 0, the repeat count first (R199). -/
def NoticeEntry.frame (e : NoticeEntry) : Frame :=
  mkFrame (b1 (0xC0 + e.notice.kind.bit)) 0#8 (b1 e.repeats :: e.notice.fields)

end Sys2Proof.Machine
end

