-- ==== Sys2Proof/Machine/Operands.lean ====
section
/-! DEFINITION. Operand forms: how each field of a request is read from its bytes (R196, R197, R200), with the ranges the owners'
rules give. A reader answers `none` exactly where the owner's field check answers BAD_FIELD. The field bytes of every
request command stand here too. -/

namespace Sys2Proof.Machine

/-! ### Building the field bytes of a request command -/

/-- The field bytes of CLICK_SET (R197). -/
def clickBytes (f : ClickFields) : List Byte :=
  [f.channel, f.mode, f.port, f.midiChannel, f.accentNote, f.beatNote, f.subNote, f.accentLevel, f.beatLevel,
    f.subLevel, f.subdivision, f.gate]

/-- The field bytes of SONG_SEGMENT (R197). -/
def segmentBytes (f : SegmentFields) : List Byte :=
  f.startBar.bytes ++ [f.numerator, f.denominator] ++ f.tempo.bytes ++ [f.rampBars] ++ f.rampTarget.bytes

/-- The field bytes of SCENE_ZONE (R197). -/
def zoneBytes (f : ZoneFields) : List Byte :=
  [f.inputs, f.sourceChannel, f.keyLow, f.keyHigh, f.velLow, f.velHigh, f.direction, f.targetPort, f.targetChannel,
    f.transpose, f.curve, f.fixedVelocity, f.scale, f.offset, f.pedalMode, f.forward]

/-- The field bytes of OUTPUT_SET (R197). -/
def outputBytes (f : OutputFields) : List Byte :=
  [f.port, f.runningStatus, f.clockFlag, f.keepAlive, f.settleTime, f.settlePolicy, f.interval, f.laneMode, f.weight]

/-! ### Reading single fields -/

/-- A two-byte number, high byte first (R196). -/
def word (hi lo : Byte) : Nat := hi.toNat * 256 + lo.toNat

/-- A one-byte number within `lo` to `hi`. -/
def numIn (lo hi : Nat) (b : Byte) : Option Nat :=
  if lo ≤ b.toNat ∧ b.toNat ≤ hi then some b.toNat else none

/-- An index below `n`. -/
def below (n : Nat) (b : Byte) : Option (Fin n) :=
  if h : b.toNat < n then some ⟨b.toNat, h⟩ else none

/-- A field that is FFh when absent (R196); the outer `none` is a refusal. -/
def orAbsent {α : Type} (read : Byte → Option α) (b : Byte) : Option (Option α) :=
  if b = 0xFF#8 then some none else (read b).map some

/-- A flag: 00h clear, 01h set (R196). -/
def flag (b : Byte) : Option Bool :=
  if b = 0#8 then some false else if b = 1#8 then some true else none

/-- A signed byte, two's complement, within `lo` to `hi` (R196). -/
def signedIn (lo hi : Int) (b : Byte) : Option Int :=
  if lo ≤ b.toInt ∧ b.toInt ≤ hi then some b.toInt else none

/-- A tempo in the accepted range (R60). -/
def tempoIn (t : Nat) : Option Nat :=
  if Config.tempoMin ≤ t ∧ t ≤ Config.tempoMax then some t else none

/-- A character of a text, 20h to 7Eh (R102, R188). -/
def isText (b : Byte) : Bool := 0x20 ≤ b.toNat && b.toNat ≤ 0x7E

/-- A text of `lo` to `hi` characters. -/
def text (lo hi : Nat) (t : List Byte) : Option (List Byte) :=
  if lo ≤ t.length ∧ t.length ≤ hi ∧ t.all isText then some t else none

/-! ### Enumerated fields (R200) -/

/-- A timing that is not DEFAULT: 01h to 04h. -/
def timing (b : Byte) : Option Timing :=
  match b.toNat with
  | 1 => some .now
  | 2 => some .beat
  | 3 => some .bar
  | 4 => some .phrase
  | _ => none

/-- The timing of a CUE: 00h is DEFAULT, read as an absent timing. -/
def cueTiming (b : Byte) : Option (Option Timing) :=
  if b = 0#8 then some none else (timing b).map some

/-- The form of a CUE with its number. Forms that take none carry 00h (R196); SCENE takes 0 to 11, POSITION 0 to 63 (R122). -/
def cueForm (form number : Byte) : Option CueForm :=
  match form.toNat with
  | 0 => if number = 0#8 then some .nextScene else none
  | 1 => if number = 0#8 then some .prevScene else none
  | 2 => (numIn 0 11 number).map .scene
  | 3 => if number = 0#8 then some .nextSong else none
  | 4 => if number = 0#8 then some .prevSong else none
  | 5 => (numIn 0 63 number).map .position
  | _ => none

/-- FOLLOW 00h or WAIT 01h. -/
def startMode (b : Byte) : Option StartMode :=
  match b.toNat with
  | 0 => some .follow
  | 1 => some .wait
  | _ => none

/-- A phrase length is the number itself: 1, 2, 4 or 8. -/
def phraseLength (b : Byte) : Option Nat :=
  if b.toNat = 1 ∨ b.toNat = 2 ∨ b.toNat = 4 ∨ b.toNat = 8 then some b.toNat else none

/-- A meter denominator is the number itself: 4 or 8. -/
def denominator (b : Byte) : Option Nat :=
  if b.toNat = 4 ∨ b.toNat = 8 then some b.toNat else none

/-- NORMAL 00h or REVERSE 01h. -/
def direction (b : Byte) : Option Direction :=
  match b.toNat with
  | 0 => some .normal
  | 1 => some .reverse
  | _ => none

/-- A curve with its fixed velocity, which is present, 1 to 127, exactly with FIXED (R2, R110). -/
def curve (code fixed : Byte) : Option Curve :=
  match code.toNat with
  | 0 => if fixed = 0xFF#8 then some .linear else none
  | 1 => if fixed = 0xFF#8 then some .soft else none
  | 2 => if fixed = 0xFF#8 then some .hard else none
  | 3 => (numIn 1 127 fixed).map .fixed
  | _ => none

/-- CHIP 00h or MODULE 01h. -/
def pedalMode (b : Byte) : Option PedalMode :=
  match b.toNat with
  | 0 => some .chip
  | 1 => some .module
  | _ => none

/-- Forward flags: a set with members 0 to 3 (R200). -/
def forward (b : Byte) : Option Forward :=
  if b.toNat < 16 then
    some { controllers := b.getLsbD 0, bend := b.getLsbD 1, pressure := b.getLsbD 2, poly := b.getLsbD 3 }
  else none

/-- A source input set: members 0 to 5, at least one (R2, R110). -/
def inputSet (b : Byte) : Option (BitVec 6) :=
  if b.toNat < 64 ∧ b ≠ 0#8 then some (b.setWidth 6) else none

/-- OFF, ALWAYS, COUNT_IN_ONLY or RUNNING_ONLY. -/
def clickMode (b : Byte) : Option ClickMode :=
  match b.toNat with
  | 0 => some .off
  | 1 => some .always
  | 2 => some .countInOnly
  | 3 => some .runningOnly
  | _ => none

/-- NONE, 8TH, 16TH or TRIPLET. -/
def subdivision (b : Byte) : Option Subdivision :=
  match b.toNat with
  | 0 => some .none
  | 1 => some .eighth
  | 2 => some .sixteenth
  | 3 => some .triplet
  | _ => none

/-- HOLD, DROP or PASS. -/
def settlePolicy (b : Byte) : Option SettlePolicy :=
  match b.toNat with
  | 0 => some .hold
  | 1 => some .drop
  | 2 => some .pass
  | _ => none

/-- A controller interval in ms: 0, 2, 5, 10 or 20. -/
def controllerInterval (b : Byte) : Option Nat :=
  if b.toNat = 0 ∨ b.toNat = 2 ∨ b.toNat = 5 ∨ b.toNat = 10 ∨ b.toNat = 20 then some b.toNat else none

/-- ROUND or NOTE_FIRST. -/
def laneMode (b : Byte) : Option LaneMode :=
  match b.toNat with
  | 0 => some .round
  | 1 => some .noteFirst
  | _ => none

/-- A footswitch function. -/
def footFunction (b : Byte) : Option FootFunction :=
  match b.toNat with
  | 0 => some .none
  | 1 => some .nextScene
  | 2 => some .prevScene
  | 3 => some .nextSong
  | 4 => some .tap
  | 5 => some .startStop
  | 6 => some .holdGo
  | 7 => some .panic
  | 8 => some .sustain
  | _ => none

/-- MAKE or BREAK. -/
def polarity (b : Byte) : Option Polarity :=
  match b.toNat with
  | 0 => some .make
  | 1 => some .break
  | _ => none

/-! ### Whole records -/

/-- A click channel's number and settings from the fields of CLICK_SET (R94, R197). -/
def clickSettings : List Byte → Option (ClickNo × ClickChannel)
  | [n, mode, port, chan, an, bn, sn, al, bl, sl, sub, gate] => do
    let n ← below 4 n
    let mode ← clickMode mode
    let port ← below 8 port
    let chan ← below 16 chan
    let accentNote ← numIn 0 127 an
    let beatNote ← numIn 0 127 bn
    let subNote ← numIn 0 127 sn
    let accentLevel ← numIn 0 31 al
    let beatLevel ← numIn 0 31 bl
    let subLevel ← numIn 0 31 sl
    let subdivision ← subdivision sub
    let gate ← numIn 5 250 gate
    some (n, { mode, port, chan, accentNote, beatNote, subNote, accentLevel, beatLevel, subLevel, subdivision, gate })
  | _ => none

/-- A port's number and settings from the fields of OUTPUT_SET (R156, R157, R197). -/
def portSettings : List Byte → Option (Port × PortSettings)
  | [p, rs, clk, ka, st, pol, iv, lm, w] => do
    let p ← below 8 p
    let runningStatus ← flag rs
    let clockFlag ← flag clk
    let keepAlive ← flag ka
    let settleTime ← numIn 0 200 st
    let policy ← settlePolicy pol
    let interval ← controllerInterval iv
    let laneMode ← laneMode lm
    let weight ← numIn 1 16 w
    some (p, { runningStatus, clockFlag, keepAlive, settleTime, policy, interval, laneMode, weight })
  | _ => none

/-- A zone from the fields of SCENE_ZONE, with every range and relation of R2 (R110). -/
def zoneRecord : List Byte → Option Zone
  | [ins, sc, kl, kh, vl, vh, dir, tp, tc, tr, cv, fv, sca, off, pm, fw] => do
    let inputs ← inputSet ins
    let sourceChannel ← orAbsent (below 16) sc
    let keyLow ← numIn 0 127 kl
    let keyHigh ← numIn 0 127 kh
    let velLow ← numIn 1 127 vl
    let velHigh ← numIn 1 127 vh
    let direction ← direction dir
    let port ← below 8 tp
    let chan ← below 16 tc
    let transpose ← signedIn (-48) 48 tr
    let curve ← curve cv fv
    let scale ← numIn 25 200 sca
    let offset ← signedIn (-64) 64 off
    let pedal ← pedalMode pm
    let forward ← forward fw
    if keyLow ≤ keyHigh ∧ velLow ≤ velHigh then
      some { inputs, sourceChannel, keyLow, keyHigh, velLow, velHigh, direction, port, chan, transpose, curve, scale,
             offset, pedal, forward }
    else none
  | _ => none

/-- A program assignment from the fields of SCENE_PROGRAM (R103, R197). -/
def assignmentRecord : List Byte → Option Assignment
  | [p, c, m, l, n] => do
    let port ← below 8 p
    let chan ← below 16 c
    let msb ← orAbsent (numIn 0 127) m
    let lsb ← orAbsent (numIn 0 127) l
    let program ← numIn 0 127 n
    some { port, chan, msb, lsb, program }
  | _ => none

/-- A ramp target: 0000h is absent; it is present exactly when the ramp bars are above 0 (R63, R108, R196). The outer `none`
is a refusal. -/
def rampTargetOf (rampBars target : Nat) : Option (Option Nat) :=
  if rampBars = 0 then (if target = 0 then some none else none) else (tempoIn target).map some

/-- A tempo segment from the fields of SONG_SEGMENT, with the ranges of R63 (R108, R197). -/
def segmentRecord : List Byte → Option Segment
  | [b1, b0, n, d, t1, t0, r, g1, g0] => do
    let numerator ← numIn 1 15 n
    let denominator ← denominator d
    let tempo ← tempoIn (word t1 t0)
    let rampBars ← numIn 0 64 r
    let rampTarget ← rampTargetOf rampBars (word g1 g0)
    if 1 ≤ word b1 b0 ∧ word b1 b0 ≤ Config.barMax then
      some { startBar := word b1 b0, numerator, denominator, tempo, rampBars, rampTarget }
    else none
  | _ => none

/-- A stop bar: 0000h is absent, else 1 to 9998 (R102, R196). The outer `none` is a refusal. -/
def stopBarOf (n : Nat) : Option (Option Nat) :=
  if n = 0 then some none else if n ≤ 9998 then some (some n) else none

/-- A slot number and a song that holds the header of SONG_OPEN and nothing else (R102, R107, R197). -/
def songHeader : List Byte → Option (SlotNo × Song)
  | slot :: c :: m :: ph :: s1 :: s0 :: name => do
    let slot ← below 48 slot
    let countIn ← numIn 0 4 c
    let startMode ← startMode m
    let phrase ← phraseLength ph
    let stopBar ← stopBarOf (word s1 s0)
    let name ← text 1 16 name
    some (slot, { name, countIn, startMode, phrase, stopBar, segments := [], scenes := [] })
  | _ => none

/-- A scene that holds the name and default timing of SCENE_BEGIN and nothing else (R103, R109, R197). -/
def sceneHeader : List Byte → Option Scene
  | t :: name => do
    let timing ← timing t
    let name ← text 0 12 name
    some { name, timing, zones := [], assignments := [] }
  | _ => none

/-- The input and its two settings from the fields of INPUT_SET (R50, R197). -/
def inputSettings : List Byte → Option (Input × Option Chan × Bool)
  | [i, c, w] => do
    let i ← below 6 i
    let c ← orAbsent (below 16) c
    let w ← flag w
    some (i, c, w)
  | _ => none

/-- The line and its settings from the fields of FOOTSWITCH_SET. Both sustain bytes are FFh unless the function is
SUSTAIN, which needs both (R56, R197). -/
def footSettings : List Byte → Option (FootLine × FootFunction × Polarity × Option (Input × Chan))
  | [n, f, p, si, sc] => do
    let n ← below 4 n
    let f ← footFunction f
    let p ← polarity p
    if f = .sustain then
      let i ← below 6 si
      let c ← below 16 sc
      some (n, f, p, some (i, c))
    else if si = 0xFF#8 ∧ sc = 0xFF#8 then some (n, f, p, none)
    else none
  | _ => none

/-- A notice mask: a set word with members 0 to 12 (R187, R197). -/
def maskOf (hi lo : Byte) : Option (BitVec 13) :=
  if word hi lo < 8192 then some (BitVec.ofNat 13 (word hi lo)) else none

end Sys2Proof.Machine
end

