-- ==== Sys2Proof/Machine/Ops.lean ====
section
/-! DEFINITION. Named operations every unit shares: reading and writing the arrays of units, counters, instants, the notice unit
(R186, R191), and the views of the setlist and the song library that other units read (R63, R100, R101, R104, R105). -/

namespace Sys2Proof.Machine

/-! ### Units by index -/

/-- One input parser. -/
def State.input (s : State) (i : Input) : InputState := s.inputs[i]

/-- Replace one input parser. -/
def State.setInput (s : State) (i : Input) (x : InputState) : State := { s with inputs := s.inputs.set i x }

/-- One footswitch line. -/
def State.foot (s : State) (n : FootLine) : FootState := s.foots[n]

/-- Replace one footswitch line. -/
def State.setFoot (s : State) (n : FootLine) (x : FootState) : State := { s with foots := s.foots.set n x }

/-- One pedal record (R31). -/
def State.pedal (s : State) (i : Input) (c : Chan) : PedalRecord := s.pedals[i][c]

/-- Replace one pedal record. -/
def State.setPedal (s : State) (i : Input) (c : Chan) (x : PedalRecord) : State :=
  { s with pedals := s.pedals.set i (s.pedals[i].set c x) }

/-- One output port. -/
def State.port (s : State) (p : Port) : PortState := s.ports[p]

/-- Replace one output port. -/
def State.setPort (s : State) (p : Port) (x : PortState) : State := { s with ports := s.ports.set p x }

/-- One song slot (R100). -/
def State.slot (s : State) (n : SlotNo) : Slot := s.library[n]

/-- Replace one song slot. -/
def State.setSlot (s : State) (n : SlotNo) (x : Slot) : State := { s with library := s.library.set n x }

/-- Program memory for one (port, channel); `none` is UNKNOWN (R138). -/
def State.program (s : State) (p : Port) (c : Chan) : Option ProgramSetting := s.progMem[p][c]

/-- Replace one value of program memory. -/
def State.setProgram (s : State) (p : Port) (c : Chan) (x : Option ProgramSetting) : State :=
  { s with progMem := s.progMem.set p (s.progMem[p].set c x) }

/-- One click channel (R94). -/
def State.clickChannel (s : State) (n : ClickNo) : ClickChannel := s.click.channels[n]

/-- Replace one click channel's settings. -/
def State.setClickChannel (s : State) (n : ClickNo) (x : ClickChannel) : State :=
  { s with click := { s.click with channels := s.click.channels.set n x } }

/-- Replace the pending click note-offs. -/
def State.setOffs (s : State) (x : List ClickOff) : State := { s with click := { s.click with offs := x } }

/-- One link interface. -/
def State.link (s : State) : Link → LinkState
  | .a => s.linkA
  | .b => s.linkB

/-- Replace one link interface. -/
def State.setLink (s : State) (l : Link) (x : LinkState) : State :=
  match l with
  | .a => { s with linkA := x }
  | .b => { s with linkB := x }

/-! ### Counters and instants -/

/-- Raise a counter by one; it holds at 65535 (00_scope.md, Conventions). -/
def bump (n : Nat) : Nat := min (n + 1) Config.counterMax

/-- Raise a repeat count or a count of later faults by one; it holds at 255 (R186, R191). -/
def bumpSmall (n : Nat) : Nat := min (n + 1) Config.smallCountMax

/-- An expiry or an end is taken: the timebase stands at least at the instant it is due. DESIGN CHOICE (log 2): the command
that says a time has run out brings the timebase up to that time; safe, since it allows every order of events. -/
def State.reach (s : State) (due : Nat) : State := { s with now := max s.now due }

/-! ### Notices and faults -/

/-- R186: offer a notice to one link's queue. -/
def LinkState.offer (k : LinkState) (n : Notice) : LinkState :=
  if k.mask.getLsbD n.kind.bit then
    if k.notices.any (fun e => decide (e.notice.kind = n.kind)) then
      { k with notices := k.notices.map (fun e =>
          if e.notice.kind = n.kind then { notice := n, repeats := bumpSmall e.repeats } else e) }
    else { k with notices := k.notices ++ [{ notice := n, repeats := 0 }] }
  else k

/-- Raise a notice on one link; none is raised during initialisation (R185). -/
def raiseOn (l : Link) (n : Notice) (s : State) : State :=
  if s.init.isSome then s else s.setLink l ((s.link l).offer n)

/-- Raise a notice on each admitting link (R186). -/
def raise (n : Notice) (s : State) : State := raiseOn .b n (raiseOn .a n s)

/-- The record after a fault: the first stays, a later one is counted (R191). -/
def faultAfter (s : State) (cls : FaultClass) (source : FaultSource) : FaultRecord :=
  match s.faultRecord with
  | none => { cls, source, bar := s.transport.bar, beat := s.transport.beat, step := s.transport.step, later := 0 }
  | some r => { r with later := bumpSmall r.later }

/-- R191: a fault is taken. -/
def takeFault (cls : FaultClass) (source : FaultSource) (s : State) : State :=
  raise (.fault cls source s.faultRecord.isNone (faultAfter s cls source))
    { s with faultRecord := some (faultAfter s cls source) }

/-! ### What other units read of the setlist and the library -/

/-- The song of a READY slot (R100). -/
def Slot.song? : Slot → Option Song
  | .ready g => some g
  | _ => none

/-- The state of a slot without its contents. -/
def Slot.mode : Slot → SlotMode
  | .empty => .empty
  | .building .. => .building
  | .ready _ => .ready

/-- The slot named by the current position (R117). -/
def State.currentSlot (s : State) : Option SlotNo := s.curPos.bind (fun p => s.setlist[p]?)

/-- The current song's record. -/
def State.currentSong (s : State) : Option Song := s.currentSlot.bind (fun n => (s.slot n).song?)

/-- The current selection (R131). -/
def State.selection (s : State) : Selection :=
  { position := s.curPos, slot := s.currentSlot, scene := s.curScene }

/-- A scene of a READY song. -/
def State.sceneAt (s : State) (n : SlotNo) (scene : Nat) : Option Scene :=
  (s.slot n).song?.bind (fun g => g.scenes[scene]?)

/-- The name of a scene of a READY song, for the notices (R133, R153). -/
def State.sceneName (s : State) (n : SlotNo) (scene : Nat) : List Byte :=
  match s.sceneAt n scene with
  | some sc => sc.name
  | none => []

/-- The number of scenes of a READY song (R125). -/
def State.sceneCount (s : State) (n : SlotNo) : Nat :=
  match (s.slot n).song? with
  | some g => g.scenes.length
  | none => 0

/-- The default segment (R63). -/
def defaultSegment : Segment :=
  { startBar := 1, numerator := 4, denominator := 4, tempo := Config.tempoDefault, rampBars := 0, rampTarget := none }

/-- R63: the tempo map in use, that of the current song, or the default map. -/
def State.mapInUse (s : State) : List Segment :=
  match s.currentSong with
  | some g => if g.segments.isEmpty then [defaultSegment] else g.segments
  | none => [defaultSegment]

/-- The first segment of the map in use. -/
def State.firstSegment (s : State) : Segment := s.mapInUse.headD defaultSegment

/-- R101: a song is IN USE while it is current, cued, or the source or target of the active changeover. -/
def State.inUse (s : State) (n : SlotNo) : Bool :=
  decide (s.currentSlot = some n) ||
  (match s.cue with | some c => decide (c.slot = n) | none => false) ||
  (match s.changeover with | some r => decide (r.slot = n) || decide (r.source.slot = some n) | none => false)

/-- The zone items a slot holds (R104). -/
def Slot.zoneItems : Slot → Nat
  | .empty => 0
  | .building _ g _ => (g.scenes.map (fun sc => sc.zones.length)).sum
  | .ready g => (g.scenes.map (fun sc => sc.zones.length)).sum

/-- The program items a slot holds (R104). -/
def Slot.programItems : Slot → Nat
  | .empty => 0
  | .building _ g _ => (g.scenes.map (fun sc => sc.assignments.length)).sum
  | .ready g => (g.scenes.map (fun sc => sc.assignments.length)).sum

/-- The zone items all slots hold. -/
def State.zoneHeld (s : State) : Nat := (s.library.toList.map Slot.zoneItems).sum

/-- The program items all slots hold. -/
def State.programHeld (s : State) : Nat := (s.library.toList.map Slot.programItems).sum

/-- The free count of the zone pool (R104). -/
def State.zoneFree (s : State) : Nat := Config.zonePool - s.zoneHeld

/-- The free count of the program pool (R104). -/
def State.programFree (s : State) : Nat := Config.programPool - s.programHeld

/-- Every slot number in order. -/
def allSlots : List SlotNo := List.finRange 48

/-- Whether a slot is OPEN for a link. -/
def Slot.ownedBy (l : Link) : Slot → Bool
  | .building o _ _ => decide (o = l)
  | _ => false

/-- The slot a link owns OPEN (R105). -/
def State.ownedSlot (s : State) (l : Link) : Option SlotNo := allSlots.find? (fun n => (s.slot n).ownedBy l)

/-! ### Claimants -/

/-- The claimant a link is (R122). -/
def claimantOf : Link → Claimant
  | .a => .linkA
  | .b => .linkB

/-- R127: STAGE above LINK_A above LINK_B. -/
def Claimant.rank : Claimant → Nat
  | .stage => 2
  | .linkA => 1
  | .linkB => 0

/-! ### Answers -/

/-- What the owner of a request answers (R183): OK with its data, or a refusal with its result code and data. -/
inductive Answer where
  | ok (data : List Byte)
  | refuse (r : Result) (data : List Byte)
deriving DecidableEq, Repr

/-- FULL with the limit reached (R200). -/
def Answer.full (l : Limit) : Answer := .refuse .full [l.code]

/-! ### Lists -/

/-- Apply `f` to the last element that satisfies `q`: the newest one, in a list kept oldest first. -/
def modifyLast {α : Type} (q : α → Bool) (f : α → α) : List α → List α
  | [] => []
  | x :: xs => if xs.any q then x :: modifyLast q f xs else if q x then f x :: xs else x :: xs

/-- Add an element to a list that holds none twice. -/
def addNew {α : Type} [DecidableEq α] (xs : List α) (x : α) : List α := if x ∈ xs then xs else xs ++ [x]

end Sys2Proof.Machine
end

