-- ==== Sys2Proof/Machine/Held.lean ====
section
/-! DEFINITION. What the note table reads and writes of its own entries (R22 to R24): holders, sounding, the target map as a
view, and the sent flags a withdrawal or a hand-on moves. -/

namespace Sys2Proof.Machine

/-- An entry lists a triple as a target. -/
def HeldEntry.lists (e : HeldEntry) (t : Triple) : Bool := e.targets.any (fun x => decide (x.triple = t))

/-- An entry holds a triple with its sent flag set. -/
def HeldEntry.sounds (e : HeldEntry) (t : Triple) : Bool := e.targets.any (fun x => decide (x.triple = t) && x.sent)

/-- Set or clear the sent flag of one target of an entry. -/
def HeldEntry.setSent (e : HeldEntry) (t : Triple) (flag : Bool) : HeldEntry :=
  { e with targets := e.targets.map (fun x => if x.triple = t then { x with sent := flag } else x) }

/-- Remove one target from an entry's list. -/
def HeldEntry.drop (e : HeldEntry) (t : Triple) : HeldEntry :=
  { e with targets := e.targets.filter (fun x => decide (x.triple ≠ t)) }

/-- R22: the holder count of a triple. -/
def holderCount (held : List HeldEntry) (t : Triple) : Nat := (held.filter (fun e => e.lists t)).length

/-- R22: a triple is sounding. -/
def soundingIn (held : List HeldEntry) (t : Triple) : Bool := held.any (fun e => e.sounds t)

/-- R22: the target map, as the view of the held-note table that the rule makes it. -/
def targetMap (held : List HeldEntry) : List (Triple × Nat) :=
  ((held.flatMap (fun e => e.targets.map (fun x => x.triple))).foldl addNew []).map (fun t => (t, holderCount held t))

/-- The entry with a source (R20: there is at most one). -/
def State.entryOf (s : State) (src : Source) : Option HeldEntry := s.held.find? (fun e => decide (e.source = src))

/-- R23 withdrawal: clear the flag of the newest entry that lists the triple with its flag set. -/
def withdraw (t : Triple) (s : State) : State :=
  { s with held := modifyLast (fun e => e.sounds t) (fun e => e.setSent t false) s.held }

/-- R23 hand-on: set the flag of the newest holder of the triple. -/
def handOn (t : Triple) (s : State) : State :=
  { s with held := modifyLast (fun e => e.lists t) (fun e => e.setSent t true) s.held }

end Sys2Proof.Machine
end

