-- ==== Sys2Proof/Machine/Record.lean ====
section
/-! DEFINITION. The changeover record's port list and the reports that move it (R136, R137, R143 to R145). -/

namespace Sys2Proof.Machine

/-- R136: the state of the changeover record, which follows from its port list. -/
def State.recordState (s : State) : RecordState :=
  match s.changeover with
  | none => .idle
  | some r => if r.ports.any (fun e => decide (e.state = .queued)) then .sending else .settling

/-- Change the port entry of one port. -/
def Changeover.mapEntry (r : Changeover) (p : Port) (f : PortEntry → PortEntry) : Changeover :=
  { r with ports := r.ports.map (fun e => if e.port = p then f e else e) }

/-- Every entry of the port list is DONE (R145); it may be empty. -/
def Changeover.allDone (r : Changeover) : Bool := r.ports.all (fun e => decide (e.state = .done))

/-- The name of a record's target scene, for its notices (R153). -/
def targetName (s : State) (r : Changeover) : List Byte := s.sceneName r.slot r.scene

/-- R145: complete the record when every entry is DONE: CHANGE DONE is raised and the record returns to IDLE. -/
def completeIfDone (s : State) : State :=
  match s.changeover with
  | none => s
  | some r =>
    if r.allDone then { (raise (.change .done r 0 0 (targetName s r)) s) with changeover := none } else s

/-- Lower the outstanding count of a port's entry (R142 step 1). -/
def lowerOutstanding (p : Port) (s : State) : State :=
  match s.changeover with
  | none => s
  | some r =>
    { s with changeover := some (r.mapEntry p (fun e => { e with outstanding := e.outstanding - 1 })) }

/-- R143: a PROGRAM entry of the record has been transmitted on a port; `started` says whether that started the settle
timer. A port with no entry in the list changes nothing. -/
def reportTransmitted (p : Port) (started : Bool) (s : State) : State :=
  match s.changeover with
  | none => s
  | some r =>
    if r.ports.any (fun e => decide (e.port = p)) then
      completeIfDone { s with
        changeover := some (r.mapEntry p (fun e => { e with outstanding := e.outstanding - 1, settling := started })) }
    else s

/-- R144: a port's settle timer has ended. Only a SETTLING entry changes its state. -/
def reportSettleEnd (p : Port) (s : State) : State :=
  match s.changeover with
  | none => s
  | some r =>
    if r.ports.any (fun e => decide (e.port = p)) then
      completeIfDone { s with changeover := some (r.mapEntry p (fun e => { e with settling := false })) }
    else s

end Sys2Proof.Machine
end

