-- ==== Sys2Proof/Machine/Scheduler.lean ====
section
/-! DEFINITION. The output schedulers (chapter 9): the lanes at enqueue, merge slots, the arbiter's choice, running status, settle,
keep-alive and what a port reports to the other units. -/

namespace Sys2Proof.Machine

/-! ### Messages -/

/-- A channel status byte: kind nibble and channel (R42). -/
def statusByte (kind : Nat) (c : Chan) : Byte := b1 (kind * 16 + c.val)

/-- R162: the channel messages of a NOTE lane entry. -/
def NoteEntry.messages : NoteEntry → List Message
  | .noteOn c k v => [{ status := statusByte 9 c, data := [b1 k, b1 v] }]
  | .noteOff c k v => [{ status := statusByte 8 c, data := [b1 k, b1 v] }]
  | .polyPressure c k v => [{ status := statusByte 10 c, data := [b1 k, b1 v] }]
  | .pedal c down => [{ status := statusByte 11 c, data := [0x40#8, if down then 0x7F#8 else 0x00#8] }]
  | .program c msb lsb n =>
    (match msb with | some m => [{ status := statusByte 11 c, data := [0x00#8, b1 m] }] | none => []) ++
    (match lsb with | some l => [{ status := statusByte 11 c, data := [0x20#8, b1 l] }] | none => []) ++
    [{ status := statusByte 12 c, data := [b1 n] }]
  | .sweep c =>
    [{ status := statusByte 11 c, data := [0x40#8, 0x00#8] }, { status := statusByte 11 c, data := [0x7B#8, 0x00#8] }]

/-- R161: the channel message of a CLICK lane entry. -/
def ClickEntry.message (e : ClickEntry) : Message :=
  { status := statusByte (if e.on then 9 else 8) e.chan, data := [b1 e.note, b1 e.velocity] }

/-- R167: the message of a merge slot. -/
def mergeMessage (k : MergeKey) (value : Nat) : Message :=
  match k.kind with
  | .controller n => { status := statusByte 11 k.chan, data := [b1 n, b1 value] }
  | .bend => { status := statusByte 14 k.chan, data := [b1 (value % 128), b1 (value / 128)] }
  | .pressure => { status := statusByte 13 k.chan, data := [b1 value] }

/-! ### Tests on a port -/

/-- A NOTE lane entry is a PROGRAM entry. -/
def NoteEntry.isProgram : NoteEntry → Bool
  | .program .. => true
  | _ => false

/-- A NOTE lane entry is a NOTE_ON. -/
def NoteEntry.isNoteOn : NoteEntry → Bool
  | .noteOn .. => true
  | _ => false

/-- The channel an entry carries. -/
def NoteEntry.chan : NoteEntry → Chan
  | .noteOn c _ _ => c
  | .noteOff c _ _ => c
  | .polyPressure c _ _ => c
  | .pedal c _ => c
  | .program c _ _ _ => c
  | .sweep c => c

/-- The entry in transmission is a PROGRAM entry. -/
def InProgress.isProgram (e : InProgress) : Bool :=
  match e.entry with
  | .note n => n.isProgram
  | _ => false

/-- R170: a port is changing. -/
def PortState.changing (q : PortState) : Bool :=
  q.noteLane.any NoteEntry.isProgram || q.entry.any InProgress.isProgram || q.settleDue.isSome

/-- R167: a slot's interval has elapsed. -/
def MergeSlot.elapsed (m : MergeSlot) (interval now : Nat) : Bool :=
  match m.sent with
  | none => true
  | some t => decide (t + interval * 1000 ≤ now)

/-- The dirtied time of a DIRTY slot. -/
def MergeSlot.dirtied? (m : MergeSlot) : Option Nat :=
  match m.state with
  | .dirty t => some t
  | _ => none

/-- The first element with the least measure. -/
def earliest {α : Type} (f : α → Nat) : List α → Option α
  | [] => none
  | x :: xs =>
    match earliest f xs with
    | none => some x
    | some y => if f x ≤ f y then some x else some y

/-- R167: the DIRTY slot a CONTROL grant would send: eligible, and dirtied first. -/
def PortState.nextSlot (q : PortState) (now : Nat) : Option MergeSlot :=
  earliest (fun m => m.dirtied?.getD 0)
    (q.slots.filter (fun m => m.dirtied?.isSome && m.elapsed q.settings.interval now))

/-- R163: the NOTE lane is eligible: it holds an entry and is not held by settle. -/
def PortState.noteEligible (q : PortState) : Bool :=
  !q.noteLane.isEmpty && !(decide (q.settings.policy = .hold) && q.settleDue.isSome)

/-! ### The lanes at enqueue -/

/-- R173: the NOTE lane has lost an entry: the SWEEP of the oldest pending channel takes a place at its end, unless the lane is full
still, an entry offered before having taken the place (R178). -/
def PortState.lose (q : PortState) : PortState :=
  if Config.noteLaneMax ≤ q.noteLane.length then q
  else
    match q.sweepPending with
    | [] => q
    | c :: cs => { q with noteLane := q.noteLane ++ [.sweep c], sweepPending := cs }

/-- R160: a byte is offered to a REALTIME lane. -/
def PortState.offerRealtime (q : PortState) (b : RealTime) : PortState :=
  if q.realtime.length < Config.realtimeMax then { q with realtime := q.realtime ++ [b] }
  else { q with realtimeDrop := bump q.realtimeDrop }

/-- R159: insert by due time; entries of equal due time stay in arrival order. -/
def insertByDue (e : ClickEntry) : List ClickEntry → List ClickEntry
  | [] => [e]
  | x :: xs => if x.due ≤ e.due then x :: insertByDue e xs else e :: x :: xs

/-- The CLICK lane has room (R159). -/
def PortState.clickRoom (q : PortState) : Bool := decide (q.clickLane.length < Config.clickLaneMax)

/-- Enqueue into a CLICK lane that has room. -/
def PortState.enqueueClick (q : PortState) (e : ClickEntry) : PortState :=
  { q with clickLane := insertByDue e q.clickLane }

/-- R166: the CLEAN slot a new key takes over when no slot is FREE. -/
def PortState.reusable (q : PortState) (now : Nat) : Option MergeSlot :=
  earliest (fun m => m.sent.getD 0)
    (q.slots.filter (fun m => decide (m.state = .clean) && m.elapsed q.settings.interval now))

/-- R166, R167: a value comes for a slot that holds its key. -/
def MergeSlot.overwrite (m : MergeSlot) (value now : Nat) : MergeSlot :=
  match m.state with
  | .dirty _ => { m with value := value }
  | .clean => { m with value := value, state := .dirty now }
  | .sending none => { m with value := value, state := .sending (some now) }
  | .sending (some _) => { m with value := value }

/-- A slot already waits to be sent, so that its place among the waiting slots stands. -/
def MergeSlot.waits (m : MergeSlot) : Bool :=
  match m.state with
  | .dirty _ => true
  | .sending (some _) => true
  | _ => false

/-- R166: place a controller value among the merge slots. A slot that becomes DIRTY goes to the end of the list, so that
slots dirtied at one instant stand in the order in which they were dirtied (R167). -/
def PortState.place (q : PortState) (now : Nat) (key : MergeKey) (value : Nat) : PortState :=
  match q.slots.find? (fun m => decide (m.key = key)) with
  | some m =>
    if m.waits then
      { q with slots := q.slots.map (fun x => if x.key = key then x.overwrite value now else x) }
    else { q with slots := q.slots.filter (fun x => decide (x.key ≠ key)) ++ [m.overwrite value now] }
  | none =>
    if q.slots.length < Config.slotMax then
      { q with slots := q.slots ++ [{ key, value, state := .dirty now, sent := none }] }
    else
      match q.reusable now with
      | some m =>
        { q with slots := q.slots.filter (fun x => decide (x.key ≠ m.key)) ++
            [{ key, value, state := .dirty now, sent := none }] }
      | none => { q with mergeDrop := bump q.mergeDrop }

/-! ### The arbiter -/

/-- The bytes of a channel message under running status (R165). -/
def PortState.messageBytes (q : PortState) (m : Message) : List Byte :=
  if q.settings.runningStatus && decide (q.lastStatus = some m.status) then m.data else m.status :: m.data

/-- Begin a channel message of an entry; the rest of its messages wait (R158). Beginning an item stops the keep-alive
timer (R168). -/
def PortState.beginMessage (q : PortState) (now : Nat) (m : Message) (e : InProgress) : PortState :=
  { q with
    wire := some { bytes := q.messageBytes m, status := some m.status,
                   ends := now + (q.messageBytes m).length * Config.midiByte }
    entry := some e
    keepAliveDue := none }

/-- Begin a single byte: a real-time byte or the keep-alive byte (R158, R160, R168). -/
def PortState.beginByte (q : PortState) (now : Nat) (b : Byte) : PortState :=
  { q with wire := some { bytes := [b], status := none, ends := now + Config.midiByte }, keepAliveDue := none }

/-- Grant the oldest NOTE lane entry (R163, R164): it leaves the lane, which has lost an entry (R173). A PROGRAM entry in
the lane belongs to the active changeover record, since the lane is emptied with it (R137, R175). -/
def PortState.grantNote (q : PortState) (now : Nat) : PortState :=
  match q.noteLane with
  | [] => q
  | n :: ns =>
    match n.messages with
    | [] => q
    | m :: ms =>
      ({ q with noteLane := ns, lastGrant := some .note, grantCount := min (q.grantCount + 1) 16 } : PortState).lose.beginMessage
        now m { entry := .note n, left := ms, ofRecord := n.isProgram, emptyStatus := false }

/-- Grant the oldest-dirtied eligible merge slot (R163, R167). -/
def PortState.grantControl (q : PortState) (now : Nat) (m : MergeSlot) : PortState :=
  ({ q with slots := q.slots.map (fun x => if x.key = m.key then { x with state := .sending none } else x),
            lastGrant := some .control, grantCount := 0 } : PortState).beginMessage
    now (mergeMessage m.key m.value) { entry := .control m.key, left := [], ofRecord := false, emptyStatus := false }

/-- R164: with both lanes eligible, whether NOTE is granted. -/
def PortState.noteFirst (q : PortState) : Bool :=
  match q.settings.laneMode with
  | .round => decide (q.lastGrant ≠ some .note)
  | .noteFirst => decide (q.grantCount < q.settings.weight)

/-- R163 cases 4 and 5: the choice between NOTE and CONTROL, or nothing. -/
def PortState.chooseLane (q : PortState) (now : Nat) : PortState :=
  match q.nextSlot now with
  | some m => if q.noteEligible && q.noteFirst then q.grantNote now else q.grantControl now m
  | none => if q.noteEligible then q.grantNote now else q

/-- Grant the head of the CLICK lane (R161, R163). -/
def PortState.grantClick (q : PortState) (now : Nat) (e : ClickEntry) (es : List ClickEntry) : PortState :=
  ({ q with clickLane := es } : PortState).beginMessage now e.message
    { entry := .click e, left := [], ofRecord := false, emptyStatus := false }

/-- R163 cases 3 to 5, with no entry in progress; the second part says that a CLICK entry has begun transmission. -/
def PortState.chooseItem (q : PortState) (now : Nat) : PortState × Bool :=
  match q.clickLane with
  | e :: es => if e.due ≤ now then (q.grantClick now e es, true) else (q.chooseLane now, false)
  | [] => (q.chooseLane now, false)

/-- R163: the choice of a transmitter that is IDLE or has just finished a message or item. -/
def PortState.choose (q : PortState) (now : Nat) : PortState × Bool :=
  if q.wire.isSome then (q, false)
  else
    match q.realtime with
    | b :: bs => (({ q with realtime := bs } : PortState).beginByte now b.byte, false)
    | [] =>
      match q.entry with
      | some e =>
        match e.left with
        | m :: ms => (q.beginMessage now m { e with left := ms }, false)
        | [] => q.chooseItem now
      | none => q.chooseItem now

/-! ### The end of an item -/

/-- R167: the message of a merge slot has been sent. A slot that a SOFT_RESET has made FREE meanwhile stays so and takes no sent
time (DESIGN CHOICE, log 38). -/
def MergeSlot.ended (m : MergeSlot) (now : Nat) : MergeSlot :=
  match m.state with
  | .sending (some t) => { m with state := .dirty t, sent := some now }
  | .sending none => { m with state := .clean, sent := some now }
  | _ => m

/-- The last message of an entry has been sent (R158, R165, R167): a PROGRAM entry of the active record starts the settle timer
where the settle time is above 0 (R169). -/
def PortState.entryEnded (q : PortState) (now : Nat) (e : InProgress) : PortState :=
  let x : PortState := { q with entry := none, lastStatus := if e.emptyStatus then none else q.lastStatus }
  match e.entry with
  | .control k => { x with slots := x.slots.map (fun m => if m.key = k then m.ended now else m) }
  | .note _ =>
    if e.ofRecord ∧ 0 < q.settings.settleTime then { x with settleDue := some (now + q.settings.settleTime * 10000) } else x
  | .click _ => x

/-- The entry whose last message the bytes on the wire are, if they are one (R158). -/
def PortState.ending (q : PortState) (w : Wire) : Option InProgress :=
  match q.entry with
  | some e => if w.status.isSome && e.left.isEmpty then some e else none
  | none => none

/-- The bytes on the wire have been sent (R158). The transmitter is then ready to choose; the keep-alive timer starts in case
nothing is eligible, and a beginning item stops it (R168). -/
def PortState.itemEnded (q : PortState) (w : Wire) (now : Nat) : PortState :=
  let x : PortState := { q with
    wire := none
    lastStatus := if w.status.isSome then w.status else q.lastStatus
    keepAliveDue := if q.settings.keepAlive then some (now + Config.keepAlive) else none }
  match q.ending w with
  | some e => x.entryEnded now e
  | none => x

/-- An entry in transmission whose end is reported to the active record: a PROGRAM entry of it (R169). -/
def InProgress.reported (e : InProgress) : Bool :=
  e.ofRecord && (match e.entry with | .note _ => true | _ => false)

/-- R169: whether the end of the bytes on the wire is the end of a PROGRAM entry of the active record, which is reported. -/
def PortState.endsProgram (q : PortState) (w : Wire) : Bool :=
  match q.ending w with
  | some e => e.reported
  | none => false

/-! ### The NOTE lane at enqueue -/

/-- An entry is a NOTE_ON of a channel and key. -/
def NoteEntry.isOn (c : Chan) (k : Nat) : NoteEntry → Bool
  | .noteOn c' k' _ => decide (c' = c ∧ k' = k)
  | _ => false

/-- An entry is a NOTE_OFF of a channel and key. -/
def NoteEntry.isOff (c : Chan) (k : Nat) : NoteEntry → Bool
  | .noteOff c' k' _ => decide (c' = c ∧ k' = k)
  | _ => false

/-- R171: remove the newest NOTE_ON of a channel and key behind which no NOTE_OFF of them stands; `none` when there is
none. -/
def annihilate (c : Chan) (k : Nat) : List NoteEntry → Option (List NoteEntry)
  | [] => none
  | e :: es =>
    match annihilate c k es with
    | some es' => some (e :: es')
    | none => if e.isOn c k && !es.any (NoteEntry.isOff c k) then some es else none

/-- R172: take the newest NOTE_ON out of a lane, with its channel and key. -/
def removeNewestOn : List NoteEntry → Option (Chan × Nat × List NoteEntry)
  | [] => none
  | e :: es =>
    match removeNewestOn es with
    | some (c, k, es') => some (c, k, e :: es')
    | none =>
      match e with
      | .noteOn c k _ => some (c, k, es)
      | _ => none

/-- What became of an entry offered to a NOTE lane: the port, whether the entry was accepted, the channel and key of a
NOTE_ON withdrawn, and whether the entry was dropped from a full lane (R171, R172). -/
structure Offered where
  port : PortState
  accepted : Bool
  withdrawn : Option (Chan × Nat)
  overflowed : Bool
deriving DecidableEq, Repr

/-- R171 test 2: the annihilation an offered entry causes, if any, with the channel and key of the NOTE_ON. -/
def PortState.annihilation (q : PortState) : NoteEntry → Option (Chan × Nat × List NoteEntry)
  | .noteOff c k _ =>
    if decide (Config.noteLaneMax ≤ q.noteLane.length) ||
        (decide (q.settings.policy ≠ .pass) && q.changing) then
      (annihilate c k q.noteLane).map (fun lane => (c, k, lane))
    else none
  | _ => none

/-- The entries in the 64 places of the NOTE lane (R159). -/
def PortState.places (q : PortState) : List NoteEntry := q.noteLane.take Config.noteLaneMax

/-- The entries that wait behind the places for one that frees at this instant (R178, log 37). -/
def PortState.waiting (q : PortState) : List NoteEntry := q.noteLane.drop Config.noteLaneMax

/-- R172: an entry meets a full lane. Where a NOTE_ON gives way, it joins the lane at its end, behind a PROGRAM entry to which a place
was given before (log 37) and ahead of the entries that are still without one. -/
def PortState.offerFull (q : PortState) (e : NoteEntry) : Offered :=
  match removeNewestOn q.places with
  | some (c, k, lane) =>
    { port := { q with
        noteLane := lane ++ q.waiting.takeWhile NoteEntry.isProgram ++ e :: q.waiting.dropWhile NoteEntry.isProgram
        noteDiscard := bump q.noteDiscard },
      accepted := true, withdrawn := some (c, k), overflowed := false }
  | none =>
    { port := { q with overflow := bump q.overflow, sweepPending := addNew q.sweepPending e.chan }, accepted := false,
      withdrawn := none, overflowed := true }

/-- R178: a place of the NOTE lane can still free at this instant: the transmitter can make a choice (it is IDLE, or its item ends by
now), or the lane holds an entry that an annihilation or a changeover can remove (R173). -/
def PortState.mayFree (q : PortState) (now : Nat) : Bool :=
  q.noteLane.any (fun e => e.isNoteOn || e.isProgram) ||
  (match q.wire with
  | some w => decide (w.ends ≤ now)
  | none => true)

/-- The port after what is due on it by now: a settle that runs out and an item that ends, with no SWEEP put in a freed place. -/
def PortState.dueEnded (q : PortState) (now : Nat) : PortState :=
  let x : PortState := { q with settleDue := q.settleDue.filter (fun d => decide (now < d)), sweepPending := [] }
  match q.wire with
  | some w => if w.ends ≤ now then x.itemEnded w now else x
  | none => x

/-- R178: as the port stands, the choice that its transmitter makes at this instant grants the NOTE lane, which frees a place (R158,
R163). -/
def PortState.grantsNow (q : PortState) (now : Nat) : Bool :=
  decide (((q.dueEnded now).choose now).1.noteLane.length < q.noteLane.length)

/-- R178: an entry offered to a full lane takes the place that frees after it at this instant, with a SWEEP pending. The changeover unit
learns at the enqueue whether a PROGRAM entry is accepted (R142, R153): it is where the port's next choice frees the place and no other
entry waits for that. Any other entry waits where a place can still free (DESIGN CHOICE, log 37). -/
def PortState.awaits (q : PortState) (now : Nat) (e : NoteEntry) : Bool :=
  !q.sweepPending.isEmpty &&
    (if e.isProgram then q.waiting.isEmpty && q.grantsNow now else !q.waiting.isEmpty || q.mayFree now)

/-- R171, R172: an entry is offered to a port's NOTE lane. Offered before a place frees at the same instant, it is to take that place
(R178). -/
def PortState.offer (q : PortState) (now : Nat) (e : NoteEntry) : Offered :=
  if e.isNoteOn && decide (q.settings.policy = .drop) && q.changing then
    { port := { q with settleDrop := bump q.settleDrop }, accepted := false, withdrawn := none, overflowed := false }
  else
    match q.annihilation e with
    | some (c, k, lane) =>
      { port := ({ q with noteLane := lane } : PortState).lose, accepted := false, withdrawn := some (c, k),
        overflowed := false }
    | none =>
      if q.noteLane.length < Config.noteLaneMax ∨ q.awaits now e = true then
        { port := { q with noteLane := q.noteLane ++ [e] }, accepted := true, withdrawn := none, overflowed := false }
      else q.offerFull e

/-- R174: the report of a withdrawal reaches the note table. -/
def withdrawOn (p : Port) (w : Option (Chan × Nat)) (s : State) : State :=
  match w with
  | none => s
  | some (c, k) => withdraw { port := p, chan := c, key := k } s

/-- R172: the fault of an entry dropped from a full lane. -/
def overflowFault (p : Port) (overflowed : Bool) (s : State) : State :=
  if overflowed then takeFault .noteLaneOverflow (.port p) s else s

/-- What became of an offered entry is reported to the note table and the fault record (R171, R172). -/
def reportOffer (p : Port) (o : Offered) (s : State) : State :=
  overflowFault p o.overflowed (withdrawOn p o.withdrawn (s.setPort p o.port))

/-- Offer an entry to a port's NOTE lane, with the reports to the note table and the fault record (R171, R172). -/
def offerNote (p : Port) (e : NoteEntry) (s : State) : State := reportOffer p ((s.port p).offer s.now e) s

/-- Whether `offerNote` accepts the entry. -/
def acceptsNote (p : Port) (e : NoteEntry) (s : State) : Bool := ((s.port p).offer s.now e).accepted

/-! ### Every port -/

/-- The waiting NOTE_OFFs of a port, earliest due first, go into its CLICK lane until they are placed or it is full
(R161). Of two with one due time the record made first goes first (DESIGN CHOICE, log 41). The first argument bounds the number of
records. Each is enqueued with this instant as its due time (log 14). -/
def placeWaiting (p : Port) : Nat → State → State
  | 0, s => s
  | n + 1, s =>
    match earliest (fun r => r.due) (s.click.offs.filter (fun r => decide (r.port = p) && r.waiting)) with
    | none => s
    | some r =>
      if (s.port p).clickRoom then
        placeWaiting p n
          ((s.setPort p ((s.port p).enqueueClick
              { on := false, chan := r.chan, note := r.note, velocity := Config.offVelocity, due := s.now })).setOffs
            (s.click.offs.filter (fun x => decide (x ≠ r))))
      else s

/-- A port's transmitter makes its choice if it can (R158, R163); a CLICK entry that begins makes room (R161). -/
def kickPort (p : Port) (s : State) : State :=
  if ((s.port p).choose s.now).2 then
    placeWaiting p s.click.offs.length (s.setPort p ((s.port p).choose s.now).1)
  else s.setPort p ((s.port p).choose s.now).1

/-- Every IDLE transmitter makes its choice at the end of a command; none sends during initialisation (R158, R175). -/
def kickPorts (s : State) : State :=
  if s.init.isSome then s else allPorts.foldl (fun s p => kickPort p s) s

/-! ### The end of an instant -/

/-- R172: the note table learns that a NOTE_ON it offered has been dropped: the target's sent flag goes (R23). -/
def dropReport (p : Port) (e : NoteEntry) (s : State) : State :=
  match e with
  | .noteOn c k _ => withdraw { port := p, chan := c, key := k } s
  | _ => s

/-- The oldest entry that waits and that the end of the instant decides by R172. A PROGRAM entry that waits has been given the place that
the next grant frees, and takes that of a NOTE_ON before; it is never dropped (log 37). -/
def PortState.unplaced (q : PortState) : Option NoteEntry :=
  q.waiting.find? (fun e => !e.isProgram || q.places.any NoteEntry.isNoteOn)

/-- That entry meets the full lane (R172). -/
def meetFull (p : Port) (s : State) : State :=
  match (s.port p).unplaced with
  | none => s
  | some e =>
    let o := ({ s.port p with noteLane := (s.port p).places ++ (s.port p).waiting.erase e } : PortState).offerFull e
    if o.accepted then reportOffer p o s else dropReport p e (reportOffer p o s)

/-- Every such entry of a port, oldest first. -/
def meetFulls (p : Port) (s : State) : State := Nat.iterate (meetFull p) (s.port p).waiting.length s

/-- R178: an entry waits that the end of the instant decides. -/
def State.anyAwaits (s : State) : Bool := allPorts.any (fun p => (s.port p).unplaced.isSome)

/-! ### Events of a port -/

/-- OUTPUT_ITEM_END (R158): the bytes on the wire have been sent, and the end of a PROGRAM entry of the record is reported with
whether it started the settle timer (R169). -/
def itemEnd (p : Port) (s : State) : State :=
  match (s.port p).wire with
  | none => s
  | some w =>
    let s := s.reach w.ends
    let q := s.port p
    let t := s.setPort p (q.itemEnded w s.now)
    if q.endsProgram w then reportTransmitted p (decide (0 < q.settings.settleTime)) t else t

/-- SETTLE_TIMER_EXPIRY (R169): the timer stops and a settle end is reported. -/
def settleExpiry (p : Port) (s : State) : State :=
  match (s.port p).settleDue with
  | none => s
  | some d => reportSettleEnd p ((s.reach d).setPort p { s.port p with settleDue := none })

/-- KEEP_ALIVE_EXPIRY (R168): FEh goes out as an item of its own. -/
def keepAliveExpiry (p : Port) (s : State) : State :=
  match (s.port p).keepAliveDue with
  | none => s
  | some d =>
    if (s.port p).wire.isSome then s
    else (s.reach d).setPort p ((s.port p).beginByte (max s.now d) 0xFE#8)

/-- R167: the instant at which the interval of a DIRTY slot that still waits for it runs out. -/
def PortState.nextInterval (q : PortState) (now : Nat) : Option Nat :=
  (earliest (fun m => m.sent.getD 0)
    (q.slots.filter (fun m => m.dirtied?.isSome && !m.elapsed q.settings.interval now))).map
    (fun m => m.sent.getD 0 + q.settings.interval * 1000)

/-- CONTROLLER_INTERVAL_EXPIRY (R167): the instant comes; an IDLE transmitter then chooses. -/
def intervalExpiry (p : Port) (s : State) : State :=
  match (s.port p).nextInterval s.now with
  | none => s
  | some d => s.reach d

/-! ### Sweeps, PANIC and resets -/

/-- The 16 SWEEP entries, channels 1 to 16 in that order (R175). -/
def sweeps : List NoteEntry := allChans.map .sweep

/-- R175: sixteen SWEEPs at the end of a port's NOTE lane. -/
def PortState.sweepAll (q : PortState) : PortState := { q with noteLane := q.noteLane ++ sweeps }

/-- R176 at one port: the settle end is reported where the timer ran. -/
def panicPort (p : Port) (s : State) : State :=
  let q := s.port p
  let s := s.setPort p
    ({ q with noteLane := q.noteLane.filter NoteEntry.isProgram, clickLane := [], sweepPending := [],
              settleDue := none } : PortState).sweepAll
  if q.settleDue.isSome then reportSettleEnd p s else s

/-- R175 at one port: SOFT_RESET keeps the settings, the counters and the item in transmission, whose end empties the last
status (R165) and reports to no record (R169). -/
def PortState.softReset (q : PortState) : PortState :=
  ({ q with
    realtime := [], clickLane := [], noteLane := [], slots := [], lastGrant := none, grantCount := 0, settleDue := none,
    lastStatus := none, sweepPending := [],
    entry := q.entry.map (fun e => { e with ofRecord := false, emptyStatus := true }) } : PortState).sweepAll

/-- R157: the settings of a port are written; a changed running status empties the last status, and keep-alive ON starts a
stopped timer of an idle transmitter while OFF stops it. -/
def PortState.configure (q : PortState) (now : Nat) (x : PortSettings) : PortState :=
  { q with
    settings := x
    lastStatus := if x.runningStatus = q.settings.runningStatus then q.lastStatus else none
    keepAliveDue :=
      if !x.keepAlive then none
      else if q.keepAliveDue.isNone && q.wire.isNone then some (now + Config.keepAlive) else q.keepAliveDue }

end Sys2Proof.Machine
end

