-- ==== Sys2Proof/Machine/ClickUnit.lean ====
section
/-! DEFINITION. The click unit (R94 to R96): which channels sound at a step, what they enqueue into the CLICK lanes, and the
pending click note-offs. -/

namespace Sys2Proof.Machine

/-- R59: the beat length in steps, 96 in a /4 meter and 48 in a /8 meter. -/
def TransportState.beatLength (t : TransportState) : Nat := 384 / t.denominator

/-- R82: the bar length, the meter's length and one beat's steps for each extension beat. -/
def TransportState.barLength (t : TransportState) : Nat := (t.numerator + t.extension) * t.beatLength

/-- The kinds of click position (R95). -/
inductive ClickPosition where
  | accent
  | beat
  | sub
deriving DecidableEq, Repr

/-- R95: the interval of the sub positions. -/
def Subdivision.interval : Subdivision → Option Nat
  | .none => .none
  | .eighth => some 48
  | .sixteenth => some 24
  | .triplet => some 32

/-- R95: the kind of click position a step is for a subdivision, if it is one. -/
def clickPosition (step beatLength : Nat) (sub : Subdivision) : Option ClickPosition :=
  if step = 0 then some .accent
  else if step % beatLength = 0 then some .beat
  else
    match sub.interval with
    | none => none
    | some n => if step % beatLength % n = 0 then some .sub else none

/-- R95: the mode admits the transport state. -/
def ClickMode.admits : ClickMode → TransportMode → Bool
  | .always, .countIn => true
  | .always, .running => true
  | .countInOnly, .countIn => true
  | .runningOnly, .running => true
  | _, _ => false

/-- R95: the note of a position. -/
def ClickChannel.note (c : ClickChannel) : ClickPosition → Nat
  | .accent => c.accentNote
  | .beat => c.beatNote
  | .sub => c.subNote

/-- R95: the level of a position. -/
def ClickChannel.level (c : ClickChannel) : ClickPosition → Nat
  | .accent => c.accentLevel
  | .beat => c.beatLevel
  | .sub => c.subLevel

/-- R95: a level L of 1 to 31 gives the velocity 4L + 3. -/
def clickVelocity (level : Nat) : Nat := 4 * level + 3

/-- R95: the position at which a channel sounds now, if it does. -/
def ClickChannel.soundsAt (c : ClickChannel) (t : TransportState) : Option ClickPosition :=
  if c.mode.admits t.mode then
    match clickPosition t.step t.beatLength c.subdivision with
    | some k => if 0 < c.level k then some k else none
    | none => none
  else none

/-- A pending record is for a port, channel and note (R96). -/
def ClickOff.isFor (r : ClickOff) (p : Port) (c : Chan) (note : Nat) : Bool :=
  decide (r.port = p ∧ r.chan = c ∧ r.note = note)

/-- The pending record for a port, channel and note (R96: there is at most one). -/
def State.offFor (s : State) (p : Port) (c : Chan) (note : Nat) : Option ClickOff :=
  s.click.offs.find? (fun r => r.isFor p c note)

/-- R96: the NOTE_OFF of a pending record is enqueued, this instant its due time, and the record is removed. A full lane
leaves the record pending, to be served when the lane has room (R161). -/
def offerOff (r : ClickOff) (s : State) : State :=
  if (s.port r.port).clickRoom then
    (s.setPort r.port ((s.port r.port).enqueueClick
        { on := false, chan := r.chan, note := r.note, velocity := Config.offVelocity, due := s.now })).setOffs
      (s.click.offs.filter (fun x => !x.isFor r.port r.chan r.note))
  else
    s.setOffs (s.click.offs.map (fun x => if x.isFor r.port r.chan r.note then { x with waiting := true } else x))

/-- R96 step 1: a pending record of the same port, channel and note is cut short. -/
def cutShort (p : Port) (c : Chan) (note : Nat) (s : State) : State :=
  match s.offFor p c note with
  | some r => offerOff r s
  | none => s

/-- R96 steps 2 and 3: the NOTE_ON and its record, or a drop from a full lane. The list has no bound here: a record that outlives a
CLICK_SET (R94) can stand beside the twelve notes of the channels, where R96 says that it cannot (DESIGN CHOICE, log 34). -/
def enqueueOn (p : Port) (c : Chan) (note velocity gate : Nat) (s : State) : State :=
  if (s.port p).clickRoom then
    (s.setPort p ((s.port p).enqueueClick { on := true, chan := c, note, velocity, due := s.now })).setOffs
      (s.click.offs ++ [{ port := p, chan := c, note, due := s.now + gate * 1000, waiting := false }])
  else s.setPort p { s.port p with clickDrop := bump (s.port p).clickDrop }

/-- R96: a channel sounds. -/
def soundClick (c : ClickChannel) (k : ClickPosition) (s : State) : State :=
  enqueueOn c.port c.chan (c.note k) (clickVelocity (c.level k)) c.gate (cutShort c.port c.chan (c.note k) s)

/-- R95: one channel at a step event. -/
def clickChannelStep (n : ClickNo) (s : State) : State :=
  match (s.clickChannel n).soundsAt s.transport with
  | some k => soundClick (s.clickChannel n) k s
  | none => s

/-- R95: the click unit acts on a step event, CK0 to CK3. -/
def clickStep (s : State) : State := allClicks.foldl (fun s n => clickChannelStep n s) s

/-- R96: the due time of a pending record comes. A record whose NOTE_OFF already waits for room has had its due time. -/
def gateExpiry (p : Port) (c : Chan) (note : Nat) (s : State) : State :=
  match s.offFor p c note with
  | none => s
  | some r => if r.waiting then s else offerOff r (s.reach r.due)

end Sys2Proof.Machine
end

