-- ==== Sys2Proof/Machine/TempoUnit.lean ====
section
/-! DEFINITION. The tempo unit (chapter 4): step durations, segments, ramps, the override and the staged value, the beat
evaluation, tap tempo, and what STOP and a song change do to it. -/

namespace Sys2Proof.Machine

/-! ### Step duration -/

/-- R60: the base. -/
def stepBase (t : Nat) : Nat := Config.stepQ / t

/-- R60: the remainder. -/
def stepRemainder (t : Nat) : Nat := Config.stepQ - stepBase t * t

/-- R60: the duration of the next step and the accumulator after it. -/
def stepDuration (t a : Nat) : Nat × Nat :=
  if t ≤ a + stepRemainder t then (stepBase t + 1, a + stepRemainder t - t) else (stepBase t, a + stepRemainder t)

/-! ### Segments and ramps -/

/-- R64: the index of the last segment whose start bar is `bar` or less, counting from `n`. -/
def segmentFrom (bar n : Nat) : List Segment → Option Nat
  | [] => none
  | g :: gs =>
    match segmentFrom bar (n + 1) gs with
    | some k => some k
    | none => if g.startBar ≤ bar then some n else none

/-- R64: the index of the segment in force at a bar. -/
def segmentAt (map : List Segment) (bar : Nat) : Nat := (segmentFrom bar 0 map).getD 0

/-- R67: round(d × k / n), the nearest whole number with a half going away from zero. -/
def roundedShare (d : Int) (k n : Nat) : Int :=
  if 0 ≤ d then ((2 * d.natAbs * k + n) / (2 * n) : Nat) else -((2 * d.natAbs * k + n) / (2 * n) : Nat)

/-- R67: the number of ramp beats N of a segment. -/
def Segment.rampBeats (g : Segment) : Nat := g.rampBars * g.numerator

/-- R67: the ramp target, which stands exactly when there are ramp bars. -/
def Segment.rampEnd (g : Segment) : Nat := g.rampTarget.getD g.tempo

/-- R67: the ramp value T_k. -/
def Segment.rampValue (g : Segment) (k : Nat) : Nat :=
  ((g.tempo : Int) + roundedShare ((g.rampEnd : Int) - (g.tempo : Int)) k g.rampBeats).toNat

/-- The segment in use, if one has begun (R64, R65). -/
def State.segmentInUse (s : State) : Option Segment := s.tempo.segment.bind (fun n => s.mapInUse[n]?)

/-- R66: the tempo the precedence chooses. -/
def State.chosenTempo (s : State) : Nat :=
  match s.tempo.override with
  | some t => t
  | none =>
    match s.segmentInUse with
    | none => s.firstSegment.tempo
    | some g =>
      match s.tempo.ramp with
      | .ramping k => g.rampValue k
      | .arrived => g.rampEnd
      | _ => g.tempo

/-- R78: the source of the current tempo, by the precedence of R66. -/
def State.tempoSource (s : State) : TempoSource :=
  if s.tempo.override.isSome then .override
  else
    match s.tempo.ramp with
    | .ramping _ => .ramp
    | .arrived => .ramp
    | _ => .map

/-- R78: the TEMPO notice as things stand. -/
def State.tempoNotice (s : State) : Notice :=
  .tempo s.tempo.current s.tempoSource s.tempo.override.isSome (s.tempo.staged.map (fun v => v.value))

/-- R78: raise the TEMPO notice, once for one action of the unit (log 11), when the action gave T a new value, set or removed
the override, or set, replaced or removed the staged value. -/
def raiseTempo (changed : Bool) (s : State) : State := if changed then raise s.tempoNotice s else s

/-! ### Beat evaluation -/

/-- R61: T takes a value; a different one clears the accumulator. -/
def TempoState.take (t : TempoState) (v : Nat) : TempoState :=
  if v = t.current then t else { t with current := v, acc := 0 }

/-- R69: the override is set, which ends a RAMPING ramp. -/
def TempoState.setOverride (t : TempoState) (v : Nat) : TempoState :=
  { t with override := some v, ramp := (match t.ramp with | .ramping _ => .ended | r => r) }

/-- R67: the ramp advances by one beat. -/
def advanceRamp (g : Segment) : RampState → RampState
  | .ramping k => if g.rampBeats ≤ k + 1 then .arrived else .ramping (k + 1)
  | r => r

/-- R65 step 1, R67: a segment begins; at a segment boundary any override is removed. -/
def TempoState.beginSegment (t : TempoState) (n : Nat) (g : Segment) : TempoState :=
  let override := if n = 0 then t.override else none
  { t with segment := some n, override,
           ramp := if g.rampBars = 0 then .none else if override.isSome then .ended else .ramping 0 }

/-- R65 step 1 in RUNNING: a downbeat at which a segment begins, or another beat of the segment in use. -/
def State.segmentStep (s : State) (downbeat : Bool) : TempoState :=
  let n := segmentAt s.mapInUse s.transport.bar
  if downbeat && decide (s.tempo.segment ≠ some n) then
    s.tempo.beginSegment n ((s.mapInUse[n]?).getD defaultSegment)
  else
    match s.segmentInUse with
    | some g => { s.tempo with ramp := advanceRamp g s.tempo.ramp }
    | none => s.tempo

/-- R65 step 2, R70: a due staged value is applied and emptied. -/
def TempoState.applyStaged (t : TempoState) (downbeat : Bool) : TempoState :=
  match t.staged with
  | none => t
  | some v =>
    if downbeat || decide (v.due = .beat) then
      match v.value with
      | .tempo x => { t.setOverride x with staged := none }
      | .clear => { t with override := none, staged := none }
    else t

/-- R65: evaluate the tempo of a beat. In COUNT_IN no segment is in use (R66). A ramp beat raises TEMPO where it gives T a new value,
and not where T_k is the T there is (DESIGN CHOICE, log 40). -/
def evaluateBeat (downbeat : Bool) (s : State) : State :=
  let t1 := if s.transport.mode = .countIn then s.tempo else s.segmentStep downbeat
  let t2 := t1.applyStaged downbeat
  let s1 := { s with tempo := t2 }
  let s2 := { s1 with tempo := t2.take s1.chosenTempo }
  raiseTempo (decide (s2.tempo.current ≠ s.tempo.current ∨ s2.tempo.override ≠ s.tempo.override ∨
    s2.tempo.staged ≠ s.tempo.staged ∨ t1.override ≠ s.tempo.override ∨ t2.staged ≠ t1.staged)) s2

/-- R60: the transport begins a step and is given its duration. -/
def beginStep (s : State) : State :=
  let d := stepDuration s.tempo.current s.tempo.acc
  { s with tempo := { s.tempo with acc := d.2 },
           transport := { s.transport with stepEnd := some (s.now + d.1) } }

/-! ### Requests and taps -/

/-- R71, R74: a tempo or a CLEAR is taken. While STOPPED it acts at once; otherwise it is staged. -/
def takeTempo (v : StagedValue) (due : StagedDue) (s : State) : State :=
  if s.transport.mode = .stopped then
    let t := match v with
      | .tempo x => s.tempo.setOverride x
      | .clear => { s.tempo with override := none }
    let s1 := { s with tempo := t }
    let s2 := { s1 with tempo := t.take s1.chosenTempo }
    raiseTempo (match v with | .tempo _ => true | .clear => s.tempo.override.isSome) s2
  else raiseTempo true { s with tempo := { s.tempo with staged := some { value := v, due } } }

/-- R74: the tempo of a list of intervals: 6,000,000,000 × m / S to the nearest whole number, halves upward. -/
def tapTempo (taps : List Nat) : Nat :=
  (2 * (Config.tapDividend * taps.length) + taps.sum) / (2 * taps.sum)

/-- R73: an interval joins the list at the newest end; of four the oldest leaves. -/
def joinTap (taps : List Nat) (d : Nat) : List Nat :=
  if 3 ≤ taps.length then (taps ++ [d]).drop 1 else taps ++ [d]

/-- R73: one tap at this instant. -/
def takeTap (s : State) : State :=
  match s.tempo.lastTap with
  | none => { s with tempo := { s.tempo with lastTap := some s.now, taps := [] } }
  | some last =>
    let d := s.now - last
    if d < Config.tapMin then s
    else if d ≤ Config.tapMax then
      let taps := joinTap s.tempo.taps d
      takeTempo (.tempo (tapTempo taps)) .beat { s with tempo := { s.tempo with lastTap := some s.now, taps } }
    else { s with tempo := { s.tempo with lastTap := some s.now, taps := [] } }

/-! ### STOP, song changes and resets -/

/-- R76, R77: the override and the staged value are removed, the ramp is discarded, and T becomes the first segment's tempo
of the map in use. -/
def clearTempo (s : State) : State :=
  let t := { s.tempo with segment := none, ramp := .none, override := none, staged := none }
  let s1 := { s with tempo := t.take s.firstSegment.tempo }
  raiseTempo (decide (s1.tempo.current ≠ s.tempo.current) || s.tempo.override.isSome || s.tempo.staged.isSome) s1

/-- R61: a run begins. -/
def clearAccumulator (s : State) : State := { s with tempo := { s.tempo with acc := 0 } }

/-- R79: the tempo unit after SOFT_RESET; no TEMPO notice is raised. -/
def softResetTempo (s : State) : State := { s with tempo := { TempoState.reset with current := s.firstSegment.tempo } }

end Sys2Proof.Machine
end

