-- ==== Sys2Proof/Machine/Grid.lean ====
section
/-! DEFINITION. The transport's record and the handling of the starts of steps, beats and downbeats (R80 to R82, R88 to R90),
clock bytes (R93), notices (R97, R98) and the repositioning by a song change (R92). -/

namespace Sys2Proof.Machine

/-! ### Notices, clock and the record at rest -/

/-- R98: the TRANSPORT notice as things stand. -/
def State.transportNotice (s : State) (cause : Cause) (origin : Option Origin) : Notice :=
  .transport s.transport.mode s.transport.bar s.transport.beat s.transport.step s.transport.countIn
    s.transport.holdPending s.transport.extension cause origin

/-- R98: raise the TRANSPORT notice. -/
def raiseTransport (cause : Cause) (origin : Option Origin) (s : State) : State :=
  raise (s.transportNotice cause origin) s

/-- R93: some bytes into the REALTIME lane of one port, if it is a clock port. -/
def clockPort (bs : List RealTime) (p : Port) (s : State) : State :=
  if (s.port p).settings.clockFlag then s.setPort p (bs.foldl (fun q b => q.offerRealtime b) (s.port p)) else s

/-- R93: the clock ports are served in order OUT0 to OUT7, each with the same bytes. -/
def sendClock (bs : List RealTime) (s : State) : State := allPorts.foldl (fun s p => clockPort bs p s) s

/-- The transport record in a mode at bar 1, beat 1, step 0, in a segment's meter, everything else cleared and no step in
progress (R80, R92). -/
def TransportState.atStart (mode : TransportMode) (g : Segment) : TransportState :=
  { mode, bar := 1, beat := 1, step := 0, numerator := g.numerator, denominator := g.denominator, extension := 0,
    holdPending := false, countIn := 0, countInFromSong := false, stepEnd := none }

/-- R80: the position while STOPPED, in the meter of the first segment of the map in use. -/
def restTransport (s : State) : State := { s with transport := .atStart .stopped s.firstSegment }

/-- R93: the STOP byte, when the transport leaves RUNNING. -/
def stopByteFrom (left : TransportMode) (s : State) : State :=
  if left = .running then sendClock [.stop] s else s

/-! ### Beats and steps -/

/-- R89 step 4: the bar takes the meter of the segment in force. -/
def takeMeter (s : State) : State :=
  let g := (s.mapInUse[segmentAt s.mapInUse s.transport.bar]?).getD defaultSegment
  { s with transport := { s.transport with numerator := g.numerator, denominator := g.denominator } }

/-- R97: the BAR notice as things stand. -/
def State.barNotice (s : State) : Notice := .bar s.transport.bar s.transport.beat s.tempo.current

/-- R97: the BEAT notice as things stand. -/
def State.beatNotice (s : State) : Notice := .beat s.transport.bar s.transport.beat s.tempo.current

/-- R89 steps 4 and 5: a downbeat of RUNNING, with the byte that goes before its CLOCK (R93). -/
def runningDownbeat (lead : Option RealTime) (s : State) : State :=
  let s := clickStep (takeMeter (evaluateBeat true s))
  let s := sendClock (lead.toList ++ [.clock]) s
  beginStep (raise s.beatNotice (raise s.barNotice s))

/-- R90 steps 2 and 3: a beat of RUNNING that is no downbeat. -/
def runningBeat (s : State) : State :=
  let s := sendClock [.clock] (clickStep (evaluateBeat false s))
  beginStep (raise s.beatNotice s)

/-- R88: a count-in downbeat. -/
def countInDownbeat (s : State) : State := beginStep (clickStep (takeMeter (evaluateBeat true s)))

/-- R88, R90: a beat of COUNT_IN that is no downbeat. -/
def countInBeat (s : State) : State := beginStep (clickStep (evaluateBeat false s))

/-- R90: a step that begins no beat. In RUNNING a CLOCK falls on each step field that is a multiple of 4 (R93). -/
def plainStep (s : State) : State :=
  let s := clickStep s
  beginStep (if s.transport.mode = .running ∧ s.transport.step % 4 = 0 then sendClock [.clock] s else s)

/-! ### Song changes -/

/-- What the transport does after a trigger (R92): go on as before, begin bar 1 of the new song, begin a count-in bar, or
stay stopped. -/
inductive Cont where
  | goOn
  | restart
  | countIn
  | halt
deriving DecidableEq, Repr

/-- R92: how a song's header repositions a transport that is not STOPPED. -/
def songCont (song : Option Song) : Cont :=
  match song with
  | none => .halt
  | some g =>
    match g.startMode with
    | .wait => .halt
    | .follow => if g.countIn = 0 then .restart else .countIn

/-- The current song's count-in bars; 0 with no current song (R83). -/
def State.countInBars (s : State) : Nat :=
  match s.currentSong with
  | some g => g.countIn
  | none => 0

/-- R92: the transport record a repositioning enters. -/
def repositionRecord (k : Cont) (s : State) : TransportState :=
  match k with
  | .restart => .atStart .running s.firstSegment
  | .countIn => { TransportState.atStart .countIn s.firstSegment with countIn := s.countInBars, countInFromSong := true }
  | _ => .atStart .stopped s.firstSegment

/-- R61, R92: a restart and a count-in clear the accumulator. -/
def clearFor (k : Cont) (s : State) : State :=
  match k with
  | .restart => clearAccumulator s
  | .countIn => clearAccumulator s
  | _ => s

/-- R93: the STOP byte of a repositioning: RUNNING is left for COUNT_IN or STOPPED. -/
def stopByteFor (k : Cont) (left : TransportMode) (s : State) : State :=
  if k = .restart then s else stopByteFrom left s

/-- R92: a song change repositions the transport, the new map already in use. The tempo unit has cleared itself (R77), and
the cue slot is empty by then (R129), so entering STOPPED has no more to do. -/
def reposition (s : State) : State × Cont :=
  if s.transport.mode = .stopped then (restTransport s, .goOn)
  else
    let k := songCont s.currentSong
    let left := s.transport.mode
    let s1 : State := { s with transport := repositionRecord k s }
    (raiseTransport .songChange none (clearFor k (stopByteFor k left s1)), k)

/-- After a trigger that no beat handling goes on from: the restart or count-in begins at this instant (R92). -/
def continueAfter (k : Cont) (s : State) : State :=
  match k with
  | .goOn => s
  | .restart => runningDownbeat (some .start) s
  | .countIn => countInDownbeat s
  | .halt => s

end Sys2Proof.Machine
end

