-- ==== Sys2Proof/Machine/Router.lean ====
section
/-! DEFINITION. The zone router (chapter 1): matching, output keys and velocities, destination lists and pedal queries, as
functions of the live zone table. -/

namespace Sys2Proof.Machine

/-- R7: the source match, the first two conditions. -/
def Zone.sourceMatch (z : Zone) (i : Input) (c : Chan) : Bool :=
  z.inputs.getLsbD i.val && (decide (z.sourceChannel = none) || decide (z.sourceChannel = some c))

/-- R7: a zone matches a note-on. -/
def Zone.matchesNote (z : Zone) (i : Input) (c : Chan) (key velocity : Nat) : Bool :=
  z.sourceMatch i c && decide (z.keyLow ≤ key ∧ key ≤ z.keyHigh) && decide (z.velLow ≤ velocity ∧ velocity ≤ z.velHigh)

/-- R8: the output key, before the range test of R9. -/
def Zone.outputKey (z : Zone) (key : Nat) : Int :=
  match z.direction with
  | .normal => (key : Int) + z.transpose
  | .reverse => (z.keyHigh : Int) - ((key : Int) - (z.keyLow : Int)) + z.transpose

/-- R11: the bend term. -/
def bendTerm (v : Nat) : Nat := v * (127 - v) / 254

/-- R11: the curve value. -/
def Curve.value (c : Curve) (v : Nat) : Nat :=
  match c with
  | .linear => v
  | .soft => v + bendTerm v
  | .hard => v - bendTerm v
  | .fixed f => f

/-- R12: bring a velocity into 1 to 127. -/
def clampVelocity (x : Int) : Nat := if x < 1 then 1 else if x > 127 then 127 else x.toNat

/-- R12: the output velocity. -/
def Zone.outputVelocity (z : Zone) (v : Nat) : Nat :=
  clampVelocity ((((z.curve.value v * z.scale + 50) / 100 : Nat) : Int) + z.offset)

/-- The layer list under way, with the zones skipped for their key and by the limit (R9). -/
structure Layers where
  targets : List HeldTarget
  transposeSkips : Nat
  limitSkips : Nat
deriving DecidableEq, Repr

/-- R9: deal with one matching zone. -/
def Layers.deal (a : Layers) (z : Zone) (key velocity : Nat) : Layers :=
  if Config.layerMax ≤ a.targets.length then { a with limitSkips := a.limitSkips + 1 }
  else if z.outputKey key < 0 ∨ 127 < z.outputKey key then { a with transposeSkips := a.transposeSkips + 1 }
  else
    let t : Triple := { port := z.port, chan := z.chan, key := (z.outputKey key).toNat }
    if a.targets.any (fun x => decide (x.triple = t)) then a
    else { a with targets := a.targets ++
            [{ triple := t, velocity := z.outputVelocity velocity, pedal := z.pedal, forward := z.forward, sent := false }] }

/-- R6: walk the live table for a note-on. -/
def layers (live : List Zone) (i : Input) (c : Chan) (key velocity : Nat) : Layers :=
  (live.filter (fun z => z.matchesNote i c key velocity)).foldl (fun a z => a.deal z key velocity)
    { targets := [], transposeSkips := 0, limitSkips := 0 }

/-- R13: the forward flag that admits a message kind. -/
def Forward.admits (f : Forward) : MergeKind → Bool
  | .controller _ => f.controllers
  | .bend => f.bend
  | .pressure => f.pressure

/-- The distinct (port, channel) pairs of some zones, in the order of first appearance. -/
def pairsOf (zs : List Zone) : List (Port × Chan) := zs.foldl (fun ds z => addNew ds (z.port, z.chan)) []

/-- R14: the destination list of a controller, bend or channel pressure. -/
def destinations (live : List Zone) (i : Input) (c : Chan) (k : MergeKind) : List (Port × Chan) :=
  pairsOf (live.filter (fun z => z.sourceMatch i c && z.forward.admits k))

/-- R16: the pedal destinations of a source. -/
def pedalDestinations (live : List Zone) (i : Input) (c : Chan) : List (Port × Chan) :=
  pairsOf (live.filter (fun z => z.sourceMatch i c && decide (z.pedal = .module)))

end Sys2Proof.Machine
end

