-- ==== Sys2Proof/Machine/NoteTable.lean ====
section
/-! DEFINITION. The note table (chapter 2): release, note-on with replacement, steal and claims, note-off, polyphonic pressure,
the pedal records, pedal carry, input loss and PANIC. -/

namespace Sys2Proof.Machine

/-! ### Release -/

/-- R24: release one target of the entry of a source. The flag that may be handed on is the releasing target's own, read
before the target leaves the list. -/
def releaseTarget (src : Source) (velocity : Nat) (t : Triple) (s : State) : State :=
  let held := s.held.map (fun e => if e.source = src then e.drop t else e)
  let s' := { s with held := held }
  if holderCount held t = 0 then
    if soundingIn s.held t then offerNote t.port (.noteOff t.chan t.key velocity) s' else s'
  else if (s.entryOf src).any (fun e => e.sounds t) && !soundingIn held t then handOn t s'
  else s'

/-- Release some targets of the entry of a source, in the order given. -/
def releaseTargets (src : Source) (velocity : Nat) (ts : List Triple) (s : State) : State :=
  ts.foldl (fun s t => releaseTarget src velocity t s) s

/-- Remove the entry of a source from the table. -/
def removeEntry (src : Source) (s : State) : State :=
  { s with held := s.held.filter (fun e => decide (e.source ≠ src)) }

/-- R24: release an entry whole; an entry that has left the table is not found and nothing changes. -/
def releaseEntry (src : Source) (velocity : Nat) (s : State) : State :=
  match s.entryOf src with
  | none => s
  | some e => removeEntry src (releaseTargets src velocity (e.targets.map (fun x => x.triple)) s)

/-- Release the entries of some sources whole, in the order given, with velocity 64. -/
def releaseEntries (srcs : List Source) (s : State) : State :=
  srcs.foldl (fun s src => releaseEntry src Config.offVelocity s) s

/-! ### Note-on -/

/-- R26: the victim of a steal, the oldest SUSTAINED entry, else the oldest. -/
def stealVictim (held : List HeldEntry) : Option HeldEntry :=
  match held.find? (fun e => decide (e.state = .sustained)) with
  | some e => some e
  | none => held.head?

/-- R26: steal one entry for a note-on of an input. -/
def steal (i : Input) (s : State) : State :=
  match stealVictim s.held with
  | none => s
  | some v =>
    let s := releaseEntry v.source Config.offVelocity s
    takeFault .heldTableSteal (.input i)
      (raise (.steal v.source v.state v.scene) { s with stealCount := bump s.stealCount })

/-- R25 step 4: claim one target of the newest entry. A triple another entry already sounds is retriggered. -/
def claim (src : Source) (x : HeldTarget) (s : State) : State :=
  let t := x.triple
  let on : NoteEntry := .noteOn t.chan t.key x.velocity
  let s :=
    if soundingIn (s.held.filter (fun e => decide (e.source ≠ src))) t then
      offerNote t.port (.noteOff t.chan t.key Config.offVelocity) s
    else s
  let s' := offerNote t.port on s
  if acceptsNote t.port on s then
    { s' with held := s'.held.map (fun e => if e.source = src then e.setSent t true else e) }
  else s'

/-- R25 step 3: a new entry at the newest end. -/
def createEntry (src : Source) (scene : Nat) (targets : List HeldTarget) (s : State) : State :=
  { s with held := s.held ++
      [{ source := src, state := .down, scene, targets := targets.map (fun x => { x with sent := false }) }] }

/-- R25 step 2: make room. -/
def makeRoom (i : Input) (s : State) : State := if Config.heldMax ≤ s.held.length then steal i s else s

/-- R25: take a layer list. -/
def recordNoteOn (src : Source) (scene : Nat) (targets : List HeldTarget) (s : State) : State :=
  targets.foldl (fun s x => claim src x s)
    (createEntry src scene targets (makeRoom src.input (releaseEntry src Config.offVelocity s)))

/-- R9, R17: the skips of one note-on are counted on its input. -/
def countSkips (i : Input) (a : Layers) (s : State) : State :=
  s.setInput i { s.input i with
    transposeSkip := min ((s.input i).transposeSkip + a.transposeSkips) Config.counterMax
    layerLimit := min ((s.input i).layerLimit + a.limitSkips) Config.counterMax }

/-- R6, R10: a note-on is routed against the live zone table; a list with targets goes to the note table with the scene of
the live scene identity (R3). -/
def noteOn (i : Input) (c : Chan) (key velocity : Nat) (s : State) : State :=
  let a := layers s.live i c key velocity
  let s := countSkips i a s
  if a.targets.isEmpty then s
  else recordNoteOn { input := i, chan := c, key } (match s.liveId with | some (_, n) => n | none => 0) a.targets s

/-! ### Note-off and polyphonic pressure -/

/-- R27: an orphan note-off is counted on its input. -/
def countOrphan (i : Input) (s : State) : State :=
  s.setInput i { s.input i with orphan := bump (s.input i).orphan }

/-- R28: a DOWN entry's note-off while its pedal is down. -/
def noteOffPedalled (src : Source) (velocity : Nat) (e : HeldEntry) (s : State) : State :=
  let s := releaseTargets src velocity
    ((e.targets.filter (fun x => decide (x.pedal = .module))).map (fun x => x.triple)) s
  if e.targets.all (fun x => decide (x.pedal = .module)) then removeEntry src s
  else { s with held := s.held.map (fun x => if x.source = src then { x with state := .sustained } else x) }

/-- R27: a note-off. -/
def noteOff (i : Input) (c : Chan) (key velocity : Nat) (s : State) : State :=
  let src : Source := { input := i, chan := c, key }
  match s.entryOf src with
  | none => countOrphan i s
  | some e =>
    match e.state with
    | .sustained => s
    | .down => if (s.pedal i c).down then noteOffPedalled src velocity e s else releaseEntry src velocity s

/-- R30 for one target: its flag is read when its turn comes. -/
def pressTarget (src : Source) (pressure : Nat) (t : Triple) (s : State) : State :=
  if (s.entryOf src).any (fun e => e.targets.any (fun x => decide (x.triple = t) && x.forward.poly && x.sent)) then
    offerNote t.port (.polyPressure t.chan t.key pressure) s
  else s

/-- R30: polyphonic pressure goes to the POLY targets of its entry whose sent flag is set, in list order. -/
def polyPressure (i : Input) (c : Chan) (key pressure : Nat) (s : State) : State :=
  match s.entryOf { input := i, chan := c, key } with
  | none => s
  | some e =>
    (e.targets.map (fun x => x.triple)).foldl
      (fun s t => pressTarget { input := i, chan := c, key } pressure t s) s

/-! ### Pedal records -/

/-- Offer a PEDAL entry to each pair, in the order of the list. For PEDAL 0 that is the order in which the pairs joined the set,
which R31 and R33 leave open (DESIGN CHOICE, log 33). -/
def sendPedals (down : Bool) (ds : List (Port × Chan)) (s : State) : State :=
  ds.foldl (fun s d => offerNote d.1 (.pedal d.2 down) s) s

/-- R32: a pedal record goes DOWN. -/
def pedalDown (i : Input) (c : Chan) (s : State) : State :=
  let ds := pedalDestinations s.live i c
  sendPedals true ds (s.setPedal i c { down := true, pairs := ds })

/-- The sources of the SUSTAINED entries of an (input, channel), oldest first. -/
def sustainedOf (i : Input) (c : Chan) (held : List HeldEntry) : List Source :=
  (held.filter (fun e => decide (e.source.input = i ∧ e.source.chan = c ∧ e.state = .sustained))).map (fun e => e.source)

/-- R33: a pedal record goes UP. PEDAL 0 is enqueued in the order in which the pairs joined the set (DESIGN CHOICE, log 33). -/
def pedalUp (i : Input) (c : Chan) (s : State) : State :=
  let s := (sendPedals false (s.pedal i c).pairs s).setPedal i c { down := true, pairs := [] }
  (releaseEntries (sustainedOf i c s.held) s).setPedal i c .up

/-- R34: a request for DOWN or UP; one for the state already held changes nothing. -/
def askPedal (i : Input) (c : Chan) (down : Bool) (s : State) : State :=
  if (s.pedal i c).down = down then s else if down then pedalDown i c s else pedalUp i c s

/-- Every (input, channel) in order of input, then channel. -/
def allSources : List (Input × Chan) := allInputs.flatMap (fun i => allChans.map (fun c => (i, c)))

/-- R35 for one record: new pairs get PEDAL 127 and join the set. -/
def carryPedal (i : Input) (c : Chan) (s : State) : State :=
  if (s.pedal i c).down then
    let fresh := (pedalDestinations s.live i c).filter (fun d => decide (d ∉ (s.pedal i c).pairs))
    sendPedals true fresh (s.setPedal i c { down := true, pairs := (s.pedal i c).pairs ++ fresh })
  else s

/-- R35: pedal carry. -/
def pedalCarry (s : State) : State := allSources.foldl (fun s x => carryPedal x.1 x.2 s) s

/-! ### Loss, PANIC and resets -/

/-- R36: the loss of an input. Within one pedal record PEDAL 0 follows the join order (DESIGN CHOICE, log 33). -/
def loseInput (i : Input) (s : State) : State :=
  let s := releaseEntries ((s.held.filter (fun e => decide (e.source.input = i))).map (fun e => e.source)) s
  allChans.foldl (fun s c => if (s.pedal i c).down then pedalUp i c s else s) s

/-- R37, R38: the table is empty and every pedal record UP, with nothing enqueued. -/
def emptyNoteTable (s : State) : State :=
  { s with held := [], pedals := Vector.replicate 6 (Vector.replicate 16 .up) }

/-- R14: a controller, bend or channel pressure goes to the merge slots of its destinations, in list order. -/
def routeControl (i : Input) (c : Chan) (k : MergeKind) (value : Nat) (s : State) : State :=
  (destinations s.live i c k).foldl
    (fun s d => s.setPort d.1 ((s.port d.1).place s.now { chan := d.2, kind := k } value)) s

end Sys2Proof.Machine
end

