-- ==== Sys2Proof/Machine/ChangeUnit.lean ====
section
/-! DEFINITION. The changeover unit (chapter 8): the trigger by R139 to R146, and the audition requests R151 and R152. The port
list and the reports that move it stand in Record.lean. -/

namespace Sys2Proof.Machine

/-- What a trigger carries to the changeover unit besides the source, which is the current selection (R131). -/
structure Trigger where
  kind : Kind
  claimant : Claimant
  mark : Mark
  position : Nat
  slot : SlotNo
  scene : Nat
deriving DecidableEq, Repr

/-- R146 step 1: SUPERSEDED for the record as it stood. -/
def raiseSuperseded (s : State) : State :=
  match s.changeover with
  | none => s
  | some r => raise (.change .superseded r 0 0 (targetName s r)) s

/-- R146 step 2: the entries a new trigger finds in the port list, the DONE ones gone. -/
def State.carriedPorts (s : State) : List PortEntry :=
  match s.changeover with
  | none => []
  | some r => r.ports.filter (fun e => decide (e.state ≠ .done))

/-- R139, R146 step 3: the record the trigger makes. -/
def State.newRecord (s : State) (t : Trigger) : Changeover :=
  { kind := t.kind, claimant := t.claimant, mark := t.mark, source := s.selection, position := t.position, slot := t.slot,
    scene := t.scene, ports := s.carriedPorts }

/-- R140: the current selection moves; a song change moves tempo unit and transport too. -/
def moveSelection (t : Trigger) (s : State) : State × Cont :=
  match t.kind with
  | .scene => ({ s with curScene := some t.scene }, .goOn)
  | .song => reposition (clearTempo { s with curPos := some t.position, curScene := some t.scene })

/-- R141: the live zone table is replaced by the target scene's zones, and the pedals are carried. -/
def replaceLive (n : SlotNo) (scene : Nat) (s : State) : State :=
  pedalCarry { s with
    live := (s.sceneAt n scene).elim [] (fun sc => sc.zones)
    liveId := some (n, scene) }

/-- A PROGRAM entry of a channel. -/
def NoteEntry.isProgramOn (c : Chan) : NoteEntry → Bool
  | .program c' _ _ _ => decide (c' = c)
  | _ => false

/-- R142 step 1, R173, R174: an untransmitted PROGRAM entry of the same pair leaves the lane, which has lost an entry. -/
def withdrawProgram (p : Port) (c : Chan) (s : State) : State :=
  let q := s.port p
  if q.noteLane.any (NoteEntry.isProgramOn c) then
    lowerOutstanding p (s.setPort p
      ({ q with noteLane := q.noteLane.filter (fun e => !e.isProgramOn c) } : PortState).lose)
  else s

/-- R142 step 3: a port joins the list, or its outstanding count rises, which makes it QUEUED (R137). -/
def joinPort (p : Port) (s : State) : State :=
  match s.changeover with
  | none => s
  | some r =>
    if r.ports.any (fun e => decide (e.port = p)) then
      { s with
        changeover := some (r.mapEntry p (fun e => { e with outstanding := e.outstanding + 1 })) }
    else
      { s with changeover := some { r with ports := r.ports ++ [{ port := p, outstanding := 1, settling := false }] } }

/-- A trigger under way: the state, and the PROGRAM entries enqueued and dropped so far (R153). -/
structure Sending where
  state : State
  enqueued : Nat
  dropped : Nat
deriving DecidableEq, Repr

/-- The setting an assignment tells its pair (R138). -/
def Assignment.setting (a : Assignment) : ProgramSetting := { msb := a.msb, lsb := a.lsb, program := a.program }

/-- The PROGRAM entry of an assignment (R142 step 2). -/
def Assignment.entry (a : Assignment) : NoteEntry := .program a.chan a.msb a.lsb a.program

/-- R142: one assignment of the target scene. -/
def Sending.assign (w : Sending) (a : Assignment) : Sending :=
  if w.state.program a.port a.chan = some a.setting then w
  else
    let s := withdrawProgram a.port a.chan w.state
    let s' := offerNote a.port a.entry s
    if acceptsNote a.port a.entry s then
      { w with state := joinPort a.port (s'.setProgram a.port a.chan (some a.setting)), enqueued := w.enqueued + 1 }
    else { w with state := s'.setProgram a.port a.chan none, dropped := w.dropped + 1 }

/-- R142: every assignment of the target scene, in list order. -/
def assignAll (n : SlotNo) (scene : Nat) (s : State) : Sending :=
  ((s.sceneAt n scene).elim [] (fun sc => sc.assignments)).foldl Sending.assign
    { state := s, enqueued := 0, dropped := 0 }

/-- R140 to R142 for a trigger whose record already stands. -/
def carryOut (t : Trigger) (s : State) : Sending × Cont :=
  let m := moveSelection t s
  (assignAll t.slot t.scene (replaceLive t.slot t.scene m.1), m.2)

/-- R139: CHANGE STARTED, raised before the rest of the trigger, with the details R142 will leave. -/
def raiseStarted (t : Trigger) (s : State) : State :=
  let w := (carryOut t s).1
  match w.state.changeover with
  | none => s
  | some r => raise (.change .started r w.enqueued w.dropped (s.sceneName t.slot t.scene)) s

/-- R139 to R145: the changeover unit takes a whole trigger at one instant, and says how the transport goes on. -/
def takeTrigger (t : Trigger) (s : State) : State × Cont :=
  let s1 : State := { raiseSuperseded s with changeover := some (s.newRecord t) }
  let w := carryOut t (raiseStarted t s1)
  (completeIfDone w.1.state, w.2)

end Sys2Proof.Machine
end

