-- ==== Sys2Proof/Machine/CueUnit.lean ====
section
/-! DEFINITION. The cue arbiter (chapter 7): resolution, timing, ranking and taking (R124 to R127), due points (R128), the trigger
(R131), and CUE_CANCEL (R132). -/

namespace Sys2Proof.Machine

/-- A change request as it reaches the arbiter (R122); an absent timing is DEFAULT. -/
structure CueRequest where
  claimant : Claimant
  form : CueForm
  timing : Option Timing
  source : Origin
deriving DecidableEq, Repr

/-- The target of a request (R125). -/
structure Target where
  position : Nat
  slot : SlotNo
  scene : Nat
  kind : Kind
deriving DecidableEq, Repr

/-- R121: the relative forms. -/
def CueForm.relative : CueForm → Bool
  | .scene _ => false
  | .position _ => false
  | _ => true

/-! ### Resolution -/

/-- R124: the reference point, a position and a scene, each possibly absent. -/
def State.reference (s : State) (c : Claimant) : Option Nat × Option Nat :=
  match s.cue with
  | some x => if x.relative ∧ x.claimant = c then (some x.position, some x.scene) else (s.curPos, s.curScene)
  | none => (s.curPos, s.curScene)

/-- The scene count of the song at a position (R125). -/
def State.scenesAt (s : State) (p : Nat) : Nat :=
  match s.setlist[p]? with
  | some n => s.sceneCount n
  | none => 0

/-- R125: the target position and scene of a form, or the reason it fails. Where a removal has left NEXT_SONG no position, R125 says
END_OF_LIST and a row of R135 NOT_FOUND: the model answers by R125 (DESIGN CHOICE, log 36). -/
def State.targetOf (s : State) (c : Claimant) : CueForm → Except Result (Nat × Nat)
  | .nextScene =>
    match s.reference c with
    | (none, _) => .error .notFound
    | (some p, n) => if n.getD 0 + 1 < s.scenesAt p then .ok (p, n.getD 0 + 1) else .error .endOfList
  | .prevScene =>
    match s.reference c with
    | (none, _) => .error .notFound
    | (some p, n) => if n.getD 0 = 0 then .error .endOfList else .ok (p, n.getD 0 - 1)
  | .scene n =>
    match s.curPos with
    | none => .error .notFound
    | some p => if n < s.scenesAt p then .ok (p, n) else .error .notFound
  | .nextSong =>
    let p := match (s.reference c).1 with | none => 0 | some p => p + 1
    if p < s.setlist.length then .ok (p, 0) else .error .endOfList
  | .prevSong =>
    match (s.reference c).1 with
    | none => .error .endOfList
    | some p => if p = 0 then .error .endOfList else .ok (p - 1, 0)
  | .position n => if n < s.setlist.length then .ok (n, 0) else .error .notFound

/-- R125: the kind of a resolved change. -/
def State.kindOf (s : State) (p : Nat) : Kind := if s.curPos = some p then .scene else .song

/-- R125: the slot named by the position must be READY. -/
def State.resolve (s : State) (c : Claimant) (f : CueForm) : Except Result Target :=
  match s.targetOf c f with
  | .error r => .error r
  | .ok (p, n) =>
    match s.setlist[p]? with
    | none => .error .notFound
    | some k =>
      match s.slot k with
      | .ready _ => .ok { position := p, slot := k, scene := n, kind := s.kindOf p }
      | _ => .error .notReady

/-- R126: the default timing of a target. -/
def State.defaultTiming (s : State) (t : Target) : Timing :=
  match t.kind with
  | .song => .bar
  | .scene =>
    match s.sceneAt t.slot t.scene with
    | some sc => sc.timing
    | none => .bar

/-! ### Trigger -/

/-- R133: the CUE notice for a change. -/
def State.cueNotice (s : State) (detail : CueDetail) (c : Change) (canceller : Option Link) (displaced : Option Claimant) :
    Notice :=
  .cue detail c canceller displaced (s.sceneName c.slot c.scene)

/-- The trigger a change hands to the changeover unit (R131). -/
def Change.trigger (c : Change) : Trigger :=
  { kind := c.kind, claimant := c.claimant, mark := .none, position := c.position, slot := c.slot, scene := c.scene }

/-- R131: a change is triggered. A trigger from the cue arbiter clears the audition state (R139, R152). -/
def triggerCue (c : Change) (s : State) : State × Cont :=
  let s1 : State := { s with cue := none, departure := some c }
  takeTrigger c.trigger { (raise (s1.cueNotice .triggered c none c.displaced) s1) with audition := none }

/-! ### Taking -/

/-- R127 step 4: the outcome of a taking, by what the slot held. -/
def takingDetail (held : Option Change) (c : Claimant) : CueDetail :=
  match held with
  | none => .taken
  | some x => if x.claimant = c then .replaced else .displaced

/-- R133: the claimant a taking displaces. -/
def displacedBy (held : Option Change) (c : Claimant) : Option Claimant :=
  match held with
  | none => none
  | some x => if x.claimant = c then none else some x.claimant

/-- R126, R127: the change a request makes of its target. -/
def State.changeOf (s : State) (q : CueRequest) (t : Target) : Change :=
  { claimant := q.claimant, position := t.position, slot := t.slot, scene := t.scene, kind := t.kind,
    timing := q.timing.getD (s.defaultTiming t), relative := q.form.relative, source := q.source,
    displaced := displacedBy s.cue q.claimant }

/-- R127, R129: the resolved change enters the slot and waits, or is triggered at its taking. The outcome stands beside
the state (R123). -/
def enterCue (c : Change) (s : State) : State × CueDetail :=
  if c.timing = .now ∨ s.transport.mode = .stopped then
    let r := triggerCue c s
    (continueAfter r.2 r.1, .triggered)
  else
    let d := takingDetail s.cue c.claimant
    let s1 : State := { s with cue := some c }
    (raise (s1.cueNotice d c none c.displaced) s1, d)

/-- R127 check 2: the slot holds a change of a higher rank. -/
def State.cueHeldAgainst (s : State) (c : Claimant) : Bool :=
  match s.cue with
  | some x => decide (c.rank < x.claimant.rank)
  | none => false

/-- What became of a change request: refused, or taken with its outcome and the change (R123). -/
inductive CueOutcome where
  | refused (r : Result)
  | taken (d : CueDetail) (c : Change)
deriving DecidableEq, Repr

/-- R127: take a change request. -/
def takeCue (q : CueRequest) (s : State) : State × CueOutcome :=
  if s.cueHeldAgainst q.claimant then (s, .refused .cueHeld)
  else
    match s.resolve q.claimant q.form with
    | .error r => (s, .refused r)
    | .ok t =>
      let c := s.changeOf q t
      let r := enterCue c s
      (r.1, .taken r.2 c)

/-- R122, R134: a request from STAGE; a refusal raises CUE_REFUSED. -/
def stageCue (f : CueForm) (source : Origin) (s : State) : State :=
  match takeCue { claimant := .stage, form := f, timing := none, source } s with
  | (s', .taken _ _) => s'
  | (s', .refused r) => raise (.cueRefused r f source s.curPos s.curScene) s'

/-- The OK data of CUE: outcome, position, slot, scene, kind and timing (R123, R198). -/
def cueData (d : CueDetail) (c : Change) : List Byte :=
  [d.code, b1 c.position, b1 c.slot.val, b1 c.scene, c.kind.code, c.timing.code]

/-- CUE (R123): the field check, then R127. -/
def cueRequest (l : Link) (fields : List Byte) (s : State) : State × Answer :=
  match fields with
  | [f, n, t] =>
    match cueForm f n, cueTiming t with
    | some f, some t =>
      match takeCue { claimant := claimantOf l, form := f, timing := t, source := .link l } s with
      | (s', .taken d c) => (s', .ok (cueData d c))
      | (s', .refused r) => (s', .refuse r [])
    | _, _ => (s, .refuse .badField [])
  | _ => (s, .refuse .badField [])

/-! ### Due points -/

/-- R128 PHRASE: a bar is a phrase start of the current song. -/
def State.phraseStart (s : State) : Bool :=
  match s.currentSong with
  | none => true
  | some g => decide ((s.transport.bar - 1) % g.phrase = 0)

/-- R128: a change qualifies at a beat or a downbeat. NOW never stands in the slot. -/
def State.qualifies (s : State) (t : Timing) (downbeat : Bool) : Bool :=
  match t with
  | .now => false
  | .beat => true
  | .bar => downbeat
  | .phrase => downbeat && s.phraseStart

/-- R128: the transport hands a beat or a downbeat to the arbiter. -/
def handEvent (downbeat : Bool) (s : State) : State × Cont :=
  match s.cue with
  | some c => if s.qualifies c.timing downbeat then triggerCue c s else (s, .goOn)
  | none => (s, .goOn)

/-- R129: the transport has entered STOPPED; a change that stands is triggered as if NOW. -/
def cueOnStop (s : State) : State :=
  match s.cue with
  | some c => (triggerCue c s).1
  | none => s

/-! ### Cancel -/

/-- CUE_CANCEL (R132). TOO_LATE carries position, slot, scene and claimant of the departure record (R198). -/
def cueCancel (l : Link) (s : State) : State × Answer :=
  match s.cue with
  | some c =>
    if c.claimant.rank ≤ (claimantOf l).rank then
      let s1 : State := { s with cue := none, departure := none }
      (raise (s1.cueNotice .cancelled c (some l) none) s1, .ok [])
    else (s, .refuse .cueHeld [])
  | none =>
    match s.departure with
    | some c => (s, .refuse .tooLate [b1 c.position, b1 c.slot.val, b1 c.scene, c.claimant.code])
    | none => (s, .refuse .notFound [])

/-! ### Auditions -/

/-- The trigger of an audition request (R151, R152). -/
def auditionTrigger (l : Link) (m : Mark) (p : Nat) (n : SlotNo) (scene : Nat) : Trigger :=
  { kind := .scene, claimant := claimantOf l, mark := m, position := p, slot := n, scene }

/-- AUDITION (R151). -/
def auditionRequest (l : Link) (fields : List Byte) (s : State) : State × Answer :=
  match fields with
  | [b] =>
    match numIn 0 11 b with
    | none => (s, .refuse .badField [])
    | some n =>
      if s.transport.mode ≠ .stopped then (s, .refuse .wrongState [])
      else
        match s.curPos, s.currentSlot with
        | some p, some k =>
          if n < s.sceneCount k then
            let s1 : State := { s with audition := some (s.audition.getD (s.curScene.getD 0)) }
            ((takeTrigger (auditionTrigger l .audition p k n) s1).1, .ok [])
          else (s, .refuse .notFound [])
        | _, _ => (s, .refuse .notFound [])
  | _ => (s, .refuse .badField [])

/-- AUDITION_END (R152). An audition stands only while a song is current (R150), so the last case does not arise. -/
def auditionEnd (l : Link) (s : State) : State × Answer :=
  match s.audition with
  | none => (s, .refuse .wrongState [])
  | some n =>
    match s.curPos, s.currentSlot with
    | some p, some k =>
      ((takeTrigger (auditionTrigger l .ret p k n) { s with audition := none }).1, .ok [])
    | _, _ => ({ s with audition := none }, .ok [])

end Sys2Proof.Machine
end

