-- ==== Sys2Proof/Machine/TransportUnit.lean ====
section
/-! DEFINITION. The transport's requests (R83 to R87), the downbeat in its order (R89), stops (R84, R91) and the end of a grid step
(R81, R90). -/

namespace Sys2Proof.Machine

/-! ### Stops and holds -/

/-- R84, R91: the transport stops, the effects in the order of R84. -/
def stopBy (cause : Cause) (origin : Option Origin) (s : State) : State :=
  raiseTransport cause origin (cueOnStop (clearTempo (stopByteFrom s.transport.mode (restTransport s))))

/-- R89 step 1: the transport enters HELD; the notice records no origin (R98). -/
def enterHeld (s : State) : State :=
  let s1 : State := { s with transport := { s.transport with mode := .held, holdPending := false, stepEnd := none } }
  raiseTransport .hold none (sendClock [.stop] s1)

/-- R91: the bar just begun lies beyond the current song's stop bar. -/
def State.beyondStopBar (s : State) : Bool :=
  match s.currentSong with
  | some g =>
    match g.stopBar with
    | some b => decide (b < s.transport.bar)
    | none => false
  | none => false

/-! ### Downbeats and beats -/

/-- R89 steps 3 to 5, with the byte that goes before the CLOCK if the bar is played. -/
def downbeatFromChange (lead : Option RealTime) (s : State) : State :=
  let r := handEvent true s
  match r.2 with
  | .goOn => runningDownbeat lead r.1
  | k => continueAfter k r.1

/-- R89: a downbeat of RUNNING. -/
def downbeat (lead : Option RealTime) (s : State) : State :=
  if s.transport.holdPending then enterHeld s
  else if s.beyondStopBar then stopBy .stopBar none s
  else downbeatFromChange lead s

/-- R90: a beat start of RUNNING that is not a downbeat. -/
def beat (s : State) : State :=
  let r := handEvent false s
  match r.2 with
  | .goOn => runningBeat r.1
  | k => continueAfter k r.1

/-! ### Requests -/

/-- START (R83), from a link or a footswitch. The TRANSPORT notice is raised before those of the downbeat (DESIGN CHOICE, log 35). -/
def startTransport (skip : Bool) (origin : Origin) (s : State) : State × Answer :=
  if s.transport.mode ≠ .stopped then (s, .refuse .wrongState [])
  else if 0 < s.countInBars ∧ skip = false then
    let t := { TransportState.atStart .countIn s.firstSegment with countIn := s.countInBars }
    (countInDownbeat (raiseTransport .start (some origin) (clearAccumulator { s with transport := t })), .ok [])
  else
    let t := TransportState.atStart .running s.firstSegment
    (downbeat (some .start) (raiseTransport .start (some origin) (clearAccumulator { s with transport := t })), .ok [])

/-- STOP (R84), from a link or a footswitch. -/
def stopTransport (origin : Origin) (s : State) : State × Answer :=
  if s.transport.mode = .stopped then (clearTempo s, .ok []) else (stopBy .stop (some origin) s, .ok [])

/-- HOLD (R85). -/
def holdTransport (origin : Origin) (s : State) : State × Answer :=
  if s.transport.mode = .running then
    if s.transport.holdPending then (s, .ok [])
    else (raiseTransport .hold (some origin) { s with transport := { s.transport with holdPending := true } }, .ok [])
  else (s, .refuse .wrongState [])

/-- GO (R86). The stop bar is tested before the state becomes RUNNING (R91). The TRANSPORT notice is raised before those of the
downbeat, though R86 names it after (DESIGN CHOICE, log 35). -/
def goTransport (origin : Origin) (s : State) : State × Answer :=
  if s.transport.mode = .held then
    if s.beyondStopBar then (stopBy .stopBar none s, .ok [])
    else
      (downbeatFromChange (some .continue)
        (raiseTransport .go (some origin)
          (clearAccumulator { s with transport := { s.transport with mode := .running } })), .ok [])
  else (s, .refuse .wrongState [])

/-- EXTEND (R87). -/
def extendBar (origin : Origin) (s : State) : State × Answer :=
  if s.transport.mode = .running then
    if s.transport.extension < Config.extensionMax then
      (raiseTransport .extend (some origin)
        { s with transport := { s.transport with extension := s.transport.extension + 1 } }, .ok [])
    else (s, .full .extension)
  else (s, .refuse .wrongState [])

/-- START from a link: the skip flag is checked before the state (log 10). -/
def startRequest (l : Link) (fields : List Byte) (s : State) : State × Answer :=
  match fields with
  | [b] =>
    match flag b with
    | some skip => startTransport skip (.link l) s
    | none => (s, .refuse .badField [])
  | _ => (s, .refuse .badField [])

/-! ### The grid -/

/-- R81: the position of a bar that begins, its beat 1 and step 0. -/
def TransportState.nextBar (t : TransportState) : TransportState :=
  { t with bar := min (t.bar + 1) Config.barMax, beat := 1, step := 0, extension := 0 }

/-- R88: the downbeat that ends the last count-in bar; the TRANSPORT notice before the downbeat's (DESIGN CHOICE, log 35). -/
def endCountIn (s : State) : State :=
  let t := { s.transport with
    mode := .running, countIn := 0, countInFromSong := false, beat := 1, step := 0, extension := 0 }
  downbeat (some .start)
    (raiseTransport (if s.transport.countInFromSong then .songChange else .start) none { s with transport := t })

/-- R88: the downbeat of a further count-in bar. -/
def nextCountInBar (s : State) : State :=
  countInDownbeat { s with
    transport := { s.transport with countIn := s.transport.countIn - 1, beat := 1, step := 0, extension := 0 } }

/-- R81: a step that would reach the bar length is a downbeat. -/
def beginBar (s : State) : State :=
  if s.transport.mode = .running then downbeat none { s with transport := s.transport.nextBar }
  else if s.transport.countIn ≤ 1 then endCountIn s else nextCountInBar s

/-- R81: a step within the bar begins, perhaps with a beat. -/
def beginStepInBar (s : State) : State :=
  let n := s.transport.step + 1
  if n % s.transport.beatLength = 0 then
    let s1 : State := { s with transport := { s.transport with step := n, beat := n / s.transport.beatLength + 1 } }
    if s.transport.mode = .running then beat s1 else countInBeat s1
  else plainStep { s with transport := { s.transport with step := n } }

/-- The end of one step is the start of the next (R81). -/
def nextStep (s : State) : State :=
  if s.transport.barLength ≤ s.transport.step + 1 then beginBar s else beginStepInBar s

/-- R81: in these states the grid runs as a chain of steps. -/
def TransportMode.runsGrid : TransportMode → Bool
  | .countIn => true
  | .running => true
  | _ => false

/-- GRID_STEP_END (R81): the step in progress ends. With no step in progress nothing happens. -/
def stepEnds (s : State) : State :=
  match s.transport.stepEnd with
  | none => s
  | some d => if s.transport.mode.runsGrid then nextStep (s.reach d) else s

end Sys2Proof.Machine
end

