-- ==== Sys2Proof/Machine/Resets.lean ====
section
/-! DEFINITION. What reaches every unit at one instant: PANIC (R193), SOFT_RESET (R194), the pin reset and the end of
initialisation (R185, R175). -/

namespace Sys2Proof.Machine

/-! ### PANIC -/

/-- R193: the PANIC notice as things stand. -/
def State.panicNotice (s : State) (origin : Origin) : Notice :=
  .panic origin s.transport.bar s.transport.beat s.transport.step

/-- R193: PANIC, from a link or a footswitch. Ports report their settle ends OUT0 first (log 27). -/
def panicAll (origin : Origin) (s : State) : State :=
  let s := allPorts.foldl (fun s p => panicPort p s) (emptyNoteTable s)
  let s : State := { s.setOffs [] with panicCount := bump s.panicCount }
  raise (s.panicNotice origin) s

/-! ### SOFT_RESET -/

/-- R43: an input parser at SOFT_RESET; watch, settings and counters stay. -/
def InputState.softReset (x : InputState) : InputState := { x with parse := .ready, running := none }

/-- R4: the live zone table and identity that the current selection gives. -/
def reloadLive (s : State) : State :=
  match s.currentSlot, s.curScene with
  | some n, some k => { s with live := (s.sceneAt n k).elim [] (fun sc => sc.zones), liveId := some (n, k) }
  | _, _ => { s with live := [], liveId := none }

/-- Every port takes a new state of its own. -/
def mapPorts (f : PortState → PortState) (s : State) : State :=
  allPorts.foldl (fun s p => s.setPort p (f (s.port p))) s

/-- Every input parser takes a new state of its own. -/
def mapInputs (f : InputState → InputState) (s : State) : State :=
  allInputs.foldl (fun s i => s.setInput i (f (s.input i))) s

/-- Every footswitch line takes a new state of its own. -/
def mapFoots (f : FootState → FootState) (s : State) : State :=
  allFoots.foldl (fun s n => s.setFoot n (f (s.foot n))) s

/-- R194: SOFT_RESET, every unit by its own rule, at one instant. -/
def softResetAll (s : State) : State :=
  let s := emptyNoteTable (reloadLive s)
  let s := restTransport (softResetTempo s)
  mapInputs InputState.softReset (mapPorts PortState.softReset
    { s.setOffs [] with
      cue := none, departure := none, changeover := none, audition := none,
      progMem := Vector.replicate 8 (Vector.replicate 16 none) })

/-! ### Pin reset and initialisation -/

/-- R58: the CLKIN frequency the straps CKSEL1 and CKSEL0 select. -/
def clkinOf (cksel1 cksel0 : Bool) : Clkin :=
  match cksel1, cksel0 with
  | false, false => .mhz8
  | false, true => .mhz12
  | true, false => .mhz16
  | true, true => .mhz24

/-- A line after a pin reset: the contact keeps its level (R53). -/
def FootState.pinReset (f : FootState) : FootState := { FootState.reset with level := f.level }

/-- R185: the part right after a pin reset. The contacts keep their levels; the timebase and the waiting commands are the
model's own and go on (log 8). -/
def pinResetAll (cksel1 cksel0 : Bool) (s : State) : State :=
  mapFoots FootState.pinReset
    { State.reset with
      now := s.now
      init := some (s.now + Config.initialisation)
      clkin := clkinOf cksel1 cksel0
      foots := s.foots
      pending := s.pending }

/-- R53: at the end of initialisation a line's debounced state is set to its level, and its timer is stopped. -/
def FootState.settle (f : FootState) : FootState := { f with debounced := f.level, debounceDue := none }

/-- R185: the initialisation ends: the lines are settled (R53) and every port is swept (R175). With none in progress nothing
happens (log 30). -/
def endInitialisation (s : State) : State :=
  match s.init with
  | none => s
  | some d =>
    mapPorts PortState.sweepAll (mapFoots FootState.settle { s.reach d with init := none })

end Sys2Proof.Machine
end

