-- ==== Sys2Proof/Machine/Footswitch.lean ====
section
/-! DEFINITION. The footswitch unit (R53 to R57) and the settings requests of inputs, footswitch lines, ports and click channels
(R50, R56, R94, R157). -/

namespace Sys2Proof.Machine

/-! ### Lines -/

/-- FOOTSWITCH_LINE_CHANGE (R53): the level follows the contact. The timer runs exactly while it differs from the debounced
state; during initialisation the lines are not watched. A change to the level held already changes nothing (log 28). -/
def lineChange (n : FootLine) (level : Level) (s : State) : State :=
  let f := s.foot n
  if f.level = level then s
  else if s.init.isSome then s.setFoot n { f with level }
  else
    s.setFoot n { f with
      level
      debounceDue := if level = f.debounced then none else some (s.now + Config.debounce) }

/-- R54: the debounced state is the pressed one. -/
def FootState.pressed (f : FootState) : Bool :=
  match f.polarity with
  | .make => decide (f.debounced = .closed)
  | .break => decide (f.debounced = .opened)

/-- R55: a press goes to the line's function. -/
def press (n : FootLine) (s : State) : State :=
  match (s.foot n).function with
  | .none => s
  | .nextScene => stageCue .nextScene (.foot n) s
  | .prevScene => stageCue .prevScene (.foot n) s
  | .nextSong => stageCue .nextSong (.foot n) s
  | .tap => takeTap s
  | .startStop =>
    if s.transport.mode = .stopped then (startTransport false (.foot n) s).1 else (stopTransport (.foot n) s).1
  | .holdGo =>
    match s.transport.mode with
    | .running => (holdTransport (.foot n) s).1
    | .held => (goTransport (.foot n) s).1
    | _ => s
  | .panic => panicAll (.foot n) s
  | .sustain =>
    match (s.foot n).sustain with
    | some (i, c) => askPedal i c true s
    | none => s

/-- R55: a release acts for SUSTAIN alone. -/
def release (n : FootLine) (s : State) : State :=
  match (s.foot n).function, (s.foot n).sustain with
  | .sustain, some (i, c) => askPedal i c false s
  | _, _ => s

/-- FOOTSWITCH_DEBOUNCE_EXPIRY (R53, R54). With the timer stopped nothing happens. -/
def debounceExpiry (n : FootLine) (s : State) : State :=
  match (s.foot n).debounceDue with
  | none => s
  | some d =>
    let s := (s.reach d).setFoot n (s.foot n).settle
    if (s.foot n).pressed then press n s else release n s

/-! ### Settings -/

/-- R56: the line is looked at under its old settings: a SUSTAIN held down is let go. -/
def letGo (n : FootLine) (s : State) : State :=
  match (s.foot n).function, (s.foot n).sustain with
  | .sustain, some (i, c) => if (s.foot n).pressed then askPedal i c false s else s
  | _, _ => s

/-- FOOTSWITCH_SET (R56). -/
def footswitchSet (fields : List Byte) (s : State) : State × Answer :=
  match footSettings fields with
  | none => (s, .refuse .badField [])
  | some (n, f, p, src) =>
    let s := letGo n s
    (s.setFoot n { s.foot n with function := f, polarity := p, sustain := src }, .ok [])

/-- R50: a new watch setting. -/
def setWatchOn (i : Input) (on : Bool) (s : State) : State :=
  let x := s.input i
  if x.watchOn = on then s
  else if on = false ∧ x.watch ≠ .unwatched then
    raise (.input i .unwatched) (s.setInput i { x with watchOn := false, watch := .unwatched, watchDue := none })
  else s.setInput i { x with watchOn := on }

/-- INPUT_SET (R50). -/
def inputSetRequest (fields : List Byte) (s : State) : State × Answer :=
  match inputSettings fields with
  | none => (s, .refuse .badField [])
  | some (i, c, on) => (setWatchOn i on (s.setInput i { s.input i with cueChannel := c }), .ok [])

/-- OUTPUT_SET (R157). -/
def outputSetRequest (fields : List Byte) (s : State) : State × Answer :=
  match portSettings fields with
  | none => (s, .refuse .badField [])
  | some (p, x) => (s.setPort p ((s.port p).configure s.now x), .ok [])

/-- CLICK_SET (R94). -/
def clickSetRequest (fields : List Byte) (s : State) : State × Answer :=
  match clickSettings fields with
  | none => (s, .refuse .badField [])
  | some (n, c) => (s.setClickChannel n c, .ok [])

end Sys2Proof.Machine
end

