-- ==== Sys2Proof/Machine/LibraryUnit.lean ====
section
/-! DEFINITION. The song library (chapter 6): the building requests by the checks of R106, SONG_OPEN, SONG_CLOSE, SONG_ERASE,
SONG_QUERY, and the LIBRARY notice (R115). Each function takes the requesting link and the field bytes. -/

namespace Sys2Proof.Machine

/-- The name a LIBRARY notice carries: that of a slot that is READY (R115). -/
def Slot.readyName : Slot → List Byte
  | .ready g => g.name
  | _ => []

/-- The owner a LIBRARY notice carries: that of a slot that is OPEN (R115, log 31). -/
def Slot.owner : Slot → Option Link
  | .building o _ _ => some o
  | _ => none

/-- A slot changes its state; the LIBRARY notice goes to the link that did not ask (R115). -/
def changeSlot (l : Link) (n : SlotNo) (x : Slot) (s : State) : State :=
  raiseOn l.other (.library n (s.slot n).mode x.mode x.owner x.readyName) (s.setSlot n x)

/-! ### Opening and erasing -/

/-- SONG_OPEN (R107). -/
def songOpen (l : Link) (fields : List Byte) (s : State) : State × Answer :=
  match songHeader fields with
  | none => (s, .refuse .badField [])
  | some (n, g) =>
    if (s.ownedSlot l).isSome then (s, .refuse .wrongState [])
    else
      match s.slot n with
      | .building _ _ _ => (s, .refuse .inUse [])
      | .ready _ =>
        if s.inUse n then (s, .refuse .inUse []) else (changeSlot l n (.building l g none) s, .ok [])
      | .empty => (changeSlot l n (.building l g none) s, .ok [])

/-- SONG_ERASE (R113). -/
def songErase (l : Link) (fields : List Byte) (s : State) : State × Answer :=
  match fields with
  | [b] =>
    match below 48 b with
    | none => (s, .refuse .badField [])
    | some n =>
      match s.slot n with
      | .empty => (s, .ok [])
      | .building o _ _ => if o = l then (changeSlot l n .empty s, .ok []) else (s, .refuse .inUse [])
      | .ready _ => if s.inUse n then (s, .refuse .inUse []) else (changeSlot l n .empty s, .ok [])
  | _ => (s, .refuse .badField [])

/-! ### Building -/

/-- R106 check 1: the OPEN song of the requesting link. -/
def State.ownedSong (s : State) (l : Link) : Option (SlotNo × Song × Option Nat) :=
  match s.ownedSlot l with
  | none => none
  | some n =>
    match s.slot n with
    | .building _ g c => some (n, g, c)
    | _ => none

/-- R108: the start bar of a new segment is in order. -/
def Song.inOrder (g : Song) (x : Segment) : Bool :=
  match g.segments.getLast? with
  | none => decide (x.startBar = 1)
  | some y => decide (y.startBar < x.startBar)

/-- SONG_SEGMENT (R108). -/
def songSegment (l : Link) (fields : List Byte) (s : State) : State × Answer :=
  match s.ownedSong l with
  | none => (s, .refuse .wrongState [])
  | some (n, g, c) =>
    match segmentRecord fields with
    | none => (s, .refuse .badField [])
    | some x =>
      if Config.segmentMax ≤ g.segments.length then (s, .full .segments)
      else if g.inOrder x then
        (s.setSlot n (.building l { g with segments := g.segments ++ [x] } c), .ok [b1 g.segments.length])
      else (s, .refuse .badField [])

/-- SCENE_BEGIN (R109). -/
def sceneBegin (l : Link) (fields : List Byte) (s : State) : State × Answer :=
  match s.ownedSong l with
  | none => (s, .refuse .wrongState [])
  | some (n, g, _) =>
    match sceneHeader fields with
    | none => (s, .refuse .badField [])
    | some x =>
      if Config.sceneMax ≤ g.scenes.length then (s, .full .scenes)
      else
        (s.setSlot n (.building l { g with scenes := g.scenes ++ [x] } (some g.scenes.length)),
          .ok [b1 g.scenes.length])

/-- R106 checks 1 and 2: the scene under the cursor of the link's OPEN song. -/
def State.ownedScene (s : State) (l : Link) : Option (SlotNo × Song × Nat × Scene) :=
  match s.ownedSong l with
  | some (n, g, some k) => (g.scenes[k]?).map (fun sc => (n, g, k, sc))
  | _ => none

/-- The OPEN song with one scene replaced, the cursor on it. -/
def putScene (l : Link) (n : SlotNo) (g : Song) (k : Nat) (sc : Scene) (s : State) : State :=
  s.setSlot n (.building l { g with scenes := g.scenes.set k sc } (some k))

/-- SCENE_ZONE (R110). -/
def sceneZone (l : Link) (fields : List Byte) (s : State) : State × Answer :=
  match s.ownedScene l with
  | none => (s, .refuse .wrongState [])
  | some (n, g, k, sc) =>
    match zoneRecord fields with
    | none => (s, .refuse .badField [])
    | some z =>
      if Config.sceneListMax ≤ sc.zones.length then (s, .full .sceneList)
      else if s.zoneFree = 0 then (s, .full .pool)
      else
        let s' := putScene l n g k { sc with zones := sc.zones ++ [z] } s
        (s', .ok (b1 sc.zones.length :: b2 s'.zoneFree))

/-- The place of the assignment for a (port, channel) in a scene (R111). -/
def Scene.placeOf (sc : Scene) (a : Assignment) : Option Nat :=
  sc.assignments.findIdx? (fun x => decide (x.port = a.port ∧ x.chan = a.chan))

/-- SCENE_PROGRAM (R111). -/
def sceneProgram (l : Link) (fields : List Byte) (s : State) : State × Answer :=
  match s.ownedScene l with
  | none => (s, .refuse .wrongState [])
  | some (n, g, k, sc) =>
    match assignmentRecord fields with
    | none => (s, .refuse .badField [])
    | some a =>
      match sc.placeOf a with
      | some i =>
        (putScene l n g k { sc with assignments := sc.assignments.set i a } s, .ok (1#8 :: b1 i :: b2 s.programFree))
      | none =>
        if Config.sceneListMax ≤ sc.assignments.length then (s, .full .sceneList)
        else if s.programFree = 0 then (s, .full .pool)
        else
          let s' := putScene l n g k { sc with assignments := sc.assignments ++ [a] } s
          (s', .ok (0#8 :: b1 sc.assignments.length :: b2 s'.programFree))

/-! ### Closing -/

/-- R112: the index of the first segment whose ramp runs past the next start bar, counting from `i`. -/
def rampOverlap (i : Nat) : List Segment → Option Nat
  | x :: y :: rest =>
    if 0 < x.rampBars ∧ y.startBar < x.startBar + x.rampBars then some i else rampOverlap (i + 1) (y :: rest)
  | _ => none

/-- R112: the first close check that fails, with the index a RAMP_OVERLAP carries. -/
def Song.closeFault (g : Song) : Option (SongFault × Option Nat) :=
  if g.segments.isEmpty then some (.noSegment, none)
  else if g.scenes.isEmpty then some (.noScene, none)
  else (rampOverlap 0 g.segments).map (fun i => (.rampOverlap, some i))

/-- SONG_CLOSE (R112). -/
def songClose (l : Link) (s : State) : State × Answer :=
  match s.ownedSong l with
  | none => (s, .refuse .wrongState [])
  | some (n, g, _) =>
    match g.closeFault with
    | some (why, i) => (s, .refuse .badSong [why.code, bOpt b1 i])
    | none =>
      (changeSlot l n (.ready g) s,
        .ok [b1 g.segments.length, b1 g.scenes.length, b1 (Slot.ready g).zoneItems, b1 (Slot.ready g).programItems])

/-! ### Reporting -/

/-- The zone and assignment counts of each scene (R114). -/
def Song.sceneCounts (g : Song) : List Byte :=
  g.scenes.flatMap (fun sc => [b1 sc.zones.length, b1 sc.assignments.length])

/-- The SONG_QUERY fields of an OPEN or READY slot after its IN USE flag (R198). -/
def songFields (x : Slot) (g : Song) (s : State) : List Byte :=
  [b1 g.countIn, g.startMode.code, b1 g.phrase] ++ b2 (g.stopBar.getD 0) ++
    [b1 g.segments.length, b1 g.scenes.length, b1 x.zoneItems, b1 x.programItems] ++ b2 s.zoneFree ++ b2 s.programFree ++
    g.sceneCounts ++ g.name

/-- The data of SONG_QUERY (R114, R198). -/
def songData (n : SlotNo) (s : State) : List Byte :=
  match s.slot n with
  | .empty =>
    [SlotMode.empty.code, 0xFF#8, 0xFF#8, 0xFF#8, 0#8, 0#8, 0#8, 0#8, 0#8, 0#8, 0#8, 0#8, 0#8] ++
      b2 s.zoneFree ++ b2 s.programFree
  | .building o g c =>
    [SlotMode.building.code, linkCode o, bOpt b1 c, 0xFF#8] ++ songFields (.building o g c) g s
  | .ready g => [SlotMode.ready.code, 0xFF#8, 0xFF#8, bFlag (s.inUse n)] ++ songFields (.ready g) g s

/-- SONG_QUERY (R114). -/
def songQuery (fields : List Byte) (s : State) : State × Answer :=
  match fields with
  | [b] =>
    match below 48 b with
    | none => (s, .refuse .badField [])
    | some n => (s, .ok (songData n s))
  | _ => (s, .refuse .badField [])

end Sys2Proof.Machine
end

