-- ==== Sys2Proof/Machine/Parser.lean ====
section
/-! DEFINITION. The input parsers (chapter 3): byte classes, parse states and running status (R41 to R46), completed messages (R47,
R48), and the input watch (R51, R52). -/

namespace Sys2Proof.Machine

/-! ### Classes of byte -/

/-- R41: the classes of byte. -/
inductive ByteClass where
  | data
  | status
  | system
  | realTime
deriving DecidableEq, Repr

/-- R41: the class of a byte. -/
def byteClass (b : Byte) : ByteClass :=
  if b.toNat < 0x80 then .data
  else if b.toNat < 0xF0 then .status
  else if b.toNat < 0xF8 then .system
  else .realTime

/-- R42: Cxh and Dxh need one data byte, the other kinds two. -/
def messageLength (status : Byte) : Nat :=
  if status.toNat / 16 = 12 ∨ status.toNat / 16 = 13 then 1 else 2

/-! ### Parse states -/

/-- What a byte does to a parser: its state after, and the message it completes. -/
structure Parsed where
  parser : InputState
  message : Option Message
deriving DecidableEq, Repr

/-- R42: a partial channel message is abandoned and counted. -/
def InputState.abandon (x : InputState) : InputState :=
  match x.parse with
  | .collecting _ _ => { x with discard := bump x.discard }
  | _ => x

/-- R42, R43: a channel status byte. -/
def InputState.takeStatus (x : InputState) (b : Byte) : InputState :=
  { x.abandon with parse := .collecting b [], running := some b }

/-- R44: the parse state a system byte leads to. -/
def systemState (b : Byte) : ParseState :=
  if b = 0xF0#8 then .exclusive
  else if b = 0xF1#8 ∨ b = 0xF3#8 then .common 1
  else if b = 0xF2#8 then .common 2
  else .ready

/-- R44: a system byte. -/
def InputState.takeSystem (x : InputState) (b : Byte) : InputState :=
  { x.abandon with parse := systemState b, running := none }

/-- R42: a data byte of a channel message. -/
def InputState.collect (x : InputState) (status : Byte) (data : List Byte) (b : Byte) : Parsed :=
  if messageLength status ≤ data.length + 1 then
    { parser := { x with parse := .ready }, message := some { status, data := data ++ [b] } }
  else { parser := { x with parse := .collecting status (data ++ [b]) }, message := none }

/-- R42: a data byte. -/
def InputState.takeData (x : InputState) (b : Byte) : Parsed :=
  match x.parse with
  | .ready =>
    match x.running with
    | some r => x.collect r [] b
    | none => { parser := { x with discard := bump x.discard }, message := none }
  | .collecting status data => x.collect status data b
  | .exclusive => { parser := x, message := none }
  | .common n =>
    { parser := { x with parse := if n ≤ 1 then .ready else .common (n - 1) }, message := none }

/-- R41 to R45: a byte taken. A real-time byte leaves the parser as it was. -/
def InputState.takeByte (x : InputState) (b : Byte) : Parsed :=
  match byteClass b with
  | .data => x.takeData b
  | .status => { parser := x.takeStatus b, message := none }
  | .system => { parser := x.takeSystem b, message := none }
  | .realTime => { parser := x, message := none }

/-! ### Completed messages -/

/-- The channel of a status byte (R47). -/
def chanOf (status : Byte) : Chan := ⟨status.toNat % 16, Nat.mod_lt _ (by decide)⟩

/-- R48: the channel is the input's cue channel. -/
def State.onCueChannel (s : State) (i : Input) (c : Chan) : Bool := decide ((s.input i).cueChannel = some c)

/-- R47, R48: a control change. -/
def handController (i : Input) (c : Chan) (n v : Nat) (s : State) : State :=
  if n = 64 then askPedal i c (decide (64 ≤ v)) s
  else if n = 0 ∨ n = 32 ∨ 120 ≤ n then s
  else if n = 20 ∧ s.onCueChannel i c then
    if 64 ≤ v then stageCue .nextScene (.input i) s else s
  else if n = 21 ∧ s.onCueChannel i c then
    if 64 ≤ v then stageCue .prevScene (.input i) s else s
  else routeControl i c (.controller n) v s

/-- R47, R48: a program change. -/
def handProgram (i : Input) (c : Chan) (p : Nat) (s : State) : State :=
  if s.onCueChannel i c ∧ p < 64 then stageCue (.position p) (.input i) s else s

/-- R47: a message of two data bytes. -/
def handTwo (i : Input) (c : Chan) (kind x y : Nat) (s : State) : State :=
  match kind with
  | 8 => noteOff i c x y s
  | 9 => if y = 0 then noteOff i c x Config.offVelocity s else noteOn i c x y s
  | 10 => polyPressure i c x y s
  | 11 => handController i c x y s
  | 14 => routeControl i c .bend (y * 128 + x) s
  | _ => s

/-- R47: a message of one data byte. -/
def handOne (i : Input) (c : Chan) (kind x : Nat) (s : State) : State :=
  match kind with
  | 12 => handProgram i c x s
  | 13 => routeControl i c .pressure x s
  | _ => s

/-- R47: a completed message is handed on by its kind. -/
def handOver (i : Input) (m : Message) (s : State) : State :=
  match m.data with
  | [x, y] => handTwo i (chanOf m.status) (m.status.toNat / 16) x.toNat y.toNat s
  | [x] => handOne i (chanOf m.status) (m.status.toNat / 16) x.toNat s
  | _ => s

/-! ### The watch -/

/-- R51: a change of watch state raises the INPUT notice. -/
def setWatch (i : Input) (w : WatchState) (due : Option Nat) (s : State) : State :=
  raise (.input i w) (s.setInput i { s.input i with watch := w, watchDue := due })

/-- R51: the watch takes a byte; active sensing is FEh. -/
def feedWatch (i : Input) (b : Byte) (s : State) : State :=
  let due := some (s.now + Config.watch)
  if (s.input i).watchOn then
    match (s.input i).watch with
    | .unwatched => if b = 0xFE#8 then setWatch i .watched due s else s
    | .watched => s.setInput i { s.input i with watchDue := due }
    | .lost => if b = 0xFE#8 then setWatch i .watched due s else setWatch i .unwatched none s
  else s

/-- INPUT_WATCH_EXPIRY (R52). With the timer stopped nothing happens. -/
def watchExpiry (i : Input) (s : State) : State :=
  match (s.input i).watchDue with
  | none => s
  | some d => takeFault .inputLost (.input i) (setWatch i .lost none (loseInput i (s.reach d)))

/-! ### Bytes -/

/-- R46: a byte with a framing error. -/
def framingError (i : Input) (s : State) : State :=
  let x := s.input i
  takeFault .inputFraming (.input i)
    (s.setInput i { x with parse := .ready, running := none, framing := bump x.framing })

/-- R42: a byte taken moves the parser, and the message it completes is handed on. -/
def parseByte (i : Input) (b : Byte) (s : State) : State :=
  let r := (s.input i).takeByte b
  let s := s.setInput i r.parser
  match r.message with
  | some m => handOver i m s
  | none => s

/-- INPUT_BYTE_RECEIVED (R41, R42, R46, R51): the watch first, then the parser (log 17). A byte that ends during initialisation
is discarded. -/
def inputByte (i : Input) (b : Byte) (stopOk : Bool) (s : State) : State :=
  if s.init.isSome then s
  else if stopOk then parseByte i b (feedWatch i b s)
  else framingError i s

end Sys2Proof.Machine
end

