-- ==== Sys2Proof/Machine/Reports.lean ====
section
/-! DEFINITION. The reporting requests of the links (R187 to R192) and TEMPO_SET and TAP as requests (R71, R75). -/

namespace Sys2Proof.Machine

/-! ### Masks and notes -/

/-- NOTICE_MASK (R187): entries of kinds no longer admitted leave the queue. -/
def noticeMask (l : Link) (fields : List Byte) (s : State) : State × Answer :=
  match fields with
  | [hi, lo] =>
    match maskOf hi lo with
    | none => (s, .refuse .badField [])
    | some m =>
      (s.setLink l { s.link l with
          mask := m, notices := (s.link l).notices.filter (fun e => m.getLsbD e.notice.kind.bit) },
        .ok (b2 m.toNat))
  | _ => (s, .refuse .badField [])

/-- LINK_NOTE (R188): the note goes to the other link, and the reply says whether its mask passed it over. -/
def linkNote (l : Link) (fields : List Byte) (s : State) : State × Answer :=
  match text 0 32 fields with
  | none => (s, .refuse .badField [])
  | some t =>
    (raiseOn l.other (.linkNote l t) s,
      .ok [bFlag (!(s.link l.other).mask.getLsbD NoticeKind.linkNote.bit)])

/-! ### Status -/

/-- The cue bytes of the SHOW section: FFh when the slot is empty (R198). -/
def cueStatus : Option Change → List Byte
  | none => [0xFF#8, 0xFF#8, 0xFF#8, 0xFF#8, 0xFF#8, 0xFF#8, 0xFF#8, 0xFF#8]
  | some c =>
    [c.claimant.code, b1 c.position, b1 c.slot.val, b1 c.scene, c.kind.code, c.timing.code, bFlag c.relative,
      c.source.code]

/-- The tempo set byte: bit 0 override present, bit 1 staged value present (R198). -/
def tempoSetByte (t : TempoState) : Byte :=
  b1 ((if t.override.isSome then 1 else 0) + (if t.staged.isSome then 2 else 0))

/-- The transport part of the SHOW section (R80, R198). -/
def transportStatus (t : TransportState) : List Byte :=
  [t.mode.code] ++ b2 t.bar ++ [b1 t.beat] ++ b2 t.step ++
    [b1 t.numerator, b1 t.denominator, b1 t.extension, bFlag t.holdPending, b1 t.countIn]

/-- The SHOW section (R189, R198). -/
def showData (s : State) : List Byte :=
  [0#8] ++ transportStatus s.transport ++ b2 s.tempo.current ++
    [tempoSetByte s.tempo, bOpt b1 s.curPos, bOpt (fun n => b1 n.val) s.currentSlot, bOpt b1 s.curScene] ++
    cueStatus s.cue ++ allInputs.map (fun i => (s.input i).watch.code) ++
    [bFlag s.faultRecord.isSome, b1 s.held.length, bOpt (fun e => b1 e.scene) s.held.head?]

/-- The record's part of the CHANGE section: FFh where IDLE has no value (R154, R198). -/
def recordStatus : Option Changeover → List Byte
  | none => [0xFF#8, 0xFF#8, 0xFF#8, 0xFF#8, 0xFF#8, 0xFF#8, 0xFF#8, 0xFF#8, 0xFF#8]
  | some r =>
    [r.kind.code, r.claimant.code, r.mark.code, bOpt b1 r.source.position, bOpt (fun n => b1 n.val) r.source.slot,
      bOpt b1 r.source.scene, b1 r.position, b1 r.slot.val, b1 r.scene]

/-- The port entries of the active record. -/
def State.entries (s : State) : List PortEntry := s.changeover.elim [] (fun r => r.ports)

/-- The CHANGE section (R154, R189, R198). -/
def changeData (s : State) : List Byte :=
  [1#8, s.recordState.code] ++ recordStatus s.changeover ++
    [bFlag s.audition.isSome, bOpt b1 s.audition, b1 s.entries.length] ++
    s.entries.flatMap (fun e => [b1 e.port.val, e.state.code, b1 e.outstanding])

/-- STATUS_GET (R189). -/
def statusGet (fields : List Byte) (s : State) : State × Answer :=
  match fields with
  | [b] => if b = 0#8 then (s, .ok (showData s)) else if b = 1#8 then (s, .ok (changeData s)) else (s, .refuse .badField [])
  | _ => (s, .refuse .badField [])

/-! ### Counters -/

/-- A counter group with its number (R190). -/
inductive CounterGroup where
  | input (i : Input)
  | output (p : Port)
  | global
deriving DecidableEq, Repr

/-- R190, R196, R200: the group a request names; GLOBAL has the number 00h. -/
def counterGroup (g n : Byte) : Option CounterGroup :=
  match g.toNat with
  | 0 => (below 6 n).map .input
  | 1 => (below 8 n).map .output
  | 2 => if n = 0#8 then some .global else none
  | _ => none

/-- The link counters in order (R190). -/
def LinkState.counters (k : LinkState) : List Nat := [k.framesTaken, k.badFrames, k.overruns]

/-- R190: the values of a group, in order. -/
def State.counters (s : State) : CounterGroup → List Nat
  | .input i =>
    [(s.input i).framing, (s.input i).discard, (s.input i).orphan, (s.input i).transposeSkip, (s.input i).layerLimit]
  | .output p =>
    [(s.port p).settleDrop, (s.port p).noteDiscard, (s.port p).overflow, (s.port p).mergeDrop, (s.port p).clickDrop,
      (s.port p).realtimeDrop]
  | .global => [s.stealCount, s.panicCount] ++ s.linkA.counters ++ s.linkB.counters

/-- The link counters cleared. -/
def LinkState.clearCounters (k : LinkState) : LinkState := { k with framesTaken := 0, badFrames := 0, overruns := 0 }

/-- R190: a group is set to 0. -/
def clearGroup (g : CounterGroup) (s : State) : State :=
  match g with
  | .input i =>
    s.setInput i { s.input i with framing := 0, discard := 0, orphan := 0, transposeSkip := 0, layerLimit := 0 }
  | .output p =>
    s.setPort p { s.port p with
      settleDrop := 0, noteDiscard := 0, overflow := 0, mergeDrop := 0, clickDrop := 0, realtimeDrop := 0 }
  | .global =>
    { s with stealCount := 0, panicCount := 0, linkA := s.linkA.clearCounters, linkB := s.linkB.clearCounters }

/-- COUNTERS_GET (R190). -/
def countersGet (fields : List Byte) (s : State) : State × Answer :=
  match fields with
  | [g, n, c] =>
    match counterGroup g n, flag c with
    | some k, some clear =>
      (if clear then clearGroup k s else s, .ok ([g, n] ++ (s.counters k).flatMap b2))
    | _, _ => (s, .refuse .badField [])
  | _ => (s, .refuse .badField [])

/-! ### The fault record -/

/-- The data of FAULT_GET and FAULT_CLEAR (R192, R196, R198). -/
def faultData : Option FaultRecord → List Byte
  | none => [0xFF#8, 0#8, 0#8, 0#8, 0#8, 0#8, 0#8, 0#8]
  | some r => [r.cls.code, r.source.code] ++ b2 r.bar ++ [b1 r.beat] ++ b2 r.step ++ [b1 r.later]

/-- FAULT_GET (R192). -/
def faultGet (s : State) : State × Answer := (s, .ok (faultData s.faultRecord))

/-- FAULT_CLEAR (R192). -/
def faultClear (s : State) : State × Answer := ({ s with faultRecord := none }, .ok (faultData s.faultRecord))

/-! ### Tempo requests -/

/-- TEMPO_SET (R71): a tempo, or 0000h for CLEAR; a staged one is due at a downbeat (R70). -/
def tempoSet (fields : List Byte) (s : State) : State × Answer :=
  match fields with
  | [hi, lo] =>
    if word hi lo = 0 then (takeTempo .clear .downbeat s, .ok [])
    else
      match tempoIn (word hi lo) with
      | some t => (takeTempo (.tempo t) .downbeat s, .ok [])
      | none => (s, .refuse .badField [])
  | _ => (s, .refuse .badField [])

end Sys2Proof.Machine
end

