-- ==== Sys2Proof/Machine/SetlistUnit.lean ====
section
/-! DEFINITION. The setlist (R117 to R120): insertion and removal with the positions held elsewhere, SET_CLEAR and the packing of
SET_QUERY. -/

namespace Sys2Proof.Machine

/-! ### Positions held elsewhere -/

/-- Apply `f` to every position held elsewhere: the current one, the cue slot's, and the changeover's source and target
(R118, R119). The departure record, a copy (R121), is not among them. -/
def mapPositions (f : Nat → Nat) (s : State) : State :=
  { s with
    curPos := s.curPos.map f
    cue := s.cue.map (fun c => { c with position := f c.position })
    changeover := s.changeover.map (fun r =>
      { r with position := f r.position, source := { r.source with position := r.source.position.map f } }) }

/-- R118: a held position that is `p` or above is raised by one. -/
def raiseFrom (p n : Nat) : Nat := if p ≤ n then n + 1 else n

/-- R119: a held position above `p` is lowered by one. -/
def lowerAbove (p n : Nat) : Nat := if p < n then n - 1 else n

/-- R119: a position that may not be removed. -/
def State.protectedPosition (s : State) (p : Nat) : Bool :=
  decide (s.curPos = some p) ||
  (match s.cue with | some c => decide (c.position = p) | none => false) ||
  (match s.changeover with | some r => decide (r.position = p) || decide (r.source.position = some p) | none => false)

/-! ### Requests -/

/-- SET_INSERT (R118). -/
def setInsert (fields : List Byte) (s : State) : State × Answer :=
  match fields with
  | [pb, nb] =>
    match numIn 0 64 pb, below 48 nb with
    | some p, some n =>
      if s.setlist.length < p then (s, .refuse .notFound [])
      else if Config.setlistMax ≤ s.setlist.length then (s, .full .setlist)
      else
        (mapPositions (raiseFrom p) { s with setlist := s.setlist.take p ++ n :: s.setlist.drop p },
          .ok [b1 (s.setlist.length + 1)])
    | _, _ => (s, .refuse .badField [])
  | _ => (s, .refuse .badField [])

/-- SET_REMOVE (R119). -/
def setRemove (fields : List Byte) (s : State) : State × Answer :=
  match fields with
  | [pb] =>
    match numIn 0 63 pb with
    | none => (s, .refuse .badField [])
    | some p =>
      if s.setlist.length ≤ p then (s, .refuse .notFound [])
      else if s.protectedPosition p then (s, .refuse .inUse [])
      else
        (mapPositions (lowerAbove p) { s with setlist := s.setlist.take p ++ s.setlist.drop (p + 1) },
          .ok [b1 (s.setlist.length - 1)])
  | _ => (s, .refuse .badField [])

/-- SET_CLEAR (R120). -/
def setClear (s : State) : State × Answer :=
  if s.curPos.isSome || s.cue.isSome then (s, .refuse .inUse []) else ({ s with setlist := [] }, .ok [])

/-! ### SET_QUERY -/

/-- Six-bit codes, four to three bytes, the first in the high bits; bits left over in the last byte are set (R198). -/
def packCodes : List Nat → List Byte
  | [] => []
  | [a] => [b1 (a * 4 + 3)]
  | [a, b] => [b1 (a * 4 + b / 16), b1 (b % 16 * 16 + 15)]
  | [a, b, c] => [b1 (a * 4 + b / 16), b1 (b % 16 * 16 + c / 4), b1 (c % 4 * 64 + 63)]
  | a :: b :: c :: d :: rest =>
    [b1 (a * 4 + b / 16), b1 (b % 16 * 16 + c / 4), b1 (c % 4 * 64 + d)] ++ packCodes rest

/-- The positions' codes; 3Fh ends a list of fewer than 64 (R198). -/
def positionCodes (setlist : List SlotNo) : List Nat :=
  setlist.map (fun n => n.val) ++ (if setlist.length < Config.setlistMax then [63] else [])

/-- Whether the slot of a number is READY. -/
def State.readyAt (s : State) (n : Nat) : Bool :=
  match s.library[n]? with
  | some (.ready _) => true
  | _ => false

/-- Byte `j` of the READY set, which holds the slots 8(5 - j) to 8(5 - j) + 7, the lowest in bit 0 (R198). -/
def State.readyByte (s : State) (j : Nat) : Byte :=
  b1 (([0, 1, 2, 3, 4, 5, 6, 7].map (fun b => if s.readyAt (8 * (5 - j) + b) then 2 ^ b else 0)).sum)

/-- The data of SET_QUERY (R120, R198). -/
def setData (s : State) : List Byte :=
  [bOpt b1 s.curPos, bOpt b1 s.curScene, bOpt (fun n => b1 n.val) (s.ownedSlot .a),
    bOpt (fun n => b1 n.val) (s.ownedSlot .b)] ++
    [0, 1, 2, 3, 4, 5].map s.readyByte ++ packCodes (positionCodes s.setlist)

/-- SET_QUERY (R120). -/
def setQuery (s : State) : State × Answer := (s, .ok (setData s))

end Sys2Proof.Machine
end

