-- ==== Sys2Proof/Machine/LinkUnit.lean ====
section
/-! DEFINITION. The link interfaces (chapter 10): the kinds of request (R197), the taking of a frame (R182), the input buffer and
reply queue (R181), the receiver (R179, R180), the transmitter (R184), and what ends every command. -/

namespace Sys2Proof.Machine

/-! ### Kinds of request -/

/-- The requests of R197. -/
inductive ReqKind where
  | start
  | stop
  | hold
  | go
  | extend
  | tempoSet
  | tap
  | clickSet
  | songOpen
  | songSegment
  | sceneBegin
  | sceneZone
  | sceneProgram
  | songClose
  | songErase
  | songQuery
  | setInsert
  | setRemove
  | setClear
  | setQuery
  | cue
  | cueCancel
  | audition
  | auditionEnd
  | outputSet
  | inputSet
  | footswitchSet
  | noticeMask
  | linkNote
  | statusGet
  | countersGet
  | faultGet
  | faultClear
  | panic
  | softReset
deriving DecidableEq, Repr

/-- R197: the KIND byte of a request. -/
def ReqKind.code : ReqKind → Byte
  | .start => 0x01#8
  | .stop => 0x02#8
  | .hold => 0x03#8
  | .go => 0x04#8
  | .extend => 0x05#8
  | .tempoSet => 0x06#8
  | .tap => 0x07#8
  | .clickSet => 0x08#8
  | .songOpen => 0x10#8
  | .songSegment => 0x11#8
  | .sceneBegin => 0x12#8
  | .sceneZone => 0x13#8
  | .sceneProgram => 0x14#8
  | .songClose => 0x15#8
  | .songErase => 0x16#8
  | .songQuery => 0x17#8
  | .setInsert => 0x18#8
  | .setRemove => 0x19#8
  | .setClear => 0x1A#8
  | .setQuery => 0x1B#8
  | .cue => 0x1C#8
  | .cueCancel => 0x1D#8
  | .audition => 0x1E#8
  | .auditionEnd => 0x1F#8
  | .outputSet => 0x20#8
  | .inputSet => 0x21#8
  | .footswitchSet => 0x22#8
  | .noticeMask => 0x28#8
  | .linkNote => 0x29#8
  | .statusGet => 0x2A#8
  | .countersGet => 0x2B#8
  | .faultGet => 0x30#8
  | .faultClear => 0x31#8
  | .panic => 0x32#8
  | .softReset => 0x33#8

/-- R197: the least and the greatest LEN of a request. -/
def ReqKind.lens : ReqKind → Nat × Nat
  | .start => (3, 3)
  | .stop => (2, 2)
  | .hold => (2, 2)
  | .go => (2, 2)
  | .extend => (2, 2)
  | .tempoSet => (4, 4)
  | .tap => (2, 2)
  | .clickSet => (14, 14)
  | .songOpen => (9, 24)
  | .songSegment => (11, 11)
  | .sceneBegin => (3, 15)
  | .sceneZone => (18, 18)
  | .sceneProgram => (7, 7)
  | .songClose => (2, 2)
  | .songErase => (3, 3)
  | .songQuery => (3, 3)
  | .setInsert => (4, 4)
  | .setRemove => (3, 3)
  | .setClear => (2, 2)
  | .setQuery => (2, 2)
  | .cue => (5, 5)
  | .cueCancel => (2, 2)
  | .audition => (3, 3)
  | .auditionEnd => (2, 2)
  | .outputSet => (11, 11)
  | .inputSet => (5, 5)
  | .footswitchSet => (7, 7)
  | .noticeMask => (4, 4)
  | .linkNote => (2, 34)
  | .statusGet => (3, 3)
  | .countersGet => (5, 5)
  | .faultGet => (2, 2)
  | .faultClear => (2, 2)
  | .panic => (2, 2)
  | .softReset => (2, 2)

/-- Every kind of request, in the order of their codes. -/
def allKinds : List ReqKind :=
  [.start, .stop, .hold, .go, .extend, .tempoSet, .tap, .clickSet, .songOpen, .songSegment, .sceneBegin, .sceneZone,
    .sceneProgram, .songClose, .songErase, .songQuery, .setInsert, .setRemove, .setClear, .setQuery, .cue, .cueCancel,
    .audition, .auditionEnd, .outputSet, .inputSet, .footswitchSet, .noticeMask, .linkNote, .statusGet, .countersGet,
    .faultGet, .faultClear, .panic, .softReset]

/-- R182 check 3: the request a KIND byte names, if any. -/
def requestKind (b : Byte) : Option ReqKind := allKinds.find? (fun k => decide (k.code = b))

/-- R182 check 4: LEN fits the kind. -/
def ReqKind.fits (k : ReqKind) (len : Byte) : Bool := decide (k.lens.1 ≤ len.toNat ∧ len.toNat ≤ k.lens.2)

/-! ### Owners -/

/-- R182 check 5: the request is handed to the unit that owns its effect. -/
def serve (l : Link) (k : ReqKind) (fields : List Byte) (s : State) : State × Answer :=
  match k with
  | .start => startRequest l fields s
  | .stop => stopTransport (.link l) s
  | .hold => holdTransport (.link l) s
  | .go => goTransport (.link l) s
  | .extend => extendBar (.link l) s
  | .tempoSet => tempoSet fields s
  | .tap => (takeTap s, .ok [])
  | .clickSet => clickSetRequest fields s
  | .songOpen => songOpen l fields s
  | .songSegment => songSegment l fields s
  | .sceneBegin => sceneBegin l fields s
  | .sceneZone => sceneZone l fields s
  | .sceneProgram => sceneProgram l fields s
  | .songClose => songClose l s
  | .songErase => songErase l fields s
  | .songQuery => songQuery fields s
  | .setInsert => setInsert fields s
  | .setRemove => setRemove fields s
  | .setClear => setClear s
  | .setQuery => setQuery s
  | .cue => cueRequest l fields s
  | .cueCancel => cueCancel l s
  | .audition => auditionRequest l fields s
  | .auditionEnd => auditionEnd l s
  | .outputSet => outputSetRequest fields s
  | .inputSet => inputSetRequest fields s
  | .footswitchSet => footswitchSet fields s
  | .noticeMask => noticeMask l fields s
  | .linkNote => linkNote l fields s
  | .statusGet => statusGet fields s
  | .countersGet => countersGet fields s
  | .faultGet => faultGet s
  | .faultClear => faultClear s
  | .panic => (panicAll (.link l) s, .ok [])
  | .softReset => (softResetAll s, .ok [])

/-! ### Taking a frame -/

/-- The reply that carries an answer (R183). -/
def replyTo (kind tag : Byte) : Answer → Reply
  | .ok data => { request := kind, tag, result := none, data }
  | .refuse r data => { request := kind, tag, result := some r, data }

/-- A reply joins the newest end of the reply queue (R182). -/
def pushReply (l : Link) (r : Reply) (s : State) : State :=
  s.setLink l { s.link l with replies := (s.link l).replies ++ [r] }

/-- R180: a bad frame is counted and is a fault. -/
def countBadFrame (l : Link) (s : State) : State :=
  takeFault .linkBadFrame (.link l) (s.setLink l { s.link l with badFrames := bump (s.link l).badFrames })

/-- R190: a frame taken is counted, before its checks (log 9). -/
def countTaken (l : Link) (s : State) : State :=
  s.setLink l { s.link l with framesTaken := bump (s.link l).framesTaken }

/-- R182 checks 3 to 5. -/
def answerFrame (l : Link) (f : Frame) (s : State) : State × Answer :=
  match requestKind f.kind with
  | none => (s, .refuse .unknownKind [])
  | some k => if k.fits f.len then serve l k f.fields s else (s, .refuse .badField [])

/-- R182: a frame is taken. -/
def takeFrame (l : Link) (f : Frame) (s : State) : State :=
  let s := countTaken l s
  if f.checkOk then
    if s.init.isSome then pushReply l (replyTo f.kind f.tag (.refuse .busy [])) s
    else
      let r := answerFrame l f s
      pushReply l (replyTo f.kind f.tag r.2) r.1
  else pushReply l (replyTo f.kind f.tag (.refuse .badFrame [])) (countBadFrame l s)

/-- R181: an overrun is counted and is a fault. -/
def overrun (l : Link) (s : State) : State :=
  takeFault .linkOverrun (.link l) (s.setLink l { s.link l with overruns := bump (s.link l).overruns })

/-- R181: a frame is complete. After a departure that emptied the buffer the queue holds four replies again, and the frame joins the
buffer by the Arrival bullet, where the meeting of R181 says that it is taken at once (DESIGN CHOICE, log 39). -/
def frameComplete (l : Link) (f : Frame) (s : State) : State :=
  if (s.link l).buffer = [] ∧ (s.link l).replies.length < Config.bufferMax then takeFrame l f s
  else if (s.link l).buffer.length < Config.bufferMax then
    s.setLink l { s.link l with buffer := (s.link l).buffer ++ [f] }
  else overrun l s

/-! ### The receiver -/

/-- R179, R180: the frame in progress is a bad frame and the receiver returns to HUNT. -/
def dropFrame (l : Link) (s : State) : State :=
  countBadFrame l (s.setLink l { s.link l with rx := .hunt, interByteDue := none })

/-- R179: the receiver moves and its timer restarts. -/
def receiving (l : Link) (x : RxState) (s : State) : State :=
  s.setLink l { s.link l with rx := x, interByteDue := some (s.now + Config.interByte) }

/-- R179: a byte taken in HUNT. -/
def hunt (l : Link) (b : Byte) (s : State) : State := if b = 0xA5#8 then receiving l .length s else s

/-- The frame of the bytes stored, the first KIND and the second TAG. -/
def frameOf (len : Byte) (stored : List Byte) (check : Byte) : Frame :=
  { len, kind := stored.headD 0#8, tag := (stored.drop 1).headD 0#8, fields := stored.drop 2, check }

/-- R179: the last byte of a frame. -/
def completeRx (l : Link) (len : Byte) (stored : List Byte) (b : Byte) (s : State) : State :=
  frameComplete l (frameOf len stored b) (s.setLink l { s.link l with rx := .hunt, interByteDue := none })

/-- R179: a byte taken by the receiver. -/
def takeLinkByte (l : Link) (b : Byte) (s : State) : State :=
  match (s.link l).rx with
  | .hunt => hunt l b s
  | .length => if 2 ≤ b.toNat ∧ b.toNat ≤ 60 then receiving l (.body b []) s else hunt l b (dropFrame l s)
  | .body len stored =>
    if stored.length + 1 < len.toNat then receiving l (.body len (stored ++ [b])) s
    else receiving l (.check len (stored ++ [b])) s
  | .check len stored => completeRx l len stored b s

/-- LINK_BYTE_RECEIVED (R179): a byte, or a framing error. -/
def linkByte (l : Link) (b : Byte) (stopOk : Bool) (s : State) : State :=
  if stopOk then takeLinkByte l b s else if (s.link l).rx = .hunt then s else dropFrame l s

/-- LINK_INTER_BYTE_TIMEOUT (R179). With the timer stopped nothing happens. -/
def interByteTimeout (l : Link) (s : State) : State :=
  match (s.link l).interByteDue with
  | none => s
  | some d => dropFrame l (s.reach d)

/-! ### The transmitter -/

/-- A frame on a link's wire, 40 µs a byte (R184). -/
def wireOf (f : Frame) (now : Nat) : LinkWire := { bytes := f.bytes, ends := now + f.bytes.length * Config.linkByte }

/-- R184: the choice of a transmitter that is IDLE or has just ended a frame; the second part says that a reply left. -/
def LinkState.choose (k : LinkState) (now : Nat) : LinkState × Bool :=
  if k.tx.isSome then (k, false)
  else
    match k.replies with
    | r :: rs => ({ k with replies := rs, tx := some (wireOf r.frame now) }, true)
    | [] =>
      match k.notices with
      | e :: es => ({ k with notices := es, tx := some (wireOf e.frame now) }, false)
      | [] => (k, false)

/-- R181: a reply has left the queue, and the oldest buffered frame is taken. -/
def takeBuffered (l : Link) (s : State) : State :=
  match (s.link l).buffer with
  | [] => s
  | f :: fs => takeFrame l f (s.setLink l { s.link l with buffer := fs })

/-- LINK_TRANSMIT_END (R184). With no frame in transmission nothing happens. -/
def transmitEnd (l : Link) (s : State) : State :=
  match (s.link l).tx with
  | none => s
  | some w =>
    let s := s.reach w.ends
    let r := ({ s.link l with tx := none } : LinkState).choose s.now
    let s := s.setLink l r.1
    if r.2 then takeBuffered l s else s

/-! ### The end of a command -/

/-- An IDLE link transmitter begins what waits (R184, logs 4 and 5). -/
def startIdle (l : Link) (s : State) : State := s.setLink l ((s.link l).choose s.now).1

/-- What ends every command: every IDLE transmitter, of the ports and of the links, makes its choice (log 4). -/
def finish (s : State) : State := startIdle .b (startIdle .a (kickPorts s))

/-! ### The end of an instant -/

/-- R178: an instant ends. No place has freed for the entries that wait still, and they meet the full lane, a PROGRAM entry apart, to
which a place was given (DESIGN CHOICE, log 37); an IDLE link transmitter begins a notice of that. -/
def endInstant (s : State) : State :=
  if s.anyAwaits then startIdle .b (startIdle .a (allPorts.foldl (fun s p => meetFulls p s) s)) else s

/-- The state in which an event finds the part that is due at an instant: where that lies ahead, the instant before it has ended. -/
def State.upTo (due : Option Nat) (s : State) : State :=
  match due with
  | none => s
  | some d => if s.now < d then endInstant s else s

end Sys2Proof.Machine
end

