-- ==== Sys2Proof/Machine/Commands.lean ====
section
/-! DEFINITION. The shapes every command has: a request frame arrives on a link, or an event happens, perhaps at an instant of its own. -/

namespace Sys2Proof.Machine

/-- A request is the arrival of its complete frame on a link (R181, log 3). -/
def request (l : Link) (k : ReqKind) (tag : Byte) (fields : List Byte) (s : State) : Host.Outcome State Fault Refusal :=
  .next (finish (frameComplete l (mkFrame k.code tag fields) s))

/-- An event happens, and the IDLE transmitters then choose (log 4). -/
def happen (f : State → State) (s : State) : Host.Outcome State Fault Refusal := .next (finish (f s))

/-- An event that is due at an instant happens, the instant before it having ended (R178, log 37). -/
def happenAt (due : Option Nat) (f : State → State) (s : State) : Host.Outcome State Fault Refusal := happen f (s.upTo due)

end Sys2Proof.Machine
end

