-- ==== Sys2Proof/Machine/LibraryCommands.lean ====
section
/-! DEFINITION. The commands of the song library (R105 to R114). -/

namespace Sys2Proof.Machine

/-- SONG_OPEN (R107): make a slot OPEN for the link. -/
def execSongOpen (l : Link) (tag slot countIn startMode phrase : Byte) (stopBar : Word) (name : List Byte)
    (s : State) : Host.Outcome State Fault Refusal :=
  request l .songOpen tag ([slot, countIn, startMode, phrase] ++ stopBar.bytes ++ name) s

/-- SONG_SEGMENT (R108): append a tempo segment. -/
def execSongSegment (l : Link) (tag : Byte) (f : SegmentFields) (s : State) : Host.Outcome State Fault Refusal :=
  request l .songSegment tag (segmentBytes f) s

/-- SCENE_BEGIN (R109): append a scene and move the cursor to it. -/
def execSceneBegin (l : Link) (tag timing : Byte) (name : List Byte) (s : State) : Host.Outcome State Fault Refusal :=
  request l .sceneBegin tag (timing :: name) s

/-- SCENE_ZONE (R110): append a zone to the scene under the cursor. -/
def execSceneZone (l : Link) (tag : Byte) (f : ZoneFields) (s : State) : Host.Outcome State Fault Refusal :=
  request l .sceneZone tag (zoneBytes f) s

/-- SCENE_PROGRAM (R111): set a program assignment of the scene under the cursor. -/
def execSceneProgram (l : Link) (tag port channel msb lsb program : Byte)
    (s : State) : Host.Outcome State Fault Refusal :=
  request l .sceneProgram tag [port, channel, msb, lsb, program] s

/-- SONG_CLOSE (R112): check the song and make it READY. -/
def execSongClose (l : Link) (tag : Byte) (s : State) : Host.Outcome State Fault Refusal :=
  request l .songClose tag [] s

/-- SONG_ERASE (R113): return a slot to EMPTY. -/
def execSongErase (l : Link) (tag slot : Byte) (s : State) : Host.Outcome State Fault Refusal :=
  request l .songErase tag [slot] s

/-- SONG_QUERY (R114): report a slot. -/
def execSongQuery (l : Link) (tag slot : Byte) (s : State) : Host.Outcome State Fault Refusal :=
  request l .songQuery tag [slot] s

end Sys2Proof.Machine
end

