-- ==== Sys2Proof/Machine/LinkEvents.lean ====
section
/-! DEFINITION. The events of the links (R179 to R184) and the frames that name no request (R182). -/

namespace Sys2Proof.Machine

/-- LINK_BYTE_RECEIVED (R179): a byte, or a framing error. -/
def execLinkByteReceived (l : Link) (byte : Byte) (stopOk : Bool) (s : State) : Host.Outcome State Fault Refusal :=
  happen (linkByte l byte stopOk) s

/-- LINK_INTER_BYTE_TIMEOUT (R179): the frame in progress is a bad frame. -/
def execLinkInterByteTimeout (l : Link) (s : State) : Host.Outcome State Fault Refusal :=
  happenAt (s.link l).interByteDue (interByteTimeout l) s

/-- BAD_FRAME (R182): a complete frame with the CHECK byte given. -/
def execBadFrame (l : Link) (kind tag : Byte) (fields : List Byte) (check : Byte)
    (s : State) : Host.Outcome State Fault Refusal :=
  happen (frameComplete l { len := lenByte fields, kind, tag, fields, check }) s

/-- UNKNOWN_KIND (R182): a complete frame with the KIND byte given. -/
def execUnknownKind (l : Link) (kind tag : Byte) (fields : List Byte)
    (s : State) : Host.Outcome State Fault Refusal :=
  happen (frameComplete l (mkFrame kind tag fields)) s

/-- LINK_TRANSMIT_END (R184): the frame in transmission ends and the transmitter chooses. -/
def execLinkTransmitEnd (l : Link) (s : State) : Host.Outcome State Fault Refusal :=
  happenAt ((s.link l).tx.map (fun w => w.ends)) (transmitEnd l) s

end Sys2Proof.Machine
end

