-- ==== Sys2Proof/Machine/PlayerEvents.lean ====
section
/-! DEFINITION. The events of the RESET pin, the performance inputs and the footswitch contacts (R185, R42, R52, R53). -/

namespace Sys2Proof.Machine

/-- PIN_RESET (R185): every unit takes its reset values and the initialisation begins. -/
def execPinReset (cksel1 cksel0 : Bool) (s : State) : Host.Outcome State Fault Refusal :=
  happen (pinResetAll cksel1 cksel0) s

/-- INITIALISATION_END (R185): the 50 ms have passed. -/
def execInitialisationEnd (s : State) : Host.Outcome State Fault Refusal :=
  happenAt s.init endInitialisation s

/-- INPUT_BYTE_RECEIVED (R42): a byte, or a framing error (R46). -/
def execInputByteReceived (i : Input) (byte : Byte) (stopOk : Bool) (s : State) : Host.Outcome State Fault Refusal :=
  happen (inputByte i byte stopOk) s

/-- INPUT_WATCH_EXPIRY (R52): the input is LOST. -/
def execInputWatchExpiry (i : Input) (s : State) : Host.Outcome State Fault Refusal :=
  happenAt (s.input i).watchDue (watchExpiry i) s

/-- FOOTSWITCH_LINE_CHANGE (R53): the contact has the level given. -/
def execFootswitchLineChange (n : FootLine) (level : Level) (s : State) : Host.Outcome State Fault Refusal :=
  happen (lineChange n level) s

/-- FOOTSWITCH_DEBOUNCE_EXPIRY (R53): a press or a release. -/
def execFootswitchDebounceExpiry (n : FootLine) (s : State) : Host.Outcome State Fault Refusal :=
  happenAt (s.foot n).debounceDue (debounceExpiry n) s

end Sys2Proof.Machine
end

