-- ==== Sys2Proof/Machine/PortEvents.lean ====
section
/-! DEFINITION. The events of the output ports (R158, R167 to R169). -/

namespace Sys2Proof.Machine

/-- OUTPUT_ITEM_END (R158): the bytes on the wire have been sent. -/
def execOutputItemEnd (p : Port) (s : State) : Host.Outcome State Fault Refusal :=
  happenAt ((s.port p).wire.map (fun w => w.ends)) (itemEnd p) s

/-- SETTLE_TIMER_EXPIRY (R169): the settle timer of the port runs out. -/
def execSettleTimerExpiry (p : Port) (s : State) : Host.Outcome State Fault Refusal :=
  happenAt (s.port p).settleDue (settleExpiry p) s

/-- KEEP_ALIVE_EXPIRY (R168): FEh goes out. -/
def execKeepAliveExpiry (p : Port) (s : State) : Host.Outcome State Fault Refusal :=
  happenAt (if (s.port p).wire.isSome then none else (s.port p).keepAliveDue) (keepAliveExpiry p) s

/-- CONTROLLER_INTERVAL_EXPIRY (R167): a merge slot has waited out its interval. -/
def execControllerIntervalExpiry (p : Port) (s : State) : Host.Outcome State Fault Refusal :=
  happenAt ((s.port p).nextInterval s.now) (intervalExpiry p) s

end Sys2Proof.Machine
end

