-- ==== Sys2Proof/Machine/ReportCommands.lean ====
section
/-! DEFINITION. The reporting requests of the links (R187 to R192). -/

namespace Sys2Proof.Machine

/-- NOTICE_MASK (R187): replace the mask of the link. -/
def execNoticeMask (l : Link) (tag : Byte) (mask : Word) (s : State) : Host.Outcome State Fault Refusal :=
  request l .noticeMask tag mask.bytes s

/-- LINK_NOTE (R188): pass a note to the other link. -/
def execLinkNote (l : Link) (tag : Byte) (text : List Byte) (s : State) : Host.Outcome State Fault Refusal :=
  request l .linkNote tag text s

/-- STATUS_GET (R189): read the present state. -/
def execStatusGet (l : Link) (tag part : Byte) (s : State) : Host.Outcome State Fault Refusal :=
  request l .statusGet tag [part] s

/-- COUNTERS_GET (R190): read and perhaps clear a group of counters. -/
def execCountersGet (l : Link) (tag group number clear : Byte) (s : State) : Host.Outcome State Fault Refusal :=
  request l .countersGet tag [group, number, clear] s

/-- FAULT_GET (R192): report the fault record. -/
def execFaultGet (l : Link) (tag : Byte) (s : State) : Host.Outcome State Fault Refusal :=
  request l .faultGet tag [] s

/-- FAULT_CLEAR (R192): report the fault record and empty it. -/
def execFaultClear (l : Link) (tag : Byte) (s : State) : Host.Outcome State Fault Refusal :=
  request l .faultClear tag [] s

end Sys2Proof.Machine
end

