-- ==== Sys2Proof/Machine/SettingsCommands.lean ====
section
/-! DEFINITION. The settings requests of ports, inputs and footswitch lines (R195), PANIC and SOFT_RESET. -/

namespace Sys2Proof.Machine

/-- OUTPUT_SET (R157): the settings of one port. -/
def execOutputSet (l : Link) (tag : Byte) (f : OutputFields) (s : State) : Host.Outcome State Fault Refusal :=
  request l .outputSet tag (outputBytes f) s

/-- INPUT_SET (R50): the settings of one input. -/
def execInputSet (l : Link) (tag input cueChannel watch : Byte) (s : State) : Host.Outcome State Fault Refusal :=
  request l .inputSet tag [input, cueChannel, watch] s

/-- FOOTSWITCH_SET (R56): the settings of one line. -/
def execFootswitchSet (l : Link) (tag line function polarity sustainInput sustainChannel : Byte)
    (s : State) : Host.Outcome State Fault Refusal :=
  request l .footswitchSet tag [line, function, polarity, sustainInput, sustainChannel] s

/-- PANIC (R193): silence every module now. -/
def execPanic (l : Link) (tag : Byte) (s : State) : Host.Outcome State Fault Refusal :=
  request l .panic tag [] s

/-- SOFT_RESET (R194): clear the performance state, keep the show. -/
def execSoftReset (l : Link) (tag : Byte) (s : State) : Host.Outcome State Fault Refusal :=
  request l .softReset tag [] s

end Sys2Proof.Machine
end

