-- ==== Sys2Proof/Machine/ShowCommands.lean ====
section
/-! DEFINITION. The commands of the setlist, the cue arbiter and the audition (R118 to R123, R132, R151, R152). -/

namespace Sys2Proof.Machine

/-- SET_INSERT (R118): insert a position. -/
def execSetInsert (l : Link) (tag position slot : Byte) (s : State) : Host.Outcome State Fault Refusal :=
  request l .setInsert tag [position, slot] s

/-- SET_REMOVE (R119): remove a position. -/
def execSetRemove (l : Link) (tag position : Byte) (s : State) : Host.Outcome State Fault Refusal :=
  request l .setRemove tag [position] s

/-- SET_CLEAR (R120): empty the list. -/
def execSetClear (l : Link) (tag : Byte) (s : State) : Host.Outcome State Fault Refusal :=
  request l .setClear tag [] s

/-- SET_QUERY (R120): report the setlist. -/
def execSetQuery (l : Link) (tag : Byte) (s : State) : Host.Outcome State Fault Refusal :=
  request l .setQuery tag [] s

/-- CUE (R123): resolve a change, rank it, and take or refuse it. -/
def execCue (l : Link) (tag form number timing : Byte) (s : State) : Host.Outcome State Fault Refusal :=
  request l .cue tag [form, number, timing] s

/-- CUE_CANCEL (R132): withdraw the cued change. -/
def execCueCancel (l : Link) (tag : Byte) (s : State) : Host.Outcome State Fault Refusal :=
  request l .cueCancel tag [] s

/-- AUDITION (R151): try a scene of the current song. -/
def execAudition (l : Link) (tag scene : Byte) (s : State) : Host.Outcome State Fault Refusal :=
  request l .audition tag [scene] s

/-- AUDITION_END (R152): return from an audition. -/
def execAuditionEnd (l : Link) (tag : Byte) (s : State) : Host.Outcome State Fault Refusal :=
  request l .auditionEnd tag [] s

end Sys2Proof.Machine
end

