-- ==== Sys2Proof/Machine/TransportCommands.lean ====
section
/-! DEFINITION. The commands of the transport, the tempo unit and the click: START, STOP, HOLD, GO, EXTEND, TEMPO_SET, TAP, CLICK_SET, and the
ends of grid steps and click gates. -/

namespace Sys2Proof.Machine

/-- START (R83): begin the current song, with or without its count-in. -/
def execStart (l : Link) (tag skip : Byte) (s : State) : Host.Outcome State Fault Refusal :=
  request l .start tag [skip] s

/-- STOP (R84): stop and return to bar 1. -/
def execStop (l : Link) (tag : Byte) (s : State) : Host.Outcome State Fault Refusal :=
  request l .stop tag [] s

/-- HOLD (R85): hold at the next downbeat. -/
def execHold (l : Link) (tag : Byte) (s : State) : Host.Outcome State Fault Refusal :=
  request l .hold tag [] s

/-- GO (R86): leave a hold with a downbeat. -/
def execGo (l : Link) (tag : Byte) (s : State) : Host.Outcome State Fault Refusal :=
  request l .go tag [] s

/-- EXTEND (R87): add a beat to the bar. -/
def execExtend (l : Link) (tag : Byte) (s : State) : Host.Outcome State Fault Refusal :=
  request l .extend tag [] s

/-- TEMPO_SET (R71): set, stage or clear the override. -/
def execTempoSet (l : Link) (tag : Byte) (tempo : Word) (s : State) : Host.Outcome State Fault Refusal :=
  request l .tempoSet tag tempo.bytes s

/-- TAP (R75): one tap into the tap series. -/
def execTap (l : Link) (tag : Byte) (s : State) : Host.Outcome State Fault Refusal :=
  request l .tap tag [] s

/-- CLICK_SET (R94): the settings of one click channel. -/
def execClickSet (l : Link) (tag : Byte) (f : ClickFields) (s : State) : Host.Outcome State Fault Refusal :=
  request l .clickSet tag (clickBytes f) s

/-- GRID_STEP_END (R81): the step in progress ends and the next begins. -/
def execGridStepEnd (s : State) : Host.Outcome State Fault Refusal :=
  happenAt s.transport.stepEnd stepEnds s

/-- CLICK_GATE_EXPIRY (R96): the due time of a pending click note-off comes. -/
def execClickGateExpiry (p : Port) (c : Chan) (note : Nat) (s : State) : Host.Outcome State Fault Refusal :=
  happenAt (((s.offFor p c note).filter (fun r => !r.waiting)).map (fun r => r.due)) (gateExpiry p c note) s

end Sys2Proof.Machine
end

