-- ==== Sys2Proof/Machine/Dispatch.lean ====
section
/-! DEFINITION. One arm for each command. -/

namespace Sys2Proof.Machine

def exec (i : Instr) (s : State) : Host.Outcome State Fault Refusal :=
  match i with
  | .pinReset cksel1 cksel0 => Sys2Proof.Machine.execPinReset cksel1 cksel0 s
  | .initialisationEnd => Sys2Proof.Machine.execInitialisationEnd s
  | .linkByteReceived l byte stopOk => Sys2Proof.Machine.execLinkByteReceived l byte stopOk s
  | .linkInterByteTimeout l => Sys2Proof.Machine.execLinkInterByteTimeout l s
  | .badFrame l kind tag fields check => Sys2Proof.Machine.execBadFrame l kind tag fields check s
  | .unknownKind l kind tag fields => Sys2Proof.Machine.execUnknownKind l kind tag fields s
  | .linkTransmitEnd l => Sys2Proof.Machine.execLinkTransmitEnd l s
  | .start l tag skip => Sys2Proof.Machine.execStart l tag skip s
  | .stop l tag => Sys2Proof.Machine.execStop l tag s
  | .hold l tag => Sys2Proof.Machine.execHold l tag s
  | .go l tag => Sys2Proof.Machine.execGo l tag s
  | .extend l tag => Sys2Proof.Machine.execExtend l tag s
  | .tempoSet l tag tempo => Sys2Proof.Machine.execTempoSet l tag tempo s
  | .tap l tag => Sys2Proof.Machine.execTap l tag s
  | .clickSet l tag f => Sys2Proof.Machine.execClickSet l tag f s
  | .songOpen l tag slot countIn startMode phrase stopBar name => Sys2Proof.Machine.execSongOpen l tag slot countIn startMode phrase stopBar name s
  | .songSegment l tag f => Sys2Proof.Machine.execSongSegment l tag f s
  | .sceneBegin l tag timing name => Sys2Proof.Machine.execSceneBegin l tag timing name s
  | .sceneZone l tag f => Sys2Proof.Machine.execSceneZone l tag f s
  | .sceneProgram l tag port channel msb lsb program => Sys2Proof.Machine.execSceneProgram l tag port channel msb lsb program s
  | .songClose l tag => Sys2Proof.Machine.execSongClose l tag s
  | .songErase l tag slot => Sys2Proof.Machine.execSongErase l tag slot s
  | .songQuery l tag slot => Sys2Proof.Machine.execSongQuery l tag slot s
  | .setInsert l tag position slot => Sys2Proof.Machine.execSetInsert l tag position slot s
  | .setRemove l tag position => Sys2Proof.Machine.execSetRemove l tag position s
  | .setClear l tag => Sys2Proof.Machine.execSetClear l tag s
  | .setQuery l tag => Sys2Proof.Machine.execSetQuery l tag s
  | .cue l tag form number timing => Sys2Proof.Machine.execCue l tag form number timing s
  | .cueCancel l tag => Sys2Proof.Machine.execCueCancel l tag s
  | .audition l tag scene => Sys2Proof.Machine.execAudition l tag scene s
  | .auditionEnd l tag => Sys2Proof.Machine.execAuditionEnd l tag s
  | .outputSet l tag f => Sys2Proof.Machine.execOutputSet l tag f s
  | .inputSet l tag input cueChannel watch => Sys2Proof.Machine.execInputSet l tag input cueChannel watch s
  | .footswitchSet l tag line function polarity sustainInput sustainChannel => Sys2Proof.Machine.execFootswitchSet l tag line function polarity sustainInput sustainChannel s
  | .noticeMask l tag mask => Sys2Proof.Machine.execNoticeMask l tag mask s
  | .linkNote l tag text => Sys2Proof.Machine.execLinkNote l tag text s
  | .statusGet l tag part => Sys2Proof.Machine.execStatusGet l tag part s
  | .countersGet l tag group number clear => Sys2Proof.Machine.execCountersGet l tag group number clear s
  | .faultGet l tag => Sys2Proof.Machine.execFaultGet l tag s
  | .faultClear l tag => Sys2Proof.Machine.execFaultClear l tag s
  | .panic l tag => Sys2Proof.Machine.execPanic l tag s
  | .softReset l tag => Sys2Proof.Machine.execSoftReset l tag s
  | .inputByteReceived n byte stopOk => Sys2Proof.Machine.execInputByteReceived n byte stopOk s
  | .inputWatchExpiry n => Sys2Proof.Machine.execInputWatchExpiry n s
  | .footswitchLineChange n level => Sys2Proof.Machine.execFootswitchLineChange n level s
  | .footswitchDebounceExpiry n => Sys2Proof.Machine.execFootswitchDebounceExpiry n s
  | .gridStepEnd => Sys2Proof.Machine.execGridStepEnd s
  | .clickGateExpiry p c note => Sys2Proof.Machine.execClickGateExpiry p c note s
  | .outputItemEnd p => Sys2Proof.Machine.execOutputItemEnd p s
  | .settleTimerExpiry p => Sys2Proof.Machine.execSettleTimerExpiry p s
  | .keepAliveExpiry p => Sys2Proof.Machine.execKeepAliveExpiry p s
  | .controllerIntervalExpiry p => Sys2Proof.Machine.execControllerIntervalExpiry p s

end Sys2Proof.Machine
end

