-- ==== Sys2Proof/Safety.lean ====
section
/-! DEFINITION. What counts as a safe state of the block, and the terms the statements use: when a frame is taken at once, what an
answered request leaves, and the frame a request command is. -/

namespace Sys2Proof.Machine

/-! ### Terms of the statements -/

/-- A frame that completes on a link now is taken at once (R181). -/
abbrev HasRoom (l : Link) (s : State) : Prop := (s.link l).buffer = [] ∧ (s.link l).replies.length < Config.bufferMax

/-- A request that completes on a link now is taken at once and checked in full (R181, R182, R185). -/
abbrev Takes (l : Link) (s : State) : Prop := s.init = none ∧ HasRoom l s

/-- The state in which the owner of a request on a link finds the part: the frame has been counted (R190). -/
def found (l : Link) (s : State) : State := countTaken l s

/-- The outcome of a request that its owner answers with `a`, leaving the state `s` (R182, R184). -/
def answered (l : Link) (k : ReqKind) (tag : Byte) (a : Answer) (s : State) : Host.Outcome State Fault Refusal :=
  .next (finish (pushReply l (replyTo k.code tag a) s))

/-- The outcome of a request that is refused and changes nothing (R182). -/
def refusedWith (l : Link) (k : ReqKind) (tag : Byte) (r : Result) (s : State) : Host.Outcome State Fault Refusal :=
  answered l k tag (.refuse r []) (found l s)

/-- The link, kind, tag and fields of a request command; `none` for an event. -/
def requestOf : Instr → Option (Link × ReqKind × Byte × List Byte)
  | .start l tag skip => some (l, .start, tag, [skip])
  | .stop l tag => some (l, .stop, tag, [])
  | .hold l tag => some (l, .hold, tag, [])
  | .go l tag => some (l, .go, tag, [])
  | .extend l tag => some (l, .extend, tag, [])
  | .tempoSet l tag tempo => some (l, .tempoSet, tag, tempo.bytes)
  | .tap l tag => some (l, .tap, tag, [])
  | .clickSet l tag f => some (l, .clickSet, tag, clickBytes f)
  | .songOpen l tag slot countIn startMode phrase stopBar name =>
    some (l, .songOpen, tag, [slot, countIn, startMode, phrase] ++ stopBar.bytes ++ name)
  | .songSegment l tag f => some (l, .songSegment, tag, segmentBytes f)
  | .sceneBegin l tag timing name => some (l, .sceneBegin, tag, timing :: name)
  | .sceneZone l tag f => some (l, .sceneZone, tag, zoneBytes f)
  | .sceneProgram l tag port channel msb lsb program => some (l, .sceneProgram, tag, [port, channel, msb, lsb, program])
  | .songClose l tag => some (l, .songClose, tag, [])
  | .songErase l tag slot => some (l, .songErase, tag, [slot])
  | .songQuery l tag slot => some (l, .songQuery, tag, [slot])
  | .setInsert l tag position slot => some (l, .setInsert, tag, [position, slot])
  | .setRemove l tag position => some (l, .setRemove, tag, [position])
  | .setClear l tag => some (l, .setClear, tag, [])
  | .setQuery l tag => some (l, .setQuery, tag, [])
  | .cue l tag form number timing => some (l, .cue, tag, [form, number, timing])
  | .cueCancel l tag => some (l, .cueCancel, tag, [])
  | .audition l tag scene => some (l, .audition, tag, [scene])
  | .auditionEnd l tag => some (l, .auditionEnd, tag, [])
  | .outputSet l tag f => some (l, .outputSet, tag, outputBytes f)
  | .inputSet l tag input cueChannel watch => some (l, .inputSet, tag, [input, cueChannel, watch])
  | .footswitchSet l tag line function polarity sustainInput sustainChannel =>
    some (l, .footswitchSet, tag, [line, function, polarity, sustainInput, sustainChannel])
  | .noticeMask l tag mask => some (l, .noticeMask, tag, mask.bytes)
  | .linkNote l tag text => some (l, .linkNote, tag, text)
  | .statusGet l tag part => some (l, .statusGet, tag, [part])
  | .countersGet l tag group number clear => some (l, .countersGet, tag, [group, number, clear])
  | .faultGet l tag => some (l, .faultGet, tag, [])
  | .faultClear l tag => some (l, .faultClear, tag, [])
  | .panic l tag => some (l, .panic, tag, [])
  | .softReset l tag => some (l, .softReset, tag, [])
  | .pinReset .. => none
  | .initialisationEnd => none
  | .linkByteReceived .. => none
  | .linkInterByteTimeout _ => none
  | .badFrame .. => none
  | .unknownKind .. => none
  | .linkTransmitEnd _ => none
  | .inputByteReceived .. => none
  | .inputWatchExpiry _ => none
  | .footswitchLineChange .. => none
  | .footswitchDebounceExpiry _ => none
  | .gridStepEnd => none
  | .clickGateExpiry .. => none
  | .outputItemEnd _ => none
  | .settleTimerExpiry _ => none
  | .keepAliveExpiry _ => none
  | .controllerIntervalExpiry _ => none

/-- The instant at which an event is due, which brings the timebase there: the timer it ends runs then, or the item it ends is on a wire
until then. `none` for a request, for an event that has no such instant, and where no such timer or item runs. -/
def dueOf (c : Instr) (s : State) : Option Nat :=
  match c with
  | .initialisationEnd => s.init
  | .linkInterByteTimeout l => (s.link l).interByteDue
  | .linkTransmitEnd l => (s.link l).tx.map (fun w => w.ends)
  | .inputWatchExpiry i => (s.input i).watchDue
  | .footswitchDebounceExpiry n => (s.foot n).debounceDue
  | .gridStepEnd => s.transport.stepEnd
  | .clickGateExpiry p c n => ((s.offFor p c n).filter (fun r => !r.waiting)).map (fun r => r.due)
  | .outputItemEnd p => (s.port p).wire.map (fun w => w.ends)
  | .settleTimerExpiry p => (s.port p).settleDue
  | .keepAliveExpiry p => if (s.port p).wire.isSome then none else (s.port p).keepAliveDue
  | .controllerIntervalExpiry p => (s.port p).nextInterval s.now
  | _ => none

/-! ### Fields of requests -/

/-- A one-byte field that is FFh when absent, else a number from `lo` to `hi`. -/
def CarriesOpt (lo hi : Nat) (b : Byte) (x : Option Nat) : Prop :=
  (b = 0xFF#8 ∧ x = none) ∨ (lo ≤ b.toNat ∧ b.toNat ≤ hi ∧ x = some b.toNat)

/-- A channel field that is FFh when absent, else a channel. -/
def CarriesChan (b : Byte) (x : Option Chan) : Prop :=
  (b = 0xFF#8 ∧ x = none) ∨ ∃ c, x = some c ∧ c.val = b.toNat

/-- A text of `lo` to `hi` characters, each 20h to 7Eh. -/
def IsText (lo hi : Nat) (t : List Byte) : Prop :=
  lo ≤ t.length ∧ t.length ≤ hi ∧ ∀ b ∈ t, 0x20 ≤ b.toNat ∧ b.toNat ≤ 0x7E

/-- The six bits of code `k`, counted from the high bit of the first byte (R198). -/
def sixBits (d : List Byte) (k : Nat) : Nat :=
  word (d.getD (6 * k / 8) 0xFF#8) (d.getD (6 * k / 8 + 1) 0xFF#8) / 2 ^ (10 - 6 * k % 8) % 64

/-! ### What stays as it was -/

/-- Live table and identity, held-note table, pedal records and steal counter are the same (R1, R3, R20, R26, R31). -/
def SameNotes (s u : State) : Prop :=
  u.live = s.live ∧ u.liveId = s.liveId ∧ u.held = s.held ∧ u.pedals = s.pedals ∧ u.stealCount = s.stealCount

/-- Tempo unit and transport are the same (R60, R80). -/
def SameBand (s u : State) : Prop := u.tempo = s.tempo ∧ u.transport = s.transport

/-- Library and setlist are the same (R100, R117). -/
def SameShow (s u : State) : Prop := u.library = s.library ∧ u.setlist = s.setlist

/-- The current position and scene are the same (R117). -/
def SameSelection (s u : State) : Prop := u.curPos = s.curPos ∧ u.curScene = s.curScene

/-- The cue slot and the departure record are the same (R121). -/
def SameCue (s u : State) : Prop := u.cue = s.cue ∧ u.departure = s.departure

/-- Changeover record, program memory and audition state are the same (R136, R138, R150). -/
def SameChange (s u : State) : Prop :=
  u.changeover = s.changeover ∧ u.progMem = s.progMem ∧ u.audition = s.audition

/-- Input parsers and footswitch lines are the same (R42, R53). -/
def SamePlayers (s u : State) : Prop := u.inputs = s.inputs ∧ u.foots = s.foots

/-- Fault record and panic counter are the same (R191, R193). -/
def SameRecords (s u : State) : Prop := u.faultRecord = s.faultRecord ∧ u.panicCount = s.panicCount

/-- Initialisation, straps and the waiting commands are the same (R58, R185). -/
def SameBlock (s u : State) : Prop := u.init = s.init ∧ u.clkin = s.clkin ∧ u.pending = s.pending

/-- Every link is the same but for the notices that wait on it (R186). -/
def SameLinks (s u : State) : Prop := ∀ l, u.link l = { s.link l with notices := (u.link l).notices }

/-- Every port is the same but for its REALTIME and CLICK lanes and their drop counters (R93, R96). -/
def SameLanes (s u : State) : Prop :=
  ∀ p, u.port p = { s.port p with
    realtime := (u.port p).realtime
    clickLane := (u.port p).clickLane
    clickDrop := (u.port p).clickDrop
    realtimeDrop := (u.port p).realtimeDrop }

/-- Nothing but the band has moved: tempo unit, transport, pending click note-offs, REALTIME and CLICK lanes and waiting
notices apart, the state is the same. -/
structure BandOnly (s u : State) : Prop where
  notes : SameNotes s u
  showData : SameShow s u
  selection : SameSelection s u
  cue : SameCue s u
  change : SameChange s u
  players : SamePlayers s u
  records : SameRecords s u
  block : SameBlock s u
  settings : u.click.channels = s.click.channels
  links : SameLinks s u
  lanes : SameLanes s u

/-! ### Safe states -/

/-- A link interface is as chapter 10 keeps it: buffer and queues within their capacities (R181), a frame waits only while the
reply queue is full (R181), an IDLE transmitter has nothing waiting (R184), one notice entry of each kind, all admitted
(R186, R187), repeat counts to 255, and the inter-byte timer runs exactly outside HUNT (R179). -/
structure LinkOk (k : LinkState) : Prop where
  buffer : k.buffer.length ≤ Config.bufferMax
  replies : k.replies.length ≤ Config.bufferMax
  waiting : k.buffer ≠ [] → k.replies.length = Config.bufferMax
  idle : k.tx = none → k.replies = [] ∧ k.notices = []
  kinds : (k.notices.map (fun e => e.notice.kind)).Nodup
  admitted : ∀ e ∈ k.notices, k.mask.getLsbD e.notice.kind.bit = true
  repeats : ∀ e ∈ k.notices, e.repeats ≤ Config.smallCountMax
  timer : k.rx = .hunt ↔ k.interByteDue = none

/-- Both links are safe. -/
def LinksOk (s : State) : Prop := ∀ l, LinkOk (s.link l)

/-- While the transport is STOPPED its position is bar 1, beat 1, step 0 with extension 0, hold-pending clear and count-in
remaining 0 (R80). -/
def AtRest (t : TransportState) : Prop :=
  t.mode = .stopped →
    t.bar = 1 ∧ t.beat = 1 ∧ t.step = 0 ∧ t.extension = 0 ∧ t.holdPending = false ∧ t.countIn = 0

/-- While the transport is STOPPED it is at rest: no grid step runs, and the meter is that of the first segment of the map in use
(R80, R81). -/
structure RestOk (s : State) : Prop where
  position : AtRest s.transport
  step : s.transport.mode = .stopped → s.transport.stepEnd = none
  meter : s.transport.mode = .stopped →
    s.transport.numerator = s.firstSegment.numerator ∧ s.transport.denominator = s.firstSegment.denominator

/-- While the transport is STOPPED the cue slot is empty (R129). -/
def CueOk (s : State) : Prop := s.transport.mode = .stopped → s.cue = none

/-- The lanes of a port are within their capacities (R159, R166, R171), the NOTE lane with entries behind its 64 places only while a
SWEEP is pending (R178, log 37); no two merge slots hold one key (R166); the NOTE grant count is 0 to 16
(R164); the sweep-pending list holds no channel twice (R173), and the NOTE lane no two PROGRAM entries of one channel (R137). -/
structure PortOk (q : PortState) : Prop where
  realtime : q.realtime.length ≤ Config.realtimeMax
  click : q.clickLane.length ≤ Config.clickLaneMax
  note : q.noteLane.length ≤ Config.noteLaneMax ∨ q.sweepPending ≠ []
  merge : q.slots.length ≤ Config.slotMax ∧ (q.slots.map (fun m => m.key)).Nodup
  grants : q.grantCount ≤ 16
  sweeps : q.sweepPending.length ≤ 16 ∧ q.sweepPending.Nodup
  programs : ((q.noteLane.filter NoteEntry.isProgram).map NoteEntry.chan).Nodup

/-- Every port is safe. -/
def PortsOk (s : State) : Prop := ∀ p, PortOk (s.port p)

/-- No entry waits that the end of an instant decides: behind the 64 places of a NOTE lane stand PROGRAM entries alone, and then no
NOTE_ON is in the places (R171, R178, log 37). So it is whenever an instant has ended. -/
def PlacesOk (s : State) : Prop := ∀ p, (s.port p).unplaced = none

/-- A command that is due at `d` finds the state as it stands: the instant has come, or no entry waits that the end of the
instant before it decides (R178). -/
abbrev At (d : Nat) (s : State) : Prop := d ≤ s.now ∨ PlacesOk s

/-- During initialisation nothing has begun: no grid step, watch timer or debounce timer runs, and the NOTE lanes are empty (R41,
R53, R80, R175). -/
structure StartOk (s : State) : Prop where
  grid : s.init.isSome = true → s.transport.stepEnd = none
  watches : s.init.isSome = true → ∀ i, (s.input i).watchDue = none
  lines : s.init.isSome = true → ∀ n, (s.foot n).debounceDue = none
  lanes : s.init.isSome = true → ∀ p, (s.port p).noteLane = []

/-- No two pending click note-offs share a port, channel and note (R96). -/
def ClickOk (s : State) : Prop := (s.click.offs.map (fun r => (r.port, r.chan, r.note))).Nodup

/-- The PROGRAM entries of a port that have not been transmitted: those in its NOTE lane and the active record's one in
transmission (R137). -/
def PortState.untransmitted (q : PortState) : Nat :=
  (q.noteLane.filter NoteEntry.isProgram).length + (q.entry.filter InProgress.reported).toList.length

/-- The outstanding count the active record holds for a port, 0 where it holds no entry for it (R137). -/
def State.outstandingOn (s : State) (p : Port) : Nat :=
  match s.changeover with
  | some r => (r.ports.filter (fun e => decide (e.port = p))).map (fun e => e.outstanding) |>.sum
  | none => 0

/-- The changeover record and the ports agree: no two entries of one port (R137); each count is the number of the port's PROGRAM
entries not yet transmitted (R147); an entry whose settle has started has its settle timer running; and an entry in transmission that
has no message left is on the wire (R158). -/
structure RecordOk (s : State) : Prop where
  ports : ∀ r, s.changeover = some r → (r.ports.map (fun e => e.port)).Nodup
  counts : ∀ p, s.outstandingOn p = (s.port p).untransmitted
  settling : ∀ r, s.changeover = some r → ∀ e ∈ r.ports, e.settling = true → (s.port e.port).settleDue ≠ none
  wires : ∀ p e, (s.port p).entry = some e → e.left = [] → ∃ w b, (s.port p).wire = some w ∧ w.status = some b

/-- The held-note table holds at most 96 entries and no two of one source (R20). -/
def HeldOk (s : State) : Prop :=
  s.held.length ≤ Config.heldMax ∧ (s.held.map (fun e => e.source)).Nodup

/-- Every held-note entry lists 1 to 4 targets, no two of one port, channel and output key (R20). -/
def TargetsOk (s : State) : Prop :=
  ∀ e ∈ s.held, 1 ≤ e.targets.length ∧ e.targets.length ≤ 4 ∧ (e.targets.map (fun x => x.triple)).Nodup

/-- The fields of a tempo segment are in their ranges, and a ramp target stands exactly with ramp bars (R63, R108). -/
structure SegmentOk (x : Segment) : Prop where
  start : 1 ≤ x.startBar ∧ x.startBar ≤ Config.barMax
  meter : 1 ≤ x.numerator ∧ x.numerator ≤ 15 ∧ (x.denominator = 4 ∨ x.denominator = 8)
  tempo : Config.tempoMin ≤ x.tempo ∧ x.tempo ≤ Config.tempoMax
  ramp : x.rampBars ≤ 64 ∧ (x.rampTarget.isSome ↔ 0 < x.rampBars)
  target : ∀ v, x.rampTarget = some v → Config.tempoMin ≤ v ∧ v ≤ Config.tempoMax

/-- The fields of a zone are in their ranges and stand in the relations of R2. -/
structure ZoneOk (z : Zone) : Prop where
  inputs : z.inputs ≠ 0#6
  keys : z.keyLow ≤ z.keyHigh ∧ z.keyHigh ≤ 127
  velocities : 1 ≤ z.velLow ∧ z.velLow ≤ z.velHigh ∧ z.velHigh ≤ 127
  transpose : -48 ≤ z.transpose ∧ z.transpose ≤ 48
  fixed : ∀ v, z.curve = .fixed v → 1 ≤ v ∧ v ≤ 127
  scale : 25 ≤ z.scale ∧ z.scale ≤ 200
  offset : -64 ≤ z.offset ∧ z.offset ≤ 64

/-- The program and the bank parts of an assignment are in their ranges (R103). -/
structure AssignmentOk (a : Assignment) : Prop where
  msb : ∀ v, a.msb = some v → v ≤ 127
  lsb : ∀ v, a.lsb = some v → v ≤ 127
  program : a.program ≤ 127

/-- A scene holds at most 16 zones and 16 assignments, no two of them for one port and channel (R103, R110, R111). -/
structure SceneOk (sc : Scene) : Prop where
  name : IsText 0 12 sc.name
  zones : sc.zones.length ≤ Config.sceneListMax ∧ ∀ z ∈ sc.zones, ZoneOk z
  assignments : sc.assignments.length ≤ Config.sceneListMax ∧ ∀ a ∈ sc.assignments, AssignmentOk a
  pairs : (sc.assignments.map (fun a => (a.port, a.chan))).Nodup

/-- A song record is within the bounds of R102 and R103, its start bars strictly rising from bar 1 (R108). -/
structure SongOk (g : Song) : Prop where
  name : IsText 1 16 g.name
  countIn : g.countIn ≤ 4
  phrase : g.phrase = 1 ∨ g.phrase = 2 ∨ g.phrase = 4 ∨ g.phrase = 8
  stopBar : ∀ b, g.stopBar = some b → 1 ≤ b ∧ b ≤ 9998
  segments : g.segments.length ≤ Config.segmentMax ∧ ∀ x ∈ g.segments, SegmentOk x
  rising : (g.segments.map (fun x => x.startBar)).Pairwise (· < ·)
  first : ∀ x, g.segments.head? = some x → x.startBar = 1
  scenes : g.scenes.length ≤ Config.sceneMax ∧ ∀ sc ∈ g.scenes, SceneOk sc

/-- A slot: an OPEN song is within bounds and its cursor, if any, is on its last scene (R109); a READY song has passed the
checks of R112. -/
def SlotOk : Slot → Prop
  | .empty => True
  | .building _ g c => SongOk g ∧ ∀ k, c = some k → k + 1 = g.scenes.length
  | .ready g => SongOk g ∧ g.closeFault = none

/-- Every song slot is safe. -/
def LibraryOk (s : State) : Prop := ∀ n, SlotOk (s.slot n)

/-- The items that OPEN and READY songs hold never exceed the pools (R104). -/
def PoolsOk (s : State) : Prop := s.zoneHeld ≤ Config.zonePool ∧ s.programHeld ≤ Config.programPool

/-- Each link owns either no slot or one OPEN slot (R105). -/
def OwnersOk (s : State) : Prop :=
  ∀ l n m, (s.slot n).ownedBy l = true → (s.slot m).ownedBy l = true → n = m

/-- A song slot holds a READY song. -/
def State.IsReady (s : State) (n : SlotNo) : Prop := ∃ g, s.slot n = .ready g

/-- The current song, the song named by the cue slot and the target song of the active changeover are each in a slot that is
READY, and the cue slot's position names its slot (R101, R125). -/
structure ShowOk (s : State) : Prop where
  current : ∀ p, s.curPos = some p → ∃ n, s.setlist[p]? = some n ∧ s.IsReady n
  cued : ∀ c, s.cue = some c → s.setlist[c.position]? = some c.slot ∧ s.IsReady c.slot
  target : ∀ r, s.changeover = some r → s.IsReady r.slot

/-- The tempo unit is in its ranges: the current tempo, the override and a staged tempo (R60, R63, R70), the accumulator (R60), the
list of taps (R73), and the ramp's counter below the number of its segment's ramp beats (R67). -/
structure TempoOk (s : State) : Prop where
  current : Config.tempoMin ≤ s.tempo.current ∧ s.tempo.current ≤ Config.tempoMax
  accumulator : s.tempo.acc < s.tempo.current
  override : ∀ v, s.tempo.override = some v → Config.tempoMin ≤ v ∧ v ≤ Config.tempoMax
  staged : ∀ x v, s.tempo.staged = some x → x.value = .tempo v → Config.tempoMin ≤ v ∧ v ≤ Config.tempoMax
  taps : s.tempo.taps.length ≤ 3 ∧ ∀ d ∈ s.tempo.taps, Config.tapMin ≤ d ∧ d ≤ Config.tapMax
  ramp : ∀ k g, s.tempo.ramp = .ramping k → s.segmentInUse = some g → k < g.rampBeats

/-- A state is safe. -/
structure Safe (s : State) : Prop where
  links : LinksOk s
  rest : RestOk s
  cue : CueOk s
  start : StartOk s
  ports : PortsOk s
  tempo : TempoOk s
  click : ClickOk s
  record : RecordOk s
  held : HeldOk s
  targets : TargetsOk s
  library : LibraryOk s
  pools : PoolsOk s
  owners : OwnersOk s
  shows : ShowOk s

end Sys2Proof.Machine
end

