-- ==== Sys2Proof/WellFormed.lean ====
section
/-! DEFINITION. Which commands can occur at all: a frame has at most 58 field bytes (chapter 10, Frames), BAD_FRAME carries a CHECK
byte that is wrong, UNKNOWN_KIND a KIND that names no request (R182), and a click note is 0 to 127 (R94). -/

namespace Sys2Proof

/-- The most field bytes of a frame: LEN reaches 60 and counts KIND and TAG. -/
def fieldMax : Nat := 58

/-- A field list fits a frame. -/
def fitsFrame (fields : List Byte) : Bool := decide (fields.length ≤ fieldMax)

/-- A frame with this CHECK byte fails R182 check 1. -/
def checkFails (kind tag : Byte) (fields : List Byte) (check : Byte) : Bool :=
  !({ len := Machine.lenByte fields, kind, tag, fields, check } : Machine.Frame).checkOk

/-- The command can occur. -/
def Instr.wf : Instr → Bool
  | .badFrame _ kind tag fields check => fitsFrame fields && checkFails kind tag fields check
  | .unknownKind _ kind _ fields => fitsFrame fields && (Machine.requestKind kind).isNone
  | .songOpen _ _ _ _ _ _ _ name => decide (name.length + 6 ≤ fieldMax)
  | .sceneBegin _ _ _ name => decide (name.length + 1 ≤ fieldMax)
  | .linkNote _ _ text => fitsFrame text
  | .clickGateExpiry _ _ note => decide (note < 128)
  | .pinReset .. => true
  | .initialisationEnd => true
  | .linkByteReceived .. => true
  | .linkInterByteTimeout _ => true
  | .linkTransmitEnd _ => true
  | .start .. => true
  | .stop .. => true
  | .hold .. => true
  | .go .. => true
  | .extend .. => true
  | .tempoSet .. => true
  | .tap .. => true
  | .clickSet .. => true
  | .songSegment .. => true
  | .sceneZone .. => true
  | .sceneProgram .. => true
  | .songClose .. => true
  | .songErase .. => true
  | .songQuery .. => true
  | .setInsert .. => true
  | .setRemove .. => true
  | .setClear .. => true
  | .setQuery .. => true
  | .cue .. => true
  | .cueCancel .. => true
  | .audition .. => true
  | .auditionEnd .. => true
  | .outputSet .. => true
  | .inputSet .. => true
  | .footswitchSet .. => true
  | .noticeMask .. => true
  | .statusGet .. => true
  | .countersGet .. => true
  | .faultGet .. => true
  | .faultClear .. => true
  | .panic .. => true
  | .softReset .. => true
  | .inputByteReceived .. => true
  | .inputWatchExpiry _ => true
  | .footswitchLineChange .. => true
  | .footswitchDebounceExpiry _ => true
  | .gridStepEnd => true
  | .outputItemEnd _ => true
  | .settleTimerExpiry _ => true
  | .keepAliveExpiry _ => true
  | .controllerIntervalExpiry _ => true

end Sys2Proof
end

