-- ==== Sys2Proof/Certificates/Slice0/Obligations.lean ====
section
/-! DEFINITION. The statements for the provers. A request statement says what the owner leaves (`answered`); what the transmitters
then begin is said once, in `TransmittersTouchOnlyTheirOwn`. -/

open Sys2Proof Sys2Proof.Machine

/-! ### The machine -/

/-- A step carries out the command at the front of the queue with the queue's rest. With no command waiting the instant ends and one
microsecond is counted, which is the model's choice (logs 1 and 37); where no entry waits that the end of the instant decides, nothing
else happens. -/
def Obligations.StepTakesFrontCommand : Prop :=
  (∀ (c : Instr) (rest : List Instr) (s : State), s.pending = c :: rest → step s = exec c { s with pending := rest }) ∧
  ∀ s : State, s.pending = [] → step s = .next { endInstant s with now := s.now + 1 } ∧
    (PlacesOk s → step s = .next { s with now := s.now + 1 })

/-- Every command completes from every state and leaves the waiting commands alone. The queue of waiting commands is the model's own,
so that PIN_RESET keeps it is the model's choice (log 8), and so is what a command that cannot occur does, such as a BAD_FRAME whose
CHECK is right (log 23). -/
def Obligations.EveryCommandCompletes : Prop :=
  ∀ (c : Instr) (s : State), ∃ t, exec c s = .next t ∧ t.pending = s.pending

/-- The reset state is safe, and its queue is empty. -/
def Obligations.SafeAtReset : Prop := Safe State.reset ∧ State.reset.pending = []

/-- Buffers, queues, masks and receivers of both links stay as chapter 10 keeps them. -/
def Obligations.LinksStaySafe : Prop := ∀ s t : State, LinksOk s → step s = .next t → LinksOk t

/-- The REALTIME and CLICK lanes, the merge slots, the grant count and the sweep-pending list of every port stay within their
capacities, no two merge slots of a port hold one key, and the NOTE lane has entries behind its 64 places only while a SWEEP is pending;
they wait for a place of their own instant, and once that has ended only a PROGRAM entry does, behind places that hold no NOTE_ON
(log 37). During initialisation no step and no input or line timer runs, and the NOTE lanes stay empty. No two pending click note-offs
are for one port, channel and note. The changeover record holds no two entries of one port, and the outstanding count of each port is
the number of its PROGRAM entries that have not been transmitted. -/
def Obligations.PortsStaySafe : Prop :=
  ∀ s t : State, step s = .next t →
    (PortsOk s → StartOk s → PortsOk t ∧ StartOk t) ∧
    (ClickOk s → ClickOk t) ∧
    (s.pending = [] → PlacesOk t) ∧
    (PortsOk s → StartOk s → RecordOk s → RecordOk t)

/-- The held-note table keeps at most 96 entries, no two of one source, and every entry lists 1 to 4 distinct targets. -/
def Obligations.HeldTableStaysSafe : Prop :=
  ∀ s t : State, step s = .next t → HeldOk s → HeldOk t ∧ (TargetsOk s → TargetsOk t)

/-- While STOPPED the transport stays at bar 1, beat 1, step 0 with everything else cleared, no grid step runs, and the meter is that
of the first segment of the map in use. -/
def Obligations.StoppedStaysAtBarOne : Prop :=
  ∀ s t : State, ShowOk s → RestOk s → step s = .next t → RestOk t

/-- While the transport is STOPPED the cue slot is empty. -/
def Obligations.StoppedCueSlotIsEmpty : Prop := ∀ s t : State, CueOk s → step s = .next t → CueOk t

/-- Every song stays within the bounds of chapter 6, a READY one with its close checks passed. -/
def Obligations.LibraryStaysSafe : Prop := ∀ s t : State, LibraryOk s → step s = .next t → LibraryOk t

/-- The items that OPEN and READY songs hold never exceed the pools, and no link ever owns two slots. -/
def Obligations.PoolsAndOwnersStaySafe : Prop :=
  ∀ s t : State, PoolsOk s ∧ OwnersOk s → step s = .next t → PoolsOk t ∧ OwnersOk t

/-- The current song, the cued song and the target song of the active changeover stay READY. -/
def Obligations.ShownSongsStayReady : Prop := ∀ s t : State, ShowOk s → step s = .next t → ShowOk t

/-- What ends every command changes only what transmitters hold: lanes, slots and transmitters of the ports, click note-offs
that waited for room, which may only leave their list, and the queues and transmitters of the links. That every transmitter makes its
choice in this one end of a command is the model's reading (log 4), and so is that a reply begun from IDLE takes no frame from the
input buffer, so that both buffers stay as they are (log 5). What ends an instant gives the entries that still wait for a place, port by
port, what a full lane gives them, after which none waits that an instant's end decides; where none does, it changes nothing. It leaves
the changeover record and program memory as they are, and comes before an event that is due later (log 37). -/
def Obligations.TransmittersTouchOnlyTheirOwn : Prop :=
  (∀ s : State,
    finish s = startIdle .b (startIdle .a (kickPorts s)) ∧
    SameNotes s (finish s) ∧ SameBand s (finish s) ∧ SameShow s (finish s) ∧ SameSelection s (finish s) ∧
    SameCue s (finish s) ∧ SameChange s (finish s) ∧ SamePlayers s (finish s) ∧ SameRecords s (finish s) ∧
    SameBlock s (finish s) ∧ (finish s).now = s.now ∧ (finish s).click.channels = s.click.channels ∧
    (finish s).click.offs.Sublist s.click.offs ∧
    (finish s).click.offs.filter (fun r => r.waiting = false) = s.click.offs.filter (fun r => r.waiting = false) ∧
    (∀ p, ((finish s).port p).settings = (s.port p).settings ∧ ((finish s).port p).settleDue = (s.port p).settleDue ∧
      ((finish s).port p).lastStatus = (s.port p).lastStatus ∧
      ((finish s).port p).settleDrop = (s.port p).settleDrop ∧ ((finish s).port p).noteDiscard = (s.port p).noteDiscard ∧
      ((finish s).port p).overflow = (s.port p).overflow ∧ ((finish s).port p).mergeDrop = (s.port p).mergeDrop ∧
      ((finish s).port p).clickDrop = (s.port p).clickDrop ∧
      ((finish s).port p).realtimeDrop = (s.port p).realtimeDrop) ∧
    ∀ l, (finish s).link l = { s.link l with
      replies := ((finish s).link l).replies
      notices := ((finish s).link l).notices
      tx := ((finish s).link l).tx } ∧ ((finish s).link l).notices.Sublist (s.link l).notices) ∧
  ∀ s u : State, u = endInstant s →
    (PlacesOk s → u = s) ∧ PlacesOk u ∧
    (¬ PlacesOk s → u = startIdle .b (startIdle .a ((List.finRange 8).foldl (fun x p => meetFulls p x) s))) ∧
    (∀ c d, dueOf c s = some d → s.now < d → exec c s = exec c u) ∧
    u.live = s.live ∧ u.liveId = s.liveId ∧ u.held.map (fun e => e.source) = s.held.map (fun e => e.source) ∧
    u.pedals = s.pedals ∧ u.stealCount = s.stealCount ∧ SameChange s u ∧ u.panicCount = s.panicCount ∧
    SameBand s u ∧ SameShow s u ∧ SameSelection s u ∧ SameCue s u ∧ SamePlayers s u ∧ SameBlock s u ∧ u.click = s.click ∧
    u.now = s.now ∧
    (∀ p, u.port p = { s.port p with
      noteLane := (u.port p).noteLane
      noteDiscard := (u.port p).noteDiscard
      overflow := (u.port p).overflow
      sweepPending := (u.port p).sweepPending }) ∧
    ∀ l, u.link l = { s.link l with
      replies := (u.link l).replies
      notices := (u.link l).notices
      tx := (u.link l).tx }

/-- No event of the performance inputs, the footswitches, the grid, the click or the ports, and no end of initialisation,
changes the library or the setlist. -/
def Obligations.PlayersLeaveTheShow : Prop :=
  ∀ (s t : State) (c : Instr),
    (c = .gridStepEnd ∨ c = .initialisationEnd ∨ (∃ i b k, c = .inputByteReceived i b k) ∨ (∃ i, c = .inputWatchExpiry i) ∨
      (∃ n v, c = .footswitchLineChange n v) ∨ (∃ n, c = .footswitchDebounceExpiry n) ∨
      (∃ p ch n, c = .clickGateExpiry p ch n) ∨ (∃ p, c = .outputItemEnd p) ∨ (∃ p, c = .settleTimerExpiry p) ∨
      (∃ p, c = .keepAliveExpiry p) ∨ ∃ p, c = .controllerIntervalExpiry p) →
    exec c s = .next t → SameShow s t

/-! ### Frames -/

/-- A request command is the arrival of its frame (log 3). A request frame whose LEN fits is counted and handed to the owner of
its kind, whose answer is the reply; one whose LEN does not fit is refused BAD_FIELD and has no effect. -/
def Obligations.RequestReachesItsOwner : Prop :=
  ∀ (c : Instr) (l : Link) (k : ReqKind) (tag : Byte) (fields : List Byte) (s : State),
    requestOf c = some (l, k, tag, fields) → fitsFrame fields = true → Takes l s →
    exec c s =
      if k.fits (lenByte fields) then answered l k tag (serve l k fields (found l s)).2 (serve l k fields (found l s)).1
      else refusedWith l k tag .badField s

/-- During initialisation a request is answered BUSY and has no effect. -/
def Obligations.BusyDuringInitialisation : Prop :=
  ∀ (c : Instr) (l : Link) (k : ReqKind) (tag : Byte) (fields : List Byte) (s : State),
    requestOf c = some (l, k, tag, fields) → s.init.isSome = true → HasRoom l s →
    exec c s = refusedWith l k tag .busy s

/-- A frame whose KIND names no request is answered UNKNOWN_KIND, and BUSY during initialisation; a frame that fails CHECK is answered
BAD_FRAME, counted as a bad frame and taken by the fault record, with the KIND and TAG bytes as received in the reply. -/
def Obligations.StrayFramesAreAnswered : Prop :=
  ∀ (l : Link) (kind tag : Byte) (fields : List Byte) (s : State),
    (requestKind kind = none → Takes l s →
      exec (.unknownKind l kind tag fields) s =
        .next (finish (pushReply l { request := kind, tag, result := some .unknownKind, data := [] } (found l s)))) ∧
    (requestKind kind = none → s.init ≠ none → HasRoom l s →
      exec (.unknownKind l kind tag fields) s =
        .next (finish (pushReply l { request := kind, tag, result := some .busy, data := [] } (found l s)))) ∧
    ∀ check : Byte, checkFails kind tag fields check = true → HasRoom l s →
      exec (.badFrame l kind tag fields check) s =
        .next (finish (pushReply l { request := kind, tag, result := some .badFrame, data := [] }
          (takeFault .linkBadFrame (.link l) ((found l s).setLink l
            { (found l s).link l with badFrames := min ((s.link l).badFrames + 1) 65535 }))))

/-- A frame that finds frames waiting or four replies queued joins the input buffer as it came, be it a request, a frame of an
unknown kind or one that fails CHECK, and with four frames waiting it is an overrun, which has no effect but its counter and its
fault. The instant at which a reply's departure has just emptied the buffer is no exception: with four replies queued again, a frame
that completes then joins the buffer, which is the model's choice (log 39). -/
def Obligations.FrameWaitsOrIsLost : Prop :=
  ∀ (c : Instr) (l : Link) (f : Frame) (s : State),
    ((∃ k tag fields, requestOf c = some (l, k, tag, fields) ∧ f = mkFrame k.code tag fields) ∨
      (∃ kind tag fields, c = .unknownKind l kind tag fields ∧ f = mkFrame kind tag fields) ∨
      (∃ kind tag fields check, c = .badFrame l kind tag fields check ∧ f = { len := lenByte fields, kind, tag, fields, check })) →
    ¬ HasRoom l s →
    ((s.link l).buffer.length < 4 →
      exec c s = .next (finish (s.setLink l { s.link l with buffer := (s.link l).buffer ++ [f] }))) ∧
    (4 ≤ (s.link l).buffer.length →
      exec c s = .next (finish (takeFault .linkOverrun (.link l) (s.setLink l
        { s.link l with overruns := min ((s.link l).overruns + 1) 65535 }))))

/-- The bytes of a frame, taken one by one by a receiver in HUNT, complete that frame and leave the receiver in HUNT. -/
def Obligations.BytesMakeTheFrame : Prop :=
  ∀ (l : Link) (f : Frame) (s : State),
    f.len = lenByte f.fields → fitsFrame f.fields = true → (s.link l).rx = .hunt → (s.link l).interByteDue = none →
    f.bytes.foldl (fun s b => linkByte l b true s) s = frameComplete l f s

/-- The receive states of a link, byte by byte; a framing error; and the inter-byte timeout, which brings the timebase up to the
instant it is due, the model's choice (log 2). Where that lies ahead and entries wait for a place of a NOTE lane, the instant ends first
(log 37). -/
def Obligations.ReceiverTable : Prop :=
  ∀ (l : Link) (b : Byte) (s : State),
    ((s.link l).rx = .hunt →
      exec (.linkByteReceived l b true) s =
        if b = 0xA5#8 then .next (finish (s.setLink l
          { s.link l with rx := .length, interByteDue := some (s.now + 5000) }))
        else .next (finish s)) ∧
    ((s.link l).rx = .length →
      exec (.linkByteReceived l b true) s =
        if 2 ≤ b.toNat ∧ b.toNat ≤ 60 then .next (finish (s.setLink l
          { s.link l with rx := .body b [], interByteDue := some (s.now + 5000) }))
        else if b = 0xA5#8 then .next (finish ((dropFrame l s).setLink l
          { (dropFrame l s).link l with rx := .length, interByteDue := some (s.now + 5000) }))
        else .next (finish (dropFrame l s))) ∧
    (∀ len stored, (s.link l).rx = .body len stored →
      exec (.linkByteReceived l b true) s =
        .next (finish (s.setLink l { s.link l with
          rx := if stored.length + 1 < len.toNat then .body len (stored ++ [b]) else .check len (stored ++ [b])
          interByteDue := some (s.now + 5000) }))) ∧
    (∀ len stored, (s.link l).rx = .check len stored →
      exec (.linkByteReceived l b true) s =
        .next (finish (frameComplete l (frameOf len stored b)
          (s.setLink l { s.link l with rx := .hunt, interByteDue := none })))) ∧
    exec (.linkByteReceived l b false) s =
      (if (s.link l).rx = .hunt then .next (finish s) else .next (finish (dropFrame l s))) ∧
    (∀ d, (s.link l).interByteDue = some d → At d s →
      exec (.linkInterByteTimeout l) s = .next (finish (dropFrame l { s with now := max s.now d }))) ∧
    dropFrame l s = takeFault .linkBadFrame (.link l) (s.setLink l
      { s.link l with rx := .hunt, interByteDue := none, badFrames := min ((s.link l).badFrames + 1) 65535 })

/-- The end of a link's frame: the oldest reply goes out and lets the oldest waiting frame be taken, else the notice raised first
goes out, else the transmitter is IDLE; with nothing in transmission nothing happens (log 2). An instant with entries waiting ends
before a frame that ends later (log 37). -/
def Obligations.LinkTransmitterTable : Prop :=
  ∀ (l : Link) (s : State),
    ((s.link l).tx = none → exec (.linkTransmitEnd l) s = .next (finish s)) ∧
    ∀ w, (s.link l).tx = some w → At w.ends s →
      (∀ r rs, (s.link l).replies = r :: rs →
        ((s.link l).buffer = [] →
          exec (.linkTransmitEnd l) s = .next (finish ((s.reach w.ends).setLink l
            { s.link l with replies := rs, tx := some (wireOf r.frame (max s.now w.ends)) }))) ∧
        ∀ f fs, (s.link l).buffer = f :: fs →
          exec (.linkTransmitEnd l) s = .next (finish (takeFrame l f ((s.reach w.ends).setLink l
            { s.link l with replies := rs, buffer := fs, tx := some (wireOf r.frame (max s.now w.ends)) })))) ∧
      ((s.link l).replies = [] →
        (∀ e es, (s.link l).notices = e :: es →
          exec (.linkTransmitEnd l) s = .next (finish ((s.reach w.ends).setLink l
            { s.link l with notices := es, tx := some (wireOf e.frame (max s.now w.ends)) }))) ∧
        ((s.link l).notices = [] →
          exec (.linkTransmitEnd l) s = .next (finish ((s.reach w.ends).setLink l { s.link l with tx := none }))))

/-! ### Transport and tempo -/

/-- START: a bad flag is refused before the state is looked at (log 10); from a link or a footswitch, with a count-in and no skip
the count-in begins, else bar 1 with a START and a CLOCK byte on every clock port, each after the TRANSPORT notice START (log 35);
outside STOPPED it is refused. The tempo of the first beat is the evaluation's at that downbeat. -/
def Obligations.StartTable : Prop :=
  (∀ (l : Link) (tag skip : Byte) (s : State), Takes l s →
    (flag skip = none → exec (.start l tag skip) s = refusedWith l .start tag .badField s) ∧
    ∀ k, flag skip = some k → exec (.start l tag skip) s =
      answered l .start tag (startTransport k (.link l) (found l s)).2 (startTransport k (.link l) (found l s)).1) ∧
  ∀ (k : Bool) (o : Origin) (s : State),
    (s.transport.mode ≠ .stopped → startTransport k o s = (s, .refuse .wrongState [])) ∧
    (s.transport.mode = .stopped → 0 < s.countInBars → k = false →
      ∀ w, w = { s with
        tempo := { s.tempo with acc := 0 }
        transport := { TransportState.atStart .countIn s.firstSegment with countIn := s.countInBars } } →
      ∀ e, e = (evaluateBeat true w).tempo →
      ∃ u, startTransport k o s = (u, .ok []) ∧ u = countInDownbeat (raiseTransport .start (some o) w) ∧
        u.transport.mode = .countIn ∧ u.transport.bar = 1 ∧ u.transport.beat = 1 ∧ u.transport.step = 0 ∧
        u.transport.countIn = s.countInBars ∧
        u.tempo = { e with acc := (stepDuration e.current 0).2 } ∧
        u.transport.stepEnd = some (s.now + (stepDuration e.current 0).1) ∧
        (∀ p, (u.port p).realtime = (s.port p).realtime) ∧ u.now = s.now ∧ BandOnly s u) ∧
    (s.transport.mode = .stopped → (s.countInBars = 0 ∨ k = true) → LibraryOk s → CueOk s →
      ∀ w, w = { s with
        tempo := { s.tempo with acc := 0 }
        transport := TransportState.atStart .running s.firstSegment } →
      ∀ e, e = (evaluateBeat true w).tempo →
      ∃ u, startTransport k o s = (u, .ok []) ∧ u = runningDownbeat (some .start) (raiseTransport .start (some o) w) ∧
        u.transport.mode = .running ∧ u.transport.bar = 1 ∧ u.transport.beat = 1 ∧ u.transport.step = 0 ∧
        u.tempo = { e with acc := (stepDuration e.current 0).2 } ∧
        u.transport.stepEnd = some (s.now + (stepDuration e.current 0).1) ∧
        (∀ p, (u.port p).realtime = if (s.port p).settings.clockFlag then
          (((s.port p).offerRealtime .start).offerRealtime .clock).realtime else (s.port p).realtime) ∧
        u.now = s.now ∧ BandOnly s u)

/-- STOP, from a link or a footswitch: while STOPPED only the tempo unit takes it; else the transport returns to bar 1 in the meter
of the map in use, a STOP byte goes to every clock port if it was RUNNING, the tempo unit is cleared, a change in the cue slot is
triggered, and the TRANSPORT notice is raised with its cause. A stop by the stop bar goes the same way. The tempo unit raises one
TEMPO notice for the whole of its part, the model's choice (log 11). -/
def Obligations.StopTable : Prop :=
  (∀ (l : Link) (tag : Byte) (s : State), Takes l s → exec (.stop l tag) s =
    answered l .stop tag (stopTransport (.link l) (found l s)).2 (stopTransport (.link l) (found l s)).1) ∧
  (∀ (o : Origin) (s : State),
    (s.transport.mode ≠ .stopped → stopTransport o s = (stopBy .stop (some o) s, .ok [])) ∧
    (s.transport.mode = .stopped → ∀ y, y = { s with
        tempo := ({ s.tempo with segment := none, ramp := .none, override := none, staged := none } : TempoState).take
          s.firstSegment.tempo } →
      stopTransport o s = (if y.tempo.current ≠ s.tempo.current ∨ s.tempo.override ≠ none ∨ s.tempo.staged ≠ none
        then raise y.tempoNotice y else y, .ok []))) ∧
  ∀ (cause : Cause) (o : Option Origin) (s : State),
    ∃ y x : State, y = { s with
        transport := .atStart .stopped s.firstSegment
        tempo := ({ s.tempo with segment := none, ramp := .none, override := none, staged := none } : TempoState).take
          s.firstSegment.tempo
        ports := y.ports } ∧
      (∀ p, y.port p = if (s.port p).settings.clockFlag = true ∧ s.transport.mode = .running then
        (s.port p).offerRealtime .stop else s.port p) ∧
      x = (if y.tempo.current ≠ s.tempo.current ∨ s.tempo.override ≠ none ∨ s.tempo.staged ≠ none
        then raise y.tempoNotice y else y) ∧
      (s.cue = none → stopBy cause o s = raiseTransport cause o x ∧ BandOnly s (stopBy cause o s)) ∧
      ∀ c, s.cue = some c → ∃ u, stopBy cause o s = raiseTransport cause o u ∧ u = (triggerCue c x).1 ∧
        u.transport = TransportState.atStart .stopped u.firstSegment ∧ u.cue = none ∧ u.departure = some c ∧
        u.curScene = some c.scene ∧
        u.curPos = (if c.kind = .song then some c.position else s.curPos) ∧ u.liveId = some (c.slot, c.scene) ∧
        u.live = (s.sceneAt c.slot c.scene).elim [] (fun sc => sc.zones) ∧ u.audition = none ∧
        u.tempo.current = u.firstSegment.tempo ∧ u.tempo.override = none ∧ u.tempo.staged = none ∧ u.tempo.segment = none ∧
        u.tempo.ramp = .none ∧ (∀ p, (u.port p).realtime = (y.port p).realtime) ∧
        u.click = s.click ∧ u.now = s.now ∧ SameShow s u

/-- HOLD: in RUNNING it sets hold-pending once and raises the TRANSPORT notice; in every other state it is refused. GO: outside HELD
it is refused; in HELD it runs on with the downbeat of the held bar, with a CONTINUE and a CLOCK byte on every clock port, or stops
when that bar lies beyond the stop bar; a change in the cue slot that is due at that downbeat is triggered first, from RUNNING, so
that a song change which leaves RUNNING there sends STOP with no CONTINUE before it (log 16); a stop triggers any. That the
TRANSPORT notice of GO comes before those of the downbeat is the model's choice (log 35). Both come from a link or a footswitch. -/
def Obligations.HoldAndGoTable : Prop :=
  (∀ (l : Link) (tag : Byte) (s : State), Takes l s →
    exec (.hold l tag) s =
      answered l .hold tag (holdTransport (.link l) (found l s)).2 (holdTransport (.link l) (found l s)).1 ∧
    exec (.go l tag) s =
      answered l .go tag (goTransport (.link l) (found l s)).2 (goTransport (.link l) (found l s)).1) ∧
  (∀ (o : Origin) (s : State),
    (s.transport.mode = .running → s.transport.holdPending = false →
      holdTransport o s = (raiseTransport .hold (some o) { s with
        transport := { s.transport with holdPending := true } }, .ok [])) ∧
    (s.transport.mode = .running → s.transport.holdPending = true → holdTransport o s = (s, .ok [])) ∧
    (s.transport.mode ≠ .running → holdTransport o s = (s, .refuse .wrongState []))) ∧
  ∀ (o : Origin) (s : State),
    (s.transport.mode ≠ .held → goTransport o s = (s, .refuse .wrongState [])) ∧
    (s.transport.mode = .held → s.beyondStopBar = true →
      goTransport o s = (stopBy .stopBar none s, .ok []) ∧
      ∀ p, ((stopBy .stopBar none s).port p).realtime = (s.port p).realtime) ∧
    (s.transport.mode = .held → s.beyondStopBar = false →
      ∀ y, y = raiseTransport .go (some o)
        { s with tempo := { s.tempo with acc := 0 }, transport := { s.transport with mode := .running } } →
      ((s.cue = none ∨ ∃ x g, s.cue = some x ∧ x.timing = .phrase ∧ s.currentSong = some g ∧
          (s.transport.bar - 1) % g.phrase ≠ 0) →
        ∃ u, goTransport o s = (u, .ok []) ∧ u = runningDownbeat (some .continue) y ∧ u.transport.mode = .running ∧
          u.transport.bar = s.transport.bar ∧ u.transport.beat = s.transport.beat ∧
          u.transport.step = s.transport.step ∧
          u.transport.stepEnd = some (s.now + (stepDuration u.tempo.current 0).1) ∧
          (∀ p, (u.port p).realtime = if (s.port p).settings.clockFlag then
            (((s.port p).offerRealtime .continue).offerRealtime .clock).realtime else (s.port p).realtime) ∧
          u.now = s.now ∧ BandOnly s u) ∧
      ∀ x, s.cue = some x → (x.timing = .beat ∨ x.timing = .bar ∨
          x.timing = .phrase ∧ ∀ g, s.currentSong = some g → (s.transport.bar - 1) % g.phrase = 0) →
        ∃ r k, triggerCue x y = (r, k) ∧
          (k = .goOn → goTransport o s = (runningDownbeat (some .continue) r, .ok [])) ∧
          (k = .restart → goTransport o s = (runningDownbeat (some .start) r, .ok [])) ∧
          (k = .countIn → goTransport o s = (countInDownbeat r, .ok [])) ∧
          (k = .halt → goTransport o s = (r, .ok [])))

/-- EXTEND: in RUNNING it adds one beat to the bar up to four times, with or without hold-pending, so that the step that was to
begin the next bar begins the added beat; else it is refused. -/
def Obligations.ExtendTable : Prop :=
  ∀ (l : Link) (tag : Byte) (s : State), Takes l s →
    (s.transport.mode = .running → s.transport.extension < 4 →
      exec (.extend l tag) s = answered l .extend tag (.ok []) (raiseTransport .extend (some (.link l))
        { found l s with transport := { s.transport with extension := s.transport.extension + 1 } }) ∧
      ({ s.transport with extension := s.transport.extension + 1 } : TransportState).barLength =
        s.transport.barLength + s.transport.beatLength ∧
      ((s.transport.denominator = 4 ∨ s.transport.denominator = 8) → s.transport.step + 1 = s.transport.barLength →
        ∀ u : State, u.transport = { s.transport with extension := s.transport.extension + 1 } →
          nextStep u = beat { u with transport := { u.transport with
            step := s.transport.barLength
            beat := s.transport.numerator + s.transport.extension + 1 } })) ∧
    (s.transport.mode = .running → 4 ≤ s.transport.extension →
      exec (.extend l tag) s = answered l .extend tag (.refuse .full [Limit.extension.code]) (found l s)) ∧
    (s.transport.mode ≠ .running → exec (.extend l tag) s = refusedWith l .extend tag .wrongState s)

/-- TEMPO_SET: a tempo out of range is refused; while STOPPED a tempo becomes the override and T takes it, and CLEAR removes the
override, so that T takes the value the precedence then gives, the rest of the tempo unit as it was but for the accumulator, which a
new T clears; else the value is staged with due point DOWNBEAT.
One TEMPO notice is raised for each (log 11). -/
def Obligations.TempoSetTable : Prop :=
  ∀ (l : Link) (tag : Byte) (w : Word) (s : State), Takes l s →
    (w ≠ 0#16 → (w.toNat < 2000 ∨ 30000 < w.toNat) →
      exec (.tempoSet l tag w) s = refusedWith l .tempoSet tag .badField s) ∧
    (2000 ≤ w.toNat → w.toNat ≤ 30000 → s.transport.mode = .stopped →
      ∃ u, exec (.tempoSet l tag w) s = answered l .tempoSet tag (.ok []) (raise u.tempoNotice u) ∧
        u = { found l s with tempo := (s.tempo.setOverride w.toNat).take w.toNat } ∧
        u.tempo.override = some w.toNat ∧ u.tempo.current = w.toNat) ∧
    (2000 ≤ w.toNat → w.toNat ≤ 30000 → s.transport.mode ≠ .stopped →
      ∃ u, exec (.tempoSet l tag w) s = answered l .tempoSet tag (.ok []) (raise u.tempoNotice u) ∧
        u = { found l s with tempo := { s.tempo with staged := some { value := .tempo w.toNat, due := .downbeat } } }) ∧
    (w = 0#16 → s.transport.mode = .stopped →
      ∀ t : Nat, (s.segmentInUse = none → t = s.firstSegment.tempo) →
      (∀ g, s.segmentInUse = some g → t = (match s.tempo.ramp with
        | .ramping k => g.rampValue k
        | .arrived => g.rampTarget.getD g.tempo
        | _ => g.tempo)) →
      ∃ u, exec (.tempoSet l tag w) s =
          answered l .tempoSet tag (.ok []) (if s.tempo.override.isSome then raise u.tempoNotice u else u) ∧
        u = { found l s with tempo := { s.tempo with
          override := none
          current := t
          acc := if t = s.tempo.current then s.tempo.acc else 0 } }) ∧
    (w = 0#16 → s.transport.mode ≠ .stopped →
      ∃ u, exec (.tempoSet l tag w) s = answered l .tempoSet tag (.ok []) (raise u.tempoNotice u) ∧
        u = { found l s with tempo := { s.tempo with staged := some { value := .clear, due := .downbeat } } })

/-- TAP, from a link or a footswitch: the first tap begins the series, a tap within 200 ms is bounce, one within 3 s adds its
interval and gives a tempo, which becomes the override while STOPPED and is staged with due point BEAT otherwise, and a later one
begins a new series. One TEMPO notice is raised for a tap that gives a tempo (log 11). -/
def Obligations.TapTable : Prop :=
  (∀ (l : Link) (tag : Byte) (s : State), Takes l s →
    exec (.tap l tag) s = answered l .tap tag (.ok []) (takeTap (found l s))) ∧
  ∀ s : State,
    (s.tempo.lastTap = none → takeTap s = { s with tempo := { s.tempo with lastTap := some s.now, taps := [] } }) ∧
    ∀ last, s.tempo.lastTap = some last →
      (s.now - last < 200000 → takeTap s = s) ∧
      (3000000 < s.now - last → takeTap s = { s with tempo := { s.tempo with lastTap := some s.now, taps := [] } }) ∧
      (200000 ≤ s.now - last → s.now - last ≤ 3000000 →
        ∀ taps, taps = (if 3 ≤ s.tempo.taps.length then (s.tempo.taps ++ [s.now - last]).drop 1
            else s.tempo.taps ++ [s.now - last]) →
          ∀ v, v = (2 * (6000000000 * taps.length) + taps.sum) / (2 * taps.sum) →
            (s.transport.mode = .stopped →
              ∃ u, takeTap s = raise u.tempoNotice u ∧
                u = { s with tempo := (({ s.tempo with lastTap := some s.now, taps } : TempoState).setOverride v).take v }) ∧
            (s.transport.mode ≠ .stopped →
              ∃ u, takeTap s = raise u.tempoNotice u ∧
                u = { s with tempo :=
                  { s.tempo with lastTap := some s.now, taps, staged := some { value := .tempo v, due := .beat } } }))

/-- The duration of a step is floor(Q / T) µs or one more and the accumulator stays below T, with Q = 62,500,000; any T steps at
tempo T last exactly Q µs together and leave the accumulator at its starting value. Every step keeps the current tempo in 2000 to
30000 and the accumulator below it, with the override, a staged tempo, the taps and the ramp's counter in their own ranges. -/
def Obligations.StepDurationsAreExact : Prop :=
  (∀ t : Nat, 0 < t →
    (∀ a, a < t → (stepDuration t a).2 < t ∧
      ((stepDuration t a).1 = 62500000 / t ∨ (stepDuration t a).1 = 62500000 / t + 1)) ∧
    ∀ a, a < t →
      (Nat.iterate (fun x : Nat × Nat => (x.1 + (stepDuration t x.2).1, (stepDuration t x.2).2)) t (0, a)) = (62500000, a)) ∧
  ∀ s t : State, LibraryOk s → ShowOk s → TempoOk s → step s = .next t → TempoOk t

/-! ### The song library -/

/-- The library's field checks accept exactly the ranges of R63, R2, R102 and R103, and every field takes the value its bytes
carry. -/
def Obligations.LibraryFields : Prop :=
  (∀ (slot countIn mode phrase : Byte) (stopBar : Word) (name : List Byte) (n : SlotNo) (g : Song),
    songHeader ([slot, countIn, mode, phrase] ++ stopBar.bytes ++ name) = some (n, g) ↔
      n.val = slot.toNat ∧ countIn.toNat ≤ 4 ∧ mode = g.startMode.code ∧
      (phrase.toNat = 1 ∨ phrase.toNat = 2 ∨ phrase.toNat = 4 ∨ phrase.toNat = 8) ∧ stopBar.toNat ≤ 9998 ∧
      IsText 1 16 name ∧
      g = { name, countIn := countIn.toNat, startMode := g.startMode, phrase := phrase.toNat,
            stopBar := if stopBar.toNat = 0 then none else some stopBar.toNat, segments := [], scenes := [] }) ∧
  (∀ (f : SegmentFields) (x : Segment),
    segmentRecord (segmentBytes f) = some x ↔
      1 ≤ f.startBar.toNat ∧ f.startBar.toNat ≤ 9999 ∧ 1 ≤ f.numerator.toNat ∧ f.numerator.toNat ≤ 15 ∧
      (f.denominator.toNat = 4 ∨ f.denominator.toNat = 8) ∧ 2000 ≤ f.tempo.toNat ∧ f.tempo.toNat ≤ 30000 ∧
      f.rampBars.toNat ≤ 64 ∧ (f.rampBars.toNat = 0 → f.rampTarget.toNat = 0) ∧
      (f.rampBars.toNat ≠ 0 → 2000 ≤ f.rampTarget.toNat ∧ f.rampTarget.toNat ≤ 30000) ∧
      x = { startBar := f.startBar.toNat, numerator := f.numerator.toNat, denominator := f.denominator.toNat,
            tempo := f.tempo.toNat, rampBars := f.rampBars.toNat,
            rampTarget := if f.rampBars.toNat = 0 then none else some f.rampTarget.toNat }) ∧
  (∀ (t : Byte) (name : List Byte) (x : Scene),
    sceneHeader (t :: name) = some x ↔
      t = x.timing.code ∧ IsText 0 12 name ∧ x = { name, timing := x.timing, zones := [], assignments := [] }) ∧
  (∀ (f : ZoneFields) (z : Zone),
    zoneRecord (zoneBytes f) = some z ↔
      f.inputs.toNat < 64 ∧ f.inputs ≠ 0#8 ∧ z.inputs = f.inputs.setWidth 6 ∧ CarriesChan f.sourceChannel z.sourceChannel ∧
      z.keyLow = f.keyLow.toNat ∧ z.keyHigh = f.keyHigh.toNat ∧ f.keyLow.toNat ≤ f.keyHigh.toNat ∧
      f.keyHigh.toNat ≤ 127 ∧ z.velLow = f.velLow.toNat ∧ z.velHigh = f.velHigh.toNat ∧ 1 ≤ f.velLow.toNat ∧
      f.velLow.toNat ≤ f.velHigh.toNat ∧ f.velHigh.toNat ≤ 127 ∧
      (match z.direction with | .normal => f.direction = 0#8 | .reverse => f.direction = 1#8) ∧
      z.port.val = f.targetPort.toNat ∧ z.chan.val = f.targetChannel.toNat ∧
      z.transpose = f.transpose.toInt ∧ -48 ≤ f.transpose.toInt ∧ f.transpose.toInt ≤ 48 ∧
      (match z.curve with
        | .linear => f.curve = 0#8 ∧ f.fixedVelocity = 0xFF#8
        | .soft => f.curve = 1#8 ∧ f.fixedVelocity = 0xFF#8
        | .hard => f.curve = 2#8 ∧ f.fixedVelocity = 0xFF#8
        | .fixed v => f.curve = 3#8 ∧ v = f.fixedVelocity.toNat ∧ 1 ≤ v ∧ v ≤ 127) ∧
      z.scale = f.scale.toNat ∧ 25 ≤ f.scale.toNat ∧ f.scale.toNat ≤ 200 ∧
      z.offset = f.offset.toInt ∧ -64 ≤ f.offset.toInt ∧ f.offset.toInt ≤ 64 ∧
      (match z.pedal with | .chip => f.pedalMode = 0#8 | .module => f.pedalMode = 1#8) ∧
      f.forward.toNat < 16 ∧ z.forward = { controllers := f.forward.getLsbD 0, bend := f.forward.getLsbD 1,
                                           pressure := f.forward.getLsbD 2, poly := f.forward.getLsbD 3 }) ∧
  ∀ (p c m l n : Byte) (a : Assignment),
    assignmentRecord [p, c, m, l, n] = some a ↔
      a.port.val = p.toNat ∧ a.chan.val = c.toNat ∧ CarriesOpt 0 127 m a.msb ∧ CarriesOpt 0 127 l a.lsb ∧
      n.toNat ≤ 127 ∧ a.program = n.toNat

/-- The field checks of the settings and of CUE accept exactly the ranges their rules give, and every field takes the value its
bytes carry. -/
def Obligations.SettingFields : Prop :=
  (∀ (f : ClickFields) (n : ClickNo) (c : ClickChannel),
    clickSettings (clickBytes f) = some (n, c) ↔
      n.val = f.channel.toNat ∧
      (match c.mode with
        | .off => f.mode = 0#8 | .always => f.mode = 1#8 | .countInOnly => f.mode = 2#8 | .runningOnly => f.mode = 3#8) ∧
      c.port.val = f.port.toNat ∧ c.chan.val = f.midiChannel.toNat ∧
      c.accentNote = f.accentNote.toNat ∧ c.beatNote = f.beatNote.toNat ∧ c.subNote = f.subNote.toNat ∧
      c.accentNote ≤ 127 ∧ c.beatNote ≤ 127 ∧ c.subNote ≤ 127 ∧
      c.accentLevel = f.accentLevel.toNat ∧ c.beatLevel = f.beatLevel.toNat ∧ c.subLevel = f.subLevel.toNat ∧
      c.accentLevel ≤ 31 ∧ c.beatLevel ≤ 31 ∧ c.subLevel ≤ 31 ∧
      (match c.subdivision with
        | .none => f.subdivision = 0#8 | .eighth => f.subdivision = 1#8
        | .sixteenth => f.subdivision = 2#8 | .triplet => f.subdivision = 3#8) ∧
      c.gate = f.gate.toNat ∧ 5 ≤ c.gate ∧ c.gate ≤ 250) ∧
  (∀ (f : OutputFields) (p : Port) (x : PortSettings),
    portSettings (outputBytes f) = some (p, x) ↔
      p.val = f.port.toNat ∧ f.runningStatus = bFlag x.runningStatus ∧ f.clockFlag = bFlag x.clockFlag ∧
      f.keepAlive = bFlag x.keepAlive ∧ x.settleTime = f.settleTime.toNat ∧ x.settleTime ≤ 200 ∧
      (match x.policy with
        | .hold => f.settlePolicy = 0#8 | .drop => f.settlePolicy = 1#8 | .pass => f.settlePolicy = 2#8) ∧
      x.interval = f.interval.toNat ∧
      (x.interval = 0 ∨ x.interval = 2 ∨ x.interval = 5 ∨ x.interval = 10 ∨ x.interval = 20) ∧
      (match x.laneMode with | .round => f.laneMode = 0#8 | .noteFirst => f.laneMode = 1#8) ∧
      x.weight = f.weight.toNat ∧ 1 ≤ x.weight ∧ x.weight ≤ 16) ∧
  (∀ (i c w : Byte) (n : Input) (x : Option Chan) (on : Bool),
    inputSettings [i, c, w] = some (n, x, on) ↔ n.val = i.toNat ∧ CarriesChan c x ∧ w = bFlag on) ∧
  (∀ (b f p si sc : Byte) (n : FootLine) (x : FootFunction) (pol : Polarity) (src : Option (Input × Chan)),
    footSettings [b, f, p, si, sc] = some (n, x, pol, src) ↔
      n.val = b.toNat ∧
      (match x with
        | .none => f = 0#8 | .nextScene => f = 1#8 | .prevScene => f = 2#8 | .nextSong => f = 3#8 | .tap => f = 4#8
        | .startStop => f = 5#8 | .holdGo => f = 6#8 | .panic => f = 7#8 | .sustain => f = 8#8) ∧
      (match pol with | .make => p = 0#8 | .break => p = 1#8) ∧
      (if x = .sustain then ∃ i c, src = some (i, c) ∧ i.val = si.toNat ∧ c.val = sc.toNat
       else src = none ∧ si = 0xFF#8 ∧ sc = 0xFF#8)) ∧
  (∀ (f n : Byte) (x : CueForm),
    cueForm f n = some x ↔ f = x.code ∧ n = x.number ∧
      (∀ k, x = .scene k → k ≤ 11) ∧ ∀ k, x = .position k → k ≤ 63) ∧
  ∀ (t : Byte) (x : Option Timing), cueTiming t = some x ↔ t = (match x with | none => 0#8 | some y => y.code)

/-- SONG_OPEN: a bad header, an OPEN slot of the link's own, a slot OPEN for the other link and a READY song IN USE are refused in
this order; an EMPTY slot and a READY song not IN USE become OPEN for the link with that header alone, the old record's items
return, and the other link is offered the LIBRARY notice. -/
def Obligations.SongOpenTable : Prop :=
  ∀ (l : Link) (tag slot countIn mode phrase : Byte) (stopBar : Word) (name : List Byte) (s : State),
    Takes l s → name.length + 6 ≤ 58 →
    ∀ c, c = Instr.songOpen l tag slot countIn mode phrase stopBar name →
      (songHeader ([slot, countIn, mode, phrase] ++ stopBar.bytes ++ name) = none →
        exec c s = refusedWith l .songOpen tag .badField s) ∧
      ∀ n g, songHeader ([slot, countIn, mode, phrase] ++ stopBar.bytes ++ name) = some (n, g) →
        (∀ m, s.ownedSlot l = some m → exec c s = refusedWith l .songOpen tag .wrongState s) ∧
        (s.ownedSlot l = none → ∀ o g' k, s.slot n = .building o g' k →
          exec c s = refusedWith l .songOpen tag .inUse s) ∧
        (s.ownedSlot l = none → ∀ g', s.slot n = .ready g' → s.inUse n = true →
          exec c s = refusedWith l .songOpen tag .inUse s) ∧
        (s.ownedSlot l = none → (s.slot n = .empty ∨ (∃ g', s.slot n = .ready g') ∧ s.inUse n = false) →
          exec c s = answered l .songOpen tag (.ok []) (raiseOn l.other
            (.library n (s.slot n).mode .building (some l) []) ((found l s).setSlot n (.building l g none))) ∧
          (s.setSlot n (.building l g none)).zoneHeld + (s.slot n).zoneItems = s.zoneHeld ∧
          (s.setSlot n (.building l g none)).programHeld + (s.slot n).programItems = s.programHeld)

/-- SONG_SEGMENT: the checks of R106 in order, then the segment at the end of the OPEN song's list, with its index. -/
def Obligations.SongSegmentTable : Prop :=
  ∀ (l : Link) (tag : Byte) (f : SegmentFields) (s : State), Takes l s →
    (s.ownedSlot l = none → exec (.songSegment l tag f) s = refusedWith l .songSegment tag .wrongState s) ∧
    ∀ n g k, s.ownedSlot l = some n → s.slot n = .building l g k →
      (segmentRecord (segmentBytes f) = none →
        exec (.songSegment l tag f) s = refusedWith l .songSegment tag .badField s) ∧
      ∀ x, segmentRecord (segmentBytes f) = some x →
        (8 ≤ g.segments.length →
          exec (.songSegment l tag f) s = answered l .songSegment tag (.refuse .full [1#8]) (found l s)) ∧
        (g.segments.length < 8 →
          (g.segments = [] ∧ x.startBar ≠ 1 ∨ ∃ ys y, g.segments = ys ++ [y] ∧ x.startBar ≤ y.startBar) →
          exec (.songSegment l tag f) s = refusedWith l .songSegment tag .badField s) ∧
        (g.segments.length < 8 →
          (g.segments = [] ∧ x.startBar = 1 ∨ ∃ ys y, g.segments = ys ++ [y] ∧ y.startBar < x.startBar) →
          exec (.songSegment l tag f) s = answered l .songSegment tag (.ok [b1 g.segments.length])
            ((found l s).setSlot n (.building l { g with segments := g.segments ++ [x] } k)))

/-- SCENE_BEGIN: the new scene, with no zones and no assignments, joins the end of the list, the cursor moves to it and the reply
carries its number; a thirteenth scene is refused FULL with limit SCENES and the cursor stays; no pool item is taken. -/
def Obligations.SceneBeginTable : Prop :=
  ∀ (l : Link) (tag timing : Byte) (name : List Byte) (s : State), Takes l s → name.length + 1 ≤ 58 →
    (s.ownedSlot l = none → name.length ≤ 12 →
      exec (.sceneBegin l tag timing name) s = refusedWith l .sceneBegin tag .wrongState s) ∧
    ∀ n g k, s.ownedSlot l = some n → s.slot n = .building l g k →
      ((∀ x : Timing, timing ≠ x.code) ∨ ¬ IsText 0 12 name →
        exec (.sceneBegin l tag timing name) s = refusedWith l .sceneBegin tag .badField s) ∧
      ∀ x : Timing, timing = x.code → IsText 0 12 name →
        (12 ≤ g.scenes.length →
          exec (.sceneBegin l tag timing name) s = answered l .sceneBegin tag (.refuse .full [2#8]) (found l s)) ∧
        (g.scenes.length < 12 →
          ∃ u, exec (.sceneBegin l tag timing name) s = answered l .sceneBegin tag (.ok [b1 g.scenes.length]) u ∧
            u = (found l s).setSlot n (.building l
              { g with scenes := g.scenes ++ [{ name, timing := x, zones := [], assignments := [] }] }
              (some g.scenes.length)) ∧
            u.zoneHeld = s.zoneHeld ∧ u.programHeld = s.programHeld)

/-- SCENE_ZONE and SCENE_PROGRAM: with no OPEN slot, or the cursor on no scene, they are refused; a bad field next, then a full
list, then an empty pool; else the item joins the scene under the cursor and is taken from its pool, or an assignment for the
same port and channel is replaced in its place with no item taken. -/
def Obligations.SceneItemsTable : Prop :=
  (∀ (l : Link) (tag : Byte) (f : ZoneFields) (s : State), Takes l s →
    (s.ownedSlot l = none → exec (.sceneZone l tag f) s = refusedWith l .sceneZone tag .wrongState s) ∧
    (∀ n g, s.ownedSlot l = some n → s.slot n = .building l g none →
      exec (.sceneZone l tag f) s = refusedWith l .sceneZone tag .wrongState s) ∧
    ∀ n g k sc, s.ownedSlot l = some n → s.slot n = .building l g (some k) → g.scenes[k]? = some sc →
      (zoneRecord (zoneBytes f) = none → exec (.sceneZone l tag f) s = refusedWith l .sceneZone tag .badField s) ∧
      ∀ z, zoneRecord (zoneBytes f) = some z →
        (16 ≤ sc.zones.length →
          exec (.sceneZone l tag f) s = answered l .sceneZone tag (.refuse .full [3#8]) (found l s)) ∧
        (sc.zones.length < 16 → 768 ≤ s.zoneHeld →
          exec (.sceneZone l tag f) s = answered l .sceneZone tag (.refuse .full [4#8]) (found l s)) ∧
        (sc.zones.length < 16 → s.zoneHeld < 768 →
          ∃ u, exec (.sceneZone l tag f) s =
              answered l .sceneZone tag (.ok (b1 sc.zones.length :: b2 (768 - u.zoneHeld))) u ∧
            u = (found l s).setSlot n (.building l
              { g with scenes := g.scenes.set k { sc with zones := sc.zones ++ [z] } } (some k)) ∧
            u.zoneHeld = s.zoneHeld + 1 ∧ u.programHeld = s.programHeld)) ∧
  ∀ (l : Link) (tag p c m b n' : Byte) (s : State), Takes l s →
    (s.ownedSlot l = none →
      exec (.sceneProgram l tag p c m b n') s = refusedWith l .sceneProgram tag .wrongState s) ∧
    (∀ n g, s.ownedSlot l = some n → s.slot n = .building l g none →
      exec (.sceneProgram l tag p c m b n') s = refusedWith l .sceneProgram tag .wrongState s) ∧
    ∀ n g k sc, s.ownedSlot l = some n → s.slot n = .building l g (some k) → g.scenes[k]? = some sc →
      (assignmentRecord [p, c, m, b, n'] = none →
        exec (.sceneProgram l tag p c m b n') s = refusedWith l .sceneProgram tag .badField s) ∧
      ∀ a, assignmentRecord [p, c, m, b, n'] = some a →
        (∀ xs y ys, sc.assignments = xs ++ y :: ys → y.port = a.port → y.chan = a.chan →
          (∀ x ∈ xs, ¬ (x.port = a.port ∧ x.chan = a.chan)) →
          ∃ u, exec (.sceneProgram l tag p c m b n') s =
              answered l .sceneProgram tag (.ok (1#8 :: b1 xs.length :: b2 (512 - s.programHeld))) u ∧
            u = (found l s).setSlot n (.building l
              { g with scenes := g.scenes.set k { sc with assignments := xs ++ a :: ys } } (some k)) ∧
            u.zoneHeld = s.zoneHeld ∧ u.programHeld = s.programHeld) ∧
        ((∀ x ∈ sc.assignments, ¬ (x.port = a.port ∧ x.chan = a.chan)) →
          (16 ≤ sc.assignments.length →
            exec (.sceneProgram l tag p c m b n') s =
              answered l .sceneProgram tag (.refuse .full [3#8]) (found l s)) ∧
          (sc.assignments.length < 16 → 512 ≤ s.programHeld →
            exec (.sceneProgram l tag p c m b n') s =
              answered l .sceneProgram tag (.refuse .full [4#8]) (found l s)) ∧
          (sc.assignments.length < 16 → s.programHeld < 512 →
            ∃ u, exec (.sceneProgram l tag p c m b n') s = answered l .sceneProgram tag
                (.ok (0#8 :: b1 sc.assignments.length :: b2 (512 - u.programHeld))) u ∧
              u = (found l s).setSlot n (.building l
                { g with scenes := g.scenes.set k { sc with assignments := sc.assignments ++ [a] } } (some k)) ∧
              u.zoneHeld = s.zoneHeld ∧ u.programHeld = s.programHeld + 1))

/-- SONG_CLOSE: no OPEN slot, no segment, no scene, or a ramp that runs past the next segment's start are refused in this order,
the last with the first such segment's index; else the slot is READY, the numbers are answered and the other link is offered the
LIBRARY notice, which the model gives no owner, its reading of R115 for a slot that is no longer OPEN (log 31). -/
def Obligations.SongCloseTable : Prop :=
  ∀ (l : Link) (tag : Byte) (s : State), Takes l s →
    (s.ownedSlot l = none → exec (.songClose l tag) s = refusedWith l .songClose tag .wrongState s) ∧
    ∀ n g k, s.ownedSlot l = some n → s.slot n = .building l g k →
      (g.segments = [] →
        exec (.songClose l tag) s = answered l .songClose tag (.refuse .badSong [1#8, 0xFF#8]) (found l s)) ∧
      (g.segments ≠ [] → g.scenes = [] →
        exec (.songClose l tag) s = answered l .songClose tag (.refuse .badSong [2#8, 0xFF#8]) (found l s)) ∧
      (∀ i x y, g.segments[i]? = some x → g.segments[i + 1]? = some y → 0 < x.rampBars →
        y.startBar < x.startBar + x.rampBars → g.scenes ≠ [] →
        (∀ j x' y', j < i → g.segments[j]? = some x' → g.segments[j + 1]? = some y' →
          0 < x'.rampBars → x'.startBar + x'.rampBars ≤ y'.startBar) →
        exec (.songClose l tag) s = answered l .songClose tag (.refuse .badSong [3#8, b1 i]) (found l s)) ∧
      (g.segments ≠ [] → g.scenes ≠ [] →
        (∀ j x y, g.segments[j]? = some x → g.segments[j + 1]? = some y →
          0 < x.rampBars → x.startBar + x.rampBars ≤ y.startBar) →
        exec (.songClose l tag) s =
          answered l .songClose tag
            (.ok [b1 g.segments.length, b1 g.scenes.length, b1 (g.scenes.map (fun sc => sc.zones.length)).sum,
              b1 (g.scenes.map (fun sc => sc.assignments.length)).sum])
            (raiseOn l.other (.library n .building .ready none g.name) ((found l s).setSlot n (.ready g))))

/-- SONG_ERASE: a bad number is refused; an EMPTY slot is answered OK with no change; a slot OPEN for the other link and a READY
song IN USE are refused IN_USE; the link's own OPEN slot and a READY song not IN USE become EMPTY, their items return to both
pools, the other link is offered the LIBRARY notice, and the setlist stays. That the notice carries no owner, for an erased OPEN
slot too, is the model's reading (log 31). -/
def Obligations.SongEraseTable : Prop :=
  ∀ (l : Link) (tag b : Byte) (s : State), Takes l s →
    (48 ≤ b.toNat → exec (.songErase l tag b) s = refusedWith l .songErase tag .badField s) ∧
    ∀ n : SlotNo, n.val = b.toNat →
      (s.slot n = .empty → exec (.songErase l tag b) s = answered l .songErase tag (.ok []) (found l s)) ∧
      (∀ g k, s.slot n = .building l.other g k →
        exec (.songErase l tag b) s = refusedWith l .songErase tag .inUse s) ∧
      (∀ g, s.slot n = .ready g → s.inUse n = true →
        exec (.songErase l tag b) s = refusedWith l .songErase tag .inUse s) ∧
      ((∃ g k, s.slot n = .building l g k) ∨ (∃ g, s.slot n = .ready g) ∧ s.inUse n = false →
        ∃ u, exec (.songErase l tag b) s = answered l .songErase tag (.ok [])
            (raiseOn l.other (.library n (s.slot n).mode .empty none []) u) ∧
          u = (found l s).setSlot n .empty ∧
          u.zoneHeld + (s.slot n).zoneItems = s.zoneHeld ∧ u.programHeld + (s.slot n).programItems = s.programHeld ∧
          u.setlist = s.setlist ∧ (OwnersOk s → ∀ g k, s.slot n = .building l g k → u.ownedSlot l = none))

/-! ### Setlist and reports of the show -/

/-- SET_INSERT: the checks in order; else the slot's number is inserted before position p, every position held elsewhere that is
p or above is raised by one, and so every held position keeps naming its entry; nothing else changes. -/
def Obligations.SetInsertTable : Prop :=
  ∀ (l : Link) (tag pb nb : Byte) (s : State), Takes l s →
    (64 < pb.toNat ∨ 47 < nb.toNat → exec (.setInsert l tag pb nb) s = refusedWith l .setInsert tag .badField s) ∧
    ∀ (n : SlotNo) (p : Nat), n.val = nb.toNat → p = pb.toNat → p ≤ 64 →
      (s.setlist.length < p → exec (.setInsert l tag pb nb) s = refusedWith l .setInsert tag .notFound s) ∧
      (p ≤ s.setlist.length → 64 ≤ s.setlist.length →
        exec (.setInsert l tag pb nb) s = answered l .setInsert tag (.refuse .full [5#8]) (found l s)) ∧
      (p ≤ s.setlist.length → s.setlist.length < 64 → ∀ up : Nat → Nat, (∀ q, up q = if p ≤ q then q + 1 else q) →
        ∃ u, exec (.setInsert l tag pb nb) s = answered l .setInsert tag (.ok [b1 (s.setlist.length + 1)]) u ∧
          u = { found l s with
            setlist := s.setlist.take p ++ n :: s.setlist.drop p
            curPos := s.curPos.map up
            cue := s.cue.map (fun c => { c with position := up c.position })
            changeover := s.changeover.map (fun r =>
              { r with position := up r.position, source := { r.source with position := r.source.position.map up } }) } ∧
          u.setlist[p]? = some n ∧ ∀ q m, s.setlist[q]? = some m → u.setlist[up q]? = some m)

/-- SET_REMOVE: the checks in order, a held position among them; else position p leaves the list, every held position above p is
lowered by one, and the other positions keep naming their entries; nothing else changes. -/
def Obligations.SetRemoveTable : Prop :=
  ∀ (l : Link) (tag pb : Byte) (s : State), Takes l s →
    (63 < pb.toNat → exec (.setRemove l tag pb) s = refusedWith l .setRemove tag .badField s) ∧
    ∀ p : Nat, p = pb.toNat → p ≤ 63 →
      (s.setlist.length ≤ p → exec (.setRemove l tag pb) s = refusedWith l .setRemove tag .notFound s) ∧
      (p < s.setlist.length →
        (s.curPos = some p ∨ (∃ c, s.cue = some c ∧ c.position = p) ∨
          ∃ r, s.changeover = some r ∧ (r.position = p ∨ r.source.position = some p)) →
        exec (.setRemove l tag pb) s = refusedWith l .setRemove tag .inUse s) ∧
      (p < s.setlist.length → s.curPos ≠ some p → (∀ c, s.cue = some c → c.position ≠ p) →
        (∀ r, s.changeover = some r → r.position ≠ p ∧ r.source.position ≠ some p) →
        ∀ down : Nat → Nat, (∀ q, down q = if p < q then q - 1 else q) →
          ∃ u, exec (.setRemove l tag pb) s = answered l .setRemove tag (.ok [b1 (s.setlist.length - 1)]) u ∧
            u = { found l s with
              setlist := s.setlist.take p ++ s.setlist.drop (p + 1)
              curPos := s.curPos.map down
              cue := s.cue.map (fun c => { c with position := down c.position })
              changeover := s.changeover.map (fun r =>
                { r with
                  position := down r.position
                  source := { r.source with position := r.source.position.map down } }) } ∧
            ∀ q m, q ≠ p → s.setlist[q]? = some m → u.setlist[down q]? = some m)

/-- SET_CLEAR empties the list, and is refused while a position is current or a change is cued. SET_QUERY changes nothing and
answers the current position and scene, the links' OPEN slots, the READY set and the slot of every position in six bits each, in as
many bytes as the codes take, the bits left over in the last of them set. -/
def Obligations.SetClearAndQuery : Prop :=
  ∀ (l : Link) (tag : Byte) (s : State), Takes l s →
    (s.curPos ≠ none ∨ s.cue ≠ none → exec (.setClear l tag) s = refusedWith l .setClear tag .inUse s) ∧
    (s.curPos = none → s.cue = none →
      exec (.setClear l tag) s = answered l .setClear tag (.ok []) { found l s with setlist := [] }) ∧
    ∃ ready codes : List Byte,
      exec (.setQuery l tag) s = answered l .setQuery tag
        (.ok ([bOpt b1 s.curPos, bOpt b1 s.curScene, bOpt (fun n => b1 n.val) (s.ownedSlot .a),
          bOpt (fun n => b1 n.val) (s.ownedSlot .b)] ++ ready ++ codes)) (found l s) ∧
      ready.length = 6 ∧
      (∀ n : SlotNo, ∀ b, ready[5 - n.val / 8]? = some b → (b.getLsbD (n.val % 8) = true ↔ s.IsReady n)) ∧
      (∀ k n, s.setlist[k]? = some n → sixBits codes k = n.val) ∧
      (s.setlist.length < 64 → sixBits codes s.setlist.length = 63) ∧
      ∀ m, m = s.setlist.length + (if s.setlist.length < 64 then 1 else 0) →
        codes.length = (6 * m + 7) / 8 ∧
        ∀ b, codes.getLast? = some b → ∀ i, i < 8 * codes.length - 6 * m → b.getLsbD i = true

/-- SONG_QUERY changes nothing and answers the slot's state, owner, cursor and IN USE flag, its header, counts and totals, and the
free counts of both pools. -/
def Obligations.SongQueryTable : Prop :=
  ∀ (l : Link) (tag b : Byte) (s : State), Takes l s →
    (48 ≤ b.toNat → exec (.songQuery l tag b) s = refusedWith l .songQuery tag .badField s) ∧
    ∀ n : SlotNo, n.val = b.toNat → ∀ free, free = b2 (768 - s.zoneHeld) ++ b2 (512 - s.programHeld) →
      (s.slot n = .empty → exec (.songQuery l tag b) s = answered l .songQuery tag
        (.ok ([0#8, 0xFF#8, 0xFF#8, 0xFF#8, 0#8, 0#8, 0#8, 0#8, 0#8, 0#8, 0#8, 0#8, 0#8] ++ free)) (found l s)) ∧
      ∀ g body, body = [b1 g.countIn, g.startMode.code, b1 g.phrase] ++ b2 (g.stopBar.getD 0) ++
          [b1 g.segments.length, b1 g.scenes.length, b1 (g.scenes.map (fun sc => sc.zones.length)).sum,
            b1 (g.scenes.map (fun sc => sc.assignments.length)).sum] ++ free ++
          g.scenes.flatMap (fun sc => [b1 sc.zones.length, b1 sc.assignments.length]) ++ g.name →
        (∀ o k, s.slot n = .building o g k → exec (.songQuery l tag b) s = answered l .songQuery tag
          (.ok ([1#8, linkCode o, bOpt b1 k, 0xFF#8] ++ body)) (found l s)) ∧
        (s.slot n = .ready g → exec (.songQuery l tag b) s = answered l .songQuery tag
          (.ok ([2#8, 0xFF#8, 0xFF#8, bFlag (s.inUse n)] ++ body)) (found l s))

/-- STATUS_GET changes nothing: section 00h answers the transport, the tempo, the selection, the cue slot, the watches, the fault
record and the held table; section 01h the changeover record, its port entries and the audition; another section is refused. -/
def Obligations.StatusGetTable : Prop :=
  ∀ (l : Link) (tag b : Byte) (s : State), Takes l s →
    (1 < b.toNat → exec (.statusGet l tag b) s = refusedWith l .statusGet tag .badField s) ∧
    (b = 0#8 → ∀ t, t = s.transport → ∀ cue : List Byte,
      (s.cue = none → cue = List.replicate 8 0xFF#8) →
      (∀ c, s.cue = some c → cue = [c.claimant.code, b1 c.position, b1 c.slot.val, b1 c.scene, c.kind.code,
        c.timing.code, bFlag c.relative, c.source.code]) →
      exec (.statusGet l tag b) s = answered l .statusGet tag
        (.ok ([0#8, t.mode.code] ++ b2 t.bar ++ [b1 t.beat] ++ b2 t.step ++
          [b1 t.numerator, b1 t.denominator, b1 t.extension, bFlag t.holdPending, b1 t.countIn] ++ b2 s.tempo.current ++
          [b1 ((if s.tempo.override.isSome then 1 else 0) + if s.tempo.staged.isSome then 2 else 0), bOpt b1 s.curPos,
            bOpt (fun n => b1 n.val) s.currentSlot, bOpt b1 s.curScene] ++ cue ++
          [(s.input 0).watch.code, (s.input 1).watch.code, (s.input 2).watch.code, (s.input 3).watch.code,
            (s.input 4).watch.code, (s.input 5).watch.code, bFlag s.faultRecord.isSome, b1 s.held.length,
            bOpt (fun e => b1 e.scene) s.held.head?])) (found l s)) ∧
    (b = 1#8 → ∀ entries record : List Byte,
      (s.changeover = none → record = 0#8 :: List.replicate 9 0xFF#8 ∧ entries = [0#8]) →
      (∀ r, s.changeover = some r →
        record = [if ∃ e ∈ r.ports, 0 < e.outstanding then 1#8 else 2#8, r.kind.code, r.claimant.code, r.mark.code,
          bOpt b1 r.source.position, bOpt (fun n => b1 n.val) r.source.slot, bOpt b1 r.source.scene, b1 r.position,
          b1 r.slot.val, b1 r.scene] ∧
        entries = b1 r.ports.length :: r.ports.flatMap (fun e => [b1 e.port.val,
          if 0 < e.outstanding then 0#8 else if e.settling then 1#8 else 2#8, b1 e.outstanding])) →
      exec (.statusGet l tag b) s = answered l .statusGet tag
        (.ok (1#8 :: record ++ [bFlag s.audition.isSome, bOpt b1 s.audition] ++ entries)) (found l s))

/-! ### The cue -/

/-- A relative request steps from the relative change its own claimant has cued, else from the current position and scene. Every
form resolves to its target, or fails with its reason; the slot of the target must be READY; the kind is SCENE exactly when the
position is the current one. DEFAULT timing is BAR for a song and the target scene's own for a scene. The relative mark is set for the
four relative forms alone, and the change names the claimant, if another, whose change it finds in the slot. That NEXT_SONG and PREV_SONG
fail END_OF_LIST also where a removal has left no position, for which a row of R135 says NOT_FOUND, is the model's choice
(log 36). -/
def Obligations.ResolutionTable : Prop :=
  (∀ (c : Claimant) (s : State),
    (∀ x, s.cue = some x → x.relative = true → x.claimant = c → s.reference c = (some x.position, some x.scene)) ∧
    ((∀ x, s.cue = some x → x.relative = true → x.claimant ≠ c) → s.reference c = (s.curPos, s.curScene))) ∧
  (∀ (c : Claimant) (s : State) (p : Option Nat) (m : Option Nat), s.reference c = (p, m) →
    (p = none → s.resolve c .nextScene = .error .notFound ∧ s.resolve c .prevScene = .error .notFound ∧
      s.resolve c .prevSong = .error .endOfList) ∧
    (p = some 0 → s.resolve c .prevSong = .error .endOfList) ∧
    (m = some 0 → p ≠ none → s.resolve c .prevScene = .error .endOfList) ∧
    (s.curPos = none → ∀ n, s.resolve c (.scene n) = .error .notFound) ∧
    (∀ q, q = p.elim 0 (· + 1) → s.setlist.length ≤ q → s.resolve c .nextSong = .error .endOfList) ∧
    (∀ n, s.setlist.length ≤ n → s.resolve c (.position n) = .error .notFound) ∧
    (∀ q k g kind, s.setlist[q]? = some k → s.slot k = .ready g → kind = (if s.curPos = some q then .scene else .song) →
      (∀ n, p = some q → m = some n →
        (n + 1 < g.scenes.length →
          s.resolve c .nextScene = .ok { position := q, slot := k, scene := n + 1, kind }) ∧
        (g.scenes.length ≤ n + 1 → s.resolve c .nextScene = .error .endOfList)) ∧
      (∀ n, p = some q → m = some (n + 1) →
        s.resolve c .prevScene = .ok { position := q, slot := k, scene := n, kind }) ∧
      (∀ n, s.curPos = some q →
        (n < g.scenes.length → s.resolve c (.scene n) = .ok { position := q, slot := k, scene := n, kind }) ∧
        (g.scenes.length ≤ n → s.resolve c (.scene n) = .error .notFound)) ∧
      (q = p.elim 0 (· + 1) → s.resolve c .nextSong = .ok { position := q, slot := k, scene := 0, kind }) ∧
      (p = some (q + 1) → s.resolve c .prevSong = .ok { position := q, slot := k, scene := 0, kind }) ∧
      s.resolve c (.position q) = .ok { position := q, slot := k, scene := 0, kind }) ∧
    ∀ q k, s.setlist[q]? = some k → ¬ s.IsReady k →
      (q = p.elim 0 (· + 1) → s.resolve c .nextSong = .error .notReady) ∧
      (p = some (q + 1) → s.resolve c .prevSong = .error .notReady) ∧
      s.resolve c (.position q) = .error .notReady) ∧
  ∀ (s : State) (q : CueRequest) (t : Target),
    (∀ w, q.timing = some w → (s.changeOf q t).timing = w) ∧
    (q.timing = none → t.kind = .song → (s.changeOf q t).timing = .bar) ∧
    (q.timing = none → t.kind = .scene → ∀ sc, s.sceneAt t.slot t.scene = some sc →
      (s.changeOf q t).timing = sc.timing) ∧
    ((s.changeOf q t).relative = true ↔
      q.form = .nextScene ∨ q.form = .prevScene ∨ q.form = .nextSong ∨ q.form = .prevSong) ∧
    (s.cue = none → (s.changeOf q t).displaced = none) ∧
    (∀ x, s.cue = some x → x.claimant = q.claimant → (s.changeOf q t).displaced = none) ∧
    (∀ x, s.cue = some x → x.claimant ≠ q.claimant → (s.changeOf q t).displaced = some x.claimant) ∧
    s.changeOf q t = { s.changeOf q t with
      claimant := q.claimant, position := t.position, slot := t.slot, scene := t.scene, kind := t.kind, source := q.source }

/-- CUE: a bad field first, then a change of a higher rank in the slot, then a failed resolution are refused and change nothing;
a change that is NOW, or resolved while STOPPED, is triggered at its taking, and every other one waits in the slot, with the
outcome TAKEN, REPLACED or DISPLACED by what the slot held. The trigger in its order: CUE TRIGGERED, SUPERSEDED for an active
record, the new record with the entries not DONE, CHANGE STARTED with the counts the trigger will leave, the selection (a song change
clears the tempo unit and repositions the transport by the song's header), the live table and its pedals, the assignments of the scene
against program memory with the entries they withdraw and enqueue, one that is dropped at its enqueue leaving the port list as it was,
and CHANGE DONE when no port has anything left. That the tempo unit raises one TEMPO notice for the whole of R77 is the model's choice
(log 11), and that a NOW song change is carried out whole before bar 1 or its count-in begins, and CHANGE STARTED raised with the counts
of the whole, is its reading (log 13). -/
def Obligations.CueTable : Prop :=
  (∀ (l : Link) (tag f n t : Byte) (s : State), Takes l s →
    (cueForm f n = none ∨ cueTiming t = none → exec (.cue l tag f n t) s = refusedWith l .cue tag .badField s) ∧
    ∀ form w, cueForm f n = some form → cueTiming t = some w →
      ((∃ x, s.cue = some x ∧ (x.claimant = .stage ∨ x.claimant = .linkA ∧ l = .b)) →
        exec (.cue l tag f n t) s = refusedWith l .cue tag .cueHeld s) ∧
      ((∀ x, s.cue = some x → x.claimant ≠ .stage ∧ (x.claimant = .linkA → l = .a)) →
        (∀ r, s.resolve (claimantOf l) form = .error r → exec (.cue l tag f n t) s = refusedWith l .cue tag r s) ∧
        ∀ g, s.resolve (claimantOf l) form = .ok g →
          ∀ c, c = s.changeOf { claimant := claimantOf l, form, timing := w, source := .link l } g →
            c.claimant = claimantOf l ∧ c.position = g.position ∧ c.slot = g.slot ∧ c.scene = g.scene ∧
            c.kind = g.kind ∧ c.source = .link l ∧
            (c.timing = .now ∨ s.transport.mode = .stopped →
              ∃ u, exec (.cue l tag f n t) s = answered l .cue tag
                  (.ok [4#8, b1 c.position, b1 c.slot.val, b1 c.scene, c.kind.code, c.timing.code]) u ∧
                u.cue = none ∧ u.departure = some c ∧ SameShow s u ∧ u.curScene = some c.scene ∧
                u.curPos = (if c.kind = .song then some c.position else s.curPos) ∧
                u.liveId = some (c.slot, c.scene) ∧
                u.live = (s.sceneAt c.slot c.scene).elim [] (fun sc => sc.zones) ∧ u.audition = none ∧
                ∃ r k, triggerCue c (found l s) = (r, k) ∧ (k = .goOn ∨ k = .halt → u = r) ∧
                  (k = .restart → u = runningDownbeat (some .start) r) ∧ (k = .countIn → u = countInDownbeat r)) ∧
            (c.timing ≠ .now → s.transport.mode ≠ .stopped →
              ∀ d other, (s.cue = none → d = .taken ∧ other = none) →
                (∀ x, s.cue = some x → if x.claimant = claimantOf l then d = .replaced ∧ other = none
                  else d = .displaced ∧ other = some x.claimant) →
                exec (.cue l tag f n t) s = answered l .cue tag
                  (.ok [d.code, b1 c.position, b1 c.slot.val, b1 c.scene, c.kind.code, c.timing.code])
                  (raise (.cue d c none other (s.sceneName c.slot c.scene)) { found l s with cue := some c })))) ∧
  (∀ (c : Change) (s : State),
    triggerCue c s = takeTrigger
      { kind := c.kind, claimant := c.claimant, mark := .none, position := c.position, slot := c.slot, scene := c.scene }
      { raise (.cue .triggered c none c.displaced (s.sceneName c.slot c.scene)) { s with cue := none, departure := some c }
        with audition := none }) ∧
  (∀ (t : Trigger) (s y : State) (r : Changeover),
    r = { kind := t.kind, claimant := t.claimant, mark := t.mark
          source := { position := s.curPos, slot := s.currentSlot, scene := s.curScene }
          position := t.position, slot := t.slot, scene := t.scene
          ports := (s.changeover.elim [] (fun x => x.ports)).filter
            (fun e => decide (0 < e.outstanding) || e.settling) } →
    (s.changeover = none → y = { s with changeover := some r }) →
    (∀ x, s.changeover = some x →
      y = { raise (.change .superseded x 0 0 (s.sceneName x.slot x.scene)) s with changeover := some r }) →
    ∃ f z, { f with ports := r.ports } = r ∧ (carryOut t y).1.state.changeover = some f ∧
      z = raise (.change .started f (carryOut t y).1.enqueued (carryOut t y).1.dropped (s.sceneName t.slot t.scene)) y ∧
      takeTrigger t s = (completeIfDone (carryOut t z).1.state, (carryOut t z).2)) ∧
  (∀ (t : Trigger) (s : State) (o : Option Scene), o = s.sceneAt t.slot t.scene →
    carryOut t s = ((o.elim [] (fun sc => sc.assignments)).foldl Sending.assign
      { state := pedalCarry { (moveSelection t s).1 with
          live := o.elim [] (fun sc => sc.zones)
          liveId := some (t.slot, t.scene) }
        enqueued := 0, dropped := 0 }, (moveSelection t s).2)) ∧
  (∀ (t : Trigger) (s : State),
    (t.kind = .scene → moveSelection t s = ({ s with curScene := some t.scene }, .goOn)) ∧
    (t.kind = .song → ∀ u, u = { s with curPos := some t.position, curScene := some t.scene } →
      ∀ e, e = ({ s.tempo with segment := none, ramp := .none, override := none, staged := none } : TempoState).take
        u.firstSegment.tempo →
      ∀ v, v = (if e.current ≠ s.tempo.current ∨ s.tempo.override ≠ none ∨ s.tempo.staged ≠ none
        then raise (State.tempoNotice { u with tempo := e }) { u with tempo := e } else { u with tempo := e }) →
      (s.transport.mode = .stopped →
        moveSelection t s = ({ v with transport := TransportState.atStart .stopped u.firstSegment }, .goOn)) ∧
      (s.transport.mode ≠ .stopped → ∃ x k, moveSelection t s = (raiseTransport .songChange none x, k) ∧
        ((u.currentSong = none ∨ ∃ g, u.currentSong = some g ∧ g.startMode = .wait) → k = .halt ∧
          x.transport = TransportState.atStart .stopped u.firstSegment ∧ x.tempo = e) ∧
        (∀ g, u.currentSong = some g → g.startMode = .follow → g.countIn = 0 → k = .restart ∧
          x.transport = TransportState.atStart .running u.firstSegment ∧ x.tempo = { e with acc := 0 }) ∧
        (∀ g, u.currentSong = some g → g.startMode = .follow → g.countIn ≠ 0 → k = .countIn ∧
          x.transport = { TransportState.atStart .countIn u.firstSegment with
            countIn := g.countIn
            countInFromSong := true } ∧ x.tempo = { e with acc := 0 }) ∧
        (∀ p, (x.port p).realtime =
          if (s.port p).settings.clockFlag = true ∧ s.transport.mode = .running ∧ k ≠ .restart then
            ((s.port p).offerRealtime .stop).realtime else (s.port p).realtime) ∧
        x.click = s.click ∧ x.now = s.now ∧ BandOnly v x))) ∧
  (∀ (w : Sending) (a : Assignment), ∀ s, s = w.state → ∀ m : ProgramSetting,
    m = { msb := a.msb, lsb := a.lsb, program := a.program } → ∀ e, e = NoteEntry.program a.chan a.msb a.lsb a.program →
    (s.program a.port a.chan = some m → w.assign a = w) ∧
    (s.program a.port a.chan ≠ some m → ∀ q, q = s.port a.port → ∀ h n : NoteEntry → Bool,
      (∀ x, h x = true ↔ ∃ b l p, x = .program a.chan b l p) → (∀ x, n x = !h x) → ∀ y,
      (q.noteLane.any h = false → y = s) →
      (q.noteLane.any h = true → y = { s.setPort a.port ({ q with noteLane := q.noteLane.filter n } : PortState).lose with
        changeover := s.changeover.map (fun r => { r with ports := r.ports.map (fun x =>
          if x.port = a.port then { x with outstanding := x.outstanding - 1 } else x) }) }) →
      (((y.port a.port).offer y.now e).accepted = false → w.assign a =
        { w with state := (offerNote a.port e y).setProgram a.port a.chan none, dropped := w.dropped + 1 } ∧
        (w.assign a).state.changeover = y.changeover) ∧
      (((y.port a.port).offer y.now e).accepted = true → ∀ z, z = (offerNote a.port e y).setProgram a.port a.chan (some m) →
        w.assign a = { w with
          state := { z with changeover := z.changeover.map (fun r => { r with
            ports := if ∃ x ∈ r.ports, x.port = a.port then
                r.ports.map (fun x => if x.port = a.port then { x with outstanding := x.outstanding + 1 } else x)
              else r.ports ++ [{ port := a.port, outstanding := 1, settling := false }] }) }
          enqueued := w.enqueued + 1 }))) ∧
  ∀ s : State,
    (s.changeover = none → completeIfDone s = s) ∧
    ∀ r, s.changeover = some r →
      ((∀ e ∈ r.ports, e.outstanding = 0 ∧ e.settling = false) →
        completeIfDone s = { raise (.change .done r 0 0 (s.sceneName r.slot r.scene)) s with changeover := none }) ∧
      ((∃ e ∈ r.ports, 0 < e.outstanding ∨ e.settling = true) → completeIfDone s = s)

/-- A request from STAGE is never held against a change in the slot; one that fails to resolve changes nothing and raises
CUE_REFUSED, one that resolves to a change that waits enters the slot, and one that is NOW, or resolved while STOPPED, is triggered.
That a song change is carried out whole before bar 1 or its count-in begins is the model's reading (log 13). -/
def Obligations.StageTable : Prop :=
  ∀ (f : CueForm) (o : Origin) (s : State),
    (∀ r, s.resolve .stage f = .error r →
      stageCue f o s = raise (.cueRefused r f o s.curPos s.curScene) s) ∧
    ∀ g, s.resolve .stage f = .ok g →
      ∀ c, c = s.changeOf { claimant := .stage, form := f, timing := none, source := o } g →
        (c.timing ≠ .now → s.transport.mode ≠ .stopped →
          ∀ d other, (s.cue = none → d = .taken ∧ other = none) →
            (∀ x, s.cue = some x → if x.claimant = .stage then d = .replaced ∧ other = none
              else d = .displaced ∧ other = some x.claimant) →
            stageCue f o s = raise (.cue d c none other (s.sceneName c.slot c.scene)) { s with cue := some c }) ∧
        (c.timing = .now ∨ s.transport.mode = .stopped →
          (stageCue f o s).cue = none ∧ (stageCue f o s).departure = some c ∧
          (stageCue f o s).curScene = some c.scene ∧
          (stageCue f o s).curPos = (if c.kind = .song then some c.position else s.curPos) ∧
          ∃ r k, triggerCue c s = (r, k) ∧ (k = .goOn ∨ k = .halt → stageCue f o s = r) ∧
            (k = .restart → stageCue f o s = runningDownbeat (some .start) r) ∧
            (k = .countIn → stageCue f o s = countInDownbeat r))

/-- CUE_CANCEL: the link's own change, and LINK_B's for LINK_A, leaves the slot, the departure record becomes none and CANCELLED is
raised; any other change is held; with the slot empty the answer is TOO_LATE with the triggered change, or NOT_FOUND. -/
def Obligations.CueCancelTable : Prop :=
  ∀ (l : Link) (tag : Byte) (s : State), Takes l s →
    (∀ c, s.cue = some c → (c.claimant = claimantOf l ∨ l = .a ∧ c.claimant = .linkB) →
      exec (.cueCancel l tag) s = answered l .cueCancel tag (.ok [])
        (raise (.cue .cancelled c (some l) none (s.sceneName c.slot c.scene))
          { found l s with cue := none, departure := none })) ∧
    (∀ c, s.cue = some c → (c.claimant = .stage ∨ l = .b ∧ c.claimant = .linkA) →
      exec (.cueCancel l tag) s = refusedWith l .cueCancel tag .cueHeld s) ∧
    (∀ c, s.cue = none → s.departure = some c →
      exec (.cueCancel l tag) s = answered l .cueCancel tag
        (.refuse .tooLate [b1 c.position, b1 c.slot.val, b1 c.scene, c.claimant.code]) (found l s)) ∧
    (s.cue = none → s.departure = none → exec (.cueCancel l tag) s = refusedWith l .cueCancel tag .notFound s)

/-- AUDITION: a bad number, a transport that is not STOPPED and a missing scene are refused in this order; else the return scene is
the first one recorded, and the scene goes live by a trigger of the current song. AUDITION_END goes back to the return scene. -/
def Obligations.AuditionTable : Prop :=
  ∀ (l : Link) (tag : Byte) (s : State), Takes l s →
    (∀ b : Byte,
      (11 < b.toNat → exec (.audition l tag b) s = refusedWith l .audition tag .badField s) ∧
      (b.toNat ≤ 11 → s.transport.mode ≠ .stopped →
        exec (.audition l tag b) s = refusedWith l .audition tag .wrongState s) ∧
      (b.toNat ≤ 11 → s.transport.mode = .stopped →
        (s.currentSlot = none ∨ ∃ k, s.currentSlot = some k ∧ s.sceneCount k ≤ b.toNat) →
        exec (.audition l tag b) s = refusedWith l .audition tag .notFound s) ∧
      (b.toNat ≤ 11 → s.transport.mode = .stopped → ∀ p k, s.curPos = some p → s.currentSlot = some k →
        b.toNat < s.sceneCount k → ∀ m, s.curScene = some m →
        ∃ u, exec (.audition l tag b) s = answered l .audition tag (.ok []) u ∧
          (∀ r, s.audition = some r → u.audition = some r) ∧ (s.audition = none → u.audition = some m) ∧
          u.curScene = some b.toNat ∧ u.curPos = s.curPos ∧ u.liveId = some (k, b.toNat) ∧
          u.live = (s.sceneAt k b.toNat).elim [] (fun sc => sc.zones) ∧ SameCue s u ∧ SameShow s u ∧
          u = (takeTrigger
            { kind := .scene, claimant := claimantOf l, mark := .audition, position := p, slot := k, scene := b.toNat }
            { found l s with audition := some (s.audition.getD m) }).1 ∧
          ∀ r, u.changeover = some r → r.kind = .scene ∧ r.claimant = claimantOf l ∧ r.mark = .audition ∧
            r.source = s.selection ∧ r.position = p ∧ r.slot = k ∧ r.scene = b.toNat)) ∧
    (s.audition = none → exec (.auditionEnd l tag) s = refusedWith l .auditionEnd tag .wrongState s) ∧
    ∀ n p k, s.audition = some n → s.curPos = some p → s.currentSlot = some k →
      ∃ u, exec (.auditionEnd l tag) s = answered l .auditionEnd tag (.ok []) u ∧ u.audition = none ∧
        u.curScene = some n ∧ u.curPos = s.curPos ∧ u.liveId = some (k, n) ∧
        u.live = (s.sceneAt k n).elim [] (fun sc => sc.zones) ∧ SameCue s u ∧ SameShow s u ∧
        u = (takeTrigger
          { kind := .scene, claimant := claimantOf l, mark := .ret, position := p, slot := k, scene := n }
          { found l s with audition := none }).1 ∧
        ∀ r, u.changeover = some r → r.kind = .scene ∧ r.claimant = claimantOf l ∧ r.mark = .ret ∧
          r.source = s.selection ∧ r.position = p ∧ r.slot = k ∧ r.scene = n

/-! ### Settings, reports and resets -/

/-- OUTPUT_SET, CLICK_SET, INPUT_SET and FOOTSWITCH_SET: a bad field is refused; else all the settings of the one port, click
channel, input or line are replaced. A changed running status empties the last status, keep-alive ON starts a stopped timer of
an idle transmitter and OFF stops it, a watch turned OFF stops the watch, and a SUSTAIN line held down is let go first. -/
def Obligations.SettingsTable : Prop :=
  ∀ (l : Link) (tag : Byte) (s : State), Takes l s →
    (∀ f, portSettings (outputBytes f) = none → exec (.outputSet l tag f) s = refusedWith l .outputSet tag .badField s) ∧
    (∀ f p x, portSettings (outputBytes f) = some (p, x) → ∀ q, q = s.port p → ∀ due,
      (x.keepAlive = false → due = none) →
      (x.keepAlive = true → q.keepAliveDue = none → q.wire = none → due = some (s.now + 250000)) →
      (x.keepAlive = true → (q.keepAliveDue ≠ none ∨ q.wire ≠ none) → due = q.keepAliveDue) →
      exec (.outputSet l tag f) s = answered l .outputSet tag (.ok []) ((found l s).setPort p { q with
        settings := x
        lastStatus := if x.runningStatus = q.settings.runningStatus then q.lastStatus else none
        keepAliveDue := due })) ∧
    (∀ f, clickSettings (clickBytes f) = none → exec (.clickSet l tag f) s = refusedWith l .clickSet tag .badField s) ∧
    (∀ f n c, clickSettings (clickBytes f) = some (n, c) →
      exec (.clickSet l tag f) s = answered l .clickSet tag (.ok []) ((found l s).setClickChannel n c)) ∧
    (∀ i c w, inputSettings [i, c, w] = none →
      exec (.inputSet l tag i c w) s = refusedWith l .inputSet tag .badField s) ∧
    (∀ i c w n chan on, inputSettings [i, c, w] = some (n, chan, on) → ∀ x, x = s.input n →
      (on = x.watchOn ∨ on = true ∨ x.watch = .unwatched →
        exec (.inputSet l tag i c w) s = answered l .inputSet tag (.ok [])
          ((found l s).setInput n { x with cueChannel := chan, watchOn := on })) ∧
      (on = false → x.watchOn = true → x.watch ≠ .unwatched →
        exec (.inputSet l tag i c w) s = answered l .inputSet tag (.ok []) (raise (.input n .unwatched)
          ((found l s).setInput n { x with
            cueChannel := chan, watchOn := false, watch := .unwatched, watchDue := none })))) ∧
    (∀ b f p si sc, footSettings [b, f, p, si, sc] = none →
      exec (.footswitchSet l tag b f p si sc) s = refusedWith l .footswitchSet tag .badField s) ∧
    ∀ b f p si sc n fn pol src, footSettings [b, f, p, si, sc] = some (n, fn, pol, src) →
      ∀ x, x = { s.foot n with function := fn, polarity := pol, sustain := src } →
      ((s.foot n).function ≠ .sustain ∨ (s.foot n).pressed = false →
        exec (.footswitchSet l tag b f p si sc) s = answered l .footswitchSet tag (.ok []) ((found l s).setFoot n x)) ∧
      ∀ i c, (s.foot n).function = .sustain → (s.foot n).pressed = true → (s.foot n).sustain = some (i, c) →
        exec (.footswitchSet l tag b f p si sc) s =
          answered l .footswitchSet tag (.ok []) ((askPedal i c false (found l s)).setFoot n x)

/-- NOTICE_MASK replaces the link's own mask and takes the entries it no longer admits out of the queue. LINK_NOTE raises the
note on the other link and says whether its mask passed it over. COUNTERS_GET answers the values of one group, in order, and
with the clear flag sets that group and no other counter to 0; the request's own frame has been counted by then (log 9). -/
def Obligations.MaskNoteAndCounters : Prop :=
  ∀ (l : Link) (tag : Byte) (s : State), Takes l s →
    (∀ w : Word, 8192 ≤ w.toNat → exec (.noticeMask l tag w) s = refusedWith l .noticeMask tag .badField s) ∧
    (∀ w : Word, w.toNat < 8192 → ∀ m : BitVec 13, m.toNat = w.toNat →
      exec (.noticeMask l tag w) s = answered l .noticeMask tag (.ok w.bytes) ((found l s).setLink l { (found l s).link l with
        mask := m, notices := (s.link l).notices.filter (fun e => m.getLsbD e.notice.kind.bit) })) ∧
    (∀ t : List Byte, t.length ≤ 58 → ¬ IsText 0 32 t → exec (.linkNote l tag t) s = refusedWith l .linkNote tag .badField s) ∧
    (∀ t : List Byte, IsText 0 32 t →
      exec (.linkNote l tag t) s = answered l .linkNote tag
        (.ok [if (s.link l.other).mask.getLsbD 11 then 0#8 else 1#8]) (raiseOn l.other (.linkNote l t) (found l s))) ∧
    (∀ g n c : Byte, (2 < g.toNat ∨ g = 0#8 ∧ 5 < n.toNat ∨ g = 1#8 ∧ 7 < n.toNat ∨ g = 2#8 ∧ n ≠ 0#8 ∨ 1 < c.toNat) →
      exec (.countersGet l tag g n c) s = refusedWith l .countersGet tag .badField s) ∧
    ∀ c : Bool,
      (∀ (n : Byte) (i : Input), i.val = n.toNat → ∀ x, x = s.input i →
        exec (.countersGet l tag 0#8 n (bFlag c)) s = answered l .countersGet tag
          (.ok ([0#8, n] ++ b2 x.framing ++ b2 x.discard ++ b2 x.orphan ++ b2 x.transposeSkip ++ b2 x.layerLimit))
          (if c then (found l s).setInput i
            { x with framing := 0, discard := 0, orphan := 0, transposeSkip := 0, layerLimit := 0 } else found l s)) ∧
      (∀ (n : Byte) (p : Port), p.val = n.toNat → ∀ x, x = s.port p →
        exec (.countersGet l tag 1#8 n (bFlag c)) s = answered l .countersGet tag
          (.ok ([1#8, n] ++ b2 x.settleDrop ++ b2 x.noteDiscard ++ b2 x.overflow ++ b2 x.mergeDrop ++ b2 x.clickDrop ++
            b2 x.realtimeDrop))
          (if c then (found l s).setPort p
            { x with settleDrop := 0, noteDiscard := 0, overflow := 0, mergeDrop := 0, clickDrop := 0, realtimeDrop := 0 }
           else found l s)) ∧
      ∀ x y, x = (found l s).linkA → y = (found l s).linkB →
        exec (.countersGet l tag 2#8 0#8 (bFlag c)) s = answered l .countersGet tag
          (.ok ([2#8, 0#8] ++ b2 s.stealCount ++ b2 s.panicCount ++ b2 x.framesTaken ++ b2 x.badFrames ++ b2 x.overruns ++
            b2 y.framesTaken ++ b2 y.badFrames ++ b2 y.overruns))
          (if c then { found l s with
            stealCount := 0
            panicCount := 0
            linkA := { x with framesTaken := 0, badFrames := 0, overruns := 0 }
            linkB := { y with framesTaken := 0, badFrames := 0, overruns := 0 } } else found l s)

/-- FAULT_GET answers the fault record and changes nothing; FAULT_CLEAR answers it and leaves it empty. A fault taken with the
record empty enters it with the transport's position and count 0, and one taken later raises the count, which holds at 255; each
raises FAULT. A notice goes to the links whose mask admits its kind: it makes a new entry with repeat count 0, or gives the
unsent entry of its kind its own details and raises the count, which holds at 255; a link that does not admit the kind, and
every link during initialisation, keeps its queue. A notice is raised on LINK_A and on LINK_B alike. -/
def Obligations.FaultsAndNotices : Prop :=
  (∀ (l : Link) (tag : Byte) (s : State), Takes l s → ∀ data : List Byte,
    (s.faultRecord = none → data = [0xFF#8, 0#8, 0#8, 0#8, 0#8, 0#8, 0#8, 0#8]) →
    (∀ r, s.faultRecord = some r →
      data = [r.cls.code, r.source.code] ++ b2 r.bar ++ [b1 r.beat] ++ b2 r.step ++ [b1 r.later]) →
    exec (.faultGet l tag) s = answered l .faultGet tag (.ok data) (found l s) ∧
    exec (.faultClear l tag) s = answered l .faultClear tag (.ok data) { found l s with faultRecord := none }) ∧
  (∀ (cls : FaultClass) (src : FaultSource) (s : State),
    (s.faultRecord = none →
      ∀ r : FaultRecord, r = { cls, source := src, bar := s.transport.bar, beat := s.transport.beat,
                               step := s.transport.step, later := 0 } →
      takeFault cls src s = raise (.fault cls src true r) { s with faultRecord := some r }) ∧
    ∀ x, s.faultRecord = some x → ∀ r, r = { x with later := min (x.later + 1) 255 } →
      takeFault cls src s = raise (.fault cls src false r) { s with faultRecord := some r }) ∧
  (∀ (n : Notice) (s : State), raise n s = raiseOn .b n (raiseOn .a n s)) ∧
  ∀ (l : Link) (n : Notice) (s : State), ∀ k, k = s.link l →
    (s.init ≠ none ∨ k.mask.getLsbD n.kind.bit = false → raiseOn l n s = s) ∧
    (s.init = none → k.mask.getLsbD n.kind.bit = true →
      ((∀ e ∈ k.notices, e.notice.kind ≠ n.kind) →
        raiseOn l n s = s.setLink l { k with notices := k.notices ++ [{ notice := n, repeats := 0 }] }) ∧
      ∀ xs e ys, k.notices = xs ++ e :: ys → e.notice.kind = n.kind →
        (∀ x ∈ xs, x.notice.kind ≠ n.kind) → (∀ x ∈ ys, x.notice.kind ≠ n.kind) →
        raiseOn l n s = s.setLink l
          { k with notices := xs ++ { notice := n, repeats := min (e.repeats + 1) 255 } :: ys })

/-- PANIC, from a link or a footswitch: note table and pedal records are emptied with nothing enqueued for them, every port keeps only
its PROGRAM entries and gets 16 SWEEPs behind them, its CLICK lane and sweep-pending list are emptied and its settle is ended, the
click note-offs go, the panic counter rises and PANIC is raised; the record takes the settle ends; everything else stays. -/
def Obligations.PanicTable : Prop :=
  (∀ (l : Link) (tag : Byte) (s : State), Takes l s →
    exec (.panic l tag) s = answered l .panic tag (.ok []) (panicAll (.link l) (found l s))) ∧
  ∀ (o : Origin) (s : State),
    ∃ u, panicAll o s = raise (.panic o s.transport.bar s.transport.beat s.transport.step) u ∧
      u.held = [] ∧ (∀ i c, u.pedal i c = { down := false, pairs := [] }) ∧
      (∀ p, u.port p = { s.port p with
        noteLane := (s.port p).noteLane.filter NoteEntry.isProgram ++ allChans.map NoteEntry.sweep
        clickLane := []
        sweepPending := []
        settleDue := none }) ∧
      u.click = { s.click with offs := [] } ∧ u.panicCount = min (s.panicCount + 1) 65535 ∧
      (s.changeover = none → u.changeover = none) ∧
      (∀ r, s.changeover = some r → (∃ e ∈ r.ports, 0 < e.outstanding) →
        u.changeover = some { r with ports := r.ports.map (fun e =>
          if (s.port e.port).settleDue.isSome then { e with settling := false } else e) }) ∧
      (∀ r, s.changeover = some r → (∃ e ∈ r.ports, (s.port e.port).settleDue.isSome = true) →
        (∀ e ∈ r.ports, e.outstanding = 0 ∧ (e.settling = true → (s.port e.port).settleDue.isSome = true)) →
        u.changeover = none) ∧
      SameBand s u ∧ SameShow s u ∧ SameSelection s u ∧ SameCue s u ∧ SamePlayers s u ∧ SameBlock s u ∧
      u.live = s.live ∧ u.liveId = s.liveId ∧ u.stealCount = s.stealCount ∧ u.progMem = s.progMem ∧
      u.audition = s.audition ∧ u.faultRecord = s.faultRecord ∧ u.now = s.now ∧ SameLinks s u

/-- SOFT_RESET: every unit takes its own reset rule at one instant, no notice is raised, and the show, the settings, the
counters, the links and the fault record are kept. That a running keep-alive timer is left to run is the model's choice (log 24). -/
def Obligations.SoftResetTable : Prop :=
  ∀ (l : Link) (tag : Byte) (s : State), Takes l s →
    ∃ u, exec (.softReset l tag) s = answered l .softReset tag (.ok []) u ∧
      (∀ n k, s.currentSlot = some n → s.curScene = some k →
        u.liveId = some (n, k) ∧ u.live = (s.sceneAt n k).elim [] (fun sc => sc.zones)) ∧
      (s.currentSlot = none ∨ s.curScene = none → u.liveId = none ∧ u.live = []) ∧
      u.held = [] ∧ (∀ i c, u.pedal i c = { down := false, pairs := [] }) ∧ u.stealCount = s.stealCount ∧
      u.tempo = { current := s.firstSegment.tempo, acc := 0, segment := none, ramp := .none, override := none, staged := none,
                  lastTap := none, taps := [] } ∧
      u.transport = TransportState.atStart .stopped s.firstSegment ∧ u.click = { s.click with offs := [] } ∧
      u.cue = none ∧ u.departure = none ∧ u.changeover = none ∧ u.audition = none ∧
      (∀ p c, u.program p c = none) ∧
      (∀ p, u.port p = { s.port p with
        realtime := [], clickLane := [], noteLane := allChans.map NoteEntry.sweep, slots := [], lastGrant := none,
        grantCount := 0, settleDue := none, lastStatus := none, sweepPending := [],
        entry := (s.port p).entry.map (fun e => { e with ofRecord := false, emptyStatus := true }) }) ∧
      (∀ i, u.input i = { s.input i with parse := .ready, running := none }) ∧ u.foots = s.foots ∧
      SameShow s u ∧ SameSelection s u ∧ SameRecords s u ∧ SameBlock s u ∧ u.now = s.now ∧
      u.linkA = (found l s).linkA ∧ u.linkB = (found l s).linkB

/-- The pin reset gives every unit the value the model has at reset, begins 50 ms of initialisation, samples the straps and leaves
the contacts' levels; the end of initialisation settles the lines without a press and sweeps all 16 channels of every port. The
model's own here: a line's debounced state before that end is OPEN (log 7), the timebase and the waiting commands go on (log 8), the
end brings the timebase up to the instant it is due (log 2), and outside initialisation it changes nothing (log 30). No lane can hold an
entry that waits for a place then, which would have to be dealt with first (log 37). -/
def Obligations.ResetAndInitialisation : Prop :=
  ∀ s : State,
    (∀ c1 c0 : Bool, ∃ t, exec (.pinReset c1 c0) s = .next t ∧
      t = { State.reset with
        now := s.now
        init := some (s.now + 50000)
        clkin := if c1 then (if c0 then .mhz24 else .mhz16) else if c0 then .mhz12 else .mhz8
        foots := t.foots
        pending := s.pending } ∧
      ∀ n, t.foot n = { FootState.reset with level := (s.foot n).level }) ∧
    (s.init = none → exec .initialisationEnd s = .next (finish s)) ∧
    ∀ d, s.init = some d → At d s → ∃ u, exec .initialisationEnd s = .next (finish u) ∧
      u = { s with now := max s.now d, init := none, foots := u.foots, ports := u.ports } ∧
      (∀ n, u.foot n = { s.foot n with debounced := (s.foot n).level, debounceDue := none }) ∧
      ∀ p, u.port p = { s.port p with noteLane := (s.port p).noteLane ++ allChans.map NoteEntry.sweep }

/-! ### Players -/

/-- A byte at an input: discarded during initialisation, a framing error, or the watch and then the parser by the byte's class and the
parse state, a complete message being handed on; and the expiry of the watch timer, which releases what the input holds, its entries
oldest first with velocity 64 and then its pedals, channel 1 first; with the timer stopped it changes nothing (log 2). The watch takes
a byte before the parser (log 17). An instant with entries waiting for a place ends before an expiry due later (log 37). -/
def Obligations.InputByteTable : Prop :=
  ∀ (i : Input) (b : Byte) (s : State),
    (∀ ok, s.init ≠ none → exec (.inputByteReceived i b ok) s = .next (finish s)) ∧
    (s.init = none → exec (.inputByteReceived i b false) s = .next (finish (takeFault .inputFraming (.input i)
      (s.setInput i { s.input i with
        parse := .ready, running := none, framing := min ((s.input i).framing + 1) 65535 })))) ∧
    (s.init = none → ∀ w x : State,
      w = s.setInput i { s.input i with watch := .watched, watchDue := some (s.now + 300000) } →
      x = s.setInput i { s.input i with watch := .unwatched, watchDue := none } →
      ∀ v, ((s.input i).watchOn = false ∨ (s.input i).watch = .unwatched ∧ b ≠ 0xFE#8 → v = s) →
        ((s.input i).watchOn = true → (s.input i).watch = .watched → v = w) →
        ((s.input i).watchOn = true → (s.input i).watch ≠ .watched → b = 0xFE#8 → v = raise (.input i .watched) w) →
        ((s.input i).watchOn = true → (s.input i).watch = .lost → b ≠ 0xFE#8 → v = raise (.input i .unwatched) x) →
        ∀ y, y = v.input i →
        y.parse = (s.input i).parse ∧ y.running = (s.input i).running ∧
        ∀ z, z = (match y.parse with | .collecting _ _ => { y with discard := min (y.discard + 1) 65535 } | _ => y) →
        (0xF8 ≤ b.toNat → exec (.inputByteReceived i b true) s = .next (finish v)) ∧
        (0x80 ≤ b.toNat → b.toNat < 0xF0 → exec (.inputByteReceived i b true) s =
          .next (finish (v.setInput i { z with parse := .collecting b [], running := some b }))) ∧
        (0xF0 ≤ b.toNat → b.toNat < 0xF8 → exec (.inputByteReceived i b true) s =
          .next (finish (v.setInput i { z with
            running := none
            parse := if b = 0xF0#8 then .exclusive else if b = 0xF1#8 ∨ b = 0xF3#8 then .common 1
              else if b = 0xF2#8 then .common 2 else .ready }))) ∧
        (b.toNat < 0x80 →
          (y.parse = .exclusive → exec (.inputByteReceived i b true) s = .next (finish v)) ∧
          (y.parse = .common 2 → exec (.inputByteReceived i b true) s =
            .next (finish (v.setInput i { y with parse := .common 1 }))) ∧
          (y.parse = .common 1 → exec (.inputByteReceived i b true) s =
            .next (finish (v.setInput i { y with parse := .ready }))) ∧
          (y.parse = .ready → y.running = none → exec (.inputByteReceived i b true) s =
            .next (finish (v.setInput i { y with discard := min (y.discard + 1) 65535 }))) ∧
          ∀ st data, (y.parse = .collecting st data ∨ y.parse = .ready ∧ y.running = some st ∧ data = []) →
            ∀ n, n = (if st.toNat / 16 = 12 ∨ st.toNat / 16 = 13 then 1 else 2) →
              (data.length + 1 < n → exec (.inputByteReceived i b true) s =
                .next (finish (v.setInput i { y with parse := .collecting st (data ++ [b]) }))) ∧
              (n ≤ data.length + 1 → exec (.inputByteReceived i b true) s =
                .next (finish (handOver i { status := st, data := data ++ [b] }
                  (v.setInput i { y with parse := .ready })))))) ∧
    ((s.input i).watchDue = none → exec (.inputWatchExpiry i) s = .next (finish s)) ∧
    (∀ d, (s.input i).watchDue = some d → At d s → ∀ u, u = loseInput i { s with now := max s.now d } →
      exec (.inputWatchExpiry i) s = .next (finish (takeFault .inputLost (.input i)
        (raise (.input i .lost) (u.setInput i { u.input i with watch := .lost, watchDue := none }))))) ∧
    ∀ u, u = loseInput i s →
      u = (List.finRange 16).foldl (fun x c => askPedal i c false x)
        (((s.held.filter (fun e => decide (e.source.input = i))).map (fun e => e.source)).foldl
          (fun x src => releaseEntry src 64 x) s) ∧
      u.input i = s.input i ∧
      u.held.map (fun e => e.source) = (s.held.map (fun e => e.source)).filter (fun a => a.input ≠ i) ∧
      (∀ c, (s.pedal i c).down = true → u.pedal i c = { down := false, pairs := [] }) ∧
      ∀ j c, (j ≠ i ∨ (s.pedal i c).down = false) → u.pedal j c = s.pedal j c

/-- A complete message goes to its owner by its kind: notes, pressure and sustain to the note table, the cue controls to the
arbiter on the cue channel alone, bank select, channel mode and other programs nowhere, the rest to the router. -/
def Obligations.MessageTable : Prop :=
  ∀ (i : Input) (c : Chan) (st x y : Byte) (s : State), st.toNat % 16 = c.val → ∀ one two : State,
    one = handOver i { status := st, data := [x] } s → two = handOver i { status := st, data := [x, y] } s →
    (st.toNat / 16 = 8 → two = noteOff i c x.toNat y.toNat s) ∧
    (st.toNat / 16 = 9 → two = if y = 0#8 then noteOff i c x.toNat 64 s else noteOn i c x.toNat y.toNat s) ∧
    (st.toNat / 16 = 10 → two = polyPressure i c x.toNat y.toNat s) ∧
    (st.toNat / 16 = 11 →
      (x = 64#8 → two = askPedal i c (decide (64 ≤ y.toNat)) s) ∧
      (x = 0#8 ∨ x = 32#8 ∨ 120 ≤ x.toNat → two = s) ∧
      (x = 20#8 ∨ x = 21#8 → (s.input i).cueChannel = some c →
        two = if y.toNat < 64 then s else stageCue (if x = 20#8 then .nextScene else .prevScene) (.input i) s) ∧
      (x.toNat < 120 → x ≠ 64#8 → x ≠ 0#8 → x ≠ 32#8 →
        ((s.input i).cueChannel = some c → x ≠ 20#8 ∧ x ≠ 21#8) →
        two = routeControl i c (.controller x.toNat) y.toNat s)) ∧
    (st.toNat / 16 = 12 →
      ((s.input i).cueChannel = some c → x.toNat < 64 → one = stageCue (.position x.toNat) (.input i) s) ∧
      ((s.input i).cueChannel ≠ some c ∨ 64 ≤ x.toNat → one = s)) ∧
    (st.toNat / 16 = 13 → one = routeControl i c .pressure x.toNat s) ∧
    (st.toNat / 16 = 14 → two = routeControl i c .bend (y.toNat * 128 + x.toNat) s)

/-- The note table. A triple sounds where a listing target's sent flag is set; the release of a target sends the NOTE_OFF of a sole
sounding holder and hands a lone flag on to the newest holder left. A note-on replaces the entry of its source, steals from a full
table, and claims its targets one by one, a sounding triple with a NOTE_OFF of velocity 64 first. A note-off without an entry is an
orphan, one of a SUSTAINED entry changes nothing, one with the pedal up releases the entry whole, and one with the pedal down
releases the MODULE targets and leaves the CHIP ones SUSTAINED. A pedal record sends PEDAL 127 to its destinations as it goes DOWN,
and PEDAL 0 to the pairs of its set as it goes UP, when its SUSTAINED entries go too; the carry adds the pairs of a new live table.
The order of the PEDAL 0 entries, that in which the pairs joined the set, is the model's choice (log 33). -/
def Obligations.NoteTable : Prop :=
  (∀ (held : List HeldEntry) (t : Triple),
    (soundingIn held t = true ↔ ∃ e ∈ held, ∃ x ∈ e.targets, x.triple = t ∧ x.sent = true) ∧
    holderCount held t = (held.filter (fun e => decide (∃ x ∈ e.targets, x.triple = t))).length) ∧
  (∀ (src : Source) (v : Nat) (s : State) (as bs : List HeldEntry) (e : HeldEntry) (ts us : List HeldTarget) (x : HeldTarget),
    s.held = as ++ e :: bs → e.source = src → (∀ y ∈ as ++ bs, y.source ≠ src) → e.targets = ts ++ x :: us →
    (∀ y ∈ ts ++ us, y.triple ≠ x.triple) → ∀ u : State, u = { s with held := as ++ { e with targets := ts ++ us } :: bs } →
    ((∀ y ∈ as ++ bs, ∀ z ∈ y.targets, z.triple ≠ x.triple) → releaseTarget src v x.triple s =
      if x.sent then offerNote x.triple.port (.noteOff x.triple.chan x.triple.key v) u else u) ∧
    ((∃ y ∈ as ++ bs, ∃ z ∈ y.targets, z.triple = x.triple) →
      ((x.sent = false ∨ ∃ y ∈ as ++ bs, ∃ z ∈ y.targets, z.triple = x.triple ∧ z.sent = true) →
        releaseTarget src v x.triple s = u) ∧
      (x.sent = true → (∀ y ∈ as ++ bs, ∀ z ∈ y.targets, z.triple = x.triple → z.sent = false) →
        ∀ cs h ds, u.held = cs ++ h :: ds → (∃ z ∈ h.targets, z.triple = x.triple) →
          (∀ y ∈ ds, ∀ z ∈ y.targets, z.triple ≠ x.triple) →
          releaseTarget src v x.triple s = { s with held := cs ++ { h with targets := h.targets.map (fun z =>
            if z.triple = x.triple then { z with sent := true } else z) } :: ds }))) ∧
  (∀ (src : Source) (v : Nat) (s : State), (s.entryOf src = none → releaseEntry src v s = s) ∧
    ∀ e r, s.entryOf src = some e → r = e.targets.foldl (fun u x => releaseTarget src v x.triple u) s →
      releaseEntry src v s = { r with held := r.held.filter (fun y => decide (y.source ≠ src)) } ∧
      r.held.map (fun y => y.source) = s.held.map (fun y => y.source)) ∧
  (∀ (i : Input) (s : State) (as bs : List HeldEntry) (v : HeldEntry), s.held = as ++ v :: bs →
    (v.state = .sustained ∧ (∀ y ∈ as, y.state = .down) ∨ as = [] ∧ ∀ y ∈ s.held, y.state = .down) →
    ∃ r, r = releaseEntry v.source 64 s ∧ (HeldOk s → r.held.map (fun y => y.source) = (as ++ bs).map (fun y => y.source)) ∧
      steal i s = takeFault .heldTableSteal (.input i) (raise (.steal v.source v.state v.scene)
        { r with stealCount := min (s.stealCount + 1) 65535 })) ∧
  (∀ (src : Source) (x : HeldTarget) (s u : State), ∀ t, t = x.triple →
    ((∃ y ∈ s.held, y.source ≠ src ∧ ∃ z ∈ y.targets, z.triple = t ∧ z.sent = true) →
      u = offerNote t.port (.noteOff t.chan t.key 64) s) →
    ((∀ y ∈ s.held, y.source ≠ src → ∀ z ∈ y.targets, z.triple = t → z.sent = false) → u = s) →
    ∀ w, w = offerNote t.port (.noteOn t.chan t.key x.velocity) u →
      (acceptsNote t.port (.noteOn t.chan t.key x.velocity) u = false → claim src x s = w) ∧
      (acceptsNote t.port (.noteOn t.chan t.key x.velocity) u = true → claim src x s = { w with held := w.held.map (fun y =>
        if y.source = src then { y with targets := y.targets.map (fun z => if z.triple = t then { z with sent := true } else z) }
        else y) })) ∧
  (∀ (i : Input) (c : Chan) (key v : Nat) (s : State) (src : Source), src = { input := i, chan := c, key } →
    (∀ a, a = layers s.live i c key v → ∀ u, u = s.setInput i { s.input i with
        transposeSkip := min ((s.input i).transposeSkip + a.transposeSkips) 65535
        layerLimit := min ((s.input i).layerLimit + a.limitSkips) 65535 } →
      (a.targets = [] → noteOn i c key v s = u) ∧
      ∀ scene, scene = (match s.liveId with | some (_, n) => n | none => 0) →
      (a.targets ≠ [] → ∀ r, r = releaseEntry src 64 u → ∀ m, (r.held.length < 96 → m = r) →
        (96 ≤ r.held.length → m = steal i r) →
        noteOn i c key v s = a.targets.foldl (fun y x => claim src x y) { m with held := m.held ++
          [{ source := src, state := .down, scene, targets := a.targets.map (fun x => { x with sent := false }) }] }) ∧
      ∀ x p, a.targets = [x] → p = x.triple.port →
        (s.port p).noteLane.length + 2 ≤ 64 → ((s.port p).settings.policy = .pass ∨ (s.port p).changing = false) →
        (s.entryOf src = none → s.held.length < 96 →
          ∀ off : List NoteEntry, off = (if soundingIn s.held x.triple then [.noteOff x.triple.chan x.triple.key 64] else []) →
          noteOn i c key v s = { u.setPort p { s.port p with
              noteLane := (s.port p).noteLane ++ off ++ [.noteOn x.triple.chan x.triple.key x.velocity] } with
            held := s.held ++ [{ source := src, state := .down, scene, targets := [{ x with sent := true }] }] }) ∧
        ∀ e y, s.entryOf src = some e → HeldOk s → e.targets = [y] → y.triple = x.triple → y.sent = true →
          holderCount s.held y.triple = 1 →
          noteOn i c key v s = { u.setPort p { s.port p with noteLane := (s.port p).noteLane ++
              [.noteOff x.triple.chan x.triple.key 64, .noteOn x.triple.chan x.triple.key x.velocity] } with
            held := s.held.filter (fun z => decide (z.source ≠ src)) ++
              [{ source := src, state := .down, scene, targets := [{ x with sent := true }] }] }) ∧
    (s.entryOf src = none →
      noteOff i c key v s = s.setInput i { s.input i with orphan := min ((s.input i).orphan + 1) 65535 } ∧
      polyPressure i c key v s = s) ∧
    ∀ e, s.entryOf src = some e →
      (e.state = .sustained → noteOff i c key v s = s) ∧
      (e.state = .down → (s.pedal i c).down = false → noteOff i c key v s = releaseEntry src v s) ∧
      (e.state = .down → (s.pedal i c).down = true → ∀ r, r = (e.targets.filter (fun x => decide (x.pedal = .module))).foldl
          (fun u x => releaseTarget src v x.triple u) s →
        ((∀ x ∈ e.targets, x.pedal = .module) →
          noteOff i c key v s = { r with held := r.held.filter (fun x => decide (x.source ≠ src)) }) ∧
        ((∃ x ∈ e.targets, x.pedal = .chip) → noteOff i c key v s =
          { r with held := r.held.map (fun x => if x.source = src then { x with state := .sustained } else x) })) ∧
      ∀ x p, e.targets = [x] → p = x.triple.port → (s.port p).noteLane.length < 64 →
        ((s.port p).settings.policy = .pass ∨ (s.port p).changing = false) →
        (e.state = .down → ((s.pedal i c).down = false ∨ x.pedal = .module) → HeldOk s → x.sent = true →
          holderCount s.held x.triple = 1 →
          noteOff i c key v s = { s.setPort p { s.port p with
              noteLane := (s.port p).noteLane ++ [.noteOff x.triple.chan x.triple.key v] } with
            held := s.held.filter (fun y => y.source ≠ src) }) ∧
        (x.sent = true → x.forward.poly = true →
          polyPressure i c key v s = s.setPort p { s.port p with
            noteLane := (s.port p).noteLane ++ [.polyPressure x.triple.chan x.triple.key v] })) ∧
  (∀ (i : Input) (c : Chan) (key v : Nat) (s : State) (src : Source), src = { input := i, chan := c, key } →
    ∀ e, s.entryOf src = some e →
      polyPressure i c key v s = e.targets.foldl (fun u x =>
        if (u.entryOf src).any (fun h => h.targets.any (fun y =>
          decide (y.triple = x.triple ∧ y.forward.poly = true ∧ y.sent = true)))
        then offerNote x.triple.port (.polyPressure x.triple.chan x.triple.key v) u else u) s ∧
      ((∀ x ∈ e.targets, x.forward.poly = false ∨ x.sent = false) → polyPressure i c key v s = s)) ∧
  (∀ (down : Bool) (ds : List (Port × Chan)) (s : State),
    sendPedals down ds s = ds.foldl (fun u d => offerNote d.1 (.pedal d.2 down) u) s ∧
    ((∀ p, (s.port p).noteLane.length + (ds.filter (fun d => decide (d.1 = p))).length ≤ 64) →
      ∃ u, sendPedals down ds s = u ∧ u = { s with ports := u.ports } ∧ ∀ p, u.port p = { s.port p with
        noteLane := (s.port p).noteLane ++ (ds.filter (fun d => decide (d.1 = p))).map (fun d => NoteEntry.pedal d.2 down) })) ∧
  (∀ (i : Input) (c : Chan) (s : State), ∀ x, x = s.pedal i c →
    (∀ down, x.down = down → askPedal i c down s = s) ∧
    (x.down = false → ∀ ds, ds = pedalDestinations s.live i c →
      askPedal i c true s = sendPedals true ds (s.setPedal i c { down := true, pairs := ds })) ∧
    (x.down = true → ∃ u, askPedal i c false s = u.setPedal i c { down := false, pairs := [] } ∧
      u = (((s.held.filter (fun e => decide (e.source.input = i ∧ e.source.chan = c ∧ e.state = .sustained))).map
          (fun e => e.source)).foldl (fun u src => releaseEntry src 64 u)
        ((sendPedals false x.pairs s).setPedal i c { down := true, pairs := [] })) ∧
      (HeldOk s → u.held.map (fun e => e.source) = (s.held.filter (fun e =>
        decide (¬ (e.source.input = i ∧ e.source.chan = c ∧ e.state = .sustained)))).map (fun e => e.source)) ∧
      ∀ j d, (j ≠ i ∨ d ≠ c) → u.pedal j d = s.pedal j d) ∧
    ∀ fresh, fresh = (pedalDestinations s.live i c).filter (fun d => decide (d ∉ x.pairs)) →
      (x.down = false → carryPedal i c s = s) ∧
      (x.down = true → carryPedal i c s = sendPedals true fresh (s.setPedal i c { down := true, pairs := x.pairs ++ fresh })) ∧
      (pedalCarry s).pedal i c = if x.down then { down := true, pairs := x.pairs ++ fresh } else x) ∧
  ∀ s : State, pedalCarry s = ((List.finRange 6).flatMap (fun i => (List.finRange 16).map (fun c => (i, c)))).foldl
    (fun u x => carryPedal x.1 x.2 u) s

/-- Output keys and output velocities: NORMAL and REVERSE, the four curves, scale and offset with the clamp to 1 to 127. A zone takes
part in a layer list exactly on its four conditions; the matching zones are dealt with in table order, and of those the first four
distinct targets with a key in 0 to 127 are taken, the rest counted on the source input as limit or transpose skips or passed over as
duplicates. Destination lists name each admitting zone's pair once, in the order in which the pairs first appear in the table. A
controller value goes unchanged to the merge slots of its destinations in list order, keyed by the destination channel and its kind,
and to nothing else. -/
def Obligations.RouterTable : Prop :=
  (∀ (z : Zone) (k v : Nat),
    (z.direction = .normal → z.outputKey k = k + z.transpose) ∧
    (z.direction = .reverse → ∀ m : Int, m = z.keyHigh - (k - z.keyLow : Int) →
      z.outputKey k = m + z.transpose ∧
      (z.keyLow ≤ k → k ≤ z.keyHigh → (z.keyLow : Int) ≤ m ∧ m ≤ z.keyHigh ∧ (k = z.keyLow → m = z.keyHigh) ∧
        (k = z.keyHigh → m = z.keyLow))) ∧
    (1 ≤ v → v ≤ 127 → ∀ c, c = z.curve.value v →
      (z.curve = .linear → c = v) ∧ (z.curve = .soft → c = v + v * (127 - v) / 254) ∧
      (z.curve = .hard → c = v - v * (127 - v) / 254) ∧ (∀ f, z.curve = .fixed f → c = f) ∧
      v * (127 - v) / 254 ≤ 15 ∧ (v = 63 ∨ v = 64 → v * (127 - v) / 254 = 15) ∧
      ((v = 1 ∨ v = 127) → v * (127 - v) / 254 = 0) ∧
      ((∀ f, z.curve = .fixed f → 1 ≤ f ∧ f ≤ 127) → 1 ≤ c ∧ c ≤ 127) ∧
      ∀ n : Int, n = ((c * z.scale + 50) / 100 : Nat) + z.offset →
        (n < 1 → z.outputVelocity v = 1) ∧ (127 < n → z.outputVelocity v = 127) ∧
        (1 ≤ n → n ≤ 127 → (z.outputVelocity v : Int) = n) ∧ 1 ≤ z.outputVelocity v ∧ z.outputVelocity v ≤ 127 ∧
        (z.scale = 100 → z.offset = 0 → ∀ f, z.curve = .fixed f → 1 ≤ f → f ≤ 127 → z.outputVelocity v = f))) ∧
  (∀ (z : Zone) (i : Input) (c : Chan) (k v : Nat),
    (z.sourceMatch i c = true ↔
      z.inputs.getLsbD i.val = true ∧ (z.sourceChannel = none ∨ z.sourceChannel = some c)) ∧
    (z.matchesNote i c k v = true ↔ z.inputs.getLsbD i.val = true ∧ (z.sourceChannel = none ∨ z.sourceChannel = some c) ∧
      z.keyLow ≤ k ∧ k ≤ z.keyHigh ∧ z.velLow ≤ v ∧ v ≤ z.velHigh) ∧
    z.forward.admits (.controller k) = z.forward.controllers ∧ z.forward.admits .bend = z.forward.bend ∧
    z.forward.admits .pressure = z.forward.pressure) ∧
  (∀ (a : Layers) (z : Zone) (k v : Nat),
    (4 ≤ a.targets.length → a.deal z k v = { a with limitSkips := a.limitSkips + 1 }) ∧
    (a.targets.length < 4 → (z.outputKey k < 0 ∨ 127 < z.outputKey k) →
      a.deal z k v = { a with transposeSkips := a.transposeSkips + 1 }) ∧
    ∀ t : Triple, a.targets.length < 4 → z.outputKey k = t.key → t.key ≤ 127 → t.port = z.port → t.chan = z.chan →
      ((∃ x ∈ a.targets, x.triple = t) → a.deal z k v = a) ∧
      ((∀ x ∈ a.targets, x.triple ≠ t) → a.deal z k v = { a with targets := a.targets ++
        [{ triple := t, velocity := z.outputVelocity v, pedal := z.pedal, forward := z.forward, sent := false }] })) ∧
  (∀ (live : List Zone) (i : Input) (c : Chan) (k v : Nat), ∀ a, a = layers live i c k v →
    layers [] i c k v = { targets := [], transposeSkips := 0, limitSkips := 0 } ∧
    (∀ z, (z.matchesNote i c k v = true → layers (live ++ [z]) i c k v = a.deal z k v) ∧
      (z.matchesNote i c k v = false → layers (live ++ [z]) i c k v = a)) ∧
    a.targets.length ≤ 4 ∧ (a.targets.map (fun x => x.triple)).Nodup ∧
    ∀ x ∈ a.targets, x.triple.key ≤ 127 ∧ 1 ≤ x.velocity ∧ x.velocity ≤ 127 ∧
      ∃ z ∈ live, z.matchesNote i c k v = true ∧ x.triple.port = z.port ∧ x.triple.chan = z.chan ∧
        (x.triple.key : Int) = z.outputKey k ∧ x.velocity = z.outputVelocity v) ∧
  (∀ (i : Input) (c : Chan) (k v : Nat) (s : State), ∀ a, a = layers s.live i c k v →
    (noteOn i c k v s).input i = { s.input i with
      transposeSkip := min ((s.input i).transposeSkip + a.transposeSkips) 65535
      layerLimit := min ((s.input i).layerLimit + a.limitSkips) 65535 } ∧
    ∀ j, j ≠ i → (noteOn i c k v s).input j = s.input j) ∧
  (∀ (live : List Zone) (i : Input) (c : Chan) (z : Zone) (d : Port × Chan), d = (z.port, z.chan) →
    (∀ k, ∀ ds, ds = destinations live i c k → destinations [] i c k = [] ∧
      (z.sourceMatch i c = true → z.forward.admits k = true → d ∉ ds → destinations (live ++ [z]) i c k = ds ++ [d]) ∧
      (z.sourceMatch i c = false ∨ z.forward.admits k = false ∨ d ∈ ds → destinations (live ++ [z]) i c k = ds)) ∧
    ∀ ds, ds = pedalDestinations live i c → pedalDestinations [] i c = [] ∧
      (z.sourceMatch i c = true → z.pedal = .module → d ∉ ds → pedalDestinations (live ++ [z]) i c = ds ++ [d]) ∧
      (z.sourceMatch i c = false ∨ z.pedal ≠ .module ∨ d ∈ ds → pedalDestinations (live ++ [z]) i c = ds)) ∧
  (∀ (live : List Zone) (i : Input) (c : Chan),
    (∀ k, (destinations live i c k).Nodup ∧ ∀ d, d ∈ destinations live i c k ↔
      ∃ z ∈ live, z.sourceMatch i c = true ∧ z.forward.admits k = true ∧ d = (z.port, z.chan)) ∧
    (pedalDestinations live i c).Nodup ∧ ∀ d, d ∈ pedalDestinations live i c ↔
      ∃ z ∈ live, z.sourceMatch i c = true ∧ z.pedal = .module ∧ d = (z.port, z.chan)) ∧
  ∀ (i : Input) (c : Chan) (k : MergeKind) (v : Nat) (s : State), ∀ ds, ds = destinations s.live i c k →
    ∃ u, routeControl i c k v s = u ∧ u = { s with ports := u.ports } ∧
      ∀ p, u.port p = ((ds.filter (fun d => decide (d.1 = p))).map (fun d => d.2)).foldl
        (fun q x => q.place s.now { chan := x, kind := k } v) (s.port p)

/-- A contact line: a change away from the debounced state starts 12 ms, one back stops them, and their end makes a press or a
release, which goes to the line's function; every function but SUSTAIN acts on the press alone. A change to the level held, and
an expiry with the timer stopped, change nothing (logs 2 and 28). An instant with entries waiting for a place ends before an expiry due
later (log 37). -/
def Obligations.FootswitchTable : Prop :=
  ∀ (n : FootLine) (s : State), ∀ x, x = s.foot n →
    (∀ v, v = x.level → exec (.footswitchLineChange n v) s = .next (finish s)) ∧
    (∀ v, v ≠ x.level → s.init ≠ none →
      exec (.footswitchLineChange n v) s = .next (finish (s.setFoot n { x with level := v }))) ∧
    (∀ v, v ≠ x.level → s.init = none → exec (.footswitchLineChange n v) s = .next (finish (s.setFoot n { x with
      level := v, debounceDue := if v = x.debounced then none else some (s.now + 12000) }))) ∧
    (x.debounceDue = none → exec (.footswitchDebounceExpiry n) s = .next (finish s)) ∧
    ∀ d, x.debounceDue = some d → At d s → ∀ t, t = State.setFoot { s with now := max s.now d } n
        { x with debounced := x.level, debounceDue := none } →
      ∀ c, c = exec (.footswitchDebounceExpiry n) s →
      ((x.polarity = .make ∧ x.level = .opened ∨ x.polarity = .break ∧ x.level = .closed) →
        (x.function ≠ .sustain → c = .next (finish t)) ∧
        ∀ i ch, x.function = .sustain → x.sustain = some (i, ch) → c = .next (finish (askPedal i ch false t))) ∧
      ((x.polarity = .make ∧ x.level = .closed ∨ x.polarity = .break ∧ x.level = .opened) →
        (x.function = .none → c = .next (finish t)) ∧
        (x.function = .nextScene → c = .next (finish (stageCue .nextScene (.foot n) t))) ∧
        (x.function = .prevScene → c = .next (finish (stageCue .prevScene (.foot n) t))) ∧
        (x.function = .nextSong → c = .next (finish (stageCue .nextSong (.foot n) t))) ∧
        (x.function = .tap → c = .next (finish (takeTap t))) ∧
        (x.function = .startStop →
          (s.transport.mode = .stopped → c = .next (finish (startTransport false (.foot n) t).1)) ∧
          (s.transport.mode ≠ .stopped → c = .next (finish (stopTransport (.foot n) t).1))) ∧
        (x.function = .holdGo →
          (s.transport.mode = .running → c = .next (finish (holdTransport (.foot n) t).1)) ∧
          (s.transport.mode = .held → c = .next (finish (goTransport (.foot n) t).1)) ∧
          (s.transport.mode = .stopped ∨ s.transport.mode = .countIn → c = .next (finish t))) ∧
        (x.function = .panic → c = .next (finish (panicAll (.foot n) t))) ∧
        ∀ i ch, x.function = .sustain → x.sustain = some (i, ch) → c = .next (finish (askPedal i ch true t)))

/-! ### The grid and the click -/

/-- The tempo of a beat: the segment in force and its ramp, the staged value, the precedence, and the accumulator that a new tempo
clears. The end of a grid step: a plain step, a beat, or the downbeat of the next bar, where a pending hold comes before the stop bar
and the stop bar before a due change; the bars of a count-in, with neither clock nor BAR nor BEAT notices, since its queues are those
of its beat evaluation, and the downbeat of bar 1 that ends it. The click acts at every step, after the beat's tempo and meter. A due
change is triggered before its beat, and a song change goes on from a bar of its own. With no step in progress nothing happens (log 2),
and an instant with entries waiting for a place ends before a step that ends later (log 37). That the TRANSPORT notice of the end of a
count-in comes before the downbeat's is the model's choice (log 35), and so is that one TEMPO notice is raised for one evaluation (log
11) and none on a ramp beat that leaves the tempo as it was (log 40). -/
def Obligations.GridTable : Prop :=
  (∀ (map : List Segment) (bar : Nat),
    (∀ as g bs, map = as ++ g :: bs → g.startBar ≤ bar → (∀ x ∈ bs, bar < x.startBar) → segmentAt map bar = as.length) ∧
    ((∀ x ∈ map, bar < x.startBar) → segmentAt map bar = 0)) ∧
  (∀ (g : Segment) (k n : Nat), n = g.rampBars * g.numerator → ∀ a b, a = g.tempo → b = g.rampTarget.getD g.tempo →
    (a ≤ b → g.rampValue k = a + (2 * (b - a) * k + n) / (2 * n)) ∧
    (b < a → k ≤ n → g.rampValue k = a - (2 * (a - b) * k + n) / (2 * n))) ∧
  (∀ (down : Bool) (s : State) (t v w : TempoState) (n x : Nat),
    n = segmentAt s.mapInUse s.transport.bar →
    (s.transport.mode = .countIn → t = s.tempo) →
    (s.transport.mode ≠ .countIn → down = true → s.tempo.segment ≠ some n →
      ∀ g, g = (s.mapInUse[n]?).getD defaultSegment → t = { s.tempo with
        segment := some n
        override := if n = 0 then s.tempo.override else none
        ramp := if g.rampBars = 0 then .none else if n = 0 ∧ s.tempo.override.isSome = true then .ended else .ramping 0 }) →
    (s.transport.mode ≠ .countIn → (down = false ∨ s.tempo.segment = some n) →
      (s.segmentInUse = none → t = s.tempo) ∧ ∀ g, s.segmentInUse = some g → t = { s.tempo with ramp :=
        (match s.tempo.ramp with
          | .ramping k => if g.rampBars * g.numerator ≤ k + 1 then .arrived else .ramping (k + 1)
          | r => r) }) →
    (s.tempo.staged = none → v = t) →
    (∀ y, s.tempo.staged = some y → (down = true ∨ y.due = .beat) → v = { t with
      staged := none
      override := (match y.value with | .tempo z => some z | .clear => none)
      ramp := (match y.value, t.ramp with | .tempo _, .ramping _ => .ended | _, r => r) }) →
    (∀ y, s.tempo.staged = some y → down = false → y.due ≠ .beat → v = t) →
    (∀ y, v.override = some y → x = y) →
    (v.override = none → v.segment.bind (fun i => s.mapInUse[i]?) = none → x = s.firstSegment.tempo) →
    (∀ g, v.override = none → v.segment.bind (fun i => s.mapInUse[i]?) = some g → x = (match v.ramp with
      | .ramping k => g.rampValue k | .arrived => g.rampTarget.getD g.tempo | _ => g.tempo)) →
    w = (if x = v.current then v else { v with current := x, acc := 0 }) →
    evaluateBeat down s =
      if x ≠ s.tempo.current ∨ t.override ≠ s.tempo.override ∨ v.override ≠ s.tempo.override ∨ v.staged ≠ s.tempo.staged
      then raise (State.tempoNotice { s with tempo := w }) { s with tempo := w } else { s with tempo := w }) ∧
  (∀ s : State,
    beginStep s = { s with
      tempo := { s.tempo with acc := (stepDuration s.tempo.current s.tempo.acc).2 }
      transport := { s.transport with stepEnd := some (s.now + (stepDuration s.tempo.current s.tempo.acc).1) } } ∧
    (∀ k, k = clickStep s → ∃ v, plainStep s = beginStep v ∧ v = { k with ports := v.ports } ∧
      (∀ p, v.port p = if s.transport.mode = .running ∧ s.transport.step % 4 = 0 ∧ (s.port p).settings.clockFlag = true then
        (k.port p).offerRealtime .clock else k.port p) ∧
      k.transport = s.transport ∧ k.tempo = s.tempo ∧ k.linkA = s.linkA ∧ k.linkB = s.linkB ∧ k.now = s.now ∧ BandOnly s k) ∧
    (∀ k, k = clickStep (evaluateBeat false s) →
      countInBeat s = beginStep k ∧
      k.transport = s.transport ∧ k.tempo = (evaluateBeat false s).tempo ∧
      (∀ l, k.link l = (evaluateBeat false s).link l) ∧ (∀ p, (k.port p).realtime = (s.port p).realtime) ∧
      k.now = s.now ∧ BandOnly s k ∧
      ∃ v, runningBeat s = beginStep (raise (.beat s.transport.bar s.transport.beat v.tempo.current) v) ∧
        v = { k with ports := v.ports } ∧
        (∀ p, v.port p = if (s.port p).settings.clockFlag then (k.port p).offerRealtime .clock else k.port p) ∧
        v.transport = s.transport ∧ v.tempo = (evaluateBeat false s).tempo ∧
        (∀ p, (v.port p).realtime = if (s.port p).settings.clockFlag then
          ((s.port p).offerRealtime .clock).realtime else (s.port p).realtime) ∧ v.now = s.now ∧ BandOnly s v) ∧
    ∀ x, x = (s.mapInUse[segmentAt s.mapInUse s.transport.bar]?).getD defaultSegment →
      ∀ k, k = clickStep { evaluateBeat true s with
          transport := { s.transport with numerator := x.numerator, denominator := x.denominator } } →
      (∀ l, k.link l = (evaluateBeat true s).link l) ∧
      (∀ lead, ∃ v, runningDownbeat lead s = beginStep (raise (.beat s.transport.bar s.transport.beat v.tempo.current)
          (raise (.bar s.transport.bar s.transport.beat v.tempo.current) v)) ∧
        v = { k with ports := v.ports } ∧
        (∀ p, v.port p = if (s.port p).settings.clockFlag then
          (lead.toList ++ [RealTime.clock]).foldl PortState.offerRealtime (k.port p) else k.port p) ∧
        v.transport = { s.transport with numerator := x.numerator, denominator := x.denominator } ∧
        v.tempo = (evaluateBeat true s).tempo ∧
        (∀ p, (v.port p).realtime = if (s.port p).settings.clockFlag then
          ((lead.toList ++ [RealTime.clock]).foldl PortState.offerRealtime (s.port p)).realtime else (s.port p).realtime) ∧
        v.now = s.now ∧ BandOnly s v) ∧
      ∃ v, countInDownbeat s = beginStep v ∧ v = k ∧
        v.transport = { s.transport with numerator := x.numerator, denominator := x.denominator } ∧
        v.tempo = (evaluateBeat true s).tempo ∧ (∀ p, (v.port p).realtime = (s.port p).realtime) ∧ v.now = s.now ∧ BandOnly s v) ∧
  ∀ s : State, ∀ t, t = s.transport → ∀ c, c = exec .gridStepEnd s →
    (t.stepEnd = none → c = .next (finish s)) ∧
    ∀ d, At d s → ∀ go : (State → State) → State × Cont → State, (∀ f r, go f (r, .goOn) = f r) →
    (∀ f r, go f (r, .restart) = runningDownbeat (some .start) r) → (∀ f r, go f (r, .countIn) = countInDownbeat r) →
    (∀ f r, go f (r, .halt) = r) →
    (t.stepEnd = some d → (t.mode = .running ∨ t.mode = .countIn) → t.step + 1 < t.barLength →
      (t.step + 1) % t.beatLength ≠ 0 →
      ∃ u, c = .next (finish u) ∧
        u = plainStep { s with now := max s.now d, transport := { t with step := t.step + 1 } } ∧
        u.transport = { t with
          step := t.step + 1, stepEnd := some (u.now + (stepDuration s.tempo.current s.tempo.acc).1) } ∧
        u.tempo = { s.tempo with acc := (stepDuration s.tempo.current s.tempo.acc).2 } ∧
        (∀ p, (u.port p).realtime = if t.mode = .running ∧ (t.step + 1) % 4 = 0 ∧ (s.port p).settings.clockFlag = true then
          ((s.port p).offerRealtime .clock).realtime else (s.port p).realtime) ∧
        u.linkA = s.linkA ∧ u.linkB = s.linkB ∧ u.now = max s.now d ∧ BandOnly s u) ∧
    (t.stepEnd = some d → t.step + 1 < t.barLength → (t.step + 1) % t.beatLength = 0 →
      ∀ m, m = (t.step + 1) / t.beatLength + 1 →
      ∀ y, y = { s with now := max s.now d, transport := { t with step := t.step + 1, beat := m } } →
      (t.mode = .running → (∀ x, s.cue = some x → x.timing ≠ .beat) → c = .next (finish (runningBeat y)) ∧
        ∃ v, c = .next (finish (beginStep (raise (.beat t.bar m v.tempo.current) v))) ∧
          v.transport = { t with step := t.step + 1, beat := m } ∧
          v.tempo = (evaluateBeat false { s with transport := v.transport }).tempo ∧
          (∀ p, (v.port p).realtime = if (s.port p).settings.clockFlag then
            ((s.port p).offerRealtime .clock).realtime else (s.port p).realtime) ∧
          v.now = max s.now d ∧ BandOnly s v) ∧
      (t.mode = .running → ∀ x, s.cue = some x → x.timing = .beat →
        c = .next (finish (go runningBeat (triggerCue x y)))) ∧
      (t.mode = .countIn → c = .next (finish (countInBeat y)) ∧ ∃ v, c = .next (finish (beginStep v)) ∧ v.transport = { t with step := t.step + 1, beat := m } ∧
        v.tempo = (evaluateBeat false { s with transport := v.transport }).tempo ∧
        (∀ l, v.link l = (evaluateBeat false y).link l) ∧
        (∀ p, (v.port p).realtime = (s.port p).realtime) ∧ v.now = max s.now d ∧ BandOnly s v)) ∧
    (t.stepEnd = some d → t.mode = .running → t.barLength ≤ t.step + 1 →
      ∀ n, n = { t with bar := min (t.bar + 1) 9999, beat := 1, step := 0, extension := 0 } →
      (t.holdPending = true → ∃ v, c = .next (finish (raiseTransport .hold none v)) ∧
        v.transport = { n with mode := .held, holdPending := false, stepEnd := none } ∧ v.tempo = s.tempo ∧
        v.click = s.click ∧
        (∀ p, (v.port p).realtime = if (s.port p).settings.clockFlag then
          ((s.port p).offerRealtime .stop).realtime else (s.port p).realtime) ∧
        v.now = max s.now d ∧ BandOnly s v) ∧
      (t.holdPending = false → ∀ g b, s.currentSong = some g → g.stopBar = some b → b < n.bar →
        c = .next (finish (stopBy .stopBar none { s with now := max s.now d, transport := n })) ∧
        (s.cue = none →
          ∃ u, c = .next (finish u) ∧ u.transport = TransportState.atStart .stopped s.firstSegment ∧
            (∀ p, (u.port p).realtime = if (s.port p).settings.clockFlag then
              ((s.port p).offerRealtime .stop).realtime else (s.port p).realtime) ∧
            u.now = max s.now d ∧ BandOnly s u) ∧
        ∀ x, s.cue = some x →
          ∃ u, c = .next (finish u) ∧ u.transport = TransportState.atStart .stopped u.firstSegment ∧ u.cue = none ∧
            u.departure = some x ∧ u.curScene = some x.scene ∧
            u.curPos = (if x.kind = .song then some x.position else s.curPos) ∧ u.liveId = some (x.slot, x.scene) ∧
            u.live = (s.sceneAt x.slot x.scene).elim [] (fun sc => sc.zones) ∧
            (∀ p, (u.port p).realtime = if (s.port p).settings.clockFlag then
              ((s.port p).offerRealtime .stop).realtime else (s.port p).realtime) ∧
            u.now = max s.now d ∧ SameShow s u) ∧
      (t.holdPending = false → (∀ g b, s.currentSong = some g → g.stopBar = some b → n.bar ≤ b) →
        ((s.cue = none ∨ ∃ x g, s.cue = some x ∧ x.timing = .phrase ∧ s.currentSong = some g ∧ (n.bar - 1) % g.phrase ≠ 0) →
          c = .next (finish (runningDownbeat none { s with now := max s.now d, transport := n })) ∧
          ∃ v x, c = .next (finish (beginStep (raise (.beat n.bar 1 v.tempo.current)
              (raise (.bar n.bar 1 v.tempo.current) v)))) ∧
            x = (s.mapInUse[segmentAt s.mapInUse n.bar]?).getD defaultSegment ∧
            v.transport = { n with numerator := x.numerator, denominator := x.denominator } ∧
            v.tempo = (evaluateBeat true { s with transport := v.transport }).tempo ∧
            (∀ p, (v.port p).realtime = if (s.port p).settings.clockFlag then
              ((s.port p).offerRealtime .clock).realtime else (s.port p).realtime) ∧
            v.now = max s.now d ∧ BandOnly s v) ∧
        ∀ x, s.cue = some x → (x.timing = .beat ∨ x.timing = .bar ∨
            x.timing = .phrase ∧ ∀ g, s.currentSong = some g → (n.bar - 1) % g.phrase = 0) →
          c = .next (finish (go (runningDownbeat none) (triggerCue x { s with now := max s.now d, transport := n }))) ∧
          (x.kind = .scene → ∃ u, c = .next (finish u) ∧ u.cue = none ∧ u.departure = some x ∧ u.curScene = some x.scene ∧
            u.curPos = s.curPos ∧ u.liveId = some (x.slot, x.scene) ∧
            u.live = (s.sceneAt x.slot x.scene).elim [] (fun sc => sc.zones) ∧ u.transport.mode = .running ∧
            u.transport.bar = n.bar ∧ u.transport.beat = 1 ∧ u.transport.step = 0 ∧ SameShow s u))) ∧
    (t.stepEnd = some d → t.mode = .countIn → t.barLength ≤ t.step + 1 →
      (1 < t.countIn →
        ∀ y, y = { s with
          now := max s.now d
          transport := { t with countIn := t.countIn - 1, beat := 1, step := 0, extension := 0 } } →
        c = .next (finish (countInDownbeat y)) ∧ ∃ v x, c = .next (finish (beginStep v)) ∧
        (∀ l, v.link l = (evaluateBeat true y).link l) ∧
        x = (s.mapInUse[segmentAt s.mapInUse t.bar]?).getD defaultSegment ∧
        v.transport = { t with
          countIn := t.countIn - 1, beat := 1, step := 0, extension := 0
          numerator := x.numerator, denominator := x.denominator } ∧
        v.tempo = (evaluateBeat true { s with transport := v.transport }).tempo ∧
        (∀ p, (v.port p).realtime = (s.port p).realtime) ∧ v.now = max s.now d ∧ BandOnly s v) ∧
      (t.countIn ≤ 1 → t.bar = 1 → t.holdPending = false →
        (∀ g b, s.currentSong = some g → g.stopBar = some b → 1 ≤ b) →
        ∀ y, y = raiseTransport (if t.countInFromSong then .songChange else .start) none { s with
          now := max s.now d
          transport := { t with
            mode := .running, countIn := 0, countInFromSong := false, beat := 1, step := 0, extension := 0 } } →
        (s.cue = none →
          ∃ u, c = .next (finish u) ∧ u = runningDownbeat (some .start) y ∧
            u.transport.mode = .running ∧ u.transport.bar = 1 ∧ u.transport.countIn = 0 ∧
            u.transport.beat = 1 ∧ u.transport.step = 0 ∧ u.transport.extension = 0 ∧
            (∀ e, e = (evaluateBeat true { s with transport := u.transport }).tempo →
              u.tempo = { e with acc := (stepDuration e.current e.acc).2 } ∧
              u.transport.stepEnd = some (u.now + (stepDuration e.current e.acc).1)) ∧
            (∀ p, (u.port p).realtime = if (s.port p).settings.clockFlag then
              (((s.port p).offerRealtime .start).offerRealtime .clock).realtime else (s.port p).realtime) ∧
            u.now = max s.now d ∧ BandOnly s u) ∧
        ∀ x, s.cue = some x → x.timing ≠ .now →
          c = .next (finish (go (runningDownbeat (some .start)) (triggerCue x y)))))

/-- The click: accents at step 0, beats and subdivisions of the beat, in the transport states the mode admits and with a level above 0,
CK0 first; a pending note-off of the same note cut short, a NOTE_ON of velocity 4L + 3 with a NOTE_OFF of velocity 64 one gate later,
and the drop from a full lane; the expiry of a gate, which waits while the lane is full, and which changes nothing where no such gate
runs (logs 2 and 28), an instant with entries waiting for a place ending before a gate due later (log 37); and the waiting NOTE_OFFs,
earliest due first, that a CLICK entry which begins makes room for, each with this instant as its due time (log 14). A NOTE_ON makes
its record whatever number of records pend, the model's choice where R96 says that there are never more than 12 (log 34). -/
def Obligations.ClickTable : Prop :=
  (∀ (x : ClickChannel) (t : TransportState) (k : ClickPosition),
    x.soundsAt t = some k ↔
      (x.mode = .always ∧ (t.mode = .countIn ∨ t.mode = .running) ∨ x.mode = .countInOnly ∧ t.mode = .countIn ∨
        x.mode = .runningOnly ∧ t.mode = .running) ∧
      (match k with
        | .accent => t.step = 0 ∧ 0 < x.accentLevel
        | .beat => t.step ≠ 0 ∧ t.step % t.beatLength = 0 ∧ 0 < x.beatLevel
        | .sub => t.step % t.beatLength ≠ 0 ∧ 0 < x.subLevel ∧
          (x.subdivision = .eighth ∧ t.step % t.beatLength % 48 = 0 ∨
            x.subdivision = .sixteenth ∧ t.step % t.beatLength % 24 = 0 ∨
            x.subdivision = .triplet ∧ t.step % t.beatLength % 32 = 0))) ∧
  (∀ s : State, ∃ ck : ClickNo → State → State, (∀ n u, (u.clickChannel n).soundsAt u.transport = none → ck n u = u) ∧
    (∀ n u k, (u.clickChannel n).soundsAt u.transport = some k → ck n u = soundClick (u.clickChannel n) k u) ∧
    clickStep s = ck 3 (ck 2 (ck 1 (ck 0 s)))) ∧
  (∀ (x : ClickChannel) (k : ClickPosition) (s : State), ∀ q, q = s.port x.port →
    ∀ note level, (note, level) = (match k with
        | .accent => (x.accentNote, x.accentLevel)
        | .beat => (x.beatNote, x.beatLevel)
        | .sub => (x.subNote, x.subLevel)) →
    (∀ e ∈ q.clickLane, e.due ≤ s.now) →
    ∀ on off : ClickEntry, on = { on := true, chan := x.chan, note, velocity := 4 * level + 3, due := s.now } →
    off = { on := false, chan := x.chan, note, velocity := 64, due := s.now } →
    ∀ new : ClickOff, new = { port := x.port, chan := x.chan, note, due := s.now + x.gate * 1000, waiting := false } →
    (s.offFor x.port x.chan note = none →
      (q.clickLane.length < 8 →
        soundClick x k s = (s.setPort x.port { q with clickLane := q.clickLane ++ [on] }).setOffs (s.click.offs ++ [new])) ∧
      (8 ≤ q.clickLane.length →
        soundClick x k s = s.setPort x.port { q with clickDrop := min (q.clickDrop + 1) 65535 })) ∧
    (s.offFor x.port x.chan note ≠ none → ∀ rest : List ClickOff,
      rest = s.click.offs.filter (fun r => decide (¬ (r.port = x.port ∧ r.chan = x.chan ∧ r.note = note))) →
      (q.clickLane.length < 7 → soundClick x k s =
        (s.setPort x.port { q with clickLane := q.clickLane ++ [off, on] }).setOffs (rest ++ [new])) ∧
      (q.clickLane.length = 7 → soundClick x k s = (s.setPort x.port { q with
        clickLane := q.clickLane ++ [off], clickDrop := min (q.clickDrop + 1) 65535 }).setOffs rest) ∧
      (8 ≤ q.clickLane.length → soundClick x k s =
        (s.setPort x.port { q with clickDrop := min (q.clickDrop + 1) 65535 }).setOffs (s.click.offs.map (fun r =>
          if r.port = x.port ∧ r.chan = x.chan ∧ r.note = note then { r with waiting := true } else r))))) ∧
  (∀ (p : Port) (ch : Chan) (note : Nat) (s : State),
    (s.offFor p ch note = none → exec (.clickGateExpiry p ch note) s = .next (finish s)) ∧
    ∀ r, s.offFor p ch note = some r →
      (r.waiting = true → exec (.clickGateExpiry p ch note) s = .next (finish s)) ∧
      ∀ n, n = max s.now r.due → r.waiting = false → At r.due s →
        ((s.port p).clickLane.length < 8 → (∀ e ∈ (s.port p).clickLane, e.due ≤ n) →
          exec (.clickGateExpiry p ch note) s = .next (finish (({ s with now := n } : State).setPort p
            { s.port p with clickLane := (s.port p).clickLane ++ [{ on := false, chan := ch, note, velocity := 64, due := n }] }
            |>.setOffs (s.click.offs.filter (fun x => ¬ (x.port = p ∧ x.chan = ch ∧ x.note = note)))))) ∧
        (8 ≤ (s.port p).clickLane.length →
          exec (.clickGateExpiry p ch note) s = .next (finish (({ s with now := n } : State).setOffs
            (s.click.offs.map (fun x => if x.port = p ∧ x.chan = ch ∧ x.note = note then { x with waiting := true } else x)))))) ∧
  ∀ (p : Port) (s : State) (q : PortState) (ws : List ClickOff), s.init = none → (s.port p).choose s.now = (q, true) →
    (∀ r, r ∈ ws ↔ r ∈ s.click.offs ∧ r.port = p ∧ r.waiting = true) → ws.Pairwise (fun a b => a.due < b.due) →
    (∀ e ∈ q.clickLane, e.due ≤ s.now) → ∀ placed, placed = ws.take (8 - q.clickLane.length) →
      (kickPorts s).port p = { q with clickLane := q.clickLane ++ placed.map (fun r =>
        { on := false, chan := r.chan, note := r.note, velocity := 64, due := s.now }) } ∧
      (finish s).port p = (kickPorts s).port p ∧
      ∀ r, r.port = p → (r ∈ (finish s).click.offs ↔ r ∈ s.click.offs ∧ r ∉ placed)

/-! ### Output ports -/

/-- The end of what a port sends: the last status, the keep-alive timer, and at an entry's last message its end: a merge slot is CLEAN
or DIRTY again, and a PROGRAM entry of the record starts the settle timer and is reported. The choice that follows: a real-time byte,
the entry's next message, a due click, then NOTE or CONTROL by the lane mode, else IDLE. With nothing in transmission nothing happens
(log 2), the choice falls at the end of the command (log 4), and a slot made FREE while its message went out stays as it is (log 38).
An instant with entries waiting for a place of a NOTE lane ends before an item that ends later (log 37). The placing of a value among
the merge slots, the slot a CONTROL grant sends, and the bytes each of the three grants puts on the wire. That a slot in transmission
is not taken over by a new key, and that slots dirtied at one instant go in the order in which they were dirtied, is the model's
reading (log 15). -/
def Obligations.OutputTable : Prop :=
  (∀ (p : Port) (s : State), ∀ q, q = s.port p →
    (q.wire = none → exec (.outputItemEnd p) s = .next (finish s)) ∧
    ∀ w n, q.wire = some w → n = max s.now w.ends → At w.ends s → ∀ x, x = { q with
        wire := none
        lastStatus := if w.status.isSome then w.status else q.lastStatus
        keepAliveDue := if q.settings.keepAlive then some (n + 250000) else none } →
      ∀ t : PortState → State, (∀ y, t y = ({ s with now := n } : State).setPort p y) →
      ((w.status = none ∨ q.entry = none) → exec (.outputItemEnd p) s = .next (finish (t x))) ∧
      ∀ e, w.status.isSome = true → q.entry = some e →
        (e.left ≠ [] → exec (.outputItemEnd p) s = .next (finish (t x))) ∧
        (e.left = [] → ∀ y, y = { x with entry := none, lastStatus := if e.emptyStatus then none else x.lastStatus } →
          (∀ k, e.entry = .click k → exec (.outputItemEnd p) s = .next (finish (t y))) ∧
          (∀ k, e.entry = .note k →
            (e.ofRecord = false → exec (.outputItemEnd p) s = .next (finish (t y))) ∧
            (e.ofRecord = true → q.settings.settleTime = 0 →
              exec (.outputItemEnd p) s = .next (finish (reportTransmitted p false (t y)))) ∧
            (e.ofRecord = true → 0 < q.settings.settleTime → exec (.outputItemEnd p) s = .next (finish
              (reportTransmitted p true (t { y with settleDue := some (n + q.settings.settleTime * 10000) }))))) ∧
          ∀ k, e.entry = .control k → exec (.outputItemEnd p) s = .next (finish (t { y with
            slots := q.slots.map (fun m => if m.key = k then
              (match m.state with
                | .sending (some a) => { m with state := .dirty a, sent := some n }
                | .sending none => { m with state := .clean, sent := some n }
                | _ => m) else m) })))) ∧
  (∀ (p : Port) (s : State), s.init = none → ((s.port p).choose s.now).2 = false →
    (kickPorts s).port p = ((s.port p).choose s.now).1 ∧ (finish s).port p = ((s.port p).choose s.now).1) ∧
  (∀ (q : PortState) (now : Nat),
    (q.wire ≠ none → q.choose now = (q, false)) ∧
    (q.wire = none →
      (∀ b bs, q.realtime = b :: bs → q.choose now = ({ q with
        realtime := bs, wire := some { bytes := [b.byte], status := none, ends := now + 320 }, keepAliveDue := none }, false)) ∧
      (q.realtime = [] →
        (∀ e m ms, q.entry = some e → e.left = m :: ms → ∀ bytes,
          bytes = (if q.settings.runningStatus = true ∧ q.lastStatus = some m.status then m.data else m.status :: m.data) →
          q.choose now = ({ q with
            wire := some { bytes, status := some m.status, ends := now + bytes.length * 320 }
            entry := some { e with left := ms }
            keepAliveDue := none }, false)) ∧
        ((∀ e, q.entry = some e → e.left = []) →
          (∀ e es, q.clickLane = e :: es → e.due ≤ now → q.choose now = (q.grantClick now e es, true)) ∧
          ((∀ e es, q.clickLane = e :: es → now < e.due) →
            (q.nextSlot now = none → q.noteEligible = false → q.choose now = (q, false)) ∧
            (q.nextSlot now = none → q.noteEligible = true → q.choose now = (q.grantNote now, false)) ∧
            ∀ m, q.nextSlot now = some m →
              (q.noteEligible = false → q.choose now = (q.grantControl now m, false)) ∧
              (q.noteEligible = true → q.settings.laneMode = .round →
                (q.lastGrant = some .note → q.choose now = (q.grantControl now m, false)) ∧
                (q.lastGrant ≠ some .note → q.choose now = (q.grantNote now, false))) ∧
              (q.noteEligible = true → q.settings.laneMode = .noteFirst →
                (q.settings.weight ≤ q.grantCount → q.choose now = (q.grantControl now m, false)) ∧
                (q.grantCount < q.settings.weight → q.choose now = (q.grantNote now, false)))))))) ∧
  (∀ (q : PortState) (now : Nat) (key : MergeKey) (v : Nat),
    (∀ as m bs, q.slots = as ++ m :: bs → m.key = key → (∀ y ∈ as ++ bs, y.key ≠ key) →
      (∀ a, m.state = .dirty a → q.place now key v = { q with slots := as ++ { m with value := v } :: bs }) ∧
      (m.state = .clean → q.place now key v = { q with slots := as ++ bs ++ [{ m with value := v, state := .dirty now }] }) ∧
      (m.state = .sending none →
        q.place now key v = { q with slots := as ++ bs ++ [{ m with value := v, state := .sending (some now) }] }) ∧
      ∀ a, m.state = .sending (some a) → q.place now key v = { q with slots := as ++ { m with value := v } :: bs }) ∧
    ((∀ y ∈ q.slots, y.key ≠ key) → ∀ x : MergeSlot, x = { key, value := v, state := .dirty now, sent := none } →
      (q.slots.length < 24 → q.place now key v = { q with slots := q.slots ++ [x] }) ∧
      ∀ free : MergeSlot → Prop, (∀ y, free y ↔ y.state = .clean ∧ ∀ e, y.sent = some e → e + q.settings.interval * 1000 ≤ now) →
        (24 ≤ q.slots.length → (∀ y ∈ q.slots, ¬ free y) →
          q.place now key v = { q with mergeDrop := min (q.mergeDrop + 1) 65535 }) ∧
        ∀ as m bs, 24 ≤ q.slots.length → q.slots = as ++ m :: bs → free m → (∀ y ∈ as ++ bs, y.key ≠ m.key) →
          (∀ y ∈ as, free y → m.sent.getD 0 < y.sent.getD 0) → (∀ y ∈ bs, free y → m.sent.getD 0 ≤ y.sent.getD 0) →
          q.place now key v = { q with slots := as ++ bs ++ [x] })) ∧
  (∀ (q : PortState) (now : Nat),
    (q.noteEligible = true ↔ q.noteLane ≠ [] ∧ (q.settings.policy = .hold → q.settleDue = none)) ∧
    ∀ ready : MergeSlot → Nat → Prop,
      (∀ y a, ready y a ↔ y.state = .dirty a ∧ ∀ e, y.sent = some e → e + q.settings.interval * 1000 ≤ now) →
      (q.nextSlot now = none ↔ ∀ y ∈ q.slots, ∀ a, ¬ ready y a) ∧
      ∀ as m bs a, q.slots = as ++ m :: bs → ready m a → (∀ y ∈ as, ∀ b, ready y b → a < b) →
        (∀ y ∈ bs, ∀ b, ready y b → a ≤ b) → q.nextSlot now = some m) ∧
  ∀ (q : PortState) (now : Nat) (bytes : Message → List Byte),
    (∀ m, bytes m = if q.settings.runningStatus = true ∧ q.lastStatus = some m.status then m.data else m.status :: m.data) →
    ∀ status : Nat → Chan → Byte, (∀ k c, status k c = b1 (16 * k + c.val)) →
    (∀ n ns m ms, q.noteLane = n :: ns → m :: ms = (match n with
        | .noteOn c k v => [{ status := status 9 c, data := [b1 k, b1 v] }]
        | .noteOff c k v => [{ status := status 8 c, data := [b1 k, b1 v] }]
        | .polyPressure c k v => [{ status := status 10 c, data := [b1 k, b1 v] }]
        | .pedal c down => [{ status := status 11 c, data := [0x40#8, if down then 0x7F#8 else 0x00#8] }]
        | .program c msb lsb g =>
          msb.toList.map (fun b => { status := status 11 c, data := [0x00#8, b1 b] }) ++
          lsb.toList.map (fun b => { status := status 11 c, data := [0x20#8, b1 b] }) ++ [{ status := status 12 c, data := [b1 g] }]
        | .sweep c => [{ status := status 11 c, data := [0x40#8, 0x00#8] }, { status := status 11 c, data := [0x7B#8, 0x00#8] }]) →
      ∀ x : PortState,
        x = ({ q with noteLane := ns, lastGrant := some .note, grantCount := min (q.grantCount + 1) 16 } : PortState).lose →
        q.grantNote now = { x with
          wire := some { bytes := bytes m, status := some m.status, ends := now + (bytes m).length * 320 }
          entry := some { entry := .note n, left := ms, ofRecord := n.isProgram, emptyStatus := false }
          keepAliveDue := none }) ∧
    (∀ as x bs m, q.slots = as ++ x :: bs → (∀ y ∈ as ++ bs, y.key ≠ x.key) → m = (match x.key.kind with
        | .controller n => { status := status 11 x.key.chan, data := [b1 n, b1 x.value] }
        | .bend => { status := status 14 x.key.chan, data := [b1 (x.value % 128), b1 (x.value / 128)] }
        | .pressure => { status := status 13 x.key.chan, data := [b1 x.value] }) →
      q.grantControl now x = { q with
        slots := as ++ { x with state := .sending none } :: bs
        lastGrant := some .control
        grantCount := 0
        wire := some { bytes := bytes m, status := some m.status, ends := now + (bytes m).length * 320 }
        entry := some { entry := .control x.key, left := [], ofRecord := false, emptyStatus := false }
        keepAliveDue := none }) ∧
    ∀ e es m, m = { status := status (if e.on then 9 else 8) e.chan, data := [b1 e.note, b1 e.velocity] } →
      q.grantClick now e es = { q with
        clickLane := es
        wire := some { bytes := bytes m, status := some m.status, ends := now + (bytes m).length * 320 }
        entry := some { entry := .click e, left := [], ofRecord := false, emptyStatus := false }
        keepAliveDue := none }

/-- The timers of a port and the reports to the record: the settle end, the keep-alive byte FEh, the earliest controller interval; a
transmission lowers a port's outstanding count, and when every entry is DONE the record ends with CHANGE DONE. An expiry with its timer
stopped changes nothing (log 2), and an instant with entries waiting for a place of a NOTE lane ends before an expiry due later (log
37). An entry offered to a NOTE lane: the drop by policy, the annihilation, the room, the wait for a place that frees at this instant
(log 37), the full lane, what the note table and the fault record hear of it, and the SWEEP that a loss enqueues. With a SWEEP pending,
an entry offered to a full lane takes the place that the next loss frees, and the SWEEP waits: a PROGRAM entry where the port's next
choice grants the NOTE lane at this instant, any other where a place can still free. A PROGRAM entry that is accepted is not dropped
later; the other entries for which no place has freed by the end of the instant meet the full lane then, oldest first, and the note table
hears of a NOTE_ON that is dropped (log 37). -/
def Obligations.PortTimersTable : Prop :=
  (∀ (p : Port) (s : State), ∀ q, q = s.port p →
    (q.settleDue = none → exec (.settleTimerExpiry p) s = .next (finish s)) ∧
    (∀ d, q.settleDue = some d → At d s → exec (.settleTimerExpiry p) s = .next (finish (reportSettleEnd p
      (({ s with now := max s.now d } : State).setPort p { q with settleDue := none })))) ∧
    (q.keepAliveDue = none ∨ q.wire ≠ none → exec (.keepAliveExpiry p) s = .next (finish s)) ∧
    (∀ d n, q.keepAliveDue = some d → q.wire = none → n = max s.now d → At d s →
      exec (.keepAliveExpiry p) s = .next (finish (({ s with now := n } : State).setPort p
        { q with wire := some { bytes := [0xFE#8], status := none, ends := n + 320 }, keepAliveDue := none }))) ∧
    ((∀ m ∈ q.slots, ∀ a, m.state = .dirty a → ∀ e, m.sent = some e → e + q.settings.interval * 1000 ≤ s.now) →
      exec (.controllerIntervalExpiry p) s = .next (finish s)) ∧
    ∀ m a e n, m ∈ q.slots → m.state = .dirty a → m.sent = some e → n = e + q.settings.interval * 1000 → s.now < n → PlacesOk s →
      (∀ m' ∈ q.slots, ∀ a' e', m'.state = .dirty a' → m'.sent = some e' →
        s.now < e' + q.settings.interval * 1000 → e ≤ e') →
      exec (.controllerIntervalExpiry p) s = .next (finish { s with now := n })) ∧
  (∀ (p : Port) (s : State),
    (s.changeover = none → ∀ k, reportTransmitted p k s = s ∧ reportSettleEnd p s = s) ∧
    ∀ r, s.changeover = some r →
      ((∀ e ∈ r.ports, e.port ≠ p) → ∀ k, reportTransmitted p k s = s ∧ reportSettleEnd p s = s) ∧
      ((∃ e ∈ r.ports, e.port = p) →
        ∀ w : Changeover → State,
          (∀ x, (∀ e ∈ x.ports, e.outstanding = 0 ∧ e.settling = false) → w x =
            { raise (.change .done x 0 0 (s.sceneName x.slot x.scene)) { s with changeover := some x } with changeover := none }) →
          (∀ x, (∃ e ∈ x.ports, 0 < e.outstanding ∨ e.settling = true) → w x = { s with changeover := some x }) →
          (∀ k, reportTransmitted p k s = w { r with ports := r.ports.map (fun e =>
            if e.port = p then { e with outstanding := e.outstanding - 1, settling := k } else e) }) ∧
          reportSettleEnd p s = w { r with ports := r.ports.map (fun e =>
            if e.port = p then { e with settling := false } else e) })) ∧
  (∀ q : PortState,
    (q.changing = true ↔ (∃ c m l n, NoteEntry.program c m l n ∈ q.noteLane) ∨
      (∃ e c m l n, q.entry = some e ∧ e.entry = .note (.program c m l n)) ∨ q.settleDue ≠ none) ∧
    (64 ≤ q.noteLane.length → q.lose = q) ∧
    (q.noteLane.length < 64 → (q.sweepPending = [] → q.lose = q) ∧ ∀ c cs, q.sweepPending = c :: cs →
      q.lose = { q with noteLane := q.noteLane ++ [.sweep c], sweepPending := cs })) ∧
  (∀ (q : PortState) (now : Nat),
    (∀ w, q.wire = some w → now < w.ends → q.grantsNow now = false) ∧
    ∀ x y, x = ({ q with settleDue := q.settleDue.filter (fun d => decide (now < d)), sweepPending := [] } : PortState) →
      (q.wire = none → y = x) → (∀ w, q.wire = some w → w.ends ≤ now ∧ y = x.itemEnded w now) →
      (q.grantsNow now = true ↔ q.noteLane ≠ [] ∧ y.choose now = (y.grantNote now, false))) ∧
  (∀ (q : PortState) (now : Nat) (e : NoteEntry),
    (e.isProgram = true →
      (q.awaits now e = true ↔ q.sweepPending ≠ [] ∧ q.noteLane.length ≤ 64 ∧ q.grantsNow now = true)) ∧
    (e.isProgram = false →
      (q.awaits now e = true ↔ q.sweepPending ≠ [] ∧ (64 < q.noteLane.length ∨
        q.wire = none ∨ (∃ w, q.wire = some w ∧ w.ends ≤ now) ∨ (∃ c k v, NoteEntry.noteOn c k v ∈ q.noteLane) ∨
        ∃ c m l n, NoteEntry.program c m l n ∈ q.noteLane)))) ∧
  (∀ (q : PortState) (now : Nat) (e : NoteEntry), ∀ o, o = q.offer now e →
    (∀ c k v, e = .noteOn c k v → q.settings.policy = .drop → q.changing = true →
      o = { port := { q with settleDrop := min (q.settleDrop + 1) 65535 }, accepted := false, withdrawn := none,
            overflowed := false }) ∧
    (∀ c k v, e = .noteOff c k v → (64 ≤ q.noteLane.length ∨ q.settings.policy ≠ .pass ∧ q.changing = true) →
      ∀ as w bs, q.noteLane = as ++ .noteOn c k w :: bs → (∀ a, NoteEntry.noteOn c k a ∉ bs ∧ NoteEntry.noteOff c k a ∉ bs) →
      o = { port := ({ q with noteLane := as ++ bs } : PortState).lose, accepted := false, withdrawn := some (c, k),
            overflowed := false }) ∧
    ((∀ c k v, e = .noteOn c k v → q.settings.policy ≠ .drop ∨ q.changing = false) →
      (∀ c k v, e = .noteOff c k v → q.noteLane.length < 64 ∧ (q.settings.policy = .pass ∨ q.changing = false) ∨
        ∀ as w bs, q.noteLane = as ++ .noteOn c k w :: bs → ∃ a, NoteEntry.noteOff c k a ∈ bs) →
      (q.noteLane.length < 64 →
        o = { port := { q with noteLane := q.noteLane ++ [e] }, accepted := true, withdrawn := none, overflowed := false }) ∧
      (64 ≤ q.noteLane.length → q.awaits now e = true →
        o = { port := { q with noteLane := q.noteLane ++ [e] }, accepted := true, withdrawn := none, overflowed := false }) ∧
      ∀ xs ws, q.noteLane = xs ++ ws → xs.length = 64 → q.awaits now e = false →
        (∀ as c k v bs ps rs, xs = as ++ .noteOn c k v :: bs → (∀ x ∈ bs, x.isNoteOn = false) →
          ws = ps ++ rs → (∀ x ∈ ps, x.isProgram = true) → (∀ x, rs.head? = some x → x.isProgram = false) →
          o = { port := { q with noteLane := as ++ bs ++ ps ++ [e] ++ rs, noteDiscard := min (q.noteDiscard + 1) 65535 },
                accepted := true, withdrawn := some (c, k), overflowed := false }) ∧
        ((∀ x ∈ xs, x.isNoteOn = false) →
          o = { port := { q with
                  overflow := min (q.overflow + 1) 65535
                  sweepPending := if e.chan ∈ q.sweepPending then q.sweepPending else q.sweepPending ++ [e.chan] },
                accepted := false, withdrawn := none, overflowed := true }))) ∧
  (∀ (a : Triple) (s : State),
    ((∀ h ∈ s.held, ∀ x ∈ h.targets, x.triple = a → x.sent = false) → withdraw a s = s) ∧
    ∀ hs h ds, s.held = hs ++ h :: ds → (∃ x ∈ h.targets, x.triple = a ∧ x.sent = true) →
      (∀ y ∈ ds, ∀ x ∈ y.targets, x.triple = a → x.sent = false) →
      withdraw a s = { s with held := hs ++ { h with targets := h.targets.map (fun x =>
        if x.triple = a then { x with sent := false } else x) } :: ds }) ∧
  (∀ (p : Port) (s : State), meetFulls p s = Nat.iterate (meetFull p) ((s.port p).noteLane.length - 64) s) ∧
  (∀ (p : Port) (s : State), ∀ q, q = s.port p →
    (q.noteLane.length ≤ 64 → meetFull p s = s) ∧
    ∀ xs ws, q.noteLane = xs ++ ws → xs.length = 64 →
      ((∀ x ∈ xs, x.isNoteOn = false) → (∀ x ∈ ws, x.isProgram = true) → meetFull p s = s) ∧
      (∀ as c k v bs e ps rs, xs = as ++ .noteOn c k v :: bs → (∀ x ∈ bs, x.isNoteOn = false) →
        ws = e :: ps ++ rs → (∀ x ∈ ps, x.isProgram = true) → (∀ x, rs.head? = some x → x.isProgram = false) →
        meetFull p s = withdraw { port := p, chan := c, key := k } (s.setPort p { q with
          noteLane := as ++ bs ++ ps ++ [e] ++ rs
          noteDiscard := min (q.noteDiscard + 1) 65535 })) ∧
      ∀ ps e es, (∀ x ∈ xs, x.isNoteOn = false) → ws = ps ++ e :: es → (∀ x ∈ ps, x.isProgram = true) → e.isProgram = false →
        ∀ t, t = takeFault .noteLaneOverflow (.port p) (s.setPort p { q with
            noteLane := xs ++ ps ++ es
            overflow := min (q.overflow + 1) 65535
            sweepPending := if e.chan ∈ q.sweepPending then q.sweepPending else q.sweepPending ++ [e.chan] }) →
          (∀ c k v, e = .noteOn c k v → meetFull p s = withdraw { port := p, chan := c, key := k } t) ∧
          (e.isNoteOn = false → meetFull p s = t)) ∧
  ∀ (p : Port) (e : NoteEntry) (s : State), ∀ o, o = (s.port p).offer s.now e → ∀ t, t = s.setPort p o.port →
    acceptsNote p e s = o.accepted ∧
    (o.withdrawn = none → o.overflowed = false → offerNote p e s = t) ∧
    (o.withdrawn = none → o.overflowed = true → offerNote p e s = takeFault .noteLaneOverflow (.port p) t) ∧
    ∀ c k, o.withdrawn = some (c, k) → o.overflowed = false → ∀ a : Triple, a = { port := p, chan := c, key := k } →
      ((∀ h ∈ s.held, ∀ x ∈ h.targets, x.triple = a → x.sent = false) → offerNote p e s = t) ∧
      ∀ hs h ds, s.held = hs ++ h :: ds → (∃ x ∈ h.targets, x.triple = a ∧ x.sent = true) →
        (∀ y ∈ ds, ∀ x ∈ y.targets, x.triple = a → x.sent = false) →
        offerNote p e s = { t with held := hs ++ { h with targets := h.targets.map (fun x =>
          if x.triple = a then { x with sent := false } else x) } :: ds }
end

