-- ==== Sys2Proof/Laws/Ports.lean ====
section
/-! SUPPORT. The lanes, the merge slots, the grant count and the pending sweeps of a port stay within their capacities through every
operation of its scheduler (R159, R164, R166, R173, R178). -/

namespace Sys2Proof.Laws

open Sys2Proof.Machine

variable {q : PortState}

/-! ### The lanes at enqueue -/

/-- A NOTE lane that has lost an entry, and then takes a SWEEP or gives the place to an entry that waits for it, is within its capacity
(R173, R178). -/
theorem lose_ok (hr : q.realtime.length ≤ Config.realtimeMax) (hc : q.clickLane.length ≤ Config.clickLaneMax)
    (hn : q.noteLane.length + 1 ≤ Config.noteLaneMax ∨ q.sweepPending ≠ [])
    (hm : q.slots.length ≤ Config.slotMax ∧ (q.slots.map (fun m => m.key)).Nodup) (hg : q.grantCount ≤ 16)
    (hs : q.sweepPending.length ≤ 16 ∧ q.sweepPending.Nodup)
    (hp : ((q.noteLane.filter NoteEntry.isProgram).map NoteEntry.chan).Nodup) : PortOk q.lose := by
  unfold PortState.lose
  split
  · exact ⟨hr, hc, hn.imp_left (Nat.le_trans (Nat.le_succ _)), hm, hg, hs, hp⟩
  · rename_i hl
    split
    · exact ⟨hr, hc, .inl (Nat.le_of_lt (Nat.lt_of_not_le hl)), hm, hg, hs, hp⟩
    · rename_i c cs hcs
      rw [hcs] at hs
      refine ⟨hr, hc, .inl ?_, hm, hg, ⟨Nat.le_of_succ_le hs.1, (List.nodup_cons.1 hs.2).2⟩, ?_⟩
      · simpa using Nat.lt_of_not_le hl
      · simpa [NoteEntry.isProgram] using hp

/-- Annihilation takes one entry out of the lane, and no PROGRAM entry (R171). -/
theorem annihilate_lane {c : Chan} {k : Nat} : ∀ {xs ys : List NoteEntry}, annihilate c k xs = some ys →
    ys.length + 1 = xs.length ∧ ys.filter NoteEntry.isProgram = xs.filter NoteEntry.isProgram
  | [], ys, h => by simp [annihilate] at h
  | e :: es, ys, h => by
    unfold annihilate at h
    split at h
    · rename_i zs hz
      obtain rfl : e :: zs = ys := by simpa using h
      have := annihilate_lane hz
      simp [List.filter_cons, this.2, ← this.1]
    · split at h
      · rename_i he
        obtain rfl : es = ys := by simpa using h
        cases e <;> simp_all [NoteEntry.isOn, NoteEntry.isProgram]
      · simp at h

/-- The discard from a full lane takes one entry out of it, and no PROGRAM entry (R172). -/
theorem removeNewestOn_lane : ∀ {xs ys : List NoteEntry} {c : Chan} {k : Nat}, removeNewestOn xs = some (c, k, ys) →
    ys.length + 1 = xs.length ∧ ys.filter NoteEntry.isProgram = xs.filter NoteEntry.isProgram
  | [], ys, c, k, h => by simp [removeNewestOn] at h
  | e :: es, ys, c, k, h => by
    unfold removeNewestOn at h
    split at h
    · rename_i c' k' zs hz
      simp only [Option.some.injEq, Prod.mk.injEq] at h
      obtain ⟨rfl, rfl, rfl⟩ := h
      have := removeNewestOn_lane hz
      simp [List.filter_cons, this.2, ← this.1]
    · split at h
      · simp only [Option.some.injEq, Prod.mk.injEq] at h
        obtain ⟨-, -, rfl⟩ := h
        simp [NoteEntry.isProgram]
      · simp at h

/-- An entry may join a lane without a second PROGRAM entry of its channel there (R137, R142). -/
abbrev Joins (e : NoteEntry) (lane : List NoteEntry) : Prop :=
  e.isProgram = true → ∀ x ∈ lane, x.isProgram = true → x.chan ≠ e.chan

theorem joins_of {e : NoteEntry} (h : e.isProgram = false) (lane : List NoteEntry) : Joins e lane :=
  fun k => absurd (h ▸ k) (by simp)

theorem join_programs {e : NoteEntry} {lane : List NoteEntry} (he : Joins e lane)
    (h : ((lane.filter NoteEntry.isProgram).map NoteEntry.chan).Nodup) :
    (((lane ++ [e]).filter NoteEntry.isProgram).map NoteEntry.chan).Nodup := by
  rw [List.filter_append, List.map_append, List.nodup_append]
  refine ⟨h, ?_, ?_⟩
  · by_cases k : e.isProgram = true <;> simp [k]
  · intro a ha b hb
    by_cases k : e.isProgram = true
    · obtain ⟨x, hx, rfl⟩ := List.mem_map.1 ha
      rw [List.mem_filter] at hx
      obtain rfl : b = e.chan := by simpa [k] using hb
      exact he k x hx.1 hx.2
    · simp [k] at hb

/-- A list of channels without a repeat has at most 16 (R173). -/
theorem chans_length {cs : List Chan} (h : cs.Nodup) : cs.length ≤ 16 := by
  simpa using h.length_le_card

theorem addNew_nodup {α : Type} [DecidableEq α] {xs : List α} (x : α) (h : xs.Nodup) : (addNew xs x).Nodup := by
  unfold addNew
  split
  · exact h
  · rename_i hx
    rw [List.nodup_append]
    refine ⟨h, by simp, fun a ha b hb => ?_⟩
    obtain rfl : b = x := by simpa using hb
    exact fun e => hx (e ▸ ha)

theorem addNew_ne_nil {α : Type} [DecidableEq α] (xs : List α) (x : α) : addNew xs x ≠ [] := by
  unfold addNew
  split
  · exact List.ne_nil_of_mem ‹_›
  · simp

/-- An entry that joined a lane without a second PROGRAM entry of its channel there has found none (R137). -/
theorem joins_of_programs {e : NoteEntry} {lane : List NoteEntry}
    (h : (((lane ++ [e]).filter NoteEntry.isProgram).map NoteEntry.chan).Nodup) : Joins e lane := by
  intro k x hx hp
  rw [List.filter_append, List.map_append, List.nodup_append] at h
  exact h.2.2 _ (List.mem_map_of_mem (List.mem_filter.2 ⟨hx, hp⟩)) _ (by simp [k])

theorem programs_perm {xs ys : List NoteEntry} (h : xs.Perm ys) (hx : ((xs.filter NoteEntry.isProgram).map NoteEntry.chan).Nodup) :
    ((ys.filter NoteEntry.isProgram).map NoteEntry.chan).Nodup :=
  ((h.filter _).map _).nodup_iff.1 hx

theorem places_waiting (q : PortState) : q.places ++ q.waiting = q.noteLane := List.take_append_drop _ _

/-- An entry that met a full lane and was accepted stands somewhere behind what is left of the places (R172). -/
theorem metLane_perm (xs ws : List NoteEntry) (e : NoteEntry) :
    (xs ++ ws ++ [e]).Perm (xs ++ ws.takeWhile NoteEntry.isProgram ++ e :: ws.dropWhile NoteEntry.isProgram) := by
  conv_lhs => rw [← List.takeWhile_append_dropWhile (p := NoteEntry.isProgram) (l := ws)]
  simp only [List.append_assoc]
  exact ((List.perm_append_singleton e _).append_left _).append_left _

theorem offerFull_ok {e : NoteEntry} (he : Joins e q.noteLane) (h : PortOk q) : PortOk (q.offerFull e).port := by
  have hq := places_waiting q
  unfold PortState.offerFull
  split
  · rename_i c k lane hl
    obtain ⟨h1, h2⟩ := removeNewestOn_lane hl
    have h3 : (lane ++ q.waiting).filter NoteEntry.isProgram = q.noteLane.filter NoteEntry.isProgram := by
      rw [List.filter_append, h2, ← List.filter_append, hq]
    have hj : Joins e (lane ++ q.waiting) := fun k x hx hp =>
      he k x (List.mem_of_mem_filter (h3 ▸ List.mem_filter.2 ⟨hx, hp⟩ : x ∈ q.noteLane.filter NoteEntry.isProgram)) hp
    have hp := metLane_perm lane q.waiting e
    refine ⟨h.realtime, h.click, ?_, h.merge, h.grants, h.sweeps,
      programs_perm hp (join_programs hj (by rw [h3]; exact h.programs))⟩
    have hn : (lane ++ q.waiting ++ [e]).length = q.noteLane.length := by
      rw [← hq]
      simp only [List.length_append, List.length_singleton, ← h1]
      omega
    rw [hp.length_eq] at hn
    exact h.note.imp_left (Nat.le_trans (Nat.le_of_eq hn))
  · have hn := addNew_nodup e.chan h.sweeps.2
    exact ⟨h.realtime, h.click, .inr (addNew_ne_nil _ _), h.merge, h.grants, ⟨chans_length hn, hn⟩, h.programs⟩

/-! ### The entries that wait -/

/-- An entry that the end of the instant decides waits, and the lane without it is a part of the lane. -/
theorem unplaced_perm {e : NoteEntry} (he : q.unplaced = some e) : q.noteLane.Perm (q.places ++ q.waiting.erase e ++ [e]) := by
  have hm : e ∈ q.waiting := List.mem_of_find?_eq_some he
  conv_lhs => rw [← places_waiting q]
  rw [List.append_assoc]
  exact ((List.perm_cons_erase hm).trans (List.perm_append_singleton e _).symm).append_left _

/-- A lane within its places has no entry that waits (R171). -/
theorem unplaced_of_le (h : q.noteLane.length ≤ Config.noteLaneMax) : q.unplaced = none := by
  unfold PortState.unplaced PortState.waiting
  rw [List.drop_eq_nil_of_le h]
  rfl

/-- A port one of whose waiting entries meets the full lane (R172, R178). -/
theorem metFull_ok {e : NoteEntry} (he : q.unplaced = some e) (h : PortOk q) :
    PortOk (({ q with noteLane := q.places ++ q.waiting.erase e } : PortState).offerFull e).port := by
  have hl := unplaced_perm he
  have hs : q.sweepPending ≠ [] := h.note.resolve_left (fun hn => by rw [unplaced_of_le hn] at he; cases he)
  have hp := programs_perm hl h.programs
  refine offerFull_ok (joins_of_programs hp) ⟨h.realtime, h.click, .inr hs, h.merge, h.grants, h.sweeps, ?_⟩
  exact hp.sublist ((List.sublist_append_left _ _).filter _ |>.map _)

theorem annihilation_lane {e : NoteEntry} {c : Chan} {k : Nat} {lane : List NoteEntry}
    (h : q.annihilation e = some (c, k, lane)) : annihilate c k q.noteLane = some lane := by
  unfold PortState.annihilation at h
  split at h
  · split at h
    · simp only [Option.map_eq_some_iff, Prod.mk.injEq] at h
      obtain ⟨l, hl, rfl, rfl, rfl⟩ := h
      exact hl
    · simp at h
  · simp at h

theorem awaits_pending {now : Nat} {e : NoteEntry} (h : q.awaits now e = true) : q.sweepPending ≠ [] := by
  unfold PortState.awaits at h
  rw [Bool.and_eq_true] at h
  simpa using h.1

theorem offer_ok {e : NoteEntry} (now : Nat) (he : Joins e q.noteLane) (h : PortOk q) : PortOk (q.offer now e).port := by
  unfold PortState.offer
  split
  · exact ⟨h.realtime, h.click, h.note, h.merge, h.grants, h.sweeps, h.programs⟩
  · split
    · rename_i c k lane hl
      obtain ⟨h1, h2⟩ := annihilate_lane (annihilation_lane hl)
      refine lose_ok h.realtime h.click ?_ h.merge h.grants h.sweeps ?_
      · show lane.length + 1 ≤ _ ∨ _
        rw [h1]
        exact h.note
      · show ((lane.filter _).map _).Nodup
        rw [h2]
        exact h.programs
    · split
      · rename_i hj
        refine ⟨h.realtime, h.click, hj.imp (fun hlt => ?_) (awaits_pending (q := q)), h.merge, h.grants, h.sweeps,
          join_programs he h.programs⟩
        rw [List.length_append]
        exact hlt
      · exact offerFull_ok he h

theorem offerRealtime_ok (b : RealTime) (h : PortOk q) : PortOk (q.offerRealtime b) := by
  unfold PortState.offerRealtime
  split
  · rename_i hlt
    exact ⟨by simpa using hlt, h.click, h.note, h.merge, h.grants, h.sweeps, h.programs⟩
  · exact ⟨h.realtime, h.click, h.note, h.merge, h.grants, h.sweeps, h.programs⟩

theorem offerRealtimes_ok : ∀ (bs : List RealTime) {q : PortState}, PortOk q →
    PortOk (bs.foldl (fun q b => q.offerRealtime b) q)
  | [], _, h => h
  | b :: bs, _, h => offerRealtimes_ok bs (offerRealtime_ok b h)

theorem insertByDue_length (e : ClickEntry) : ∀ xs, (insertByDue e xs).length = xs.length + 1
  | [] => rfl
  | x :: xs => by
    unfold insertByDue
    split
    · simp [insertByDue_length e xs]
    · simp

theorem enqueueClick_ok (e : ClickEntry) (room : q.clickRoom = true) (h : PortOk q) : PortOk (q.enqueueClick e) := by
  refine ⟨h.realtime, ?_, h.note, h.merge, h.grants, h.sweeps, h.programs⟩
  have : q.clickLane.length < Config.clickLaneMax := by simpa [PortState.clickRoom] using room
  show (insertByDue e q.clickLane).length ≤ _
  rw [insertByDue_length]
  exact this

/-- A slot taken out and one put in leave no more slots than before. -/
theorem replaced_length {xs : List MergeSlot} {m x : MergeSlot} (f : MergeKey) (hm : m ∈ xs) (hk : m.key = f) :
    (xs.filter (fun y => decide (y.key ≠ f)) ++ [x]).length ≤ xs.length := by
  have h1 : (xs.filter (fun y => decide (y.key ≠ f))).length < xs.length :=
    List.length_filter_lt_length_iff_exists.2 ⟨m, hm, by simp [hk]⟩
  simpa using h1

theorem earliest_mem {α : Type} (f : α → Nat) : ∀ {xs : List α} {x : α}, earliest f xs = some x → x ∈ xs
  | [], _, h => by simp [earliest] at h
  | y :: ys, x, h => by
    unfold earliest at h
    split at h
    · simp_all
    · rename_i z hz
      split at h
      · simp_all
      · obtain rfl : z = x := by simpa using h
        exact List.mem_cons_of_mem _ (earliest_mem f hz)

/-- A slot in place of the one with a key, or of none, leaves every key once. -/
theorem replaced_keys {xs : List MergeSlot} {x : MergeSlot} (f : MergeKey) (h : (xs.map (fun m => m.key)).Nodup)
    (hx : ∀ y ∈ xs, y.key ≠ f → y.key ≠ x.key) :
    ((xs.filter (fun y => decide (y.key ≠ f)) ++ [x]).map (fun m => m.key)).Nodup := by
  rw [List.map_append, List.nodup_append]
  refine ⟨h.sublist (List.Sublist.map _ List.filter_sublist), List.nodup_singleton _, ?_⟩
  rintro a ha b hb rfl
  obtain ⟨y, hy, e⟩ := List.mem_map.1 ha
  rw [List.mem_filter] at hy
  exact hx y hy.1 (by simpa using hy.2) (e.trans (List.mem_singleton.1 hb))

theorem overwrite_key (m : MergeSlot) (v now : Nat) : (m.overwrite v now).key = m.key := by
  unfold MergeSlot.overwrite
  split <;> rfl

/-- Slots that keep their keys keep them apart. -/
theorem mapped_keys {xs : List MergeSlot} {f : MergeSlot → MergeSlot} (hf : ∀ x, (f x).key = x.key)
    (h : (xs.map (fun m => m.key)).Nodup) : ((xs.map f).map (fun m => m.key)).Nodup := by
  rwa [List.map_map, show (fun m => m.key) ∘ f = fun m : MergeSlot => m.key from funext hf]

theorem place_ok (now : Nat) (key : MergeKey) (v : Nat) (h : PortOk q) : PortOk (q.place now key v) := by
  unfold PortState.place
  split
  · rename_i m hm
    have hkey : m.key = key := by simpa using List.find?_some hm
    split
    · refine ⟨h.realtime, h.click, h.note, ⟨by simpa using h.merge.1, mapped_keys (fun x => ?_) h.merge.2⟩, h.grants, h.sweeps,
        h.programs⟩
      split
      · exact overwrite_key _ _ _
      · rfl
    · exact ⟨h.realtime, h.click, h.note,
        ⟨le_trans (replaced_length key (List.mem_of_find?_eq_some hm) hkey) h.merge.1,
          replaced_keys key h.merge.2 (fun y _ hy => by rwa [overwrite_key, hkey])⟩, h.grants, h.sweeps, h.programs⟩
  · rename_i hnone
    have hfree : ∀ y ∈ q.slots, y.key ≠ key := by simpa using hnone
    split
    · rename_i hlt
      refine ⟨h.realtime, h.click, h.note, ⟨by simpa using hlt, ?_⟩, h.grants, h.sweeps, h.programs⟩
      have := replaced_keys (x := { key, value := v, state := .dirty now, sent := none }) key h.merge.2 (fun y _ hy => hy)
      rwa [List.filter_eq_self.2 (fun y hy => by simpa using hfree y hy)] at this
    · split
      · rename_i m hm
        have hin : m ∈ q.slots := List.mem_of_mem_filter (earliest_mem _ hm)
        exact ⟨h.realtime, h.click, h.note, ⟨le_trans (replaced_length m.key hin rfl) h.merge.1,
          replaced_keys m.key h.merge.2 (fun y hy _ => hfree y hy)⟩, h.grants, h.sweeps, h.programs⟩
      · exact ⟨h.realtime, h.click, h.note, h.merge, h.grants, h.sweeps, h.programs⟩

/-! ### The arbiter -/

theorem beginMessage_ok (now : Nat) (m : Message) (e : InProgress) (h : PortOk q) : PortOk (q.beginMessage now m e) :=
  ⟨h.realtime, h.click, h.note, h.merge, h.grants, h.sweeps, h.programs⟩

theorem beginByte_ok (now : Nat) (b : Byte) (h : PortOk q) : PortOk (q.beginByte now b) :=
  ⟨h.realtime, h.click, h.note, h.merge, h.grants, h.sweeps, h.programs⟩

theorem grantNote_ok (now : Nat) (h : PortOk q) : PortOk (q.grantNote now) := by
  unfold PortState.grantNote
  split
  · exact h
  · rename_i n ns hn
    split
    · exact h
    · have h1 := h.note
      have h2 := h.programs
      rw [hn] at h1 h2
      exact beginMessage_ok _ _ _ (lose_ok h.realtime h.click (by simpa using h1) h.merge (Nat.min_le_right _ _) h.sweeps
        (h2.sublist (List.Sublist.map _ (List.Sublist.filter _ (List.sublist_cons_self n ns)))))

theorem grantControl_ok (now : Nat) (m : MergeSlot) (h : PortOk q) : PortOk (q.grantControl now m) :=
  beginMessage_ok _ _ _ ⟨h.realtime, h.click, h.note,
    ⟨by simpa using h.merge.1, mapped_keys (fun x => by split <;> rfl) h.merge.2⟩, Nat.zero_le _, h.sweeps, h.programs⟩

theorem chooseLane_ok (now : Nat) (h : PortOk q) : PortOk (q.chooseLane now) := by
  unfold PortState.chooseLane
  split
  · split
    · exact grantNote_ok now h
    · exact grantControl_ok now _ h
  · split
    · exact grantNote_ok now h
    · exact h

theorem chooseItem_ok (now : Nat) (h : PortOk q) : PortOk (q.chooseItem now).1 := by
  unfold PortState.chooseItem
  split
  · rename_i e es heq
    split
    · have hc : es.length ≤ Config.clickLaneMax := by
        have := h.click
        rw [heq] at this
        exact le_trans (Nat.le_succ _) this
      exact beginMessage_ok _ _ _ ⟨h.realtime, hc, h.note, h.merge, h.grants, h.sweeps, h.programs⟩
    · exact chooseLane_ok now h
  · exact chooseLane_ok now h

theorem choose_ok (now : Nat) (h : PortOk q) : PortOk (q.choose now).1 := by
  unfold PortState.choose
  split
  · exact h
  · split
    · rename_i b bs heq
      have hr : bs.length ≤ Config.realtimeMax := by
        have := h.realtime
        rw [heq] at this
        exact le_trans (Nat.le_succ _) this
      exact beginByte_ok _ _ ⟨hr, h.click, h.note, h.merge, h.grants, h.sweeps, h.programs⟩
    · split
      · split
        · exact beginMessage_ok _ _ _ h
        · exact chooseItem_ok now h
      · exact chooseItem_ok now h

/-! ### The end of an item -/

theorem entryEnded_ok (now : Nat) (e : InProgress) (h : PortOk q) : PortOk (q.entryEnded now e) := by
  unfold PortState.entryEnded
  dsimp only
  split
  · refine ⟨h.realtime, h.click, h.note, ⟨by simpa using h.merge.1, mapped_keys (fun x => ?_) h.merge.2⟩, h.grants, h.sweeps,
      h.programs⟩
    split
    · unfold MergeSlot.ended
      split <;> rfl
    · rfl
  · split
    · exact ⟨h.realtime, h.click, h.note, h.merge, h.grants, h.sweeps, h.programs⟩
    · exact ⟨h.realtime, h.click, h.note, h.merge, h.grants, h.sweeps, h.programs⟩
  · exact ⟨h.realtime, h.click, h.note, h.merge, h.grants, h.sweeps, h.programs⟩

theorem itemEnded_ok (w : Wire) (now : Nat) (h : PortOk q) : PortOk (q.itemEnded w now) := by
  have hx : PortOk { q with
      wire := none
      lastStatus := if w.status.isSome then w.status else q.lastStatus
      keepAliveDue := if q.settings.keepAlive then some (now + Config.keepAlive) else none } :=
    ⟨h.realtime, h.click, h.note, h.merge, h.grants, h.sweeps, h.programs⟩
  unfold PortState.itemEnded
  dsimp only
  cases q.ending w with
  | some e => exact entryEnded_ok now e hx
  | none => exact hx

/-! ### PANIC and resets -/

theorem sweeps_noProgram : sweeps.filter NoteEntry.isProgram = [] := by decide

/-- Entries of distinct channels are at most 16. -/
theorem programs_length {xs : List NoteEntry} (h : (xs.map NoteEntry.chan).Nodup) : xs.length ≤ 16 := by
  simpa using chans_length h

/-- The 16 SWEEPs find room behind a lane of at most 16 entries (R175, R176). -/
theorem sweepAll_ok (h : PortOk q) (hn : q.noteLane.length ≤ 16) : PortOk q.sweepAll := by
  refine ⟨h.realtime, h.click, .inl ?_, h.merge, h.grants, h.sweeps, ?_⟩
  · show (q.noteLane ++ sweeps).length ≤ _
    rw [List.length_append]
    exact Nat.le_trans (Nat.add_le_add_right hn _) (by decide)
  · show ((((q.noteLane ++ sweeps).filter _).map _)).Nodup
    rw [List.filter_append, sweeps_noProgram, List.append_nil]
    exact h.programs

/-- PANIC at a port: its PROGRAM entries, of which there is one of each channel at most, and the 16 SWEEPs (R176). -/
theorem panicked_ok (h : PortOk q) : PortOk ({ q with
    noteLane := q.noteLane.filter NoteEntry.isProgram, clickLane := [], sweepPending := [],
    settleDue := none } : PortState).sweepAll := by
  have hl := programs_length h.programs
  refine sweepAll_ok ⟨h.realtime, Nat.zero_le _, .inl (Nat.le_trans hl (by decide)), h.merge, h.grants,
    ⟨Nat.zero_le _, List.nodup_nil⟩, ?_⟩ hl
  · show ((((q.noteLane.filter _).filter _).map _)).Nodup
    rw [List.filter_filter]
    simpa using h.programs

theorem softReset_ok : PortOk q.softReset :=
  sweepAll_ok ⟨Nat.zero_le _, Nat.zero_le _, .inl (Nat.zero_le _), ⟨Nat.zero_le _, List.nodup_nil⟩, Nat.zero_le _,
    ⟨Nat.zero_le _, List.nodup_nil⟩, List.nodup_nil⟩ (Nat.zero_le _)

theorem reset_ok : PortOk PortState.reset :=
  ⟨Nat.zero_le _, Nat.zero_le _, .inl (Nat.zero_le _), ⟨Nat.zero_le _, List.nodup_nil⟩, Nat.zero_le _, ⟨Nat.zero_le _, List.nodup_nil⟩,
    List.nodup_nil⟩

end Sys2Proof.Laws
end

