-- ==== Sys2Proof/Laws/State.lean ====
section
/-! SUPPORT. What each update of State leaves as it was, one lemma for each field, and what it writes. -/

namespace Sys2Proof.Laws

open Sys2Proof.Machine

/-! ### setInput -/

@[simp] theorem setInput_now (s : State) (i : Input) (x : InputState) : (s.setInput i x).now = s.now := rfl
@[simp] theorem setInput_init (s : State) (i : Input) (x : InputState) : (s.setInput i x).init = s.init := rfl
@[simp] theorem setInput_clkin (s : State) (i : Input) (x : InputState) : (s.setInput i x).clkin = s.clkin := rfl
@[simp] theorem setInput_foots (s : State) (i : Input) (x : InputState) : (s.setInput i x).foots = s.foots := rfl
@[simp] theorem setInput_live (s : State) (i : Input) (x : InputState) : (s.setInput i x).live = s.live := rfl
@[simp] theorem setInput_liveId (s : State) (i : Input) (x : InputState) : (s.setInput i x).liveId = s.liveId := rfl
@[simp] theorem setInput_held (s : State) (i : Input) (x : InputState) : (s.setInput i x).held = s.held := rfl
@[simp] theorem setInput_pedals (s : State) (i : Input) (x : InputState) : (s.setInput i x).pedals = s.pedals := rfl
@[simp] theorem setInput_stealCount (s : State) (i : Input) (x : InputState) : (s.setInput i x).stealCount = s.stealCount := rfl
@[simp] theorem setInput_tempo (s : State) (i : Input) (x : InputState) : (s.setInput i x).tempo = s.tempo := rfl
@[simp] theorem setInput_transport (s : State) (i : Input) (x : InputState) : (s.setInput i x).transport = s.transport := rfl
@[simp] theorem setInput_click (s : State) (i : Input) (x : InputState) : (s.setInput i x).click = s.click := rfl
@[simp] theorem setInput_library (s : State) (i : Input) (x : InputState) : (s.setInput i x).library = s.library := rfl
@[simp] theorem setInput_setlist (s : State) (i : Input) (x : InputState) : (s.setInput i x).setlist = s.setlist := rfl
@[simp] theorem setInput_curPos (s : State) (i : Input) (x : InputState) : (s.setInput i x).curPos = s.curPos := rfl
@[simp] theorem setInput_curScene (s : State) (i : Input) (x : InputState) : (s.setInput i x).curScene = s.curScene := rfl
@[simp] theorem setInput_cue (s : State) (i : Input) (x : InputState) : (s.setInput i x).cue = s.cue := rfl
@[simp] theorem setInput_departure (s : State) (i : Input) (x : InputState) : (s.setInput i x).departure = s.departure := rfl
@[simp] theorem setInput_changeover (s : State) (i : Input) (x : InputState) : (s.setInput i x).changeover = s.changeover := rfl
@[simp] theorem setInput_progMem (s : State) (i : Input) (x : InputState) : (s.setInput i x).progMem = s.progMem := rfl
@[simp] theorem setInput_audition (s : State) (i : Input) (x : InputState) : (s.setInput i x).audition = s.audition := rfl
@[simp] theorem setInput_ports (s : State) (i : Input) (x : InputState) : (s.setInput i x).ports = s.ports := rfl
@[simp] theorem setInput_linkA (s : State) (i : Input) (x : InputState) : (s.setInput i x).linkA = s.linkA := rfl
@[simp] theorem setInput_linkB (s : State) (i : Input) (x : InputState) : (s.setInput i x).linkB = s.linkB := rfl
@[simp] theorem setInput_faultRecord (s : State) (i : Input) (x : InputState) : (s.setInput i x).faultRecord = s.faultRecord := rfl
@[simp] theorem setInput_panicCount (s : State) (i : Input) (x : InputState) : (s.setInput i x).panicCount = s.panicCount := rfl
@[simp] theorem setInput_pending (s : State) (i : Input) (x : InputState) : (s.setInput i x).pending = s.pending := rfl

/-! ### setFoot -/

@[simp] theorem setFoot_now (s : State) (n : FootLine) (x : FootState) : (s.setFoot n x).now = s.now := rfl
@[simp] theorem setFoot_init (s : State) (n : FootLine) (x : FootState) : (s.setFoot n x).init = s.init := rfl
@[simp] theorem setFoot_clkin (s : State) (n : FootLine) (x : FootState) : (s.setFoot n x).clkin = s.clkin := rfl
@[simp] theorem setFoot_inputs (s : State) (n : FootLine) (x : FootState) : (s.setFoot n x).inputs = s.inputs := rfl
@[simp] theorem setFoot_live (s : State) (n : FootLine) (x : FootState) : (s.setFoot n x).live = s.live := rfl
@[simp] theorem setFoot_liveId (s : State) (n : FootLine) (x : FootState) : (s.setFoot n x).liveId = s.liveId := rfl
@[simp] theorem setFoot_held (s : State) (n : FootLine) (x : FootState) : (s.setFoot n x).held = s.held := rfl
@[simp] theorem setFoot_pedals (s : State) (n : FootLine) (x : FootState) : (s.setFoot n x).pedals = s.pedals := rfl
@[simp] theorem setFoot_stealCount (s : State) (n : FootLine) (x : FootState) : (s.setFoot n x).stealCount = s.stealCount := rfl
@[simp] theorem setFoot_tempo (s : State) (n : FootLine) (x : FootState) : (s.setFoot n x).tempo = s.tempo := rfl
@[simp] theorem setFoot_transport (s : State) (n : FootLine) (x : FootState) : (s.setFoot n x).transport = s.transport := rfl
@[simp] theorem setFoot_click (s : State) (n : FootLine) (x : FootState) : (s.setFoot n x).click = s.click := rfl
@[simp] theorem setFoot_library (s : State) (n : FootLine) (x : FootState) : (s.setFoot n x).library = s.library := rfl
@[simp] theorem setFoot_setlist (s : State) (n : FootLine) (x : FootState) : (s.setFoot n x).setlist = s.setlist := rfl
@[simp] theorem setFoot_curPos (s : State) (n : FootLine) (x : FootState) : (s.setFoot n x).curPos = s.curPos := rfl
@[simp] theorem setFoot_curScene (s : State) (n : FootLine) (x : FootState) : (s.setFoot n x).curScene = s.curScene := rfl
@[simp] theorem setFoot_cue (s : State) (n : FootLine) (x : FootState) : (s.setFoot n x).cue = s.cue := rfl
@[simp] theorem setFoot_departure (s : State) (n : FootLine) (x : FootState) : (s.setFoot n x).departure = s.departure := rfl
@[simp] theorem setFoot_changeover (s : State) (n : FootLine) (x : FootState) : (s.setFoot n x).changeover = s.changeover := rfl
@[simp] theorem setFoot_progMem (s : State) (n : FootLine) (x : FootState) : (s.setFoot n x).progMem = s.progMem := rfl
@[simp] theorem setFoot_audition (s : State) (n : FootLine) (x : FootState) : (s.setFoot n x).audition = s.audition := rfl
@[simp] theorem setFoot_ports (s : State) (n : FootLine) (x : FootState) : (s.setFoot n x).ports = s.ports := rfl
@[simp] theorem setFoot_linkA (s : State) (n : FootLine) (x : FootState) : (s.setFoot n x).linkA = s.linkA := rfl
@[simp] theorem setFoot_linkB (s : State) (n : FootLine) (x : FootState) : (s.setFoot n x).linkB = s.linkB := rfl
@[simp] theorem setFoot_faultRecord (s : State) (n : FootLine) (x : FootState) : (s.setFoot n x).faultRecord = s.faultRecord := rfl
@[simp] theorem setFoot_panicCount (s : State) (n : FootLine) (x : FootState) : (s.setFoot n x).panicCount = s.panicCount := rfl
@[simp] theorem setFoot_pending (s : State) (n : FootLine) (x : FootState) : (s.setFoot n x).pending = s.pending := rfl

/-! ### setPedal -/

@[simp] theorem setPedal_now (s : State) (i : Input) (c : Chan) (x : PedalRecord) : (s.setPedal i c x).now = s.now := rfl
@[simp] theorem setPedal_init (s : State) (i : Input) (c : Chan) (x : PedalRecord) : (s.setPedal i c x).init = s.init := rfl
@[simp] theorem setPedal_clkin (s : State) (i : Input) (c : Chan) (x : PedalRecord) : (s.setPedal i c x).clkin = s.clkin := rfl
@[simp] theorem setPedal_inputs (s : State) (i : Input) (c : Chan) (x : PedalRecord) : (s.setPedal i c x).inputs = s.inputs := rfl
@[simp] theorem setPedal_foots (s : State) (i : Input) (c : Chan) (x : PedalRecord) : (s.setPedal i c x).foots = s.foots := rfl
@[simp] theorem setPedal_live (s : State) (i : Input) (c : Chan) (x : PedalRecord) : (s.setPedal i c x).live = s.live := rfl
@[simp] theorem setPedal_liveId (s : State) (i : Input) (c : Chan) (x : PedalRecord) : (s.setPedal i c x).liveId = s.liveId := rfl
@[simp] theorem setPedal_held (s : State) (i : Input) (c : Chan) (x : PedalRecord) : (s.setPedal i c x).held = s.held := rfl
@[simp] theorem setPedal_stealCount (s : State) (i : Input) (c : Chan) (x : PedalRecord) : (s.setPedal i c x).stealCount = s.stealCount := rfl
@[simp] theorem setPedal_tempo (s : State) (i : Input) (c : Chan) (x : PedalRecord) : (s.setPedal i c x).tempo = s.tempo := rfl
@[simp] theorem setPedal_transport (s : State) (i : Input) (c : Chan) (x : PedalRecord) : (s.setPedal i c x).transport = s.transport := rfl
@[simp] theorem setPedal_click (s : State) (i : Input) (c : Chan) (x : PedalRecord) : (s.setPedal i c x).click = s.click := rfl
@[simp] theorem setPedal_library (s : State) (i : Input) (c : Chan) (x : PedalRecord) : (s.setPedal i c x).library = s.library := rfl
@[simp] theorem setPedal_setlist (s : State) (i : Input) (c : Chan) (x : PedalRecord) : (s.setPedal i c x).setlist = s.setlist := rfl
@[simp] theorem setPedal_curPos (s : State) (i : Input) (c : Chan) (x : PedalRecord) : (s.setPedal i c x).curPos = s.curPos := rfl
@[simp] theorem setPedal_curScene (s : State) (i : Input) (c : Chan) (x : PedalRecord) : (s.setPedal i c x).curScene = s.curScene := rfl
@[simp] theorem setPedal_cue (s : State) (i : Input) (c : Chan) (x : PedalRecord) : (s.setPedal i c x).cue = s.cue := rfl
@[simp] theorem setPedal_departure (s : State) (i : Input) (c : Chan) (x : PedalRecord) : (s.setPedal i c x).departure = s.departure := rfl
@[simp] theorem setPedal_changeover (s : State) (i : Input) (c : Chan) (x : PedalRecord) : (s.setPedal i c x).changeover = s.changeover := rfl
@[simp] theorem setPedal_progMem (s : State) (i : Input) (c : Chan) (x : PedalRecord) : (s.setPedal i c x).progMem = s.progMem := rfl
@[simp] theorem setPedal_audition (s : State) (i : Input) (c : Chan) (x : PedalRecord) : (s.setPedal i c x).audition = s.audition := rfl
@[simp] theorem setPedal_ports (s : State) (i : Input) (c : Chan) (x : PedalRecord) : (s.setPedal i c x).ports = s.ports := rfl
@[simp] theorem setPedal_linkA (s : State) (i : Input) (c : Chan) (x : PedalRecord) : (s.setPedal i c x).linkA = s.linkA := rfl
@[simp] theorem setPedal_linkB (s : State) (i : Input) (c : Chan) (x : PedalRecord) : (s.setPedal i c x).linkB = s.linkB := rfl
@[simp] theorem setPedal_faultRecord (s : State) (i : Input) (c : Chan) (x : PedalRecord) : (s.setPedal i c x).faultRecord = s.faultRecord := rfl
@[simp] theorem setPedal_panicCount (s : State) (i : Input) (c : Chan) (x : PedalRecord) : (s.setPedal i c x).panicCount = s.panicCount := rfl
@[simp] theorem setPedal_pending (s : State) (i : Input) (c : Chan) (x : PedalRecord) : (s.setPedal i c x).pending = s.pending := rfl

/-! ### setPort -/

@[simp] theorem setPort_now (s : State) (p : Port) (x : PortState) : (s.setPort p x).now = s.now := rfl
@[simp] theorem setPort_init (s : State) (p : Port) (x : PortState) : (s.setPort p x).init = s.init := rfl
@[simp] theorem setPort_clkin (s : State) (p : Port) (x : PortState) : (s.setPort p x).clkin = s.clkin := rfl
@[simp] theorem setPort_inputs (s : State) (p : Port) (x : PortState) : (s.setPort p x).inputs = s.inputs := rfl
@[simp] theorem setPort_foots (s : State) (p : Port) (x : PortState) : (s.setPort p x).foots = s.foots := rfl
@[simp] theorem setPort_live (s : State) (p : Port) (x : PortState) : (s.setPort p x).live = s.live := rfl
@[simp] theorem setPort_liveId (s : State) (p : Port) (x : PortState) : (s.setPort p x).liveId = s.liveId := rfl
@[simp] theorem setPort_held (s : State) (p : Port) (x : PortState) : (s.setPort p x).held = s.held := rfl
@[simp] theorem setPort_pedals (s : State) (p : Port) (x : PortState) : (s.setPort p x).pedals = s.pedals := rfl
@[simp] theorem setPort_stealCount (s : State) (p : Port) (x : PortState) : (s.setPort p x).stealCount = s.stealCount := rfl
@[simp] theorem setPort_tempo (s : State) (p : Port) (x : PortState) : (s.setPort p x).tempo = s.tempo := rfl
@[simp] theorem setPort_transport (s : State) (p : Port) (x : PortState) : (s.setPort p x).transport = s.transport := rfl
@[simp] theorem setPort_click (s : State) (p : Port) (x : PortState) : (s.setPort p x).click = s.click := rfl
@[simp] theorem setPort_library (s : State) (p : Port) (x : PortState) : (s.setPort p x).library = s.library := rfl
@[simp] theorem setPort_setlist (s : State) (p : Port) (x : PortState) : (s.setPort p x).setlist = s.setlist := rfl
@[simp] theorem setPort_curPos (s : State) (p : Port) (x : PortState) : (s.setPort p x).curPos = s.curPos := rfl
@[simp] theorem setPort_curScene (s : State) (p : Port) (x : PortState) : (s.setPort p x).curScene = s.curScene := rfl
@[simp] theorem setPort_cue (s : State) (p : Port) (x : PortState) : (s.setPort p x).cue = s.cue := rfl
@[simp] theorem setPort_departure (s : State) (p : Port) (x : PortState) : (s.setPort p x).departure = s.departure := rfl
@[simp] theorem setPort_changeover (s : State) (p : Port) (x : PortState) : (s.setPort p x).changeover = s.changeover := rfl
@[simp] theorem setPort_progMem (s : State) (p : Port) (x : PortState) : (s.setPort p x).progMem = s.progMem := rfl
@[simp] theorem setPort_audition (s : State) (p : Port) (x : PortState) : (s.setPort p x).audition = s.audition := rfl
@[simp] theorem setPort_linkA (s : State) (p : Port) (x : PortState) : (s.setPort p x).linkA = s.linkA := rfl
@[simp] theorem setPort_linkB (s : State) (p : Port) (x : PortState) : (s.setPort p x).linkB = s.linkB := rfl
@[simp] theorem setPort_faultRecord (s : State) (p : Port) (x : PortState) : (s.setPort p x).faultRecord = s.faultRecord := rfl
@[simp] theorem setPort_panicCount (s : State) (p : Port) (x : PortState) : (s.setPort p x).panicCount = s.panicCount := rfl
@[simp] theorem setPort_pending (s : State) (p : Port) (x : PortState) : (s.setPort p x).pending = s.pending := rfl

/-! ### setSlot -/

@[simp] theorem setSlot_now (s : State) (n : SlotNo) (x : Slot) : (s.setSlot n x).now = s.now := rfl
@[simp] theorem setSlot_init (s : State) (n : SlotNo) (x : Slot) : (s.setSlot n x).init = s.init := rfl
@[simp] theorem setSlot_clkin (s : State) (n : SlotNo) (x : Slot) : (s.setSlot n x).clkin = s.clkin := rfl
@[simp] theorem setSlot_inputs (s : State) (n : SlotNo) (x : Slot) : (s.setSlot n x).inputs = s.inputs := rfl
@[simp] theorem setSlot_foots (s : State) (n : SlotNo) (x : Slot) : (s.setSlot n x).foots = s.foots := rfl
@[simp] theorem setSlot_live (s : State) (n : SlotNo) (x : Slot) : (s.setSlot n x).live = s.live := rfl
@[simp] theorem setSlot_liveId (s : State) (n : SlotNo) (x : Slot) : (s.setSlot n x).liveId = s.liveId := rfl
@[simp] theorem setSlot_held (s : State) (n : SlotNo) (x : Slot) : (s.setSlot n x).held = s.held := rfl
@[simp] theorem setSlot_pedals (s : State) (n : SlotNo) (x : Slot) : (s.setSlot n x).pedals = s.pedals := rfl
@[simp] theorem setSlot_stealCount (s : State) (n : SlotNo) (x : Slot) : (s.setSlot n x).stealCount = s.stealCount := rfl
@[simp] theorem setSlot_tempo (s : State) (n : SlotNo) (x : Slot) : (s.setSlot n x).tempo = s.tempo := rfl
@[simp] theorem setSlot_transport (s : State) (n : SlotNo) (x : Slot) : (s.setSlot n x).transport = s.transport := rfl
@[simp] theorem setSlot_click (s : State) (n : SlotNo) (x : Slot) : (s.setSlot n x).click = s.click := rfl
@[simp] theorem setSlot_setlist (s : State) (n : SlotNo) (x : Slot) : (s.setSlot n x).setlist = s.setlist := rfl
@[simp] theorem setSlot_curPos (s : State) (n : SlotNo) (x : Slot) : (s.setSlot n x).curPos = s.curPos := rfl
@[simp] theorem setSlot_curScene (s : State) (n : SlotNo) (x : Slot) : (s.setSlot n x).curScene = s.curScene := rfl
@[simp] theorem setSlot_cue (s : State) (n : SlotNo) (x : Slot) : (s.setSlot n x).cue = s.cue := rfl
@[simp] theorem setSlot_departure (s : State) (n : SlotNo) (x : Slot) : (s.setSlot n x).departure = s.departure := rfl
@[simp] theorem setSlot_changeover (s : State) (n : SlotNo) (x : Slot) : (s.setSlot n x).changeover = s.changeover := rfl
@[simp] theorem setSlot_progMem (s : State) (n : SlotNo) (x : Slot) : (s.setSlot n x).progMem = s.progMem := rfl
@[simp] theorem setSlot_audition (s : State) (n : SlotNo) (x : Slot) : (s.setSlot n x).audition = s.audition := rfl
@[simp] theorem setSlot_ports (s : State) (n : SlotNo) (x : Slot) : (s.setSlot n x).ports = s.ports := rfl
@[simp] theorem setSlot_linkA (s : State) (n : SlotNo) (x : Slot) : (s.setSlot n x).linkA = s.linkA := rfl
@[simp] theorem setSlot_linkB (s : State) (n : SlotNo) (x : Slot) : (s.setSlot n x).linkB = s.linkB := rfl
@[simp] theorem setSlot_faultRecord (s : State) (n : SlotNo) (x : Slot) : (s.setSlot n x).faultRecord = s.faultRecord := rfl
@[simp] theorem setSlot_panicCount (s : State) (n : SlotNo) (x : Slot) : (s.setSlot n x).panicCount = s.panicCount := rfl
@[simp] theorem setSlot_pending (s : State) (n : SlotNo) (x : Slot) : (s.setSlot n x).pending = s.pending := rfl

/-! ### setProgram -/

@[simp] theorem setProgram_now (s : State) (p : Port) (c : Chan) (x : Option ProgramSetting) : (s.setProgram p c x).now = s.now := rfl
@[simp] theorem setProgram_init (s : State) (p : Port) (c : Chan) (x : Option ProgramSetting) : (s.setProgram p c x).init = s.init := rfl
@[simp] theorem setProgram_clkin (s : State) (p : Port) (c : Chan) (x : Option ProgramSetting) : (s.setProgram p c x).clkin = s.clkin := rfl
@[simp] theorem setProgram_inputs (s : State) (p : Port) (c : Chan) (x : Option ProgramSetting) : (s.setProgram p c x).inputs = s.inputs := rfl
@[simp] theorem setProgram_foots (s : State) (p : Port) (c : Chan) (x : Option ProgramSetting) : (s.setProgram p c x).foots = s.foots := rfl
@[simp] theorem setProgram_live (s : State) (p : Port) (c : Chan) (x : Option ProgramSetting) : (s.setProgram p c x).live = s.live := rfl
@[simp] theorem setProgram_liveId (s : State) (p : Port) (c : Chan) (x : Option ProgramSetting) : (s.setProgram p c x).liveId = s.liveId := rfl
@[simp] theorem setProgram_held (s : State) (p : Port) (c : Chan) (x : Option ProgramSetting) : (s.setProgram p c x).held = s.held := rfl
@[simp] theorem setProgram_pedals (s : State) (p : Port) (c : Chan) (x : Option ProgramSetting) : (s.setProgram p c x).pedals = s.pedals := rfl
@[simp] theorem setProgram_stealCount (s : State) (p : Port) (c : Chan) (x : Option ProgramSetting) : (s.setProgram p c x).stealCount = s.stealCount := rfl
@[simp] theorem setProgram_tempo (s : State) (p : Port) (c : Chan) (x : Option ProgramSetting) : (s.setProgram p c x).tempo = s.tempo := rfl
@[simp] theorem setProgram_transport (s : State) (p : Port) (c : Chan) (x : Option ProgramSetting) : (s.setProgram p c x).transport = s.transport := rfl
@[simp] theorem setProgram_click (s : State) (p : Port) (c : Chan) (x : Option ProgramSetting) : (s.setProgram p c x).click = s.click := rfl
@[simp] theorem setProgram_library (s : State) (p : Port) (c : Chan) (x : Option ProgramSetting) : (s.setProgram p c x).library = s.library := rfl
@[simp] theorem setProgram_setlist (s : State) (p : Port) (c : Chan) (x : Option ProgramSetting) : (s.setProgram p c x).setlist = s.setlist := rfl
@[simp] theorem setProgram_curPos (s : State) (p : Port) (c : Chan) (x : Option ProgramSetting) : (s.setProgram p c x).curPos = s.curPos := rfl
@[simp] theorem setProgram_curScene (s : State) (p : Port) (c : Chan) (x : Option ProgramSetting) : (s.setProgram p c x).curScene = s.curScene := rfl
@[simp] theorem setProgram_cue (s : State) (p : Port) (c : Chan) (x : Option ProgramSetting) : (s.setProgram p c x).cue = s.cue := rfl
@[simp] theorem setProgram_departure (s : State) (p : Port) (c : Chan) (x : Option ProgramSetting) : (s.setProgram p c x).departure = s.departure := rfl
@[simp] theorem setProgram_changeover (s : State) (p : Port) (c : Chan) (x : Option ProgramSetting) : (s.setProgram p c x).changeover = s.changeover := rfl
@[simp] theorem setProgram_audition (s : State) (p : Port) (c : Chan) (x : Option ProgramSetting) : (s.setProgram p c x).audition = s.audition := rfl
@[simp] theorem setProgram_ports (s : State) (p : Port) (c : Chan) (x : Option ProgramSetting) : (s.setProgram p c x).ports = s.ports := rfl
@[simp] theorem setProgram_linkA (s : State) (p : Port) (c : Chan) (x : Option ProgramSetting) : (s.setProgram p c x).linkA = s.linkA := rfl
@[simp] theorem setProgram_linkB (s : State) (p : Port) (c : Chan) (x : Option ProgramSetting) : (s.setProgram p c x).linkB = s.linkB := rfl
@[simp] theorem setProgram_faultRecord (s : State) (p : Port) (c : Chan) (x : Option ProgramSetting) : (s.setProgram p c x).faultRecord = s.faultRecord := rfl
@[simp] theorem setProgram_panicCount (s : State) (p : Port) (c : Chan) (x : Option ProgramSetting) : (s.setProgram p c x).panicCount = s.panicCount := rfl
@[simp] theorem setProgram_pending (s : State) (p : Port) (c : Chan) (x : Option ProgramSetting) : (s.setProgram p c x).pending = s.pending := rfl

/-! ### setClickChannel -/

@[simp] theorem setClickChannel_now (s : State) (n : ClickNo) (x : ClickChannel) : (s.setClickChannel n x).now = s.now := rfl
@[simp] theorem setClickChannel_init (s : State) (n : ClickNo) (x : ClickChannel) : (s.setClickChannel n x).init = s.init := rfl
@[simp] theorem setClickChannel_clkin (s : State) (n : ClickNo) (x : ClickChannel) : (s.setClickChannel n x).clkin = s.clkin := rfl
@[simp] theorem setClickChannel_inputs (s : State) (n : ClickNo) (x : ClickChannel) : (s.setClickChannel n x).inputs = s.inputs := rfl
@[simp] theorem setClickChannel_foots (s : State) (n : ClickNo) (x : ClickChannel) : (s.setClickChannel n x).foots = s.foots := rfl
@[simp] theorem setClickChannel_live (s : State) (n : ClickNo) (x : ClickChannel) : (s.setClickChannel n x).live = s.live := rfl
@[simp] theorem setClickChannel_liveId (s : State) (n : ClickNo) (x : ClickChannel) : (s.setClickChannel n x).liveId = s.liveId := rfl
@[simp] theorem setClickChannel_held (s : State) (n : ClickNo) (x : ClickChannel) : (s.setClickChannel n x).held = s.held := rfl
@[simp] theorem setClickChannel_pedals (s : State) (n : ClickNo) (x : ClickChannel) : (s.setClickChannel n x).pedals = s.pedals := rfl
@[simp] theorem setClickChannel_stealCount (s : State) (n : ClickNo) (x : ClickChannel) : (s.setClickChannel n x).stealCount = s.stealCount := rfl
@[simp] theorem setClickChannel_tempo (s : State) (n : ClickNo) (x : ClickChannel) : (s.setClickChannel n x).tempo = s.tempo := rfl
@[simp] theorem setClickChannel_transport (s : State) (n : ClickNo) (x : ClickChannel) : (s.setClickChannel n x).transport = s.transport := rfl
@[simp] theorem setClickChannel_library (s : State) (n : ClickNo) (x : ClickChannel) : (s.setClickChannel n x).library = s.library := rfl
@[simp] theorem setClickChannel_setlist (s : State) (n : ClickNo) (x : ClickChannel) : (s.setClickChannel n x).setlist = s.setlist := rfl
@[simp] theorem setClickChannel_curPos (s : State) (n : ClickNo) (x : ClickChannel) : (s.setClickChannel n x).curPos = s.curPos := rfl
@[simp] theorem setClickChannel_curScene (s : State) (n : ClickNo) (x : ClickChannel) : (s.setClickChannel n x).curScene = s.curScene := rfl
@[simp] theorem setClickChannel_cue (s : State) (n : ClickNo) (x : ClickChannel) : (s.setClickChannel n x).cue = s.cue := rfl
@[simp] theorem setClickChannel_departure (s : State) (n : ClickNo) (x : ClickChannel) : (s.setClickChannel n x).departure = s.departure := rfl
@[simp] theorem setClickChannel_changeover (s : State) (n : ClickNo) (x : ClickChannel) : (s.setClickChannel n x).changeover = s.changeover := rfl
@[simp] theorem setClickChannel_progMem (s : State) (n : ClickNo) (x : ClickChannel) : (s.setClickChannel n x).progMem = s.progMem := rfl
@[simp] theorem setClickChannel_audition (s : State) (n : ClickNo) (x : ClickChannel) : (s.setClickChannel n x).audition = s.audition := rfl
@[simp] theorem setClickChannel_ports (s : State) (n : ClickNo) (x : ClickChannel) : (s.setClickChannel n x).ports = s.ports := rfl
@[simp] theorem setClickChannel_linkA (s : State) (n : ClickNo) (x : ClickChannel) : (s.setClickChannel n x).linkA = s.linkA := rfl
@[simp] theorem setClickChannel_linkB (s : State) (n : ClickNo) (x : ClickChannel) : (s.setClickChannel n x).linkB = s.linkB := rfl
@[simp] theorem setClickChannel_faultRecord (s : State) (n : ClickNo) (x : ClickChannel) : (s.setClickChannel n x).faultRecord = s.faultRecord := rfl
@[simp] theorem setClickChannel_panicCount (s : State) (n : ClickNo) (x : ClickChannel) : (s.setClickChannel n x).panicCount = s.panicCount := rfl
@[simp] theorem setClickChannel_pending (s : State) (n : ClickNo) (x : ClickChannel) : (s.setClickChannel n x).pending = s.pending := rfl

/-! ### setOffs -/

@[simp] theorem setOffs_now (s : State) (x : List ClickOff) : (s.setOffs x).now = s.now := rfl
@[simp] theorem setOffs_init (s : State) (x : List ClickOff) : (s.setOffs x).init = s.init := rfl
@[simp] theorem setOffs_clkin (s : State) (x : List ClickOff) : (s.setOffs x).clkin = s.clkin := rfl
@[simp] theorem setOffs_inputs (s : State) (x : List ClickOff) : (s.setOffs x).inputs = s.inputs := rfl
@[simp] theorem setOffs_foots (s : State) (x : List ClickOff) : (s.setOffs x).foots = s.foots := rfl
@[simp] theorem setOffs_live (s : State) (x : List ClickOff) : (s.setOffs x).live = s.live := rfl
@[simp] theorem setOffs_liveId (s : State) (x : List ClickOff) : (s.setOffs x).liveId = s.liveId := rfl
@[simp] theorem setOffs_held (s : State) (x : List ClickOff) : (s.setOffs x).held = s.held := rfl
@[simp] theorem setOffs_pedals (s : State) (x : List ClickOff) : (s.setOffs x).pedals = s.pedals := rfl
@[simp] theorem setOffs_stealCount (s : State) (x : List ClickOff) : (s.setOffs x).stealCount = s.stealCount := rfl
@[simp] theorem setOffs_tempo (s : State) (x : List ClickOff) : (s.setOffs x).tempo = s.tempo := rfl
@[simp] theorem setOffs_transport (s : State) (x : List ClickOff) : (s.setOffs x).transport = s.transport := rfl
@[simp] theorem setOffs_library (s : State) (x : List ClickOff) : (s.setOffs x).library = s.library := rfl
@[simp] theorem setOffs_setlist (s : State) (x : List ClickOff) : (s.setOffs x).setlist = s.setlist := rfl
@[simp] theorem setOffs_curPos (s : State) (x : List ClickOff) : (s.setOffs x).curPos = s.curPos := rfl
@[simp] theorem setOffs_curScene (s : State) (x : List ClickOff) : (s.setOffs x).curScene = s.curScene := rfl
@[simp] theorem setOffs_cue (s : State) (x : List ClickOff) : (s.setOffs x).cue = s.cue := rfl
@[simp] theorem setOffs_departure (s : State) (x : List ClickOff) : (s.setOffs x).departure = s.departure := rfl
@[simp] theorem setOffs_changeover (s : State) (x : List ClickOff) : (s.setOffs x).changeover = s.changeover := rfl
@[simp] theorem setOffs_progMem (s : State) (x : List ClickOff) : (s.setOffs x).progMem = s.progMem := rfl
@[simp] theorem setOffs_audition (s : State) (x : List ClickOff) : (s.setOffs x).audition = s.audition := rfl
@[simp] theorem setOffs_ports (s : State) (x : List ClickOff) : (s.setOffs x).ports = s.ports := rfl
@[simp] theorem setOffs_linkA (s : State) (x : List ClickOff) : (s.setOffs x).linkA = s.linkA := rfl
@[simp] theorem setOffs_linkB (s : State) (x : List ClickOff) : (s.setOffs x).linkB = s.linkB := rfl
@[simp] theorem setOffs_faultRecord (s : State) (x : List ClickOff) : (s.setOffs x).faultRecord = s.faultRecord := rfl
@[simp] theorem setOffs_panicCount (s : State) (x : List ClickOff) : (s.setOffs x).panicCount = s.panicCount := rfl
@[simp] theorem setOffs_pending (s : State) (x : List ClickOff) : (s.setOffs x).pending = s.pending := rfl

/-! ### reach -/

@[simp] theorem reach_init (s : State) (d : Nat) : (s.reach d).init = s.init := rfl
@[simp] theorem reach_clkin (s : State) (d : Nat) : (s.reach d).clkin = s.clkin := rfl
@[simp] theorem reach_inputs (s : State) (d : Nat) : (s.reach d).inputs = s.inputs := rfl
@[simp] theorem reach_foots (s : State) (d : Nat) : (s.reach d).foots = s.foots := rfl
@[simp] theorem reach_live (s : State) (d : Nat) : (s.reach d).live = s.live := rfl
@[simp] theorem reach_liveId (s : State) (d : Nat) : (s.reach d).liveId = s.liveId := rfl
@[simp] theorem reach_held (s : State) (d : Nat) : (s.reach d).held = s.held := rfl
@[simp] theorem reach_pedals (s : State) (d : Nat) : (s.reach d).pedals = s.pedals := rfl
@[simp] theorem reach_stealCount (s : State) (d : Nat) : (s.reach d).stealCount = s.stealCount := rfl
@[simp] theorem reach_tempo (s : State) (d : Nat) : (s.reach d).tempo = s.tempo := rfl
@[simp] theorem reach_transport (s : State) (d : Nat) : (s.reach d).transport = s.transport := rfl
@[simp] theorem reach_click (s : State) (d : Nat) : (s.reach d).click = s.click := rfl
@[simp] theorem reach_library (s : State) (d : Nat) : (s.reach d).library = s.library := rfl
@[simp] theorem reach_setlist (s : State) (d : Nat) : (s.reach d).setlist = s.setlist := rfl
@[simp] theorem reach_curPos (s : State) (d : Nat) : (s.reach d).curPos = s.curPos := rfl
@[simp] theorem reach_curScene (s : State) (d : Nat) : (s.reach d).curScene = s.curScene := rfl
@[simp] theorem reach_cue (s : State) (d : Nat) : (s.reach d).cue = s.cue := rfl
@[simp] theorem reach_departure (s : State) (d : Nat) : (s.reach d).departure = s.departure := rfl
@[simp] theorem reach_changeover (s : State) (d : Nat) : (s.reach d).changeover = s.changeover := rfl
@[simp] theorem reach_progMem (s : State) (d : Nat) : (s.reach d).progMem = s.progMem := rfl
@[simp] theorem reach_audition (s : State) (d : Nat) : (s.reach d).audition = s.audition := rfl
@[simp] theorem reach_ports (s : State) (d : Nat) : (s.reach d).ports = s.ports := rfl
@[simp] theorem reach_linkA (s : State) (d : Nat) : (s.reach d).linkA = s.linkA := rfl
@[simp] theorem reach_linkB (s : State) (d : Nat) : (s.reach d).linkB = s.linkB := rfl
@[simp] theorem reach_faultRecord (s : State) (d : Nat) : (s.reach d).faultRecord = s.faultRecord := rfl
@[simp] theorem reach_panicCount (s : State) (d : Nat) : (s.reach d).panicCount = s.panicCount := rfl
@[simp] theorem reach_pending (s : State) (d : Nat) : (s.reach d).pending = s.pending := rfl

/-! ### setLink -/

@[simp] theorem setLink_now (s : State) (l : Link) (x : LinkState) : (s.setLink l x).now = s.now := by cases l <;> rfl
@[simp] theorem setLink_init (s : State) (l : Link) (x : LinkState) : (s.setLink l x).init = s.init := by cases l <;> rfl
@[simp] theorem setLink_clkin (s : State) (l : Link) (x : LinkState) : (s.setLink l x).clkin = s.clkin := by cases l <;> rfl
@[simp] theorem setLink_inputs (s : State) (l : Link) (x : LinkState) : (s.setLink l x).inputs = s.inputs := by cases l <;> rfl
@[simp] theorem setLink_foots (s : State) (l : Link) (x : LinkState) : (s.setLink l x).foots = s.foots := by cases l <;> rfl
@[simp] theorem setLink_live (s : State) (l : Link) (x : LinkState) : (s.setLink l x).live = s.live := by cases l <;> rfl
@[simp] theorem setLink_liveId (s : State) (l : Link) (x : LinkState) : (s.setLink l x).liveId = s.liveId := by cases l <;> rfl
@[simp] theorem setLink_held (s : State) (l : Link) (x : LinkState) : (s.setLink l x).held = s.held := by cases l <;> rfl
@[simp] theorem setLink_pedals (s : State) (l : Link) (x : LinkState) : (s.setLink l x).pedals = s.pedals := by cases l <;> rfl
@[simp] theorem setLink_stealCount (s : State) (l : Link) (x : LinkState) : (s.setLink l x).stealCount = s.stealCount := by cases l <;> rfl
@[simp] theorem setLink_tempo (s : State) (l : Link) (x : LinkState) : (s.setLink l x).tempo = s.tempo := by cases l <;> rfl
@[simp] theorem setLink_transport (s : State) (l : Link) (x : LinkState) : (s.setLink l x).transport = s.transport := by cases l <;> rfl
@[simp] theorem setLink_click (s : State) (l : Link) (x : LinkState) : (s.setLink l x).click = s.click := by cases l <;> rfl
@[simp] theorem setLink_library (s : State) (l : Link) (x : LinkState) : (s.setLink l x).library = s.library := by cases l <;> rfl
@[simp] theorem setLink_setlist (s : State) (l : Link) (x : LinkState) : (s.setLink l x).setlist = s.setlist := by cases l <;> rfl
@[simp] theorem setLink_curPos (s : State) (l : Link) (x : LinkState) : (s.setLink l x).curPos = s.curPos := by cases l <;> rfl
@[simp] theorem setLink_curScene (s : State) (l : Link) (x : LinkState) : (s.setLink l x).curScene = s.curScene := by cases l <;> rfl
@[simp] theorem setLink_cue (s : State) (l : Link) (x : LinkState) : (s.setLink l x).cue = s.cue := by cases l <;> rfl
@[simp] theorem setLink_departure (s : State) (l : Link) (x : LinkState) : (s.setLink l x).departure = s.departure := by cases l <;> rfl
@[simp] theorem setLink_changeover (s : State) (l : Link) (x : LinkState) : (s.setLink l x).changeover = s.changeover := by cases l <;> rfl
@[simp] theorem setLink_progMem (s : State) (l : Link) (x : LinkState) : (s.setLink l x).progMem = s.progMem := by cases l <;> rfl
@[simp] theorem setLink_audition (s : State) (l : Link) (x : LinkState) : (s.setLink l x).audition = s.audition := by cases l <;> rfl
@[simp] theorem setLink_ports (s : State) (l : Link) (x : LinkState) : (s.setLink l x).ports = s.ports := by cases l <;> rfl
@[simp] theorem setLink_faultRecord (s : State) (l : Link) (x : LinkState) : (s.setLink l x).faultRecord = s.faultRecord := by cases l <;> rfl
@[simp] theorem setLink_panicCount (s : State) (l : Link) (x : LinkState) : (s.setLink l x).panicCount = s.panicCount := by cases l <;> rfl
@[simp] theorem setLink_pending (s : State) (l : Link) (x : LinkState) : (s.setLink l x).pending = s.pending := by cases l <;> rfl

/-! ### Reading what was written -/

@[simp] theorem input_setInput (s : State) (i : Input) (x : InputState) : (s.setInput i x).input i = x := by
  simp [State.input, State.setInput]

theorem input_setInput_ne (s : State) (i j : Input) (x : InputState) (h : j ≠ i) : (s.setInput i x).input j = s.input j := by
  have h' : i.val ≠ j.val := fun e => h (Fin.ext e.symm)
  simp [State.input, State.setInput, h']

@[simp] theorem foot_setFoot (s : State) (i : FootLine) (x : FootState) : (s.setFoot i x).foot i = x := by
  simp [State.foot, State.setFoot]

theorem foot_setFoot_ne (s : State) (i j : FootLine) (x : FootState) (h : j ≠ i) : (s.setFoot i x).foot j = s.foot j := by
  have h' : i.val ≠ j.val := fun e => h (Fin.ext e.symm)
  simp [State.foot, State.setFoot, h']

@[simp] theorem port_setPort (s : State) (i : Port) (x : PortState) : (s.setPort i x).port i = x := by
  simp [State.port, State.setPort]

theorem port_setPort_ne (s : State) (i j : Port) (x : PortState) (h : j ≠ i) : (s.setPort i x).port j = s.port j := by
  have h' : i.val ≠ j.val := fun e => h (Fin.ext e.symm)
  simp [State.port, State.setPort, h']

@[simp] theorem slot_setSlot (s : State) (i : SlotNo) (x : Slot) : (s.setSlot i x).slot i = x := by
  simp [State.slot, State.setSlot]

theorem slot_setSlot_ne (s : State) (i j : SlotNo) (x : Slot) (h : j ≠ i) : (s.setSlot i x).slot j = s.slot j := by
  have h' : i.val ≠ j.val := fun e => h (Fin.ext e.symm)
  simp [State.slot, State.setSlot, h']

@[simp] theorem link_setLink (s : State) (l : Link) (x : LinkState) : (s.setLink l x).link l = x := by cases l <;> rfl

theorem link_setLink_ne (s : State) (l m : Link) (x : LinkState) (h : m ≠ l) : (s.setLink l x).link m = s.link m := by
  cases l <;> cases m <;> first | rfl | exact absurd rfl h

@[simp] theorem setOffs_channels (s : State) (x : List ClickOff) : (s.setOffs x).click.channels = s.click.channels := rfl

@[simp] theorem setOffs_offs (s : State) (x : List ClickOff) : (s.setOffs x).click.offs = x := rfl

@[simp] theorem setClickChannel_offs (s : State) (n : ClickNo) (x : ClickChannel) :
    (s.setClickChannel n x).click.offs = s.click.offs := rfl

@[simp] theorem clickChannel_setClickChannel (s : State) (n : ClickNo) (x : ClickChannel) :
    (s.setClickChannel n x).clickChannel n = x := by simp [State.clickChannel, State.setClickChannel]

@[simp] theorem reach_now (s : State) (d : Nat) : (s.reach d).now = max s.now d := rfl

@[simp] theorem setInput_link (s : State) (i : Input) (x : InputState) (l : Link) : (s.setInput i x).link l = s.link l := by
  cases l <;> rfl

@[simp] theorem setPort_link (s : State) (p : Port) (x : PortState) (l : Link) : (s.setPort p x).link l = s.link l := by
  cases l <;> rfl

end Sys2Proof.Laws
end

