-- ==== Sys2Proof/Laws/Closure.lean ====
section
/-! SUPPORT. Which fields each operation can touch. A property of states that no write to those fields disturbs survives the
operation: with P s := (s.f = c) this says that the field f is left alone, with P an invariant that it is kept. -/

namespace Sys2Proof.Laws

open Sys2Proof.Machine

/-! ### What a property does not depend on -/

/-- A fold keeps what each of its steps keeps. -/
theorem foldl_closed {α : Type} {P : State → Prop} {f : State → α → State} (h : ∀ s x, P s → P (f s x)) :
    ∀ (xs : List α) (s : State), P s → P (xs.foldl f s)
  | [], _, hs => hs
  | x :: xs, s, hs => foldl_closed h xs (f s x) (h s x hs)

/-- A change of one port that keeps it safe does not disturb a property. -/
abbrev PortFree (P : State → Prop) : Prop :=
  ∀ s p x, (PortOk (s.port p) → PortOk x) → P s → P (s.setPort p x)

/-- A change of the transport record that keeps it at rest while STOPPED does not disturb a property. -/
abbrev TransportFree (P : State → Prop) : Prop :=
  ∀ s x, (AtRest s.transport → AtRest x) → P s → P { s with transport := x }

/-- The sources of some entries. -/
abbrev sources (held : List HeldEntry) : List Source := held.map (fun e => e.source)

/-- Lane entries, the reports they cause, the notices, and entries of the held-note table that change or leave do not disturb a
property (R171 to R174, R186, R191). -/
structure OutFree (P : State → Prop) : Prop where
  offered : ∀ l n s, P s → P (raiseOn l n s)
  port : PortFree P
  held : ∀ s x, (sources x).Sublist (sources s.held) → P s → P { s with held := x }
  fault : ∀ s x, P s → P { s with faultRecord := x }

/-- Nor does what the note table and the router write (chapters 1 and 2). -/
structure NoteFree (P : State → Prop) : Prop extends OutFree P where
  create : ∀ s src n ts, P s → P (createEntry src n ts (makeRoom src.input (releaseEntry src Config.offVelocity s)))
  pedals : ∀ s x, P s → P { s with pedals := x }
  steals : ∀ s x, P s → P { s with stealCount := x }
  inputs : ∀ s x, P s → P { s with inputs := x }

/-- Nor does what the start of a step, beat or downbeat writes (R88 to R90): the transport keeps its mode there, which is not
STOPPED. -/
structure BeatFree (P : State → Prop) : Prop where
  offered : ∀ l n s, P s → P (raiseOn l n s)
  port : PortFree P
  tempo : ∀ s x, P s → P { s with tempo := x }
  sameMode : ∀ s x, s.transport.mode ≠ .stopped → x.mode = s.transport.mode → P s → P { s with transport := x }
  click : ∀ s x, P s → P { s with click := x }

/-- A record is gone, or it is the record that stood with another port list. -/
abbrev SameRecord (o x : Option Changeover) : Prop := ∀ r', x = some r' → ∃ r, o = some r ∧ r' = { r with ports := r'.ports }

/-- What the reports to the changeover record write does not disturb a property (R143 to R145). -/
structure RecordFree (P : State → Prop) : Prop where
  offered : ∀ l n s, P s → P (raiseOn l n s)
  changeover : ∀ s x, SameRecord s.changeover x → P s → P { s with changeover := x }

/-- What the sending of a trigger's programs writes does not disturb a property (R142). -/
structure SendFree (P : State → Prop) : Prop extends OutFree P where
  changeover : ∀ s x, SameRecord s.changeover x → P s → P { s with changeover := x }
  progMem : ∀ s x, P s → P { s with progMem := x }

/-- Nor does what a trigger and the handling after it write (chapter 8). -/
structure TriggerFree (P : State → Prop) : Prop extends NoteFree P where
  tempo : ∀ s x, P s → P { s with tempo := x }
  transport : TransportFree P
  click : ∀ s x, P s → P { s with click := x }
  live : ∀ s x y, P s → P { s with live := x, liveId := y }
  selection : ∀ s x y, P s → P { s with curPos := x, curScene := y }
  changeover : ∀ s x, P s → P { s with changeover := x }
  progMem : ∀ s x, P s → P { s with progMem := x }
  audition : ∀ s x, P s → P { s with audition := x }

/-- A change as R125 resolves it: its position names its slot, which is READY; its scene is the first one, one the song has, or the
one before a scene that is current or cued there; and it is of kind SCENE exactly when its position is the current one. -/
structure Resolves (s : State) (c : Change) : Prop where
  names : s.setlist[c.position]? = some c.slot
  ready : ∃ g, s.slot c.slot = .ready g
  scene : c.scene = 0 ∨ c.scene < s.scenesAt c.position ∨
    (s.curPos = some c.position ∧ s.curScene = some (c.scene + 1)) ∨
    ∃ x, s.cue = some x ∧ x.position = c.position ∧ x.scene = c.scene + 1
  kind : c.kind = s.kindOf c.position

/-- A trigger goes to a scene of the current song. -/
structure Stays (s : State) (t : Trigger) : Prop where
  position : s.curPos = some t.position
  slot : s.currentSlot = some t.slot

/-- Nor do the whole actions of the cue arbiter and the transport: a run in progress, a change that enters the slot or leaves it,
a trigger, a stop, an audition and SOFT_RESET (chapters 5 and 7). -/
structure CueFree (P : State → Prop) : Prop extends NoteFree P, BeatFree P where
  run : ∀ s x, x.mode ≠ .stopped → P s → P { s with transport := x }
  enter : ∀ s c, s.transport.mode ≠ .stopped → Resolves s c → P s → P { s with cue := some c }
  cancel : ∀ s, P s → P { s with cue := none, departure := none }
  trigger : ∀ c s, s.cue = some c ∨ Resolves s c → P s → P (triggerCue c s).1
  stop : ∀ c o s, P s → P (stopBy c o s)
  scene : ∀ t s, t.kind = .scene → Stays s t → P s → P (takeTrigger t s).1
  audition : ∀ s x, P s → P { s with audition := x }
  changeover : ∀ s x, SameRecord s.changeover x → P s → P { s with changeover := x }
  soft : ∀ s, P s → P (softResetAll s)

theorem SendFree.record {P : State → Prop} (h : SendFree P) : RecordFree P :=
  { offered := h.offered, changeover := h.changeover }

theorem TriggerFree.send {P : State → Prop} (h : TriggerFree P) : SendFree P :=
  { toOutFree := h.toOutFree, changeover := fun s x _ hs => h.changeover s x hs, progMem := h.progMem }

theorem TriggerFree.record {P : State → Prop} (h : TriggerFree P) : RecordFree P := h.send.record

theorem CueFree.record {P : State → Prop} (h : CueFree P) : RecordFree P :=
  { offered := h.offered, changeover := h.changeover }

theorem atRest_of_ne {t : TransportState} (h : t.mode ≠ .stopped) : AtRest t := fun hm => absurd hm h

theorem TriggerFree.beat {P : State → Prop} (h : TriggerFree P) : BeatFree P :=
  { offered := h.offered, port := h.port, tempo := h.tempo, sameMode := fun s x hm hx => h.transport s x (fun _ => atRest_of_ne (hx ▸ hm)),
    click := h.click }

theorem CueFree.beat {P : State → Prop} (h : CueFree P) : BeatFree P := h.toBeatFree

/-! ### Small facts -/

theorem sameRecord_none (o : Option Changeover) : SameRecord o none := fun _ h => nomatch h

theorem sameRecord_ports {o : Option Changeover} {r : Changeover} (h : o = some r) (x : List PortEntry) :
    SameRecord o (some { r with ports := x }) := by
  intro r' hr
  obtain rfl := Option.some.inj hr
  exact ⟨r, h, rfl⟩

theorem sublist_of_eq {α : Type} {xs ys : List α} (h : xs = ys) : xs.Sublist ys := h ▸ List.Sublist.refl _

theorem sources_map (f : HeldEntry → HeldEntry) (hf : ∀ e, (f e).source = e.source) (xs : List HeldEntry) :
    sources (xs.map f) = sources xs := by
  unfold sources
  rw [List.map_map]
  exact List.map_congr_left (fun e _ => hf e)

theorem sources_modifyLast (q : HeldEntry → Bool) (f : HeldEntry → HeldEntry) (hf : ∀ e, (f e).source = e.source) :
    ∀ xs, sources (modifyLast q f xs) = sources xs
  | [] => rfl
  | x :: xs => by
    unfold modifyLast
    split
    · simp only [sources, List.map_cons, List.cons.injEq, true_and]
      exact sources_modifyLast q f hf xs
    · split
      · simp [sources, hf x]
      · rfl

theorem sources_filter (q : HeldEntry → Bool) (xs : List HeldEntry) : (sources (xs.filter q)).Sublist (sources xs) :=
  List.filter_sublist.map _

theorem atRest_atStart (m : TransportMode) (g : Segment) : AtRest (TransportState.atStart m g) :=
  fun _ => ⟨rfl, rfl, rfl, rfl, rfl, rfl⟩

theorem atRest_reposition (k : Cont) (s : State) : AtRest (repositionRecord k s) := by
  cases k
  · exact atRest_atStart _ _
  · exact atRest_atStart _ _
  · exact atRest_of_ne (by simp [repositionRecord, TransportState.atStart])
  · exact atRest_atStart _ _

theorem runsGrid_ne {m : TransportMode} (h : m.runsGrid = true) : m ≠ .stopped := by
  cases m <;> simp_all [TransportMode.runsGrid]

section
variable {P : State → Prop}

/-! ### Notices and faults -/

theorem raise_closed (h : ∀ l n s, P s → P (raiseOn l n s)) (n : Notice) {s : State} (hs : P s) : P (raise n s) :=
  h _ _ _ (h _ _ _ hs)

theorem takeFault_closed (h : OutFree P) (c : FaultClass) (x : FaultSource) {s : State} (hs : P s) :
    P (takeFault c x s) := raise_closed h.offered _ (h.fault _ _ hs)

/-! ### Lanes -/

theorem withdraw_closed (h : OutFree P) (t : Triple) {s : State} (hs : P s) : P (withdraw t s) :=
  h.held _ _ (sublist_of_eq (sources_modifyLast _ (fun e => e.setSent _ _) (fun _ => rfl) _)) hs

/-- What became of an offered entry, reported, does not disturb such a property (R171, R172). -/
theorem reportOffer_closed (h : OutFree P) (p : Port) (o : Offered) {s : State} (ho : PortOk (s.port p) → PortOk o.port)
    (hs : P s) : P (reportOffer p o s) := by
  have h1 : P (withdrawOn p o.withdrawn (s.setPort p o.port)) := by
    unfold withdrawOn
    split
    · exact h.port _ _ _ ho hs
    · exact withdraw_closed h _ (h.port _ _ _ ho hs)
  unfold reportOffer overflowFault
  split
  · exact takeFault_closed h _ _ h1
  · exact h1

/-- An entry that may join the lane, offered, does not disturb such a property (R171). -/
theorem offerJoins_closed (h : OutFree P) (p : Port) (e : NoteEntry) {s : State} (he : Joins e (s.port p).noteLane)
    (hs : P s) : P (offerNote p e s) := reportOffer_closed h p _ (offer_ok s.now he) hs

/-- An entry other than a PROGRAM entry may join any lane. -/
theorem offerNote_closed (h : OutFree P) (p : Port) (e : NoteEntry) (he : e.isProgram = false) {s : State} (hs : P s) :
    P (offerNote p e s) := offerJoins_closed h p e (joins_of he _) hs

/-! ### Note table -/

theorem releaseTarget_closed (h : OutFree P) (src : Source) (v : Nat) (t : Triple) {s : State} (hs : P s) :
    P (releaseTarget src v t s) := by
  have h1 : P { s with held := s.held.map (fun e => if e.source = src then e.drop t else e) } :=
    h.held _ _ (sublist_of_eq (sources_map _ (fun e => by split <;> rfl) _)) hs
  unfold releaseTarget
  dsimp only
  split
  · split
    · exact offerNote_closed h _ _ rfl h1
    · exact h1
  · split
    · refine h.held _ _ ?_ h1
      exact sublist_of_eq (sources_modifyLast _ (fun e => e.setSent _ _) (fun _ => rfl) _)
    · exact h1

theorem releaseTargets_closed (h : OutFree P) (src : Source) (v : Nat) (ts : List Triple) {s : State} (hs : P s) :
    P (releaseTargets src v ts s) := foldl_closed (fun _ _ hs => releaseTarget_closed h _ _ _ hs) _ _ hs

theorem releaseEntry_closed (h : OutFree P) (src : Source) (v : Nat) {s : State} (hs : P s) :
    P (releaseEntry src v s) := by
  unfold releaseEntry
  split
  · exact hs
  · exact h.held _ _ (sources_filter _ _) (releaseTargets_closed h _ _ _ hs)

theorem releaseEntries_closed (h : OutFree P) (srcs : List Source) {s : State} (hs : P s) :
    P (releaseEntries srcs s) := foldl_closed (fun _ _ hs => releaseEntry_closed h _ _ hs) _ _ hs

theorem steal_closed (h : OutFree P) (hc : ∀ s x, P s → P { s with stealCount := x }) (i : Input) {s : State}
    (hs : P s) : P (steal i s) := by
  unfold steal
  split
  · exact hs
  · exact takeFault_closed h _ _ (raise_closed h.offered _ (hc _ _ (releaseEntry_closed h _ _ hs)))

theorem makeRoom_closed (h : OutFree P) (hc : ∀ s x, P s → P { s with stealCount := x }) (i : Input) {s : State}
    (hs : P s) : P (makeRoom i s) := by
  unfold makeRoom
  split
  · exact steal_closed h hc _ hs
  · exact hs

/-- A property that no write to the held-note table disturbs. -/
theorem NoteFree.ofHeld (h : OutFree P) (hh : ∀ s x, P s → P { s with held := x })
    (hp : ∀ s x, P s → P { s with pedals := x }) (hc : ∀ s x, P s → P { s with stealCount := x })
    (hi : ∀ s x, P s → P { s with inputs := x }) : NoteFree P :=
  { toOutFree := h
    create := fun _ _ _ _ hs => hh _ _ (makeRoom_closed h hc _ (releaseEntry_closed h _ _ hs))
    pedals := hp, steals := hc, inputs := hi }

theorem claim_closed (h : OutFree P) (src : Source) (x : HeldTarget) {s : State} (hs : P s) : P (claim src x s) := by
  have h1 : P (if soundingIn (s.held.filter (fun e => decide (e.source ≠ src))) x.triple then
      offerNote x.triple.port (.noteOff x.triple.chan x.triple.key Config.offVelocity) s else s) := by
    split
    · exact offerNote_closed h _ _ rfl hs
    · exact hs
  have key : ∀ s1, P s1 →
      P (if acceptsNote x.triple.port (.noteOn x.triple.chan x.triple.key x.velocity) s1 then
          { offerNote x.triple.port (.noteOn x.triple.chan x.triple.key x.velocity) s1 with
            held := (offerNote x.triple.port (.noteOn x.triple.chan x.triple.key x.velocity) s1).held.map
              (fun e => if e.source = src then e.setSent x.triple true else e) }
        else offerNote x.triple.port (.noteOn x.triple.chan x.triple.key x.velocity) s1) := by
    intro s1 h1
    split
    · refine h.held _ _ ?_ (offerNote_closed h _ _ rfl h1)
      exact sublist_of_eq (sources_map _ (fun e => by split <;> rfl) _)
    · exact offerNote_closed h _ _ rfl h1
  exact key _ h1

theorem recordNoteOn_closed (h : NoteFree P) (src : Source) (n : Nat) (ts : List HeldTarget) {s : State} (hs : P s) :
    P (recordNoteOn src n ts s) := by
  unfold recordNoteOn
  exact foldl_closed (fun _ _ hs => claim_closed h.toOutFree _ _ hs) _ _ (h.create _ _ _ _ hs)

theorem noteOn_closed (h : NoteFree P) (i : Input) (c : Chan) (k v : Nat) {s : State} (hs : P s) :
    P (noteOn i c k v s) := by
  unfold noteOn countSkips
  dsimp only
  split
  · exact h.inputs _ _ hs
  · exact recordNoteOn_closed h _ _ _ (h.inputs _ _ hs)

theorem noteOffPedalled_closed (h : OutFree P) (src : Source) (v : Nat) (e : HeldEntry) {s : State} (hs : P s) :
    P (noteOffPedalled src v e s) := by
  unfold noteOffPedalled
  dsimp only
  split
  · exact h.held _ _ (sources_filter _ _) (releaseTargets_closed h _ _ _ hs)
  · refine h.held _ _ ?_ (releaseTargets_closed h _ _ _ hs)
    exact sublist_of_eq (sources_map _ (fun e => by split <;> rfl) _)

theorem noteOff_closed (h : NoteFree P) (i : Input) (c : Chan) (k v : Nat) {s : State} (hs : P s) :
    P (noteOff i c k v s) := by
  unfold noteOff countOrphan
  dsimp only
  split
  · exact h.inputs _ _ hs
  · split
    · exact hs
    · split
      · exact noteOffPedalled_closed h.toOutFree _ _ _ hs
      · exact releaseEntry_closed h.toOutFree _ _ hs

theorem polyPressure_closed (h : OutFree P) (i : Input) (c : Chan) (k v : Nat) {s : State} (hs : P s) :
    P (polyPressure i c k v s) := by
  unfold polyPressure
  split
  · exact hs
  · refine foldl_closed (fun s t hs => ?_) _ _ hs
    unfold pressTarget
    split
    · exact offerNote_closed h _ _ rfl hs
    · exact hs

theorem sendPedals_closed (h : OutFree P) (d : Bool) (ds : List (Port × Chan)) {s : State} (hs : P s) :
    P (sendPedals d ds s) := foldl_closed (fun _ _ hs => offerNote_closed h _ _ rfl hs) _ _ hs

theorem pedalDown_closed (h : NoteFree P) (i : Input) (c : Chan) {s : State} (hs : P s) : P (pedalDown i c s) :=
  sendPedals_closed h.toOutFree _ _ (h.pedals _ _ hs)

theorem pedalUp_closed (h : NoteFree P) (i : Input) (c : Chan) {s : State} (hs : P s) : P (pedalUp i c s) :=
  h.pedals _ _ (releaseEntries_closed h.toOutFree _ (h.pedals _ _ (sendPedals_closed h.toOutFree _ _ hs)))

theorem askPedal_closed (h : NoteFree P) (i : Input) (c : Chan) (d : Bool) {s : State} (hs : P s) :
    P (askPedal i c d s) := by
  unfold askPedal
  repeat' split
  · exact hs
  · exact pedalDown_closed h _ _ hs
  · exact pedalUp_closed h _ _ hs

theorem pedalCarry_closed (h : NoteFree P) {s : State} (hs : P s) : P (pedalCarry s) := by
  refine foldl_closed (fun s x hs => ?_) _ _ hs
  unfold carryPedal
  dsimp only
  split
  · exact sendPedals_closed h.toOutFree _ _ (h.pedals _ _ hs)
  · exact hs

theorem loseInput_closed (h : NoteFree P) (i : Input) {s : State} (hs : P s) : P (loseInput i s) := by
  refine foldl_closed (fun s x hs => ?_) _ _ (releaseEntries_closed h.toOutFree _ hs)
  split
  · exact pedalUp_closed h _ _ hs
  · exact hs

theorem emptyNoteTable_closed (h : NoteFree P) {s : State} (hs : P s) : P (emptyNoteTable s) :=
  h.pedals { s with held := [] } _ (h.held s [] (List.nil_sublist _) hs)

theorem routeControl_closed (h : PortFree P) (i : Input) (c : Chan) (k : MergeKind) (v : Nat)
    {s : State} (hs : P s) : P (routeControl i c k v s) := foldl_closed (fun _ _ hs => h _ _ _ (place_ok _ _ _) hs) _ _ hs

/-! ### Click, tempo and the starts of steps -/

theorem offerOff_closed (h : BeatFree P) (r : ClickOff) {s : State} (hs : P s) : P (offerOff r s) := by
  unfold offerOff
  split
  · rename_i room
    exact h.click _ _ (h.port _ _ _ (enqueueClick_ok _ room) hs)
  · exact h.click _ _ hs

theorem soundClick_closed (h : BeatFree P) (c : ClickChannel) (k : ClickPosition) {s : State} (hs : P s) :
    P (soundClick c k s) := by
  have h1 : P (cutShort c.port c.chan (c.note k) s) := by
    unfold cutShort
    split
    · exact offerOff_closed h _ hs
    · exact hs
  unfold soundClick enqueueOn
  split
  · rename_i room
    exact h.click _ _ (h.port _ _ _ (enqueueClick_ok _ room) h1)
  · exact h.port _ _ _ (fun q => ⟨q.realtime, q.click, q.note, q.merge, q.grants, q.sweeps, q.programs⟩) h1

theorem clickStep_closed (h : BeatFree P) {s : State} (hs : P s) : P (clickStep s) := by
  refine foldl_closed (fun s n hs => ?_) _ _ hs
  unfold clickChannelStep
  split
  · exact soundClick_closed h _ _ hs
  · exact hs

theorem raiseTempo_closed (h : ∀ l n s, P s → P (raiseOn l n s)) (b : Bool) {s : State} (hs : P s) :
    P (raiseTempo b s) := by
  unfold raiseTempo
  split
  · exact raise_closed h _ hs
  · exact hs

theorem evaluateBeat_closed (h : BeatFree P) (d : Bool) {s : State} (hs : P s) : P (evaluateBeat d s) :=
  raiseTempo_closed h.offered _ (h.tempo _ _ (h.tempo _ _ hs))

theorem sendClock_closed (h : PortFree P) (bs : List RealTime) {s : State} (hs : P s) :
    P (sendClock bs s) := by
  refine foldl_closed (fun s p hs => ?_) _ _ hs
  unfold clockPort
  split
  · exact h _ _ _ (offerRealtimes_ok _) hs
  · exact hs

theorem raiseOn_transport (l : Link) (n : Notice) (s : State) : (raiseOn l n s).transport = s.transport := by
  unfold raiseOn
  split
  · rfl
  · cases l <;> rfl

/-- A property together with the mode of the transport. -/
theorem BeatFree.inMode (h : BeatFree P) (m : TransportMode) : BeatFree (fun s => P s ∧ s.transport.mode = m) :=
  { offered := fun l n s hs => ⟨h.offered l n s hs.1, (congrArg _ (raiseOn_transport l n s)).trans hs.2⟩
    port := fun s p x hx hs => ⟨h.port s p x hx hs.1, hs.2⟩
    tempo := fun s x hs => ⟨h.tempo s x hs.1, hs.2⟩
    sameMode := fun s x hm hx hs => ⟨h.sameMode s x hm hx hs.1, hx.trans hs.2⟩
    click := fun s x hs => ⟨h.click s x hs.1, hs.2⟩ }

theorem beginStep_closed (h : BeatFree P) {s : State} (hm : s.transport.mode ≠ .stopped) (hs : P s) : P (beginStep s) :=
  h.sameMode { s with tempo := { s.tempo with acc := (stepDuration s.tempo.current s.tempo.acc).2 } } _ hm rfl (h.tempo s _ hs)

/-- What leaves the mode as it is may stand before the start of a step. -/
theorem beginStep_after (h : BeatFree P) {m : TransportMode} (hm : m ≠ .stopped) {s : State}
    (hs : P s ∧ s.transport.mode = m) : P (beginStep s) := beginStep_closed h (hs.2 ▸ hm) hs.1

theorem takeMeter_closed (h : BeatFree P) {m : TransportMode} (hm : m ≠ .stopped) {s : State}
    (hs : P s ∧ s.transport.mode = m) : P (takeMeter s) ∧ (takeMeter s).transport.mode = m :=
  ⟨h.sameMode _ _ (hs.2 ▸ hm) rfl hs.1, hs.2⟩

theorem runningDownbeat_closed (h : BeatFree P) (b : Option RealTime) {s : State} (hm : s.transport.mode ≠ .stopped)
    (hs : P s) : P (runningDownbeat b s) := by
  have k := h.inMode s.transport.mode
  exact beginStep_after h hm (raise_closed k.offered _ (raise_closed k.offered _ (sendClock_closed k.port _
    (clickStep_closed k (takeMeter_closed h hm (evaluateBeat_closed k _ ⟨hs, rfl⟩))))))

theorem runningBeat_closed (h : BeatFree P) {s : State} (hm : s.transport.mode ≠ .stopped) (hs : P s) :
    P (runningBeat s) := by
  have k := h.inMode s.transport.mode
  exact beginStep_after h hm (raise_closed k.offered _ (sendClock_closed k.port _
    (clickStep_closed k (evaluateBeat_closed k _ ⟨hs, rfl⟩))))

theorem countInDownbeat_closed (h : BeatFree P) {s : State} (hm : s.transport.mode ≠ .stopped) (hs : P s) :
    P (countInDownbeat s) := by
  have k := h.inMode s.transport.mode
  exact beginStep_after h hm (clickStep_closed k (takeMeter_closed h hm (evaluateBeat_closed k _ ⟨hs, rfl⟩)))

theorem countInBeat_closed (h : BeatFree P) {s : State} (hm : s.transport.mode ≠ .stopped) (hs : P s) :
    P (countInBeat s) := by
  have k := h.inMode s.transport.mode
  exact beginStep_after h hm (clickStep_closed k (evaluateBeat_closed k _ ⟨hs, rfl⟩))

theorem plainStep_closed (h : BeatFree P) {s : State} (hm : s.transport.mode ≠ .stopped) (hs : P s) : P (plainStep s) := by
  have k := h.inMode s.transport.mode
  unfold plainStep
  dsimp only
  refine beginStep_after h hm ?_
  split
  · exact sendClock_closed k.port _ (clickStep_closed k ⟨hs, rfl⟩)
  · exact clickStep_closed k ⟨hs, rfl⟩

/-- A continuation fits the state it goes on from: what begins a step runs (R92). -/
abbrev Cont.Fits (k : Cont) (s : State) : Prop := k = .restart ∨ k = .countIn → s.transport.mode ≠ .stopped

theorem continueAfter_closed (h : BeatFree P) (k : Cont) {s : State} (hk : Cont.Fits k s) (hs : P s) :
    P (continueAfter k s) := by
  cases k
  · exact hs
  · exact runningDownbeat_closed h _ (hk (.inl rfl)) hs
  · exact countInDownbeat_closed h (hk (.inr rfl)) hs
  · exact hs

theorem takeTempo_closed (h : BeatFree P) (v : StagedValue) (d : StagedDue) {s : State} (hs : P s) :
    P (takeTempo v d s) := by
  unfold takeTempo
  dsimp only
  split
  · exact raiseTempo_closed h.offered _ (h.tempo _ _ (h.tempo _ _ hs))
  · exact raiseTempo_closed h.offered _ (h.tempo _ _ hs)

theorem takeTap_closed (h : BeatFree P) {s : State} (hs : P s) : P (takeTap s) := by
  unfold takeTap
  dsimp only
  repeat' split
  · exact h.tempo _ _ hs
  · exact hs
  · exact takeTempo_closed h _ _ (h.tempo _ _ hs)
  · exact h.tempo _ _ hs

theorem clearTempo_closed (h : BeatFree P) {s : State} (hs : P s) : P (clearTempo s) :=
  raiseTempo_closed h.offered _ (h.tempo _ _ (h.tempo _ _ hs))

theorem stopByteFrom_closed (h : PortFree P) (m : TransportMode) {s : State} (hs : P s) :
    P (stopByteFrom m s) := by
  unfold stopByteFrom
  split
  · exact sendClock_closed h _ hs
  · exact hs

theorem reposition_closed (h : TriggerFree P) {s : State} (hs : P s) : P (reposition s).1 := by
  unfold reposition
  split
  · exact h.transport _ _ (fun _ => atRest_atStart _ _) hs
  · dsimp only
    refine raise_closed h.offered _ ?_
    have h1 : P (stopByteFor (songCont s.currentSong) s.transport.mode
        { s with transport := repositionRecord (songCont s.currentSong) s }) := by
      unfold stopByteFor
      split
      · exact h.transport _ _ (fun _ => atRest_reposition _ _) hs
      · exact stopByteFrom_closed h.port _ (h.transport _ _ (fun _ => atRest_reposition _ _) hs)
    unfold clearFor
    split
    · exact h.tempo _ _ h1
    · exact h.tempo _ _ h1
    · exact h1

/-! ### Changeover and cue -/

theorem completeIfDone_closed (h : RecordFree P) {s : State} (hs : P s) : P (completeIfDone s) := by
  unfold completeIfDone
  split
  · exact hs
  · split
    · exact h.changeover _ _ (sameRecord_none _) (raise_closed h.offered _ hs)
    · exact hs

theorem reportSettleEnd_closed (h : RecordFree P) (p : Port) {s : State} (hs : P s) : P (reportSettleEnd p s) := by
  unfold reportSettleEnd
  split
  · exact hs
  · rename_i hr
    split
    · exact completeIfDone_closed h (h.changeover _ _ (sameRecord_ports hr _) hs)
    · exact hs

theorem reportTransmitted_closed (h : RecordFree P) (p : Port) (b : Bool) {s : State} (hs : P s) :
    P (reportTransmitted p b s) := by
  unfold reportTransmitted
  split
  · exact hs
  · rename_i hr
    split
    · exact completeIfDone_closed h (h.changeover _ _ (sameRecord_ports hr _) hs)
    · exact hs

/-- A withdrawal of the PROGRAM entry of a channel leaves a safe port (R142, R173). -/
theorem withdrawn_ok {q : PortState} {c : Chan} (hc : q.noteLane.any (NoteEntry.isProgramOn c) = true) (h : PortOk q) :
    PortOk ({ q with noteLane := q.noteLane.filter (fun e => !e.isProgramOn c) } : PortState).lose := by
  refine lose_ok h.realtime h.click ?_ h.merge h.grants h.sweeps
    (h.programs.sublist (List.Sublist.map _ (List.Sublist.filter _ List.filter_sublist)))
  obtain ⟨e, he, hp⟩ := List.any_eq_true.1 hc
  exact h.note.imp_left (Nat.le_trans (List.length_filter_lt_length_iff_exists.2 ⟨e, he, by simp [hp]⟩))

theorem withdrawProgram_closed (h : SendFree P) (p : Port) (c : Chan) {s : State} (hs : P s) :
    P (withdrawProgram p c s) := by
  unfold withdrawProgram lowerOutstanding
  dsimp only
  split
  · rename_i hc
    split
    · exact h.port _ _ _ (withdrawn_ok hc) hs
    · rename_i hr
      exact h.changeover _ _ (sameRecord_ports hr _) (h.port _ _ _ (withdrawn_ok hc) hs)
  · exact hs

theorem lose_mem {q : PortState} {x : NoteEntry} (h : x ∈ q.lose.noteLane) (hp : x.isProgram = true) : x ∈ q.noteLane := by
  unfold PortState.lose at h
  split at h
  · exact h
  · split at h
    · exact h
    · rcases List.mem_append.1 h with h | h
      · exact h
      · obtain rfl := List.mem_singleton.1 h
        simp [NoteEntry.isProgram] at hp

theorem lowerOutstanding_port (p p' : Port) (s : State) : (lowerOutstanding p s).port p' = s.port p' := by
  unfold lowerOutstanding
  split <;> rfl

/-- After the withdrawal a PROGRAM entry of the channel may join the lane (R142). -/
theorem withdrawProgram_joins (p : Port) (a : Assignment) (s : State) :
    Joins a.entry ((withdrawProgram p a.chan s).port p).noteLane := by
  have key : ∀ x : NoteEntry, x.isProgram = true → x.isProgramOn a.chan = false → x.chan ≠ a.entry.chan := by
    intro x hx hn
    cases x <;> simp_all [NoteEntry.isProgram, NoteEntry.isProgramOn, NoteEntry.chan, Assignment.entry]
  intro _ x hx hp
  unfold withdrawProgram at hx
  dsimp only at hx
  split at hx
  · rw [lowerOutstanding_port, port_setPort] at hx
    have := lose_mem hx hp
    simp only [List.mem_filter, Bool.not_eq_true'] at this
    exact key x hp this.2
  · rename_i hn
    rw [Bool.not_eq_true, List.any_eq_false] at hn
    exact key x hp (by simpa using hn x hx)

theorem joinPort_closed (h : SendFree P) (p : Port) {s : State} (hs : P s) : P (joinPort p s) := by
  unfold joinPort
  split
  · exact hs
  · rename_i hr
    split <;> exact h.changeover _ _ (sameRecord_ports hr _) hs

theorem assign_closed (h : SendFree P) (w : Sending) (a : Assignment) (hs : P w.state) : P (w.assign a).state := by
  unfold Sending.assign
  split
  · exact hs
  · dsimp only
    split
    · exact joinPort_closed h _ (h.progMem _ _ (offerJoins_closed h.toOutFree _ _ (withdrawProgram_joins _ a _)
        (withdrawProgram_closed h _ _ hs)))
    · exact h.progMem _ _ (offerJoins_closed h.toOutFree _ _ (withdrawProgram_joins _ a _)
        (withdrawProgram_closed h _ _ hs))

theorem assigns_closed (h : SendFree P) : ∀ (xs : List Assignment) (w : Sending), P w.state →
    P (xs.foldl Sending.assign w).state
  | [], _, hs => hs
  | x :: xs, w, hs => assigns_closed h xs (w.assign x) (assign_closed h w x hs)

theorem moveSelection_closed (h : TriggerFree P) (t : Trigger) {s : State} (hs : P s) : P (moveSelection t s).1 := by
  unfold moveSelection
  split
  · exact h.selection s s.curPos _ hs
  · exact reposition_closed h (clearTempo_closed h.beat (h.selection _ _ _ hs))

theorem replaceLive_closed (h : NoteFree P) (hl : ∀ s x y, P s → P { s with live := x, liveId := y }) (n : SlotNo)
    (k : Nat) {s : State} (hs : P s) : P (replaceLive n k s) := pedalCarry_closed h (hl s _ _ hs)

theorem assignAll_closed (h : SendFree P) (n : SlotNo) (k : Nat) {s : State} (hs : P s) : P (assignAll n k s).state := by
  unfold assignAll
  exact assigns_closed h _ _ hs

theorem carryOut_of (h : SendFree P) (hl : ∀ n k s, P s → P (replaceLive n k s)) (t : Trigger)
    (hm : ∀ s, P s → P (moveSelection t s).1) {s : State} (hs : P s) : P (carryOut t s).1.state := by
  have h1 := hm s hs
  unfold carryOut
  dsimp only
  generalize (moveSelection t s).1 = m at h1 ⊢
  exact assignAll_closed h _ _ (hl _ _ _ h1)

/-- A trigger keeps what its parts keep: the move of the selection, the new live table and the sending. -/
theorem takeTrigger_of (h : SendFree P) (hl : ∀ n k s, P s → P (replaceLive n k s)) (t : Trigger)
    (hr : ∀ (s s' : State), P s → P { s with changeover := some (s'.newRecord t) }) (hm : ∀ s, P s → P (moveSelection t s).1) {s : State} (hs : P s) : P (takeTrigger t s).1 := by
  have h1 : P (raiseSuperseded s) := by
    unfold raiseSuperseded
    split
    · exact hs
    · exact raise_closed h.offered _ hs
  unfold takeTrigger
  dsimp only
  refine completeIfDone_closed h.record (carryOut_of h hl t hm ?_)
  unfold raiseStarted
  dsimp only
  split
  · exact hr _ s h1
  · exact raise_closed h.offered _ (hr _ s h1)

theorem takeTrigger_closed (h : TriggerFree P) (t : Trigger) {s : State} (hs : P s) : P (takeTrigger t s).1 :=
  takeTrigger_of h.send (fun _ _ _ hs => replaceLive_closed h.toNoteFree h.live _ _ hs) t
    (fun _ _ hs => h.changeover _ _ hs) (fun _ hs => moveSelection_closed h t hs) hs

/-- A trigger of kind SCENE moves the current scene alone (R140). -/
theorem takeTrigger_scene (h : SendFree P) (hl : ∀ n k s, P s → P (replaceLive n k s)) (t : Trigger)
    (hk : t.kind = .scene) (hr : ∀ (s s' : State), P s → P { s with changeover := some (s'.newRecord t) })
    (hc : ∀ s x, P s → P { s with curScene := x }) {s : State} (hs : P s) :
    P (takeTrigger t s).1 := by
  refine takeTrigger_of h hl t hr (fun s hs => ?_) hs
  unfold moveSelection
  rw [hk]
  exact hc s _ hs

/-- The mode of the transport is left alone by a lane entry, a report and what they write. -/
theorem send_mode (m : TransportMode) : SendFree (fun s => s.transport.mode = m) :=
  { offered := fun l n s hs => (congrArg _ (raiseOn_transport l n s)).trans hs, port := fun _ _ _ _ hs => hs,
    held := fun _ _ _ hs => hs, fault := fun _ _ hs => hs, changeover := fun _ _ _ hs => hs, progMem := fun _ _ hs => hs }

theorem note_mode (m : TransportMode) : NoteFree (fun s => s.transport.mode = m) :=
  NoteFree.ofHeld (P := fun s => s.transport.mode = m) (send_mode m).toOutFree (fun _ _ hs => hs) (fun _ _ hs => hs)
    (fun _ _ hs => hs) (fun _ _ hs => hs)

theorem clearTempo_mode (s : State) : (clearTempo s).transport.mode = s.transport.mode :=
  raiseTempo_closed (P := fun u => u.transport.mode = s.transport.mode) (send_mode _).offered _ rfl

theorem raiseTransport_mode (c : Cause) (o : Option Origin) (s : State) :
    (raiseTransport c o s).transport.mode = s.transport.mode :=
  raise_closed (P := fun u => u.transport.mode = s.transport.mode) (send_mode _).offered _ rfl

theorem reposition_fits (s : State) : Cont.Fits (reposition s).2 (reposition s).1 ∧
    ((reposition s).2 = .goOn → s.transport.mode = .stopped) := by
  have hk : ∀ k : Cont, (repositionRecord k s).mode =
      (match k with | .restart => .running | .countIn => .countIn | _ => .stopped) := by
    intro k
    cases k <;> rfl
  unfold reposition
  split
  · rename_i hm
    exact ⟨fun h => by simp at h, fun _ => hm⟩
  · dsimp only
    refine ⟨fun h => ?_, fun h => ?_⟩
    · have h1 : (stopByteFor (songCont s.currentSong) s.transport.mode
          { s with transport := repositionRecord (songCont s.currentSong) s }).transport.mode =
          (repositionRecord (songCont s.currentSong) s).mode := by
        unfold stopByteFor
        split
        · rfl
        · exact stopByteFrom_closed (P := fun u => u.transport.mode = _) (fun _ _ _ _ hs => hs) _ rfl
      have h2 : ∀ (k : Cont) (u : State), (clearFor k u).transport = u.transport := by
        intro k u
        cases k <;> rfl
      rw [raiseTransport_mode, h2, h1, hk]
      rcases h with h | h <;> rw [h] <;> simp
    · unfold songCont at h
      split at h
      · simp at h
      · split at h
        · simp at h
        · split at h <;> simp at h

theorem raise_mode (n : Notice) (s : State) : (raise n s).transport.mode = s.transport.mode :=
  raise_closed (P := fun u => u.transport.mode = s.transport.mode) (send_mode _).offered _ rfl

/-- The mode of the transport is left alone by the live table, the assignments and the end of a record (R141, R142, R145). -/
theorem sendAssignments_mode (n : SlotNo) (k : Nat) (s : State) :
    (completeIfDone (assignAll n k (replaceLive n k s)).state).transport.mode = s.transport.mode := by
  generalize hm : s.transport.mode = m
  exact completeIfDone_closed (P := fun u => u.transport.mode = m) (send_mode m).record
    (assignAll_closed (P := fun u => u.transport.mode = m) (send_mode m) n k
      (replaceLive_closed (P := fun u => u.transport.mode = m) (note_mode m) (fun _ _ _ hs => hs) n k hm))

/-- A notice of the changeover unit leaves the mode of the transport alone (R139, R146). -/
theorem raiseSuperseded_mode (s : State) : (raiseSuperseded s).transport.mode = s.transport.mode := by
  unfold raiseSuperseded
  split
  · rfl
  · exact raise_mode _ _

theorem raiseStarted_mode (t : Trigger) (s : State) : (raiseStarted t s).transport.mode = s.transport.mode := by
  unfold raiseStarted
  dsimp only
  split
  · rfl
  · exact raise_mode _ _

/-- R140: the selection's continuation fits what it leaves, and a transport that runs and goes on runs (R92). -/
theorem moveSelection_fits (t : Trigger) (x : State) : Cont.Fits (moveSelection t x).2 (moveSelection t x).1 ∧
    ((moveSelection t x).2 = .goOn → x.transport.mode ≠ .stopped → (moveSelection t x).1.transport.mode ≠ .stopped) := by
  unfold moveSelection
  split
  · exact ⟨fun h => by simp at h, fun _ h => h⟩
  · have hr := reposition_fits (clearTempo { x with curPos := some t.position, curScene := some t.scene })
    refine ⟨hr.1, fun h hm => absurd ?_ hm⟩
    have := hr.2 h
    rwa [clearTempo_mode] at this

/-- A trigger's continuation fits what the trigger leaves, and a transport that runs and goes on runs (R92, R140). -/
theorem takeTrigger_fits (t : Trigger) (s : State) : Cont.Fits (takeTrigger t s).2 (takeTrigger t s).1 ∧
    ((takeTrigger t s).2 = .goOn → s.transport.mode ≠ .stopped → (takeTrigger t s).1.transport.mode ≠ .stopped) := by
  unfold takeTrigger carryOut Cont.Fits
  dsimp only
  rw [sendAssignments_mode]
  have h := moveSelection_fits t (raiseStarted t { raiseSuperseded s with changeover := some (s.newRecord t) })
  refine ⟨h.1, fun h1 h2 => h.2 h1 ?_⟩
  rw [raiseStarted_mode]
  show (raiseSuperseded s).transport.mode ≠ .stopped
  rwa [raiseSuperseded_mode]

theorem triggerCue_fits (c : Change) (s : State) : Cont.Fits (triggerCue c s).2 (triggerCue c s).1 ∧
    ((triggerCue c s).2 = .goOn → s.transport.mode ≠ .stopped → (triggerCue c s).1.transport.mode ≠ .stopped) := by
  unfold triggerCue
  dsimp only
  refine ⟨(takeTrigger_fits _ _).1, fun h1 h2 => (takeTrigger_fits _ _).2 h1 ?_⟩
  show (raise _ { s with cue := none, departure := some c }).transport.mode ≠ .stopped
  rw [raise_mode]
  exact h2

theorem handEvent_fits (d : Bool) (s : State) : Cont.Fits (handEvent d s).2 (handEvent d s).1 ∧
    ((handEvent d s).2 = .goOn → s.transport.mode ≠ .stopped → (handEvent d s).1.transport.mode ≠ .stopped) := by
  unfold handEvent
  split
  · split
    · exact triggerCue_fits _ _
    · exact ⟨fun h => by simp at h, fun _ h => h⟩
  · exact ⟨fun h => by simp at h, fun _ h => h⟩

/-- R124: the reference point is the cued position and scene or the current ones. -/
theorem reference_cases {s : State} {c : Claimant} {p m : Nat} (h : s.reference c = (some p, some m)) :
    (s.curPos = some p ∧ s.curScene = some m) ∨ ∃ x, s.cue = some x ∧ x.position = p ∧ x.scene = m := by
  unfold State.reference at h
  split at h
  · rename_i x hx
    split at h
    · simp only [Prod.mk.injEq, Option.some.injEq] at h
      exact .inr ⟨x, hx, h.1, h.2⟩
    · simp only [Prod.mk.injEq] at h
      exact .inl h
  · simp only [Prod.mk.injEq] at h
    exact .inl h

/-- A guarded answer that is given is the one guarded. -/
theorem ok_of_ite {α ε : Type} {c : Prop} [Decidable c] {a b : α} {e : ε}
    (h : (if c then Except.ok a else Except.error e) = .ok b) : a = b := by
  split at h
  · exact Except.ok.inj h
  · cases h

/-- R125: the scene a form resolves to. -/
theorem targetOf_scene {s : State} {c : Claimant} {f : CueForm} {p n : Nat} (h : s.targetOf c f = .ok (p, n)) :
    n = 0 ∨ n < s.scenesAt p ∨ (s.curPos = some p ∧ s.curScene = some (n + 1)) ∨
      ∃ x, s.cue = some x ∧ x.position = p ∧ x.scene = n + 1 := by
  cases f <;> simp only [State.targetOf] at h
  · split at h
    · cases h
    · split at h
      · rename_i hlt
        cases h
        exact .inr (.inl hlt)
      · cases h
  · split at h
    · cases h
    · rename_i p' m href
      split at h
      · cases h
      · rename_i hne
        cases h
        cases m with
        | none => simp at hne
        | some m =>
          simp only [Option.getD_some] at hne ⊢
          have hm : m - 1 + 1 = m := by omega
          rw [hm]
          exact .inr (.inr (reference_cases href))
  · split at h
    · cases h
    · split at h
      · rename_i hlt
        cases h
        exact .inr (.inl hlt)
      · cases h
  · exact .inl (congrArg Prod.snd (ok_of_ite h)).symm
  · split at h
    · cases h
    · split at h
      · cases h
      · cases h
        exact .inl rfl
  · split at h
    · cases h
      exact .inl rfl
    · cases h

/-- R125, R126: a request that resolves makes a change that does. -/
theorem resolves_of {s : State} {q : CueRequest} {t : Target} (h : s.resolve q.claimant q.form = .ok t) :
    Resolves s (s.changeOf q t) := by
  unfold State.resolve at h
  split at h
  · cases h
  · rename_i p n ht
    split at h
    · cases h
    · rename_i k hk
      split at h
      · rename_i g hg
        cases h
        exact { names := hk, ready := ⟨g, hg⟩, scene := targetOf_scene ht, kind := rfl }
      · cases h

theorem enterCue_closed (h : CueFree P) (c : Change) {s : State} (hc : Resolves s c) (hs : P s) : P (enterCue c s).1 := by
  unfold enterCue
  split
  · exact continueAfter_closed h.beat _ (triggerCue_fits c s).1 (h.trigger c s (.inr hc) hs)
  · rename_i hn
    exact raise_closed h.offered _ (h.enter s c (fun hm => hn (Or.inr hm)) hc hs)

theorem takeCue_closed (h : CueFree P) (q : CueRequest) {s : State} (hs : P s) : P (takeCue q s).1 := by
  unfold takeCue
  split
  · exact hs
  · split
    · exact hs
    · rename_i hr
      exact enterCue_closed h _ (resolves_of hr) hs

theorem stageCue_closed (h : CueFree P) (f : CueForm) (o : Origin) {s : State} (hs : P s) : P (stageCue f o s) := by
  have h1 := takeCue_closed h { claimant := .stage, form := f, timing := none, source := o } hs
  unfold stageCue
  split <;> rename_i heq <;> rw [heq] at h1
  · exact h1
  · exact raise_closed h.offered _ h1

theorem handEvent_closed (h : CueFree P) (d : Bool) {s : State} (hs : P s) : P (handEvent d s).1 := by
  unfold handEvent
  split
  · rename_i hc
    split
    · exact h.trigger _ _ (.inl hc) hs
    · exact hs
  · exact hs

/-! ### Transport -/

theorem downbeatFromChange_closed (h : CueFree P) (b : Option RealTime) {s : State} (hm : s.transport.mode ≠ .stopped)
    (hs : P s) : P (downbeatFromChange b s) := by
  unfold downbeatFromChange
  dsimp only
  split
  · rename_i hg
    exact runningDownbeat_closed h.beat _ ((handEvent_fits true s).2 hg hm) (handEvent_closed h _ hs)
  · exact continueAfter_closed h.beat _ (handEvent_fits true s).1 (handEvent_closed h _ hs)

theorem enterHeld_closed (h : CueFree P) {s : State} (hs : P s) : P (enterHeld s) := by
  unfold enterHeld raiseTransport
  exact raise_closed h.offered _ (sendClock_closed h.port _ (h.run s _ (by simp) hs))

theorem downbeat_closed (h : CueFree P) (b : Option RealTime) {s : State} (hm : s.transport.mode ≠ .stopped)
    (hs : P s) : P (downbeat b s) := by
  unfold downbeat
  repeat' split
  · exact enterHeld_closed h hs
  · exact h.stop _ _ _ hs
  · exact downbeatFromChange_closed h _ hm hs

theorem beat_closed (h : CueFree P) {s : State} (hm : s.transport.mode ≠ .stopped) (hs : P s) : P (beat s) := by
  unfold beat
  dsimp only
  split
  · rename_i hg
    exact runningBeat_closed h.beat ((handEvent_fits false s).2 hg hm) (handEvent_closed h _ hs)
  · exact continueAfter_closed h.beat _ (handEvent_fits false s).1 (handEvent_closed h _ hs)

theorem startTransport_closed (h : CueFree P) (k : Bool) (o : Origin) {s : State} (hs : P s) :
    P (startTransport k o s).1 := by
  unfold startTransport
  repeat' split
  · exact hs
  · exact countInDownbeat_closed h.beat (by rw [raiseTransport_mode]; simp [clearAccumulator, TransportState.atStart])
      (raise_closed h.offered _ (h.tempo _ _ (h.run _ _ (by simp [TransportState.atStart]) hs)))
  · exact downbeat_closed h _ (by rw [raiseTransport_mode]; simp [clearAccumulator, TransportState.atStart])
      (raise_closed h.offered _ (h.tempo _ _ (h.run _ _ (by simp [TransportState.atStart]) hs)))

theorem stopTransport_closed (h : CueFree P) (o : Origin) {s : State} (hs : P s) : P (stopTransport o s).1 := by
  unfold stopTransport
  split
  · exact clearTempo_closed h.beat hs
  · exact h.stop _ _ _ hs

theorem holdTransport_closed (h : CueFree P) (o : Origin) {s : State} (hs : P s) : P (holdTransport o s).1 := by
  unfold holdTransport
  split
  · rename_i hm
    split
    · exact hs
    · exact raise_closed h.offered _ (h.run _ _ (by simp [hm]) hs)
  · exact hs

theorem goTransport_closed (h : CueFree P) (o : Origin) {s : State} (hs : P s) : P (goTransport o s).1 := by
  unfold goTransport
  repeat' split
  · exact h.stop _ _ _ hs
  · exact downbeatFromChange_closed h _ (by rw [raiseTransport_mode]; simp [clearAccumulator])
      (raise_closed h.offered _ (h.tempo _ _ (h.run _ _ (by simp) hs)))
  · exact hs

theorem extendBar_closed (h : CueFree P) (o : Origin) {s : State} (hs : P s) : P (extendBar o s).1 := by
  unfold extendBar
  split
  · rename_i hm
    split
    · exact raise_closed h.offered _ (h.run _ _ (by simp [hm]) hs)
    · exact hs
  · exact hs

theorem beginBar_closed (h : CueFree P) {s : State} (hm : s.transport.mode ≠ .stopped) (hs : P s) : P (beginBar s) := by
  unfold beginBar
  split
  · exact downbeat_closed h _ hm (h.run s _ hm hs)
  · split
    · unfold endCountIn raiseTransport
      exact downbeat_closed h _ (by rw [← raiseTransport, raiseTransport_mode]; simp) (raise_closed h.offered _ (h.run s _ (by simp) hs))
    · unfold nextCountInBar
      exact countInDownbeat_closed h.beat hm (h.run s _ hm hs)

theorem beginStepInBar_closed (h : CueFree P) {s : State} (hm : s.transport.mode ≠ .stopped) (hs : P s) :
    P (beginStepInBar s) := by
  unfold beginStepInBar
  dsimp only
  split
  · split
    · exact beat_closed h hm (h.run s _ hm hs)
    · exact countInBeat_closed h.beat hm (h.run s _ hm hs)
  · exact plainStep_closed h.beat hm (h.run s _ hm hs)

theorem nextStep_closed (h : CueFree P) {s : State} (hm : s.transport.mode ≠ .stopped) (hs : P s) :
    P (nextStep s) := by
  unfold nextStep
  split
  · exact beginBar_closed h hm hs
  · exact beginStepInBar_closed h hm hs

theorem stepEnds_closed (h : CueFree P) (hn : ∀ s x, P s → P { s with now := x }) {s : State} (hs : P s) :
    P (stepEnds s) := by
  unfold stepEnds
  split
  · exact hs
  · split
    · rename_i hm
      exact nextStep_closed h (runsGrid_ne hm) (hn _ _ hs)
    · exact hs

/-! ### Ports -/

theorem placeWaiting_closed (hp : PortFree P) (hc : ∀ s x, P s → P { s with click := x })
    (p : Port) : ∀ (n : Nat) {s : State}, P s → P (placeWaiting p n s)
  | 0, _, hs => hs
  | n + 1, s, hs => by
    unfold placeWaiting
    split
    · exact hs
    · split
      · rename_i room
        exact placeWaiting_closed hp hc p n (hc _ _ (hp _ _ _ (enqueueClick_ok _ room) hs))
      · exact hs

theorem kickPorts_closed (hp : PortFree P) (hc : ∀ s x, P s → P { s with click := x })
    {s : State} (hs : P s) : P (kickPorts s) := by
  unfold kickPorts
  split
  · exact hs
  · refine foldl_closed (fun s p hs => ?_) _ _ hs
    unfold kickPort
    split
    · exact placeWaiting_closed hp hc _ _ (hp _ _ _ (choose_ok _) hs)
    · exact hp _ _ _ (choose_ok _) hs

theorem dropReport_closed (h : OutFree P) (p : Port) (e : NoteEntry) {s : State} (hs : P s) : P (dropReport p e s) := by
  unfold dropReport
  split
  · exact withdraw_closed h _ hs
  · exact hs

theorem meetFull_closed (h : OutFree P) (p : Port) {s : State} (hs : P s) : P (meetFull p s) := by
  unfold meetFull
  split
  · exact hs
  · rename_i e he
    have h1 := reportOffer_closed h p (PortState.offerFull { s.port p with
      noteLane := (s.port p).places ++ (s.port p).waiting.erase e } e) (fun hq => metFull_ok he hq) hs
    dsimp only
    split
    · exact h1
    · exact dropReport_closed h p e h1

theorem iterate_closed {f : State → State} (hf : ∀ s, P s → P (f s)) : ∀ (n : Nat) {s : State}, P s → P (Nat.iterate f n s)
  | 0, _, hs => hs
  | n + 1, _, hs => iterate_closed hf n (hf _ hs)

theorem meetFulls_closed (h : OutFree P) (p : Port) {s : State} (hs : P s) : P (meetFulls p s) :=
  iterate_closed (fun _ hs => meetFull_closed h p hs) _ hs

theorem itemEnd_closed (hr : RecordFree P) (h : PortFree P) (hn : ∀ s x, P s → P { s with now := x }) (p : Port) {s : State}
    (hs : P s) : P (itemEnd p s) := by
  unfold itemEnd
  split
  · exact hs
  · rename_i w _
    have h1 := h (s.reach w.ends) p _ (itemEnded_ok w (s.reach w.ends).now) (hn _ _ hs)
    dsimp only
    split
    · exact reportTransmitted_closed hr _ _ h1
    · exact h1

theorem settleExpiry_closed (hr : RecordFree P) (h : PortFree P) (hn : ∀ s x, P s → P { s with now := x }) (p : Port) {s : State} (hs : P s) :
    P (settleExpiry p s) := by
  unfold settleExpiry
  split
  · exact hs
  · exact reportSettleEnd_closed hr _
      (h (s.reach _) _ _ (fun q => ⟨q.realtime, q.click, q.note, q.merge, q.grants, q.sweeps, q.programs⟩) (hn _ _ hs))

theorem keepAliveExpiry_closed (hp : PortFree P) (hn : ∀ s x, P s → P { s with now := x })
    (p : Port) {s : State} (hs : P s) : P (keepAliveExpiry p s) := by
  unfold keepAliveExpiry
  repeat' split
  · exact hs
  · exact hs
  · exact hp (s.reach _) _ _ (fun q => beginByte_ok _ _ q) (hn _ _ hs)

theorem intervalExpiry_closed (hn : ∀ s x, P s → P { s with now := x }) (p : Port) {s : State} (hs : P s) :
    P (intervalExpiry p s) := by
  unfold intervalExpiry
  split
  · exact hs
  · exact hn _ _ hs

theorem gateExpiry_closed (h : BeatFree P) (hn : ∀ s x, P s → P { s with now := x }) (p : Port) (c : Chan) (n : Nat)
    {s : State} (hs : P s) : P (gateExpiry p c n s) := by
  unfold gateExpiry
  repeat' split
  · exact hs
  · exact hs
  · exact offerOff_closed h _ (hn _ _ hs)

/-! ### Players, PANIC and resets -/

theorem handController_closed (h : CueFree P) (i : Input) (c : Chan) (n v : Nat) {s : State} (hs : P s) :
    P (handController i c n v s) := by
  unfold handController
  split
  · exact askPedal_closed h.toNoteFree _ _ _ hs
  · split
    · exact hs
    · split
      · split
        · exact stageCue_closed h _ _ hs
        · exact hs
      · split
        · split
          · exact stageCue_closed h _ _ hs
          · exact hs
        · exact routeControl_closed h.port _ _ _ _ hs

theorem handOver_closed (h : CueFree P) (i : Input) (m : Message) {s : State} (hs : P s) : P (handOver i m s) := by
  unfold handOver
  split
  · unfold handTwo
    split
    · exact noteOff_closed h.toNoteFree _ _ _ _ hs
    · split
      · exact noteOff_closed h.toNoteFree _ _ _ _ hs
      · exact noteOn_closed h.toNoteFree _ _ _ _ hs
    · exact polyPressure_closed h.toOutFree _ _ _ _ hs
    · exact handController_closed h _ _ _ _ hs
    · exact routeControl_closed h.port _ _ _ _ hs
    · exact hs
  · unfold handOne
    split
    · unfold handProgram
      split
      · exact stageCue_closed h _ _ hs
      · exact hs
    · exact routeControl_closed h.port _ _ _ _ hs
    · exact hs
  · exact hs

theorem feedWatch_closed (h : NoteFree P) (i : Input) (b : Byte) {s : State} (hs : P s) : P (feedWatch i b s) := by
  unfold feedWatch setWatch
  dsimp only
  repeat' split
  all_goals first
    | exact hs
    | exact raise_closed h.offered _ (h.inputs _ _ hs)
    | exact h.inputs _ _ hs

theorem inputByte_closed (h : CueFree P) (i : Input) (b : Byte) (k : Bool) {s : State} (hs : P s) :
    P (inputByte i b k s) := by
  unfold inputByte parseByte framingError
  dsimp only
  repeat' split
  · exact hs
  · exact handOver_closed h _ _ (h.inputs _ _ (feedWatch_closed h.toNoteFree _ _ hs))
  · exact h.inputs _ _ (feedWatch_closed h.toNoteFree _ _ hs)
  · exact takeFault_closed h.toOutFree _ _ (h.inputs _ _ hs)

theorem watchExpiry_closed (h : NoteFree P) (hn : ∀ s x, P s → P { s with now := x }) (i : Input) {s : State} (hs : P s) :
    P (watchExpiry i s) := by
  unfold watchExpiry setWatch
  split
  · exact hs
  · exact takeFault_closed h.toOutFree _ _ (raise_closed h.offered _ (h.inputs _ _ (loseInput_closed h _ (hn _ _ hs))))

theorem panicAll_closed (h : CueFree P) (hp : ∀ s x, P s → P { s with panicCount := x }) (o : Origin) {s : State}
    (hs : P s) : P (panicAll o s) := by
  unfold panicAll
  dsimp only
  refine raise_closed h.offered _ (hp _ _ (h.click _ _ ?_))
  refine foldl_closed (fun s p hs => ?_) _ _ (emptyNoteTable_closed h.toNoteFree hs)
  unfold panicPort
  dsimp only
  split
  · exact reportSettleEnd_closed h.record _ (h.port _ _ _ panicked_ok hs)
  · exact h.port _ _ _ panicked_ok hs

theorem mapPorts_closed (h : PortFree P) (f : PortState → PortState) (hf : ∀ q, PortOk q → PortOk (f q)) {s : State}
    (hs : P s) : P (mapPorts f s) := foldl_closed (fun _ _ hs => h _ _ _ (hf _) hs) _ _ hs

theorem mapInputs_closed (h : ∀ s x, P s → P { s with inputs := x }) (f : InputState → InputState) {s : State}
    (hs : P s) : P (mapInputs f s) := foldl_closed (fun _ _ hs => h _ _ hs) _ _ hs

theorem mapFoots_closed (h : ∀ s x, P s → P { s with foots := x }) (f : FootState → FootState) {s : State}
    (hs : P s) : P (mapFoots f s) := foldl_closed (fun _ _ hs => h _ _ hs) _ _ hs

theorem press_closed (h : CueFree P) (hp : ∀ s x, P s → P { s with panicCount := x }) (n : FootLine) {s : State}
    (hs : P s) : P (press n s) := by
  unfold press
  split
  · exact hs
  · exact stageCue_closed h _ _ hs
  · exact stageCue_closed h _ _ hs
  · exact stageCue_closed h _ _ hs
  · exact takeTap_closed h.beat hs
  · split
    · exact startTransport_closed h _ _ hs
    · exact stopTransport_closed h _ hs
  · split
    · exact holdTransport_closed h _ hs
    · exact goTransport_closed h _ hs
    · exact hs
  · exact panicAll_closed h hp _ hs
  · split
    · exact askPedal_closed h.toNoteFree _ _ _ hs
    · exact hs

theorem release_closed (h : NoteFree P) (n : FootLine) {s : State} (hs : P s) : P (release n s) := by
  unfold release
  split
  · exact askPedal_closed h _ _ _ hs
  · exact hs

theorem debounceExpiry_closed (h : CueFree P) (hp : ∀ s x, P s → P { s with panicCount := x })
    (hn : ∀ s x, P s → P { s with now := x }) (hf : ∀ s x, P s → P { s with foots := x }) (n : FootLine) {s : State}
    (hs : P s) : P (debounceExpiry n s) := by
  unfold debounceExpiry
  dsimp only
  repeat' split
  · exact hs
  · exact press_closed h hp _ (hf _ _ (hn _ _ hs))
  · exact release_closed h.toNoteFree _ (hf _ _ (hn _ _ hs))

theorem lineChange_closed (hf : ∀ s x, P s → P { s with foots := x }) (n : FootLine) (v : Level) {s : State} (hs : P s) :
    P (lineChange n v s) := by
  unfold lineChange State.setFoot
  dsimp only
  split
  · exact hs
  · split
    · exact hf _ _ hs
    · exact hf _ _ hs

/-! ### Whole actions from their writes -/

theorem softResetAll_closed (h : TriggerFree P)
    (hc : ∀ s x y, P s → P { s with cue := x, departure := y }) {s : State} (hs : P s) : P (softResetAll s) := by
  have h1 : P (reloadLive s) := by
    unfold reloadLive
    split
    · exact h.live _ _ _ hs
    · exact h.live _ _ _ hs
  unfold softResetAll
  dsimp only
  refine mapInputs_closed h.inputs _ (mapPorts_closed h.port _ (fun _ _ => softReset_ok) ?_)
  have h2 : P ((restTransport (softResetTempo (emptyNoteTable (reloadLive s)))).setOffs []) :=
    h.click _ _ (h.transport _ _ (fun _ => atRest_atStart _ _) (h.tempo _ _ (emptyNoteTable_closed h.toNoteFree h1)))
  generalize (restTransport (softResetTempo (emptyNoteTable (reloadLive s)))).setOffs [] = r at h2 ⊢
  exact h.progMem { r with cue := none, departure := none, changeover := none, audition := none } _
    (h.audition { r with cue := none, departure := none, changeover := none } _
      (h.changeover { r with cue := none, departure := none } _ (hc r none none h2)))

theorem triggerCue_closed (h : TriggerFree P) (hc : ∀ s x y, P s → P { s with cue := x, departure := y }) (c : Change)
    {s : State} (hs : P s) : P (triggerCue c s).1 :=
  takeTrigger_closed h _ (h.audition _ _ (raise_closed h.offered _ (hc _ _ _ hs)))

theorem stopBy_closed (h : TriggerFree P) (hc : ∀ s x y, P s → P { s with cue := x, departure := y }) (c : Cause)
    (o : Option Origin) {s : State} (hs : P s) : P (stopBy c o s) := by
  have h1 : P (clearTempo (stopByteFrom s.transport.mode (restTransport s))) :=
    clearTempo_closed h.beat (stopByteFrom_closed h.port _ (h.transport _ _ (fun _ => atRest_atStart _ _) hs))
  refine raise_closed h.offered _ ?_
  unfold cueOnStop
  split
  · exact triggerCue_closed h hc _ h1
  · exact h1

/-- A property that no write to the cue slot and no write of a trigger disturbs. -/
theorem CueFree.ofTrigger (h : TriggerFree P) (hc : ∀ s x y, P s → P { s with cue := x, departure := y }) : CueFree P :=
  { toNoteFree := h.toNoteFree
    tempo := h.tempo
    sameMode := h.beat.sameMode
    click := h.click
    run := fun s x hx hs => h.transport s x (fun _ => atRest_of_ne hx) hs
    enter := fun s _ _ _ hs => hc s _ s.departure hs
    cancel := fun s hs => hc s _ _ hs
    trigger := fun c _ _ hs => triggerCue_closed h hc c hs
    stop := fun c o _ hs => stopBy_closed h hc c o hs
    scene := fun t _ _ _ hs => takeTrigger_closed h t hs
    audition := h.audition
    changeover := fun s x _ hs => h.changeover s x hs
    soft := fun _ hs => softResetAll_closed h hc hs }

end

end Sys2Proof.Laws
end

