-- ==== Sys2Proof/Laws/Band.lean ====
section
/-! SUPPORT. What the tempo unit, the click unit and the transport leave alone (`BandOnly`), one lemma for each of their shared
operations, and what reads through the start of a beat. -/

namespace Sys2Proof.Laws

open Sys2Proof.Machine

/-! ### `BandOnly` composes -/

theorem bandOnly_refl (s : State) : BandOnly s s :=
  { notes := ⟨rfl, rfl, rfl, rfl, rfl⟩, showData := ⟨rfl, rfl⟩, selection := ⟨rfl, rfl⟩, cue := ⟨rfl, rfl⟩,
    change := ⟨rfl, rfl, rfl⟩, players := ⟨rfl, rfl⟩, records := ⟨rfl, rfl⟩, block := ⟨rfl, rfl, rfl⟩, settings := rfl,
    links := fun _ => rfl, lanes := fun _ => rfl }

theorem bandOnly_trans {s t u : State} (h : BandOnly s t) (k : BandOnly t u) : BandOnly s u := by
  obtain ⟨⟨a1, a2, a3, a4, a5⟩, ⟨b1, b2⟩, ⟨c1, c2⟩, ⟨d1, d2⟩, ⟨e1, e2, e3⟩, ⟨f1, f2⟩, ⟨g1, g2⟩, ⟨h1, h2, h3⟩, i1, j1, k1⟩ := h
  obtain ⟨⟨a1', a2', a3', a4', a5'⟩, ⟨b1', b2'⟩, ⟨c1', c2'⟩, ⟨d1', d2'⟩, ⟨e1', e2', e3'⟩, ⟨f1', f2'⟩, ⟨g1', g2'⟩,
    ⟨h1', h2', h3'⟩, i1', j1', k1'⟩ := k
  refine ⟨⟨a1'.trans a1, a2'.trans a2, a3'.trans a3, a4'.trans a4, a5'.trans a5⟩, ⟨b1'.trans b1, b2'.trans b2⟩,
    ⟨c1'.trans c1, c2'.trans c2⟩, ⟨d1'.trans d1, d2'.trans d2⟩, ⟨e1'.trans e1, e2'.trans e2, e3'.trans e3⟩,
    ⟨f1'.trans f1, f2'.trans f2⟩, ⟨g1'.trans g1, g2'.trans g2⟩, ⟨h1'.trans h1, h2'.trans h2, h3'.trans h3⟩,
    i1'.trans i1, fun l => ?_, fun p => ?_⟩
  · have x := j1' l
    rw [j1 l] at x
    exact x
  · have x := k1' p
    rw [k1 p] at x
    exact x

/-- A fold leaves alone what each of its steps does. -/
theorem bandOnly_foldl {α : Type} {f : State → α → State} (h : ∀ s x, BandOnly s (f s x)) :
    ∀ (xs : List α) (s : State), BandOnly s (xs.foldl f s)
  | [], s => bandOnly_refl s
  | x :: xs, s => bandOnly_trans (h s x) (bandOnly_foldl h xs _)

/-! ### Writes -/

theorem bandOnly_tempo (s : State) (x : TempoState) : BandOnly s { s with tempo := x } := { bandOnly_refl s with }

theorem bandOnly_transport (s : State) (x : TransportState) : BandOnly s { s with transport := x } :=
  { bandOnly_refl s with }

theorem bandOnly_setOffs (s : State) (x : List ClickOff) : BandOnly s (s.setOffs x) := { bandOnly_refl s with }

theorem offer_notices (k : LinkState) (n : Notice) : k.offer n = { k with notices := (k.offer n).notices } := by
  unfold LinkState.offer
  split
  · split <;> rfl
  · rfl

theorem bandOnly_raiseOn (l : Link) (n : Notice) (s : State) : BandOnly s (raiseOn l n s) := by
  unfold raiseOn
  split
  · exact bandOnly_refl s
  · rw [offer_notices]
    cases l <;> exact { bandOnly_refl s with links := fun m => by cases m <;> rfl }

theorem bandOnly_raise (n : Notice) (s : State) : BandOnly s (raise n s) :=
  bandOnly_trans (bandOnly_raiseOn _ _ _) (bandOnly_raiseOn _ _ _)

theorem port_setPort_ite (s : State) (p q : Port) (x : PortState) : (s.setPort p x).port q = if q = p then x else s.port q := by
  by_cases h : q = p
  · subst h
    simp
  · rw [port_setPort_ne _ _ _ _ h, if_neg h]

theorem bandOnly_setPort (s : State) (p : Port) (x : PortState)
    (h : x = { s.port p with
      realtime := x.realtime, clickLane := x.clickLane, clickDrop := x.clickDrop, realtimeDrop := x.realtimeDrop }) :
    BandOnly s (s.setPort p x) := by
  have hl : SameLanes s (s.setPort p x) := by
    intro q
    rw [port_setPort_ite]
    split
    · rename_i e
      subst e
      exact h
    · rfl
  exact { bandOnly_refl s with links := fun _ => rfl, lanes := hl }

/-! ### Lanes -/

theorem offerRealtime_lanes (q : PortState) (b : RealTime) :
    q.offerRealtime b =
      { q with realtime := (q.offerRealtime b).realtime, realtimeDrop := (q.offerRealtime b).realtimeDrop } := by
  unfold PortState.offerRealtime
  split <;> rfl

/-- Some bytes offered to a REALTIME lane in order. -/
abbrev offerAll (bs : List RealTime) (q : PortState) : PortState := bs.foldl (fun q b => q.offerRealtime b) q

theorem offerAll_lanes :
    ∀ (bs : List RealTime) (q : PortState),
      offerAll bs q = { q with realtime := (offerAll bs q).realtime, realtimeDrop := (offerAll bs q).realtimeDrop }
  | [], _ => rfl
  | b :: bs, q => by
    have h := offerAll_lanes bs (q.offerRealtime b)
    have h2 := offerRealtime_lanes q b
    show offerAll bs (q.offerRealtime b) = { q with
      realtime := (offerAll bs (q.offerRealtime b)).realtime, realtimeDrop := (offerAll bs (q.offerRealtime b)).realtimeDrop }
    generalize offerAll bs (q.offerRealtime b) = z at h ⊢
    generalize q.offerRealtime b = y at h h2
    rw [h, h2]

theorem bandOnly_sendClock (bs : List RealTime) (s : State) : BandOnly s (sendClock bs s) := by
  refine bandOnly_foldl (fun s p => ?_) _ _
  unfold clockPort
  split
  · refine bandOnly_setPort s p _ ?_
    have h := offerAll_lanes bs (s.port p)
    unfold offerAll at h
    generalize bs.foldl (fun q b => q.offerRealtime b) (s.port p) = z at h ⊢
    rw [h]
  · exact bandOnly_refl s

theorem bandOnly_offerOff (r : ClickOff) (s : State) : BandOnly s (offerOff r s) := by
  unfold offerOff
  split
  · exact bandOnly_trans (bandOnly_setPort _ _ _ rfl) (bandOnly_setOffs _ _)
  · exact bandOnly_setOffs _ _

theorem bandOnly_cutShort (p : Port) (c : Chan) (n : Nat) (s : State) : BandOnly s (cutShort p c n s) := by
  unfold cutShort
  split
  · exact bandOnly_offerOff _ _
  · exact bandOnly_refl s

theorem bandOnly_enqueueOn (p : Port) (c : Chan) (n v g : Nat) (s : State) : BandOnly s (enqueueOn p c n v g s) := by
  unfold enqueueOn
  split
  · exact bandOnly_trans (bandOnly_setPort _ _ _ rfl) (bandOnly_setOffs _ _)
  · exact bandOnly_setPort _ _ _ rfl

theorem bandOnly_clickChannelStep (n : ClickNo) (s : State) : BandOnly s (clickChannelStep n s) := by
  unfold clickChannelStep
  split
  · exact bandOnly_trans (bandOnly_cutShort _ _ _ _) (bandOnly_enqueueOn _ _ _ _ _ _)
  · exact bandOnly_refl s

theorem bandOnly_clickStep (s : State) : BandOnly s (clickStep s) :=
  bandOnly_foldl (fun s n => bandOnly_clickChannelStep n s) _ _

/-! ### Tempo unit and transport -/

theorem bandOnly_raiseTransport (c : Cause) (o : Option Origin) (s : State) : BandOnly s (raiseTransport c o s) :=
  bandOnly_raise _ _

theorem bandOnly_raiseTempo (c : Bool) (s : State) : BandOnly s (raiseTempo c s) := by
  unfold raiseTempo
  split
  · exact bandOnly_raise _ _
  · exact bandOnly_refl s

theorem bandOnly_evaluateBeat (d : Bool) (s : State) : BandOnly s (evaluateBeat d s) := by
  unfold evaluateBeat
  exact bandOnly_trans (bandOnly_tempo s _) (bandOnly_raiseTempo _ _)

theorem bandOnly_takeMeter (s : State) : BandOnly s (takeMeter s) := bandOnly_transport _ _

theorem bandOnly_beginStep (s : State) : BandOnly s (beginStep s) := { bandOnly_refl s with }

theorem bandOnly_clearAccumulator (s : State) : BandOnly s (clearAccumulator s) := bandOnly_tempo _ _

theorem bandOnly_clearTempo (s : State) : BandOnly s (clearTempo s) :=
  bandOnly_trans (bandOnly_tempo _ _) (bandOnly_raiseTempo _ _)

theorem bandOnly_restTransport (s : State) : BandOnly s (restTransport s) := bandOnly_transport _ _

theorem bandOnly_stopByteFrom (m : TransportMode) (s : State) : BandOnly s (stopByteFrom m s) := by
  unfold stopByteFrom
  split
  · exact bandOnly_sendClock _ _
  · exact bandOnly_refl _

theorem bandOnly_runningDownbeat (lead : Option RealTime) (s : State) : BandOnly s (runningDownbeat lead s) :=
  bandOnly_trans (bandOnly_evaluateBeat _ _) (bandOnly_trans (bandOnly_takeMeter _) (bandOnly_trans (bandOnly_clickStep _)
    (bandOnly_trans (bandOnly_sendClock _ _) (bandOnly_trans (bandOnly_raise _ _) (bandOnly_trans (bandOnly_raise _ _)
      (bandOnly_beginStep _))))))

theorem bandOnly_runningBeat (s : State) : BandOnly s (runningBeat s) :=
  bandOnly_trans (bandOnly_evaluateBeat _ _) (bandOnly_trans (bandOnly_clickStep _)
    (bandOnly_trans (bandOnly_sendClock _ _) (bandOnly_trans (bandOnly_raise _ _) (bandOnly_beginStep _))))

theorem bandOnly_countInDownbeat (s : State) : BandOnly s (countInDownbeat s) :=
  bandOnly_trans (bandOnly_evaluateBeat _ _) (bandOnly_trans (bandOnly_takeMeter _)
    (bandOnly_trans (bandOnly_clickStep _) (bandOnly_beginStep _)))

theorem bandOnly_countInBeat (s : State) : BandOnly s (countInBeat s) :=
  bandOnly_trans (bandOnly_evaluateBeat _ _) (bandOnly_trans (bandOnly_clickStep _) (bandOnly_beginStep _))

theorem bandOnly_plainStep (s : State) : BandOnly s (plainStep s) := by
  refine bandOnly_trans (bandOnly_clickStep _) ?_
  unfold plainStep
  dsimp only
  refine bandOnly_trans ?_ (bandOnly_beginStep _)
  split
  · exact bandOnly_sendClock _ _
  · exact bandOnly_refl _

/-! ### What a read sees after an operation -/

/-- A read that no write to a link disturbs sees the same after a notice. -/
theorem read_raise {β : Type} (g : State → β) (h : ∀ s l x, g (State.setLink s l x) = g s) (n : Notice) (s : State) :
    g (raise n s) = g s := by
  have h1 : ∀ l n s, g (raiseOn l n s) = g s := by
    intro l n s
    unfold raiseOn
    split
    · rfl
    · exact h _ _ _
  exact (h1 _ _ _).trans (h1 _ _ _)

/-- A read that no write to a port disturbs sees the same after clock bytes. -/
theorem read_foldl {α β : Type} (g : State → β) {f : State → α → State} (h : ∀ s x, g (f s x) = g s) :
    ∀ (xs : List α) (s : State), g (xs.foldl f s) = g s
  | [], _ => rfl
  | x :: xs, s => (read_foldl g h xs _).trans (h s x)

theorem read_sendClock {β : Type} (g : State → β) (h : ∀ s p x, g (State.setPort s p x) = g s) (bs : List RealTime)
    (s : State) : g (sendClock bs s) = g s := by
  refine read_foldl g (fun s p => ?_) _ _
  unfold clockPort
  split
  · exact h _ _ _
  · rfl

/-- A read that no write to a port or to the pending note-offs disturbs sees the same after a click step. -/
theorem read_clickStep {β : Type} (g : State → β) (h : ∀ s p x, g (State.setPort s p x) = g s)
    (h' : ∀ s x, g (State.setOffs s x) = g s) (s : State) : g (clickStep s) = g s := by
  refine read_foldl g (fun s n => ?_) _ _
  have ho : ∀ r s, g (offerOff r s) = g s := by
    intro r s
    unfold offerOff
    split <;> simp only [h, h']
  have he : ∀ p c n v k s, g (enqueueOn p c n v k s) = g s := by
    intro p c n v k s
    unfold enqueueOn
    split <;> simp only [h, h']
  unfold clickChannelStep
  split
  · unfold soundClick cutShort
    rw [he]
    split
    · exact ho _ _
    · rfl
  · rfl

theorem read_raiseTempo {β : Type} (g : State → β) (h : ∀ s l x, g (State.setLink s l x) = g s) (c : Bool) (s : State) :
    g (raiseTempo c s) = g s := by
  unfold raiseTempo
  split
  · exact read_raise g h _ _
  · rfl

/-- A read that no write to a link or to the tempo unit disturbs sees the same after a beat evaluation. -/
theorem read_evaluateBeat {β : Type} (g : State → β) (h1 : ∀ (s : State) x, g { s with tempo := x } = g s)
    (h2 : ∀ s l x, g (State.setLink s l x) = g s) (d : Bool) (s : State) : g (evaluateBeat d s) = g s := by
  unfold evaluateBeat
  exact (read_raiseTempo g h2 _ _).trans (h1 s _)

@[simp] theorem raise_transport (n : Notice) (s : State) : (raise n s).transport = s.transport :=
  read_raise (fun s => s.transport) (fun _ l _ => by cases l <;> rfl) n s

@[simp] theorem raise_tempo (n : Notice) (s : State) : (raise n s).tempo = s.tempo :=
  read_raise (fun s => s.tempo) (fun _ l _ => by cases l <;> rfl) n s

@[simp] theorem raise_now (n : Notice) (s : State) : (raise n s).now = s.now :=
  read_raise (fun s => s.now) (fun _ l _ => by cases l <;> rfl) n s

@[simp] theorem raise_ports (n : Notice) (s : State) : (raise n s).ports = s.ports :=
  read_raise (fun s => s.ports) (fun _ l _ => by cases l <;> rfl) n s

@[simp] theorem raise_port (n : Notice) (s : State) (p : Port) : (raise n s).port p = s.port p :=
  read_raise (fun s => s.port p) (fun _ l _ => by cases l <;> rfl) n s

@[simp] theorem raise_click (n : Notice) (s : State) : (raise n s).click = s.click :=
  read_raise (fun s => s.click) (fun _ l _ => by cases l <;> rfl) n s

@[simp] theorem raise_cue (n : Notice) (s : State) : (raise n s).cue = s.cue :=
  read_raise (fun s => s.cue) (fun _ l _ => by cases l <;> rfl) n s

@[simp] theorem raiseTransport_transport (c : Cause) (o : Option Origin) (s : State) :
    (raiseTransport c o s).transport = s.transport := raise_transport _ _

@[simp] theorem raiseTransport_tempo (c : Cause) (o : Option Origin) (s : State) :
    (raiseTransport c o s).tempo = s.tempo := raise_tempo _ _

@[simp] theorem raiseTransport_now (c : Cause) (o : Option Origin) (s : State) :
    (raiseTransport c o s).now = s.now := raise_now _ _

@[simp] theorem raiseTransport_port (c : Cause) (o : Option Origin) (s : State) (p : Port) :
    (raiseTransport c o s).port p = s.port p := raise_port _ _ _

@[simp] theorem raiseTransport_click (c : Cause) (o : Option Origin) (s : State) :
    (raiseTransport c o s).click = s.click := raise_click _ _

@[simp] theorem sendClock_transport (bs : List RealTime) (s : State) : (sendClock bs s).transport = s.transport :=
  read_sendClock (fun s => s.transport) (fun _ _ _ => rfl) bs s

@[simp] theorem sendClock_tempo (bs : List RealTime) (s : State) : (sendClock bs s).tempo = s.tempo :=
  read_sendClock (fun s => s.tempo) (fun _ _ _ => rfl) bs s

@[simp] theorem sendClock_now (bs : List RealTime) (s : State) : (sendClock bs s).now = s.now :=
  read_sendClock (fun s => s.now) (fun _ _ _ => rfl) bs s

@[simp] theorem clickStep_transport (s : State) : (clickStep s).transport = s.transport :=
  read_clickStep (fun s => s.transport) (fun _ _ _ => rfl) (fun _ _ => rfl) s

@[simp] theorem clickStep_tempo (s : State) : (clickStep s).tempo = s.tempo :=
  read_clickStep (fun s => s.tempo) (fun _ _ _ => rfl) (fun _ _ => rfl) s

@[simp] theorem clickStep_now (s : State) : (clickStep s).now = s.now :=
  read_clickStep (fun s => s.now) (fun _ _ _ => rfl) (fun _ _ => rfl) s

@[simp] theorem evaluateBeat_transport (d : Bool) (s : State) : (evaluateBeat d s).transport = s.transport :=
  read_evaluateBeat (fun s => s.transport) (fun _ _ => rfl) (fun _ l _ => by cases l <;> rfl) d s

@[simp] theorem evaluateBeat_now (d : Bool) (s : State) : (evaluateBeat d s).now = s.now :=
  read_evaluateBeat (fun s => s.now) (fun _ _ => rfl) (fun _ l _ => by cases l <;> rfl) d s

@[simp] theorem evaluateBeat_port (d : Bool) (s : State) (p : Port) : (evaluateBeat d s).port p = s.port p :=
  read_evaluateBeat (fun s => s.port p) (fun _ _ => rfl) (fun _ l _ => by cases l <;> rfl) d s

@[simp] theorem takeMeter_tempo (s : State) : (takeMeter s).tempo = s.tempo := rfl

@[simp] theorem takeMeter_now (s : State) : (takeMeter s).now = s.now := rfl

@[simp] theorem takeMeter_port (s : State) (p : Port) : (takeMeter s).port p = s.port p := rfl

@[simp] theorem beginStep_port (s : State) (p : Port) : (beginStep s).port p = s.port p := rfl

theorem takeMeter_transport (s : State) : (takeMeter s).transport = { s.transport with
    numerator := (takeMeter s).transport.numerator, denominator := (takeMeter s).transport.denominator } := rfl

/-- A read that no write to a link or to the tempo unit disturbs sees the same after `clearTempo`. -/
theorem read_clearTempo {β : Type} (g : State → β) (h1 : ∀ (s : State) x, g { s with tempo := x } = g s)
    (h2 : ∀ s l x, g (State.setLink s l x) = g s) (s : State) : g (clearTempo s) = g s := by
  unfold clearTempo
  exact (read_raiseTempo g h2 _ _).trans (h1 s _)

/-- A read that no write to a port disturbs sees the same after the STOP byte. -/
theorem read_stopByteFrom {β : Type} (g : State → β) (h : ∀ s p x, g (State.setPort s p x) = g s) (m : TransportMode)
    (s : State) : g (stopByteFrom m s) = g s := by
  unfold stopByteFrom
  split
  · exact read_sendClock g h _ _
  · rfl

/-- R76, R77: the tempo unit after `clearTempo`. -/
theorem clearTempo_tempo (s : State) : (clearTempo s).tempo =
    ({ s.tempo with segment := none, ramp := .none, override := none, staged := none } : TempoState).take
      s.firstSegment.tempo := by
  unfold clearTempo
  exact read_raiseTempo (fun s => s.tempo) (fun _ l _ => by cases l <;> rfl) _ _

@[simp] theorem clearTempo_transport (s : State) : (clearTempo s).transport = s.transport :=
  read_clearTempo (fun s => s.transport) (fun _ _ => rfl) (fun _ l _ => by cases l <;> rfl) s

@[simp] theorem clearTempo_now (s : State) : (clearTempo s).now = s.now :=
  read_clearTempo (fun s => s.now) (fun _ _ => rfl) (fun _ l _ => by cases l <;> rfl) s

@[simp] theorem clearTempo_cue (s : State) : (clearTempo s).cue = s.cue :=
  read_clearTempo (fun s => s.cue) (fun _ _ => rfl) (fun _ l _ => by cases l <;> rfl) s

@[simp] theorem clearTempo_port (s : State) (p : Port) : (clearTempo s).port p = s.port p :=
  read_clearTempo (fun s => s.port p) (fun _ _ => rfl) (fun _ l _ => by cases l <;> rfl) s

@[simp] theorem clearTempo_ports (s : State) : (clearTempo s).ports = s.ports :=
  read_clearTempo (fun s => s.ports) (fun _ _ => rfl) (fun _ l _ => by cases l <;> rfl) s

@[simp] theorem clearTempo_click (s : State) : (clearTempo s).click = s.click :=
  read_clearTempo (fun s => s.click) (fun _ _ => rfl) (fun _ l _ => by cases l <;> rfl) s

/-- The STOP byte changes nothing but ports (R93). -/
theorem stopByteFrom_ports (m : TransportMode) (s : State) : stopByteFrom m s = { s with ports := (stopByteFrom m s).ports } := by
  unfold stopByteFrom
  split
  · unfold sendClock
    induction allPorts generalizing s with
    | nil => rfl
    | cons p ps ih =>
      rw [List.foldl_cons, ih]
      unfold clockPort
      split <;> rfl
  · rfl

@[simp] theorem stopByteFrom_transport (m : TransportMode) (s : State) : (stopByteFrom m s).transport = s.transport :=
  read_stopByteFrom (fun s => s.transport) (fun _ _ _ => rfl) m s

@[simp] theorem stopByteFrom_tempo (m : TransportMode) (s : State) : (stopByteFrom m s).tempo = s.tempo :=
  read_stopByteFrom (fun s => s.tempo) (fun _ _ _ => rfl) m s

@[simp] theorem stopByteFrom_now (m : TransportMode) (s : State) : (stopByteFrom m s).now = s.now :=
  read_stopByteFrom (fun s => s.now) (fun _ _ _ => rfl) m s

@[simp] theorem stopByteFrom_cue (m : TransportMode) (s : State) : (stopByteFrom m s).cue = s.cue :=
  read_stopByteFrom (fun s => s.cue) (fun _ _ _ => rfl) m s

@[simp] theorem stopByteFrom_click (m : TransportMode) (s : State) : (stopByteFrom m s).click = s.click :=
  read_stopByteFrom (fun s => s.click) (fun _ _ _ => rfl) m s

@[simp] theorem stopByteFrom_firstSegment (m : TransportMode) (s : State) :
    (stopByteFrom m s).firstSegment = s.firstSegment :=
  read_stopByteFrom (fun s => s.firstSegment) (fun _ _ _ => rfl) m s

/-! ### REALTIME lanes -/

/-- R93: every clock port gets the bytes, no other port anything. -/
theorem sendClock_port (bs : List RealTime) (s : State) (p : Port) :
    (sendClock bs s).port p = if (s.port p).settings.clockFlag then offerAll bs (s.port p) else s.port p := by
  have step : ∀ (s : State) (a q : Port), (clockPort bs a s).port q =
      if q = a ∧ (s.port a).settings.clockFlag then offerAll bs (s.port a) else s.port q := by
    intro s a q
    unfold clockPort
    split
    · rename_i h
      rw [port_setPort_ite]
      simp [h]
    · rename_i h
      simp [h]
  have key : ∀ (ps : List Port) (s : State), ps.Nodup → (ps.foldl (fun s p => clockPort bs p s) s).port p =
      if p ∈ ps ∧ (s.port p).settings.clockFlag then offerAll bs (s.port p) else s.port p := by
    intro ps
    induction ps with
    | nil => intro s _; simp
    | cons a ps ih =>
      intro s hn
      rw [List.nodup_cons] at hn
      rw [List.foldl_cons, ih _ hn.2, step s a p]
      by_cases e : p = a
      · subst e
        simp [hn.1]
      · simp [e]
  have hp : p ∈ allPorts := by
    clear key step
    revert p
    decide
  unfold sendClock
  rw [key allPorts s (by decide)]
  simp [hp]

/-- The REALTIME lane after some bytes depends on the lane alone. -/
theorem offerAll_realtime : ∀ (bs : List RealTime) (q q' : PortState), q.realtime = q'.realtime →
    (offerAll bs q).realtime = (offerAll bs q').realtime
  | [], _, _, h => h
  | b :: bs, q, q', h => by
    refine offerAll_realtime bs (q.offerRealtime b) (q'.offerRealtime b) ?_
    unfold PortState.offerRealtime
    rw [h]
    split <;> rfl

/-- A click step leaves REALTIME lanes and settings alone. -/
theorem clickStep_realtime (s : State) (p : Port) :
    ((clickStep s).port p).realtime = (s.port p).realtime ∧ ((clickStep s).port p).settings = (s.port p).settings := by
  have h := (bandOnly_clickStep s).lanes p
  have hset : ∀ (s : State) (q : Port) (x : PortState), x.realtime = (s.port q).realtime →
      ((s.setPort q x).port p).realtime = (s.port p).realtime := by
    intro s q x h1
    rw [port_setPort_ite]
    split
    · rename_i e
      rw [h1, e]
    · rfl
  refine ⟨?_, by rw [h]⟩
  refine read_foldl (fun s : State => (s.port p).realtime) (fun s n => ?_) allClicks s
  have ho : ∀ (r : ClickOff) (s : State), ((offerOff r s).port p).realtime = (s.port p).realtime := by
    intro r s
    unfold offerOff
    split
    · exact hset _ _ _ rfl
    · rfl
  have he : ∀ q c n v g (s : State), ((enqueueOn q c n v g s).port p).realtime = (s.port p).realtime := by
    intro q c n v g s
    unfold enqueueOn
    split
    · exact hset _ _ _ rfl
    · exact hset _ _ _ rfl
  show ((clickChannelStep n s).port p).realtime = (s.port p).realtime
  unfold clickChannelStep
  split
  · unfold soundClick cutShort
    rw [he]
    split
    · exact ho _ _
    · rfl
  · rfl

/-- R93: the STOP byte goes to every clock port when RUNNING is left. -/
theorem stopByteFrom_realtime (m : TransportMode) (s : State) (p : Port) :
    ((stopByteFrom m s).port p).realtime = if (s.port p).settings.clockFlag = true ∧ m = .running then
      ((s.port p).offerRealtime .stop).realtime else (s.port p).realtime := by
  unfold stopByteFrom
  by_cases h : m = .running
  · rw [if_pos h, sendClock_port]
    simp only [h, and_true, offerAll, List.foldl_cons, List.foldl_nil]
    split <;> rfl
  · rw [if_neg h, if_neg (fun x => h x.2)]

/-! ### The start of a beat -/

/-- A beat evaluation keeps an accumulator at 0. -/
theorem evaluateBeat_acc (d : Bool) (s : State) (h : s.tempo.acc = 0) : (evaluateBeat d s).tempo.acc = 0 := by
  have hseg : (s.segmentStep d).acc = 0 := by
    unfold State.segmentStep
    dsimp only
    split
    · exact h
    · split <;> exact h
  have hap : ∀ t : TempoState, t.acc = 0 → (t.applyStaged d).acc = 0 := by
    intro t ht
    unfold TempoState.applyStaged
    split
    · exact ht
    · split
      · split <;> exact ht
      · exact ht
  have htk : ∀ (t : TempoState) (v : Nat), t.acc = 0 → (t.take v).acc = 0 := by
    intro t v ht
    unfold TempoState.take
    split
    · exact ht
    · rfl
  unfold evaluateBeat
  dsimp only
  rw [read_raiseTempo (fun s => s.tempo) (fun _ l _ => by cases l <;> rfl)]
  refine htk _ _ (hap _ ?_)
  split <;> assumption

/-- What a downbeat of RUNNING leaves of the transport record and of the timebase. -/
theorem runningDownbeat_transport (lead : Option RealTime) (s : State) : ∃ n d e,
    (runningDownbeat lead s).transport = { s.transport with numerator := n, denominator := d, stepEnd := e } := by
  unfold runningDownbeat beginStep
  simp only [raise_transport, sendClock_transport, clickStep_transport]
  unfold takeMeter
  simp only [evaluateBeat_transport]
  exact ⟨_, _, _, rfl⟩

theorem runningDownbeat_now (lead : Option RealTime) (s : State) : (runningDownbeat lead s).now = s.now := by
  simp [runningDownbeat, beginStep]

/-- The step a downbeat begins with a cleared accumulator lasts by R60. -/
theorem runningDownbeat_stepEnd (lead : Option RealTime) (s : State) (h : s.tempo.acc = 0) :
    (runningDownbeat lead s).transport.stepEnd =
      some (s.now + (stepDuration (runningDownbeat lead s).tempo.current 0).1) := by
  simp [runningDownbeat, beginStep, evaluateBeat_acc true s h]

/-- R93: a downbeat of RUNNING puts its leading byte and a CLOCK into the REALTIME lane of every clock port. -/
theorem runningDownbeat_realtime (lead : Option RealTime) (s : State) (p : Port) :
    ((runningDownbeat lead s).port p).realtime =
      if (s.port p).settings.clockFlag then (offerAll (lead.toList ++ [.clock]) (s.port p)).realtime
      else (s.port p).realtime := by
  obtain ⟨h1, h2⟩ := clickStep_realtime (takeMeter (evaluateBeat true s)) p
  rw [takeMeter_port, evaluateBeat_port] at h1 h2
  unfold runningDownbeat
  rw [beginStep_port, raise_port, raise_port, sendClock_port, h2]
  split
  · exact offerAll_realtime _ _ _ h1
  · exact h1

theorem countInDownbeat_transport (s : State) : ∃ n d e,
    (countInDownbeat s).transport = { s.transport with numerator := n, denominator := d, stepEnd := e } := by
  unfold countInDownbeat beginStep
  simp only [clickStep_transport]
  unfold takeMeter
  simp only [evaluateBeat_transport]
  exact ⟨_, _, _, rfl⟩

theorem countInDownbeat_now (s : State) : (countInDownbeat s).now = s.now := by
  simp [countInDownbeat, beginStep]

theorem countInDownbeat_stepEnd (s : State) (h : s.tempo.acc = 0) :
    (countInDownbeat s).transport.stepEnd = some (s.now + (stepDuration (countInDownbeat s).tempo.current 0).1) := by
  simp [countInDownbeat, beginStep, evaluateBeat_acc true s h]

theorem countInDownbeat_realtime (s : State) (p : Port) : ((countInDownbeat s).port p).realtime = (s.port p).realtime := by
  unfold countInDownbeat
  rw [beginStep_port, (clickStep_realtime _ _).1, takeMeter_port, evaluateBeat_port]

end Sys2Proof.Laws
end

