-- ==== Sys2Proof/Laws/Fields.lean ====
section
/-! SUPPORT. What each reader of a field accepts, and the value it gives: one equivalence a reader (R196, R197, R200). -/

namespace Sys2Proof.Laws

open Sys2Proof.Machine

/-! ### Steps of a record's reader -/

theorem read_step {α β : Type} {x : Option α} {f : α → Option β} {y : β} (h : (x >>= f) = some y) :
    ∃ a, x = some a ∧ f a = some y := Option.bind_eq_some_iff.mp h

theorem read_intro {α β : Type} {x : Option α} {f : α → Option β} {y : β} {a : α} (h : x = some a) (k : f a = some y) :
    (x >>= f) = some y := Option.bind_eq_some_iff.mpr ⟨a, h, k⟩

/-! ### Numbers -/

theorem word_bytes (w : Word) : word (w.extractLsb' 8 8) (w.extractLsb' 0 8) = w.toNat := by
  simp [word, BitVec.extractLsb'_toNat, Nat.shiftRight_eq_div_pow]
  have := w.isLt
  omega

theorem byte_eq {b : Byte} {n : Nat} (h : n < 256) : b = BitVec.ofNat 8 n ↔ b.toNat = n := by
  constructor
  · rintro rfl
    simp
    omega
  · intro e
    apply BitVec.eq_of_toNat_eq
    simp
    omega

theorem numIn_iff {lo hi : Nat} {b : Byte} {n : Nat} :
    numIn lo hi b = some n ↔ lo ≤ b.toNat ∧ b.toNat ≤ hi ∧ n = b.toNat := by
  unfold numIn
  split
  · rename_i h
    simp [h, eq_comm]
  · rename_i h
    simp only [reduceCtorEq, false_iff]
    exact fun k => h ⟨k.1, k.2.1⟩

theorem below_iff {n : Nat} {b : Byte} {x : Fin n} : below n b = some x ↔ x.val = b.toNat := by
  unfold below
  split
  · simp [Fin.ext_iff, eq_comm]
  · simp only [reduceCtorEq, false_iff]
    have := x.isLt
    omega

theorem signed_iff {lo hi : Int} {b : Byte} {x : Int} :
    signedIn lo hi b = some x ↔ lo ≤ b.toInt ∧ b.toInt ≤ hi ∧ x = b.toInt := by
  unfold signedIn
  split
  · rename_i h
    simp [h, eq_comm]
  · rename_i h
    simp only [reduceCtorEq, false_iff]
    exact fun k => h ⟨k.1, k.2.1⟩

theorem tempoIn_iff {n x : Nat} : tempoIn n = some x ↔ 2000 ≤ n ∧ n ≤ 30000 ∧ x = n := by
  unfold tempoIn
  split <;> simp_all [Config.tempoMin, Config.tempoMax, eq_comm]

theorem text_iff {lo hi : Nat} {t u : List Byte} : text lo hi t = some u ↔ IsText lo hi t ∧ u = t := by
  have e : (t.all isText = true) ↔ ∀ b ∈ t, 0x20 ≤ b.toNat ∧ b.toNat ≤ 0x7E := by simp [isText]
  unfold text IsText
  split
  · rename_i h
    rw [e] at h
    simp only [h, true_and, Option.some.injEq]
    exact ⟨fun k => ⟨h.2.2, k.symm⟩, fun k => k.2.symm⟩
  · rename_i h
    rw [e] at h
    simp only [reduceCtorEq, false_iff]
    exact fun k => h k.1

/-! ### Fields that may be absent -/

theorem chan_iff {b : Byte} {x : Option Chan} : orAbsent (below 16) b = some x ↔ CarriesChan b x := by
  unfold orAbsent CarriesChan
  split
  · rename_i h
    subst h
    constructor
    · intro e
      cases e
      exact .inl ⟨rfl, rfl⟩
    · rintro (⟨-, rfl⟩ | ⟨c, -, h⟩)
      · rfl
      · have := c.isLt
        simp at h
        omega
  · rename_i h
    simp only [Option.map_eq_some_iff, below_iff, h, false_and, false_or]
    exact ⟨fun ⟨c, h1, e⟩ => ⟨c, e.symm, h1⟩, fun ⟨c, e, h1⟩ => ⟨c, h1, e.symm⟩⟩

theorem opt_iff {b : Byte} {x : Option Nat} : orAbsent (numIn 0 127) b = some x ↔ CarriesOpt 0 127 b x := by
  unfold orAbsent CarriesOpt
  split
  · rename_i h
    subst h
    constructor
    · intro e
      cases e
      exact .inl ⟨rfl, rfl⟩
    · rintro (⟨-, rfl⟩ | ⟨-, h, -⟩)
      · rfl
      · simp at h
  · rename_i h
    simp only [Option.map_eq_some_iff, numIn_iff, h, false_and, false_or]
    constructor
    · rintro ⟨c, ⟨h1, h2, rfl⟩, rfl⟩
      exact ⟨h1, h2, rfl⟩
    · rintro ⟨h1, h2, rfl⟩
      exact ⟨_, ⟨h1, h2, rfl⟩, rfl⟩

theorem stopBar_iff {n : Nat} {x : Option Nat} :
    stopBarOf n = some x ↔ n ≤ 9998 ∧ x = if n = 0 then none else some n := by
  unfold stopBarOf
  split
  · simp_all [eq_comm]
  · split <;> simp_all [eq_comm]

theorem ramp_iff {r t : Nat} {x : Option Nat} : rampTargetOf r t = some x ↔
    (r = 0 → t = 0) ∧ (r ≠ 0 → 2000 ≤ t ∧ t ≤ 30000) ∧ x = if r = 0 then none else some t := by
  unfold rampTargetOf
  split
  · split <;> simp_all [eq_comm]
  · rename_i h
    simp only [Option.map_eq_some_iff, tempoIn_iff]
    constructor
    · rintro ⟨a, ⟨h1, h2, rfl⟩, rfl⟩
      simp [h, h1, h2]
    · rintro ⟨-, h1, h2⟩
      exact ⟨t, ⟨(h1 h).1, (h1 h).2, rfl⟩, h2.symm⟩

theorem inputSet_iff {b : Byte} {x : BitVec 6} :
    inputSet b = some x ↔ b.toNat < 64 ∧ b ≠ 0#8 ∧ x = b.setWidth 6 := by
  unfold inputSet
  split
  · rename_i h
    simp [h.1, h.2, eq_comm]
  · rename_i h
    simp only [reduceCtorEq, false_iff]
    exact fun k => h ⟨k.1, k.2.1⟩

/-! ### Enumerated fields (R200) -/

theorem flag_iff {b : Byte} {x : Bool} : flag b = some x ↔ b = bFlag x := by
  revert b
  cases x <;> decide

theorem startMode_iff {b : Byte} {x : StartMode} : startMode b = some x ↔ b = x.code := by
  revert b
  cases x <;> decide

theorem timing_iff {b : Byte} {x : Timing} : timing b = some x ↔ b = x.code := by
  revert b
  cases x <;> decide

theorem phrase_iff {b : Byte} {x : Nat} : phraseLength b = some x ↔
    (b.toNat = 1 ∨ b.toNat = 2 ∨ b.toNat = 4 ∨ b.toNat = 8) ∧ x = b.toNat := by
  unfold phraseLength
  split
  · rename_i h
    simp only [Option.some.injEq]
    exact ⟨fun e => ⟨h, e.symm⟩, fun k => k.2.symm⟩
  · rename_i h
    simp [h]

theorem denom_iff {b : Byte} {x : Nat} : denominator b = some x ↔ (b.toNat = 4 ∨ b.toNat = 8) ∧ x = b.toNat := by
  unfold denominator
  split
  · rename_i h
    simp only [Option.some.injEq]
    exact ⟨fun e => ⟨h, e.symm⟩, fun k => k.2.symm⟩
  · rename_i h
    simp [h]

theorem direction_iff {b : Byte} {x : Direction} :
    direction b = some x ↔ (match x with | .normal => b = 0#8 | .reverse => b = 1#8) := by
  revert b
  cases x <;> decide

theorem pedal_iff {b : Byte} {x : PedalMode} :
    pedalMode b = some x ↔ (match x with | .chip => b = 0#8 | .module => b = 1#8) := by
  revert b
  cases x <;> decide

theorem forward_iff {b : Byte} {x : Forward} : forward b = some x ↔ b.toNat < 16 ∧
    x = { controllers := b.getLsbD 0, bend := b.getLsbD 1, pressure := b.getLsbD 2, poly := b.getLsbD 3 } := by
  unfold forward
  split <;> simp_all [eq_comm]

theorem clickMode_iff {b : Byte} {x : ClickMode} : clickMode b = some x ↔
    (match x with
      | .off => b = 0#8 | .always => b = 1#8 | .countInOnly => b = 2#8 | .runningOnly => b = 3#8) := by
  revert b
  cases x <;> decide

theorem subdivision_iff {b : Byte} {x : Subdivision} : subdivision b = some x ↔
    (match x with
      | .none => b = 0#8 | .eighth => b = 1#8 | .sixteenth => b = 2#8 | .triplet => b = 3#8) := by
  revert b
  cases x <;> decide

theorem policy_iff {b : Byte} {x : SettlePolicy} : settlePolicy b = some x ↔
    (match x with | .hold => b = 0#8 | .drop => b = 1#8 | .pass => b = 2#8) := by
  revert b
  cases x <;> decide

theorem laneMode_iff {b : Byte} {x : LaneMode} :
    laneMode b = some x ↔ (match x with | .round => b = 0#8 | .noteFirst => b = 1#8) := by
  revert b
  cases x <;> decide

theorem polarity_iff {b : Byte} {x : Polarity} :
    polarity b = some x ↔ (match x with | .make => b = 0#8 | .break => b = 1#8) := by
  revert b
  cases x <;> decide

theorem footFunction_iff {b : Byte} {x : FootFunction} : footFunction b = some x ↔
    (match x with
      | .none => b = 0#8 | .nextScene => b = 1#8 | .prevScene => b = 2#8 | .nextSong => b = 3#8 | .tap => b = 4#8
      | .startStop => b = 5#8 | .holdGo => b = 6#8 | .panic => b = 7#8 | .sustain => b = 8#8) := by
  revert b
  cases x <;> decide

theorem interval_iff {b : Byte} {x : Nat} : controllerInterval b = some x ↔
    x = b.toNat ∧ (x = 0 ∨ x = 2 ∨ x = 5 ∨ x = 10 ∨ x = 20) := by
  unfold controllerInterval
  split
  · rename_i h
    simp only [Option.some.injEq]
    exact ⟨fun e => e ▸ ⟨rfl, h⟩, fun k => k.1.symm⟩
  · rename_i h
    simp only [reduceCtorEq, false_iff]
    rintro ⟨rfl, k⟩
    exact h k

theorem curve_iff {c f : Byte} {x : Curve} : curve c f = some x ↔
    (match x with
      | .linear => c = 0#8 ∧ f = 0xFF#8
      | .soft => c = 1#8 ∧ f = 0xFF#8
      | .hard => c = 2#8 ∧ f = 0xFF#8
      | .fixed v => c = 3#8 ∧ v = f.toNat ∧ 1 ≤ v ∧ v ≤ 127) := by
  have e0 := @byte_eq c 0 (by omega)
  have e1 := @byte_eq c 1 (by omega)
  have e2 := @byte_eq c 2 (by omega)
  have e3 := @byte_eq c 3 (by omega)
  unfold curve
  rcases h : c.toNat with _ | _ | _ | _ | n <;> cases x <;> simp [e0, e1, e2, e3, h, numIn_iff]
  constructor <;> rintro ⟨h1, h2, h3⟩ <;> refine ⟨?_, ?_, ?_⟩ <;> omega

theorem cueTiming_iff {t : Byte} {x : Option Timing} :
    cueTiming t = some x ↔ t = (match x with | none => 0#8 | some y => y.code) := by
  revert t
  rcases x with _ | x
  · decide
  · cases x <;> decide

theorem cueForm_iff {f n : Byte} {x : CueForm} : cueForm f n = some x ↔
    f = x.code ∧ n = x.number ∧ (∀ k, x = .scene k → k ≤ 11) ∧ ∀ k, x = .position k → k ≤ 63 := by
  have e0 := @byte_eq f 0 (by omega)
  have e1 := @byte_eq f 1 (by omega)
  have e2 := @byte_eq f 2 (by omega)
  have e3 := @byte_eq f 3 (by omega)
  have e4 := @byte_eq f 4 (by omega)
  have e5 := @byte_eq f 5 (by omega)
  have key : ∀ k hi : Nat, hi < 256 → k ≤ hi → (n = b1 k ↔ n.toNat = k) := fun k hi h1 h2 => byte_eq (by omega)
  unfold cueForm
  rcases h : f.toNat with _ | _ | _ | _ | _ | _ | m
  all_goals
    cases x
    all_goals simp [CueForm.code, CueForm.number, e0, e1, e2, e3, e4, e5, h, numIn_iff]
  all_goals
    rename_i k
    constructor
  all_goals first
    | (rintro ⟨h1, rfl⟩
       exact ⟨(key _ _ (by decide) h1).mpr rfl, h1⟩)
    | (rintro ⟨h1, h2⟩
       have := (key _ _ (by decide) h2).mp h1
       omega)

end Sys2Proof.Laws
end

