-- ==== Sys2Proof/Laws/Songs.lean ====
section
/-! SUPPORT. What the readers of the building requests accept, and that each building step keeps a song record within the bounds of
R102 and R103. -/

namespace Sys2Proof.Laws

open Sys2Proof.Machine

/-! ### Readers -/

theorem bind_some {α β : Type} {x : Option α} {f : α → Option β} {b : β} (h : (x >>= f) = some b) :
    ∃ a, x = some a ∧ f a = some b := Option.bind_eq_some_iff.1 h

theorem numIn_some {lo hi : Nat} {b : Byte} {n : Nat} (h : numIn lo hi b = some n) : lo ≤ n ∧ n ≤ hi := by
  unfold numIn at h
  split at h
  · simp_all
  · simp at h

theorem tempoIn_some {t v : Nat} (h : tempoIn t = some v) : Config.tempoMin ≤ v ∧ v ≤ Config.tempoMax := by
  unfold tempoIn at h
  split at h
  · simp_all
  · simp at h

theorem signedIn_some {lo hi v : Int} {b : Byte} (h : signedIn lo hi b = some v) : lo ≤ v ∧ v ≤ hi := by
  unfold signedIn at h
  split at h
  · simp_all
  · simp at h

theorem phraseLength_some {b : Byte} {n : Nat} (h : phraseLength b = some n) : n = 1 ∨ n = 2 ∨ n = 4 ∨ n = 8 := by
  unfold phraseLength at h
  split at h
  · simp_all
  · simp at h

theorem denominator_some {b : Byte} {n : Nat} (h : denominator b = some n) : n = 4 ∨ n = 8 := by
  unfold denominator at h
  split at h
  · simp_all
  · simp at h

theorem stopBarOf_some {n b : Nat} (h : stopBarOf n = some (some b)) : 1 ≤ b ∧ b ≤ 9998 := by
  unfold stopBarOf at h
  split at h
  · simp at h
  · split at h
    · simp only [Option.some.injEq] at h
      omega
    · simp at h

theorem inputSet_some {b : Byte} {x : BitVec 6} (h : inputSet b = some x) : x ≠ 0#6 := by
  unfold inputSet at h
  split at h
  · rename_i hb
    simp only [Option.some.injEq] at h
    subst h
    intro h0
    apply hb.2
    have := congrArg BitVec.toNat h0
    simp only [BitVec.toNat_setWidth, BitVec.toNat_ofNat] at this
    apply BitVec.eq_of_toNat_eq
    simp
    omega
  · simp at h

theorem curve_some {c f : Byte} {v : Nat} (h : curve c f = some (.fixed v)) : 1 ≤ v ∧ v ≤ 127 := by
  unfold curve at h
  split at h
  · split at h <;> simp at h
  · split at h <;> simp at h
  · split at h <;> simp at h
  · simp only [Option.map_eq_some_iff, Curve.fixed.injEq] at h
    obtain ⟨w, hw, rfl⟩ := h
    exact numIn_some hw
  · simp at h

theorem rampTargetOf_some {r t : Nat} {x : Option Nat} (h : rampTargetOf r t = some x) :
    (x.isSome ↔ 0 < r) ∧ ∀ v, x = some v → Config.tempoMin ≤ v ∧ v ≤ Config.tempoMax := by
  unfold rampTargetOf at h
  split at h
  · rename_i hr
    split at h
    · obtain rfl : none = x := by simpa using h
      exact ⟨by simp [hr], fun v hv => by simp at hv⟩
    · simp at h
  · simp only [Option.map_eq_some_iff] at h
    obtain ⟨w, hw, rfl⟩ := h
    refine ⟨by simp; omega, fun v hv => ?_⟩
    obtain rfl : w = v := by simpa using hv
    exact tempoIn_some hw

theorem segmentRecord_ok {f : List Byte} {x : Segment} (h : segmentRecord f = some x) : SegmentOk x := by
  unfold segmentRecord at h
  split at h
  · simp only [Option.bind_eq_bind, Option.bind_eq_some_iff] at h
    obtain ⟨n, hn, d, hd, t, ht, r, hr, g, hg, h⟩ := h
    split at h
    · rename_i hb
      simp only [Option.some.injEq] at h
      subst h
      exact ⟨hb, ⟨(numIn_some hn).1, (numIn_some hn).2, denominator_some hd⟩, tempoIn_some ht,
        ⟨(numIn_some hr).2, (rampTargetOf_some hg).1⟩, (rampTargetOf_some hg).2⟩
    · simp at h
  · simp at h

theorem zoneRecord_ok {f : List Byte} {z : Zone} (h : zoneRecord f = some z) : ZoneOk z := by
  unfold zoneRecord at h
  split at h
  · obtain ⟨i, hi, h⟩ := bind_some h
    obtain ⟨sc, -, h⟩ := bind_some h
    obtain ⟨kl, -, h⟩ := bind_some h
    obtain ⟨kh, hkh, h⟩ := bind_some h
    obtain ⟨vl, hvl, h⟩ := bind_some h
    obtain ⟨vh, hvh, h⟩ := bind_some h
    obtain ⟨dir, -, h⟩ := bind_some h
    obtain ⟨p, -, h⟩ := bind_some h
    obtain ⟨c, -, h⟩ := bind_some h
    obtain ⟨tr, htr, h⟩ := bind_some h
    obtain ⟨cv, hcv, h⟩ := bind_some h
    obtain ⟨sca, hsca, h⟩ := bind_some h
    obtain ⟨off, hoff, h⟩ := bind_some h
    obtain ⟨pm, -, h⟩ := bind_some h
    obtain ⟨fw, -, h⟩ := bind_some h
    split at h
    · rename_i hr
      simp only [Option.some.injEq] at h
      subst h
      exact ⟨inputSet_some hi, ⟨hr.1, (numIn_some hkh).2⟩, ⟨(numIn_some hvl).1, hr.2, (numIn_some hvh).2⟩,
        signedIn_some htr, fun v hv => curve_some (by rw [hcv, ← hv]), numIn_some hsca, signedIn_some hoff⟩
    · simp at h
  · simp at h

theorem assignmentRecord_ok {f : List Byte} {a : Assignment} (h : assignmentRecord f = some a) : AssignmentOk a := by
  have part : ∀ {b : Byte} {x : Option Nat}, orAbsent (numIn 0 127) b = some x → ∀ v, x = some v → v ≤ 127 := by
    intro b x hx v hv
    rcases opt_iff.1 hx with ⟨-, rfl⟩ | ⟨-, hb, rfl⟩
    · cases hv
    · cases hv; exact hb
  unfold assignmentRecord at h
  split at h
  · obtain ⟨p, -, h⟩ := bind_some h
    obtain ⟨c, -, h⟩ := bind_some h
    obtain ⟨m, hm, h⟩ := bind_some h
    obtain ⟨l, hl, h⟩ := bind_some h
    obtain ⟨n, hn, h⟩ := bind_some h
    simp only [Option.some.injEq] at h
    subst h
    exact ⟨part hm, part hl, (numIn_some hn).2⟩
  · simp at h

theorem sceneHeader_ok {f : List Byte} {sc : Scene} (h : sceneHeader f = some sc) : SceneOk sc := by
  unfold sceneHeader at h
  split at h
  · simp only [Option.bind_eq_bind, Option.bind_eq_some_iff] at h
    obtain ⟨t, -, n, hn, h⟩ := h
    simp only [Option.some.injEq] at h
    subst h
    obtain ⟨ht, rfl⟩ := text_iff.1 hn
    exact ⟨ht, ⟨Nat.zero_le _, by simp⟩, ⟨Nat.zero_le _, by simp⟩, by simp⟩
  · simp at h

theorem songHeader_ok {f : List Byte} {n : SlotNo} {g : Song} (h : songHeader f = some (n, g)) : SongOk g := by
  unfold songHeader at h
  split at h
  · simp only [Option.bind_eq_bind, Option.bind_eq_some_iff] at h
    obtain ⟨k, -, c, hc, m, -, ph, hph, sb, hsb, t, ht, h⟩ := h
    simp only [Option.some.injEq, Prod.mk.injEq] at h
    obtain ⟨-, rfl⟩ := h
    obtain ⟨hname, rfl⟩ := text_iff.1 ht
    exact ⟨hname, (numIn_some hc).2, phraseLength_some hph, fun b hb => stopBarOf_some (by rw [hsb, ← hb]),
      ⟨Nat.zero_le _, by simp⟩, by simp, by simp, ⟨Nat.zero_le _, by simp⟩⟩
  · simp at h

/-! ### Building steps -/

theorem addSegment_ok {g : Song} {x : Segment} (hg : SongOk g) (hx : SegmentOk x)
    (hroom : ¬ Config.segmentMax ≤ g.segments.length) (hord : g.inOrder x = true) :
    SongOk { g with segments := g.segments ++ [x] } := by
  have hlast : ∀ y ∈ g.segments, y.startBar < x.startBar := by
    intro y hy
    unfold Song.inOrder at hord
    split at hord
    · rename_i hn
      simp only [List.getLast?_eq_none_iff] at hn
      simp [hn] at hy
    · rename_i z hz
      have hzx : z.startBar < x.startBar := by simpa using hord
      obtain ⟨ys, hys⟩ := List.getLast?_eq_some_iff.1 hz
      have hp := hg.rising
      rw [hys] at hp hy
      rcases List.mem_append.1 hy with hy | hy
      · simp only [List.map_append, List.pairwise_append] at hp
        exact lt_trans (hp.2.2 _ (List.mem_map_of_mem hy) z.startBar (by simp)) hzx
      · obtain rfl : y = z := by simpa using hy
        exact hzx
  refine ⟨hg.name, hg.countIn, hg.phrase, hg.stopBar, ⟨?_, ?_⟩, ?_, ?_, hg.scenes⟩
  · simpa using hroom
  · intro y hy
    rcases List.mem_append.1 hy with hy | hy
    · exact hg.segments.2 y hy
    · obtain rfl : y = x := by simpa using hy
      exact hx
  · rw [List.map_append, List.pairwise_append]
    refine ⟨hg.rising, by simp, ?_⟩
    intro a ha b hb
    obtain ⟨y, hy, rfl⟩ := List.mem_map.1 ha
    obtain rfl : b = x.startBar := by simpa using hb
    exact hlast y hy
  · intro y hy
    cases hs : g.segments with
    | nil =>
      simp only [hs, List.nil_append, List.head?_cons, Option.some.injEq] at hy
      subst hy
      simpa [Song.inOrder, hs] using hord
    | cons z zs =>
      apply hg.first
      simpa [hs] using hy

theorem addScene_ok {g : Song} {sc : Scene} (hg : SongOk g) (hs : SceneOk sc)
    (hroom : ¬ Config.sceneMax ≤ g.scenes.length) : SongOk { g with scenes := g.scenes ++ [sc] } := by
  refine ⟨hg.name, hg.countIn, hg.phrase, hg.stopBar, hg.segments, hg.rising, hg.first, ⟨by simpa using hroom, ?_⟩⟩
  intro y hy
  rcases List.mem_append.1 hy with hy | hy
  · exact hg.scenes.2 y hy
  · obtain rfl : y = sc := by simpa using hy
    exact hs

theorem setScene_ok {g : Song} {sc : Scene} (k : Nat) (hg : SongOk g) (hs : SceneOk sc) :
    SongOk { g with scenes := g.scenes.set k sc } := by
  refine ⟨hg.name, hg.countIn, hg.phrase, hg.stopBar, hg.segments, hg.rising, hg.first,
    ⟨by simpa using hg.scenes.1, ?_⟩⟩
  intro y hy
  rcases List.mem_or_eq_of_mem_set hy with hy | rfl
  · exact hg.scenes.2 y hy
  · exact hs

theorem addZone_ok {sc : Scene} {z : Zone} (h : SceneOk sc) (hz : ZoneOk z)
    (hroom : ¬ Config.sceneListMax ≤ sc.zones.length) : SceneOk { sc with zones := sc.zones ++ [z] } := by
  refine ⟨h.name, ⟨by simpa using hroom, ?_⟩, h.assignments, h.pairs⟩
  intro y hy
  rcases List.mem_append.1 hy with hy | hy
  · exact h.zones.2 y hy
  · obtain rfl : y = z := by simpa using hy
    exact hz

theorem addAssignment_ok {sc : Scene} {a : Assignment} (h : SceneOk sc) (ha : AssignmentOk a)
    (hnew : sc.placeOf a = none) (hroom : ¬ Config.sceneListMax ≤ sc.assignments.length) :
    SceneOk { sc with assignments := sc.assignments ++ [a] } := by
  refine ⟨h.name, h.zones, ⟨by simpa using hroom, fun x hx => ?_⟩, ?_⟩
  · rcases List.mem_append.1 hx with hx | hx
    · exact h.assignments.2 x hx
    · obtain rfl : x = a := by simpa using hx
      exact ha
  rw [List.map_append, List.nodup_append]
  refine ⟨h.pairs, by simp, ?_⟩
  intro x hx y hy
  obtain ⟨b, hb, rfl⟩ := List.mem_map.1 hx
  obtain rfl : y = (a.port, a.chan) := by simpa using hy
  have := List.findIdx?_eq_none_iff.1 hnew b hb
  simp only [decide_eq_false_iff_not] at this
  simpa using this

theorem setAssignment_ok {sc : Scene} {a : Assignment} {i : Nat} (h : SceneOk sc) (ha : AssignmentOk a)
    (hold : sc.placeOf a = some i) :
    SceneOk { sc with assignments := sc.assignments.set i a } := by
  obtain ⟨hi, hp, -⟩ := List.findIdx?_eq_some_iff_getElem.1 hold
  refine ⟨h.name, h.zones, ⟨by simpa using h.assignments.1, fun x hx => ?_⟩, ?_⟩
  · rcases List.mem_or_eq_of_mem_set hx with hx | rfl
    · exact h.assignments.2 x hx
    · exact ha
  have he : (sc.assignments.set i a).map (fun x => (x.port, x.chan)) = sc.assignments.map (fun x => (x.port, x.chan)) := by
    rw [List.map_set]
    simp only [decide_eq_true_eq] at hp
    rw [← hp.1, ← hp.2]
    have : (sc.assignments[i].port, sc.assignments[i].chan) =
        (sc.assignments.map (fun x => (x.port, x.chan)))[i]'(by simpa using hi) := by simp
    rw [this, List.set_getElem_self]
  rw [he]
  exact h.pairs

/-! ### Pool items -/

/-- Replacing one element moves a sum by the difference of the two. -/
theorem sum_map_set {α : Type} (f : α → Nat) (y : α) : ∀ (xs : List α) (k : Nat) (x : α), xs[k]? = some x →
    ((xs.set k y).map f).sum + f x = (xs.map f).sum + f y
  | [], _, _, h => by simp at h
  | a :: xs, 0, x, h => by
    obtain rfl : a = x := by simpa using h
    simp only [List.set_cons_zero, List.map_cons, List.sum_cons]
    omega
  | a :: xs, k + 1, x, h => by
    have := sum_map_set f y xs k x (by simpa using h)
    simp only [List.set_cons_succ, List.map_cons, List.sum_cons]
    omega

/-- A song that SONG_OPEN makes holds nothing but its header. -/
theorem songHeader_new {f : List Byte} {n : SlotNo} {g : Song} (h : songHeader f = some (n, g)) :
    g.segments = [] ∧ g.scenes = [] := by
  unfold songHeader at h
  split at h
  · obtain ⟨_, _, h⟩ := bind_some h
    obtain ⟨_, _, h⟩ := bind_some h
    obtain ⟨_, _, h⟩ := bind_some h
    obtain ⟨_, _, h⟩ := bind_some h
    obtain ⟨_, _, h⟩ := bind_some h
    obtain ⟨_, _, h⟩ := bind_some h
    simp only [Option.some.injEq, Prod.mk.injEq] at h
    obtain ⟨rfl, rfl⟩ := h
    exact ⟨rfl, rfl⟩
  · cases h

/-- A scene that SCENE_BEGIN makes holds nothing. -/
theorem sceneHeader_new {f : List Byte} {sc : Scene} (h : sceneHeader f = some sc) :
    sc.zones = [] ∧ sc.assignments = [] := by
  unfold sceneHeader at h
  split at h
  · obtain ⟨_, _, h⟩ := bind_some h
    obtain ⟨_, _, h⟩ := bind_some h
    simp only [Option.some.injEq] at h
    subst h
    exact ⟨rfl, rfl⟩
  · cases h

end Sys2Proof.Laws
end

