-- ==== Sys2Proof/Laws/Owners.lean ====
section
/-! SUPPORT. Which fields a request's owner, the taking of a frame and a whole command can touch. -/

namespace Sys2Proof.Laws

open Sys2Proof.Machine

/-- A change of one slot that a library request makes: a safe slot stays safe, an item is taken only while the pool holds one
(R104), a link that comes to own the slot owned none (R105), and a song that is IN USE keeps its slot (R101). -/
structure SlotEdit (s : State) (n : SlotNo) (x : Slot) : Prop where
  safe : SlotOk (s.slot n) → SlotOk x
  zones : x.zoneItems ≤ (s.slot n).zoneItems ∨ x.zoneItems ≤ (s.slot n).zoneItems + 1 ∧ s.zoneFree ≠ 0
  programs : x.programItems ≤ (s.slot n).programItems ∨ x.programItems ≤ (s.slot n).programItems + 1 ∧ s.programFree ≠ 0
  owner : ∀ l, x.ownedBy l = true → (s.slot n).ownedBy l = true ∨ s.ownedSlot l = none
  idle : ∀ g, s.slot n = .ready g → s.inUse n = false

/-- What the owners of the requests write disturbs a property no more than what a cue writes (R182). -/
structure OwnerFree (P : State → Prop) : Prop extends CueFree P where
  library : ∀ s n x, SlotEdit s n x → P s → P (s.setSlot n x)
  insert : ∀ s p n, p ≤ s.setlist.length → P s →
    P (mapPositions (raiseFrom p) { s with setlist := s.setlist.take p ++ n :: s.setlist.drop p })
  remove : ∀ s p, p < s.setlist.length → s.protectedPosition p = false → P s →
    P (mapPositions (lowerAbove p) { s with setlist := s.setlist.take p ++ s.setlist.drop (p + 1) })
  clear : ∀ s, s.curPos = none → s.cue = none → P s → P { s with setlist := [] }
  foots : ∀ s x, P s → P { s with foots := x }
  panics : ∀ s x, P s → P { s with panicCount := x }
  masked : ∀ s l (m : BitVec 13), P s → P (s.setLink l { s.link l with
    mask := m, notices := (s.link l).notices.filter (fun e => m.getLsbD e.notice.kind.bit) })
  cleared : ∀ s, P s → P (clearGroup .global s)

/-- A property that nothing but the queue of commands, the initialisation and the straps can disturb. -/
structure AllFree (P : State → Prop) : Prop extends CueFree P where
  library : ∀ s n x, SlotEdit s n x → P s → P (s.setSlot n x)
  insert : ∀ s p n, p ≤ s.setlist.length → P s →
    P (mapPositions (raiseFrom p) { s with setlist := s.setlist.take p ++ n :: s.setlist.drop p })
  remove : ∀ s p, p < s.setlist.length → s.protectedPosition p = false → P s →
    P (mapPositions (lowerAbove p) { s with setlist := s.setlist.take p ++ s.setlist.drop (p + 1) })
  clear : ∀ s, s.curPos = none → s.cue = none → P s → P { s with setlist := [] }
  foots : ∀ s x, P s → P { s with foots := x }
  panics : ∀ s x, P s → P { s with panicCount := x }
  now : ∀ s x, P s → P { s with now := x }
  progMem : ∀ s x, P s → P { s with progMem := x }
  links : ∀ s l x, P s → P (s.setLink l x)

theorem AllFree.send {P : State → Prop} (h : AllFree P) : SendFree P :=
  { toOutFree := h.toOutFree, changeover := h.changeover, progMem := h.progMem }

theorem AllFree.owner {P : State → Prop} (h : AllFree P) : OwnerFree P :=
  { toCueFree := h.toCueFree, library := h.library, insert := h.insert, remove := h.remove,
    clear := h.clear, foots := h.foots, panics := h.panics,
    masked := fun s l _ hs => h.links s l _ hs,
    cleared := fun s hs => h.panics { (s.setLink .a s.linkA.clearCounters).setLink .b s.linkB.clearCounters with
        stealCount := 0 } 0
      (h.steals ((s.setLink .a s.linkA.clearCounters).setLink .b s.linkB.clearCounters) 0
        (h.links _ .b _ (h.links s .a _ hs))) }

section
variable {P : State → Prop}

/-! ### Owners -/

theorem changeSlot_closed (h : OwnerFree P) (l : Link) (n : SlotNo) (x : Slot) {s : State}
    (hx : SlotEdit s n x) (hs : P s) : P (changeSlot l n x s) := h.offered _ _ _ (h.library _ _ _ hx hs)

theorem songOpen_closed (h : OwnerFree P) (l : Link) (f : List Byte) {s : State} (hs : P s) : P (songOpen l f s).1 := by
  unfold songOpen
  split
  · exact hs
  · rename_i n g hg
    have hok : SlotOk (.building l g none) := ⟨songHeader_ok hg, by simp⟩
    obtain ⟨_, hno⟩ := songHeader_new hg
    split
    · exact hs
    · rename_i hfree
      have edit : (∀ g', s.slot n = .ready g' → s.inUse n = false) → SlotEdit s n (.building l g none) := fun hi =>
        { safe := fun _ => hok
          zones := .inl (by simp [Slot.zoneItems, hno])
          programs := .inl (by simp [Slot.programItems, hno])
          owner := fun m hm => .inr (by
            obtain rfl : l = m := by simpa [Slot.ownedBy] using hm
            simpa using hfree)
          idle := hi }
      split
      · exact hs
      · split
        · exact hs
        · rename_i hin
          exact changeSlot_closed h _ _ _ (edit (fun _ _ => by simpa using hin)) hs
      · rename_i hslot
        exact changeSlot_closed h _ _ _ (edit (fun _ hr => by rw [hslot] at hr; cases hr)) hs

theorem slotEdit_empty {s : State} {n : SlotNo} (h : ∀ g, s.slot n = .ready g → s.inUse n = false) :
    SlotEdit s n .empty :=
  { safe := fun _ => trivial, zones := .inl (Nat.zero_le _), programs := .inl (Nat.zero_le _),
    owner := fun _ hm => by simp [Slot.ownedBy] at hm, idle := h }

theorem songErase_closed (h : OwnerFree P) (l : Link) (f : List Byte) {s : State} (hs : P s) :
    P (songErase l f s).1 := by
  unfold songErase
  split
  · split
    · exact hs
    · split
      · exact hs
      · rename_i hslot
        split
        · exact changeSlot_closed h _ _ _ (slotEdit_empty (fun _ hr => by rw [hslot] at hr; cases hr)) hs
        · exact hs
      · split
        · exact hs
        · rename_i hin
          exact changeSlot_closed h _ _ _ (slotEdit_empty (fun _ _ => by simpa using hin)) hs
  · exact hs

/-- A link owns the slot it is found to own (R105). -/
theorem ownedSlot_owned {s : State} {l : Link} {n : SlotNo} (h : s.ownedSlot l = some n) : (s.slot n).ownedBy l = true :=
  List.find?_some (p := fun n => (s.slot n).ownedBy l) h

/-- The OPEN song of a link stands in the slot it is found in. -/
theorem ownedSong_slot {s : State} {l : Link} {n : SlotNo} {g : Song} {c : Option Nat}
    (h : s.ownedSong l = some (n, g, c)) : s.slot n = .building l g c := by
  unfold State.ownedSong at h
  split at h
  · simp at h
  · rename_i m hm
    have ho := ownedSlot_owned hm
    split at h
    · rename_i o _ _ hslot
      simp only [Option.some.injEq, Prod.mk.injEq] at h
      obtain ⟨rfl, rfl, rfl⟩ := h
      rw [hslot] at ho
      obtain rfl : o = l := by simpa [Slot.ownedBy] using ho
      exact hslot
    · simp at h

theorem ownedScene_slot {s : State} {l : Link} {n : SlotNo} {g : Song} {k : Nat} {sc : Scene}
    (h : s.ownedScene l = some (n, g, k, sc)) : s.slot n = .building l g (some k) ∧ g.scenes[k]? = some sc := by
  unfold State.ownedScene at h
  split at h
  · rename_i n' g' k' hs
    simp only [Option.map_eq_some_iff, Prod.mk.injEq] at h
    obtain ⟨sc', hsc, rfl, rfl, rfl, rfl⟩ := h
    exact ⟨ownedSong_slot hs, hsc⟩
  · simp at h

/-- What its owner does to an OPEN slot is an edit of it. -/
theorem slotEdit_open {s : State} {l : Link} {n : SlotNo} {g : Song} {c : Option Nat} {x : Slot}
    (h : s.slot n = .building l g c) (safe : SlotOk (s.slot n) → SlotOk x)
    (zones : x.zoneItems ≤ (s.slot n).zoneItems ∨ x.zoneItems ≤ (s.slot n).zoneItems + 1 ∧ s.zoneFree ≠ 0)
    (programs : x.programItems ≤ (s.slot n).programItems ∨
      x.programItems ≤ (s.slot n).programItems + 1 ∧ s.programFree ≠ 0)
    (owner : ∀ m, x.ownedBy m = true → l = m) : SlotEdit s n x :=
  { safe, zones, programs
    owner := fun m hm => .inl (by
      obtain rfl := owner m hm
      rw [h]
      simp [Slot.ownedBy])
    idle := fun _ hr => by rw [h] at hr; cases hr }

theorem songSegment_closed (h : OwnerFree P) (l : Link) (f : List Byte) {s : State} (hs : P s) :
    P (songSegment l f s).1 := by
  unfold songSegment
  split
  · exact hs
  · rename_i n g c hown
    have hslot := ownedSong_slot hown
    split
    · exact hs
    · rename_i x hx
      split
      · exact hs
      · rename_i hroom
        split
        · rename_i hord
          refine h.library s n _ (slotEdit_open hslot (fun hok => ?_) ?_ ?_ ?_) hs
          · rw [hslot] at hok
            exact ⟨addSegment_ok hok.1 (segmentRecord_ok hx) hroom hord, hok.2⟩
          · exact .inl (by rw [hslot]; exact Nat.le_refl _)
          · exact .inl (by rw [hslot]; exact Nat.le_refl _)
          · simp [Slot.ownedBy]
        · exact hs

theorem sceneBegin_closed (h : OwnerFree P) (l : Link) (f : List Byte) {s : State} (hs : P s) :
    P (sceneBegin l f s).1 := by
  unfold sceneBegin
  split
  · exact hs
  · rename_i n g c hown
    have hslot := ownedSong_slot hown
    split
    · exact hs
    · rename_i x hx
      obtain ⟨hz, ha⟩ := sceneHeader_new hx
      split
      · exact hs
      · rename_i hroom
        refine h.library s n _ (slotEdit_open hslot (fun hok => ?_) ?_ ?_ ?_) hs
        · rw [hslot] at hok
          exact ⟨addScene_ok hok.1 (sceneHeader_ok hx) hroom, by simp⟩
        · exact .inl (by rw [hslot]; simp [Slot.zoneItems, hz])
        · exact .inl (by rw [hslot]; simp [Slot.programItems, ha])
        · simp [Slot.ownedBy]

/-- Replacing the scene under the cursor by a safe one, with at most one item more, edits the slot. -/
theorem putScene_closed (h : OwnerFree P) (l : Link) {n : SlotNo} {g : Song} {k : Nat} {sc : Scene} (sc' : Scene)
    {s : State} (hown : s.ownedScene l = some (n, g, k, sc)) (hsc : SceneOk sc → SceneOk sc')
    (hz : sc'.zones.length ≤ sc.zones.length ∨ sc'.zones.length ≤ sc.zones.length + 1 ∧ s.zoneFree ≠ 0)
    (ha : sc'.assignments.length ≤ sc.assignments.length ∨
      sc'.assignments.length ≤ sc.assignments.length + 1 ∧ s.programFree ≠ 0) (hs : P s) :
    P (putScene l n g k sc' s) := by
  obtain ⟨hslot, hk⟩ := ownedScene_slot hown
  have ez := sum_map_set (fun sc : Scene => sc.zones.length) sc' g.scenes k sc hk
  have ea := sum_map_set (fun sc : Scene => sc.assignments.length) sc' g.scenes k sc hk
  refine h.library s n _ (slotEdit_open hslot (fun hok => ?_) ?_ ?_ ?_) hs
  · rw [hslot] at hok
    refine ⟨setScene_ok k hok.1 (hsc (hok.1.scenes.2 sc (List.mem_of_getElem? hk))), ?_⟩
    simpa using hok.2
  · rw [hslot]
    dsimp only [Slot.zoneItems]
    rcases hz with hz | ⟨hz, hf⟩
    · left
      omega
    · exact .inr ⟨by omega, hf⟩
  · rw [hslot]
    dsimp only [Slot.programItems]
    rcases ha with ha | ⟨ha, hf⟩
    · left
      omega
    · exact .inr ⟨by omega, hf⟩
  · simp [Slot.ownedBy]

theorem sceneZone_closed (h : OwnerFree P) (l : Link) (f : List Byte) {s : State} (hs : P s) :
    P (sceneZone l f s).1 := by
  unfold sceneZone
  split
  · exact hs
  · rename_i n g k sc hown
    split
    · exact hs
    · rename_i z hz
      split
      · exact hs
      · rename_i hroom
        split
        · exact hs
        · rename_i hpool
          exact putScene_closed h l _ hown (fun hsc => addZone_ok hsc (zoneRecord_ok hz) hroom)
            (.inr ⟨by simp, hpool⟩) (.inl (Nat.le_refl _)) hs

theorem sceneProgram_closed (h : OwnerFree P) (l : Link) (f : List Byte) {s : State} (hs : P s) :
    P (sceneProgram l f s).1 := by
  unfold sceneProgram
  split
  · exact hs
  · rename_i n g k sc hown
    split
    · exact hs
    · rename_i a ha
      split
      · rename_i i hold
        exact putScene_closed h l _ hown (fun hsc => setAssignment_ok hsc (assignmentRecord_ok ha) hold) (.inl (Nat.le_refl _))
          (.inl (by simp)) hs
      · rename_i hnew
        split
        · exact hs
        · rename_i hroom
          split
          · exact hs
          · rename_i hpool
            exact putScene_closed h l _ hown (fun hsc => addAssignment_ok hsc (assignmentRecord_ok ha) hnew hroom) (.inl (Nat.le_refl _))
              (.inr ⟨by simp, hpool⟩) hs

theorem songClose_closed (h : OwnerFree P) (l : Link) {s : State} (hs : P s) : P (songClose l s).1 := by
  unfold songClose
  split
  · exact hs
  · rename_i n g c hown
    have hslot := ownedSong_slot hown
    split
    · exact hs
    · rename_i hclose
      refine changeSlot_closed h _ _ _ (slotEdit_open hslot (fun hok => ?_) ?_ ?_ ?_) hs
      · rw [hslot] at hok
        exact ⟨hok.1, hclose⟩
      · exact .inl (by rw [hslot]; exact Nat.le_refl _)
      · exact .inl (by rw [hslot]; exact Nat.le_refl _)
      · simp [Slot.ownedBy]

theorem songQuery_closed (f : List Byte) {s : State} (hs : P s) : P (songQuery f s).1 := by
  unfold songQuery
  repeat' split
  all_goals exact hs

theorem mapPositions_closed (hs : ∀ s x y, P s → P { s with curPos := x, curScene := y })
    (hc : ∀ s x y, P s → P { s with cue := x, departure := y }) (hr : ∀ s x, P s → P { s with changeover := x })
    (f : Nat → Nat) {s : State} (h : P s) : P (mapPositions f s) := by
  unfold mapPositions
  have h1 := hs s (s.curPos.map f) s.curScene h
  have h2 := hc _ (s.cue.map (fun c => { c with position := f c.position })) s.departure h1
  exact hr _ _ h2

theorem setInsert_closed (h : OwnerFree P) (f : List Byte) {s : State} (hs : P s) : P (setInsert f s).1 := by
  unfold setInsert
  split
  · split
    · split
      · exact hs
      · split
        · exact hs
        · rename_i hp _
          exact h.insert s _ _ (Nat.le_of_not_lt hp) hs
    · exact hs
  · exact hs

theorem setRemove_closed (h : OwnerFree P) (f : List Byte) {s : State} (hs : P s) : P (setRemove f s).1 := by
  unfold setRemove
  split
  · split
    · exact hs
    · split
      · exact hs
      · split
        · exact hs
        · rename_i hp hprot
          exact h.remove s _ (Nat.lt_of_not_le hp) (by simpa using hprot) hs
  · exact hs

theorem setClear_closed (h : OwnerFree P) {s : State} (hs : P s) : P (setClear s).1 := by
  unfold setClear
  split
  · exact hs
  · rename_i hc
    simp only [Bool.or_eq_true, not_or, Option.isSome_iff_ne_none, ne_eq, not_not] at hc
    exact h.clear s hc.1 hc.2 hs

theorem cueRequest_closed (h : CueFree P) (l : Link) (f : List Byte) {s : State} (hs : P s) :
    P (cueRequest l f s).1 := by
  unfold cueRequest
  split
  · split
    · rename_i form timing _ _
      have h1 := takeCue_closed h { claimant := claimantOf l, form := form, timing := timing, source := .link l } hs
      split <;> rename_i heq <;> rw [heq] at h1 <;> exact h1
    · exact hs
  · exact hs

theorem cueCancel_closed (h : CueFree P) (l : Link) {s : State} (hs : P s) : P (cueCancel l s).1 := by
  unfold cueCancel
  split
  · split
    · exact raise_closed h.offered _ (h.cancel s hs)
    · exact hs
  · split
    · exact hs
    · exact hs

/-- An audition's trigger goes to a scene of the current song (R151, R152). -/
theorem stays_audition {s : State} (l : Link) (m : Mark) {p n : Nat} {k : SlotNo} (hp : s.curPos = some p)
    (hk : s.currentSlot = some k) (x : Option Nat) : Stays { s with audition := x } (auditionTrigger l m p k n) where
  position := hp
  slot := by
    unfold State.currentSlot at hk ⊢
    exact hk

theorem auditionRequest_closed (h : CueFree P) (l : Link) (f : List Byte) {s : State} (hs : P s) :
    P (auditionRequest l f s).1 := by
  unfold auditionRequest
  split
  · split
    · exact hs
    · split
      · exact hs
      · split
        · rename_i hp hk
          split
          · dsimp only
            exact h.scene _ _ rfl (stays_audition _ _ hp hk _) (h.audition s _ hs)
          · exact hs
        · exact hs
  · exact hs

theorem auditionEnd_closed (h : CueFree P) (l : Link) {s : State} (hs : P s) : P (auditionEnd l s).1 := by
  unfold auditionEnd
  split
  · exact hs
  · split
    · rename_i hp hk
      dsimp only
      exact h.scene _ _ rfl (stays_audition _ _ hp hk _) (h.audition s _ hs)
    · exact h.audition s _ hs

theorem footswitchSet_closed (h : OwnerFree P) (f : List Byte) {s : State} (hs : P s) : P (footswitchSet f s).1 := by
  have let_go : ∀ n, P (letGo n s) := by
    intro n
    unfold letGo
    split
    · split
      · exact askPedal_closed h.toNoteFree _ _ _ hs
      · exact hs
    · exact hs
  unfold footswitchSet
  split
  · exact hs
  · exact h.foots _ _ (let_go _)

theorem inputSet_closed (h : OwnerFree P) (f : List Byte) {s : State} (hs : P s) : P (inputSetRequest f s).1 := by
  unfold inputSetRequest setWatchOn
  split
  · exact hs
  · dsimp only
    split
    · exact h.inputs _ _ hs
    · split
      · exact raise_closed h.offered _ (h.inputs _ _ (h.inputs _ _ hs))
      · exact h.inputs _ _ (h.inputs _ _ hs)

theorem outputSet_closed (h : OwnerFree P) (f : List Byte) {s : State} (hs : P s) : P (outputSetRequest f s).1 := by
  unfold outputSetRequest
  split
  · exact hs
  · exact h.port _ _ _ (fun q => ⟨q.realtime, q.click, q.note, q.merge, q.grants, q.sweeps, q.programs⟩) hs

theorem clickSet_closed (h : OwnerFree P) (f : List Byte) {s : State} (hs : P s) : P (clickSetRequest f s).1 := by
  unfold clickSetRequest
  split
  · exact hs
  · exact h.click _ _ hs

theorem noticeMask_closed (h : OwnerFree P) (l : Link) (f : List Byte) {s : State} (hs : P s) :
    P (noticeMask l f s).1 := by
  unfold noticeMask
  split
  · split
    · exact hs
    · exact h.masked _ _ _ hs
  · exact hs

theorem linkNote_closed (h : OwnerFree P) (l : Link) (f : List Byte) {s : State} (hs : P s) :
    P (linkNote l f s).1 := by
  unfold linkNote
  split
  · exact hs
  · exact h.offered _ _ _ hs

theorem statusGet_closed (f : List Byte) {s : State} (hs : P s) : P (statusGet f s).1 := by
  unfold statusGet
  repeat' split
  all_goals exact hs

theorem clearGroup_closed (h : OwnerFree P) (g : CounterGroup) {s : State} (hs : P s) : P (clearGroup g s) := by
  cases g with
  | input i => exact h.inputs _ _ hs
  | output p => exact h.port _ _ _ (fun q => ⟨q.realtime, q.click, q.note, q.merge, q.grants, q.sweeps, q.programs⟩) hs
  | global => exact h.cleared _ hs

theorem countersGet_closed (h : OwnerFree P) (f : List Byte) {s : State} (hs : P s) : P (countersGet f s).1 := by
  unfold countersGet
  split
  · split
    · dsimp only
      split
      · exact clearGroup_closed h _ hs
      · exact hs
    · exact hs
  · exact hs

theorem tempoSet_closed (h : BeatFree P) (f : List Byte) {s : State} (hs : P s) : P (tempoSet f s).1 := by
  unfold tempoSet
  split
  · split
    · exact takeTempo_closed h _ _ hs
    · split
      · exact takeTempo_closed h _ _ hs
      · exact hs
  · exact hs

theorem startRequest_closed (h : CueFree P) (l : Link) (f : List Byte) {s : State} (hs : P s) :
    P (startRequest l f s).1 := by
  unfold startRequest
  split
  · split
    · exact startTransport_closed h _ _ hs
    · exact hs
  · exact hs

theorem serve_closed (h : OwnerFree P) (l : Link) (k : ReqKind) (f : List Byte) {s : State} (hs : P s) :
    P (serve l k f s).1 := by
  cases k with
  | start => exact startRequest_closed h.toCueFree l f hs
  | stop => exact stopTransport_closed h.toCueFree _ hs
  | hold => exact holdTransport_closed h.toCueFree _ hs
  | go => exact goTransport_closed h.toCueFree _ hs
  | extend => exact extendBar_closed h.toCueFree _ hs
  | tempoSet => exact tempoSet_closed h.toCueFree.beat f hs
  | tap => exact takeTap_closed h.toCueFree.beat hs
  | clickSet => exact clickSet_closed h f hs
  | songOpen => exact songOpen_closed h l f hs
  | songSegment => exact songSegment_closed h l f hs
  | sceneBegin => exact sceneBegin_closed h l f hs
  | sceneZone => exact sceneZone_closed h l f hs
  | sceneProgram => exact sceneProgram_closed h l f hs
  | songClose => exact songClose_closed h l hs
  | songErase => exact songErase_closed h l f hs
  | songQuery => exact songQuery_closed f hs
  | setInsert => exact setInsert_closed h f hs
  | setRemove => exact setRemove_closed h f hs
  | setClear => exact setClear_closed h hs
  | setQuery => exact hs
  | cue => exact cueRequest_closed h.toCueFree l f hs
  | cueCancel => exact cueCancel_closed h.toCueFree l hs
  | audition => exact auditionRequest_closed h.toCueFree l f hs
  | auditionEnd => exact auditionEnd_closed h.toCueFree l hs
  | outputSet => exact outputSet_closed h f hs
  | inputSet => exact inputSet_closed h f hs
  | footswitchSet => exact footswitchSet_closed h f hs
  | noticeMask => exact noticeMask_closed h l f hs
  | linkNote => exact linkNote_closed h l f hs
  | statusGet => exact statusGet_closed f hs
  | countersGet => exact countersGet_closed h f hs
  | faultGet => exact hs
  | faultClear =>
    dsimp only [serve, faultClear]
    exact h.fault s _ hs
  | panic =>
    dsimp only [serve]
    exact panicAll_closed h.toCueFree h.panics _ hs
  | softReset =>
    dsimp only [serve]
    exact h.soft _ hs

theorem answerFrame_closed (h : OwnerFree P) (l : Link) (f : Frame) {s : State} (hs : P s) :
    P (answerFrame l f s).1 := by
  unfold answerFrame
  split
  · exact hs
  · split
    · exact serve_closed h _ _ _ hs
    · exact hs

/-! ### Frames, bytes and transmitters, for a property that the links cannot disturb -/

theorem countBadFrame_closed (h : AllFree P) (l : Link) {s : State} (hs : P s) : P (countBadFrame l s) :=
  takeFault_closed h.toOutFree _ _ (h.links s l _ hs)

theorem takeFrame_closed (h : AllFree P) (l : Link) (f : Frame) {s : State} (hs : P s) : P (takeFrame l f s) := by
  have h1 : P (countTaken l s) := h.links s l _ hs
  unfold takeFrame
  dsimp only
  split
  · split
    · exact h.links _ l _ h1
    · exact h.links _ l _ (answerFrame_closed h.owner l f h1)
  · exact h.links _ l _ (countBadFrame_closed h l h1)

theorem frameComplete_closed (h : AllFree P) (l : Link) (f : Frame) {s : State} (hs : P s) :
    P (frameComplete l f s) := by
  unfold frameComplete
  split
  · exact takeFrame_closed h l f hs
  · split
    · exact h.links s l _ hs
    · exact takeFault_closed h.toOutFree _ _ (h.links s l _ hs)

theorem dropFrame_closed (h : AllFree P) (l : Link) {s : State} (hs : P s) : P (dropFrame l s) :=
  countBadFrame_closed h l (h.links s l _ hs)

theorem hunt_closed (h : AllFree P) (l : Link) (b : Byte) {s : State} (hs : P s) : P (hunt l b s) := by
  unfold hunt
  split
  · exact h.links s l _ hs
  · exact hs

theorem linkByte_closed (h : AllFree P) (l : Link) (b : Byte) (k : Bool) {s : State} (hs : P s) :
    P (linkByte l b k s) := by
  unfold linkByte
  split
  · unfold takeLinkByte
    split
    · exact hunt_closed h l b hs
    · split
      · exact h.links s l _ hs
      · exact hunt_closed h l b (dropFrame_closed h l hs)
    · split
      · exact h.links s l _ hs
      · exact h.links s l _ hs
    · exact frameComplete_closed h l _ (h.links s l _ hs)
  · split
    · exact hs
    · exact dropFrame_closed h l hs

theorem interByteTimeout_closed (h : AllFree P) (l : Link) {s : State} (hs : P s) : P (interByteTimeout l s) := by
  unfold interByteTimeout
  split
  · exact hs
  · exact dropFrame_closed h l (h.now s _ hs)

theorem takeBuffered_closed (h : AllFree P) (l : Link) {s : State} (hs : P s) : P (takeBuffered l s) := by
  unfold takeBuffered
  split
  · exact hs
  · exact takeFrame_closed h l _ (h.links s l _ hs)

theorem transmitEnd_closed (h : AllFree P) (l : Link) {s : State} (hs : P s) : P (transmitEnd l s) := by
  unfold transmitEnd
  split
  · exact hs
  · dsimp only
    split
    · exact takeBuffered_closed h l (h.links _ l _ (h.now s _ hs))
    · exact h.links _ l _ (h.now s _ hs)

theorem finish_closed (h : AllFree P) {s : State} (hs : P s) : P (finish s) :=
  h.links _ .b _ (h.links _ .a _ (kickPorts_closed h.port h.click hs))

theorem endInstant_closed (h : AllFree P) {s : State} (hs : P s) : P (endInstant s) := by
  unfold endInstant
  split
  · exact h.links _ .b _ (h.links _ .a _ (foldl_closed (fun _ p hs => meetFulls_closed h.send.toOutFree p hs) _ _ hs))
  · exact hs

theorem upTo_closed (h : AllFree P) (due : Option Nat) {s : State} (hs : P s) : P (s.upTo due) := by
  unfold State.upTo
  split
  · exact hs
  · split
    · exact endInstant_closed h hs
    · exact hs

end

end Sys2Proof.Laws
end

