-- ==== Sys2Proof/Laws/Commands.lean ====
section
/-! SUPPORT. What a whole command does: every request command is the arrival of its frame, every command completes, and a property
that no unit disturbs is kept by a command and by a step. -/

namespace Sys2Proof.Laws

open Sys2Proof.Machine

/-! ### Links -/

@[simp] theorem setLink_setLink (s : State) (l : Link) (x y : LinkState) : (s.setLink l x).setLink l y = s.setLink l y := by
  cases l <;> rfl

theorem setLink_self (s : State) (l : Link) : s.setLink l (s.link l) = s := by cases l <;> rfl

/-- A property that no change of a link disturbs survives a notice. -/
theorem raiseOn_free {P : State → Prop} (h : ∀ s l x, P s → P (s.setLink l x)) (l : Link) (n : Notice) (s : State)
    (hs : P s) : P (raiseOn l n s) := by
  unfold raiseOn
  split
  · exact hs
  · exact h _ _ _ hs

/-! ### Frames -/

/-- A frame made of its fields passes its CHECK (R182). -/
theorem mkFrame_ok (kind tag : Byte) (fields : List Byte) : (mkFrame kind tag fields).checkOk = true := by
  apply decide_eq_true
  show frameSum (lenByte fields) kind tag fields + (0#8 - frameSum (lenByte fields) kind tag fields) = 0#8
  generalize frameSum _ _ _ _ = x
  bv_omega

/-- The KIND byte of a request names that request (R197). -/
theorem requestKind_code (k : ReqKind) : requestKind k.code = some k := by cases k <;> decide

/-- A request command is the arrival of its frame (R181). -/
theorem exec_request {c : Instr} {l : Link} {k : ReqKind} {tag : Byte} {fields : List Byte} (s : State)
    (h : requestOf c = some (l, k, tag, fields)) : exec c s = request l k tag fields s := by
  cases c <;> simp only [requestOf, Option.some.injEq, Prod.mk.injEq, reduceCtorEq] at h <;>
    obtain ⟨rfl, rfl, rfl, rfl⟩ := h <;> rfl

/-! ### Properties of single fields -/

/-- No write to the fields a player or a link can move disturbs a property, ports, transport and the links included. -/
structure WriteFree (P : State → Prop) : Prop where
  links : ∀ s l x, P s → P (s.setLink l x)
  port : PortFree P
  held : ∀ s x, P s → P { s with held := x }
  fault : ∀ s x, P s → P { s with faultRecord := x }
  pedals : ∀ s x, P s → P { s with pedals := x }
  steals : ∀ s x, P s → P { s with stealCount := x }
  inputs : ∀ s x, P s → P { s with inputs := x }
  tempo : ∀ s x, P s → P { s with tempo := x }
  transport : TransportFree P
  click : ∀ s x, P s → P { s with click := x }
  live : ∀ s x y, P s → P { s with live := x, liveId := y }
  selection : ∀ s x y, P s → P { s with curPos := x, curScene := y }
  changeover : ∀ s x, P s → P { s with changeover := x }
  progMem : ∀ s x, P s → P { s with progMem := x }
  audition : ∀ s x, P s → P { s with audition := x }
  cue : ∀ s x y, P s → P { s with cue := x, departure := y }

theorem WriteFree.trigger {P : State → Prop} (h : WriteFree P) : TriggerFree P :=
  { toNoteFree := NoteFree.ofHeld
      { offered := raiseOn_free h.links, port := h.port, held := fun s x _ hs => h.held s x hs, fault := h.fault }
      h.held h.pedals h.steals h.inputs
    tempo := h.tempo, transport := h.transport, click := h.click, live := h.live, selection := h.selection,
    changeover := h.changeover, progMem := h.progMem, audition := h.audition }

theorem WriteFree.cueFree {P : State → Prop} (h : WriteFree P) : CueFree P := CueFree.ofTrigger h.trigger h.cue

/-- Nor does a write to the show, the lines, the panic counter or the timebase. -/
structure BlockFree (P : State → Prop) : Prop extends WriteFree P where
  library : ∀ s n x, SlotEdit s n x → P s → P (s.setSlot n x)
  setlist : ∀ s x, P s → P { s with setlist := x }
  foots : ∀ s x, P s → P { s with foots := x }
  panics : ∀ s x, P s → P { s with panicCount := x }
  now : ∀ s x, P s → P { s with now := x }

theorem BlockFree.all {P : State → Prop} (h : BlockFree P) : AllFree P :=
  { toCueFree := h.toWriteFree.cueFree
    library := h.library
    insert := fun s _ _ _ hs => mapPositions_closed h.selection h.cue h.changeover _ (h.setlist s _ hs)
    remove := fun s _ _ _ hs => mapPositions_closed h.selection h.cue h.changeover _ (h.setlist s _ hs)
    clear := fun s _ _ hs => h.setlist s _ hs,
    foots := h.foots, panics := h.panics, now := h.now, progMem := h.progMem, links := h.links }

/-! ### Whole commands -/

/-- The next state of an outcome is one state. -/
theorem outcome_inj {a b : State} (h : (Host.Outcome.next a : Host.Outcome State Fault Refusal) = .next b) :
    a = b := by
  injection h

/-- Every command completes and keeps a property that no unit, no reset and no end of initialisation disturbs. -/
theorem exec_keeps {P : State → Prop} (h : AllFree P) (hreset : ∀ a b s, P s → P (pinResetAll a b s))
    (hend : ∀ s, P s → P (endInitialisation s)) (c : Instr) (s : State) (hs : P s) : ∃ t, exec c s = .next t ∧ P t := by
  have hreq : ∀ l k tag f, ∃ t, request l k tag f s = .next t ∧ P t := fun l k tag f =>
    ⟨_, rfl, finish_closed h (frameComplete_closed h _ _ hs)⟩
  have hh : ∀ f : State → State, P (f s) → ∃ t, happen f s = .next t ∧ P t := fun f hf =>
    ⟨_, rfl, finish_closed h hf⟩
  have ha : ∀ (due : Option Nat) (f : State → State), (∀ u, P u → P (f u)) → ∃ t, happenAt due f s = .next t ∧ P t :=
    fun due f hf => ⟨_, rfl, finish_closed h (hf _ (upTo_closed h due hs))⟩
  cases c
  case pinReset => exact hh _ (hreset _ _ _ hs)
  case initialisationEnd => exact ha _ _ (fun _ hs => hend _ hs)
  case linkByteReceived => exact hh _ (linkByte_closed h _ _ _ hs)
  case linkInterByteTimeout => exact ha _ _ (fun _ hs => interByteTimeout_closed h _ hs)
  case badFrame => exact hh _ (frameComplete_closed h _ _ hs)
  case unknownKind => exact hh _ (frameComplete_closed h _ _ hs)
  case linkTransmitEnd => exact ha _ _ (fun _ hs => transmitEnd_closed h _ hs)
  case inputByteReceived => exact hh _ (inputByte_closed h.toCueFree _ _ _ hs)
  case inputWatchExpiry => exact ha _ _ (fun _ hs => watchExpiry_closed h.toNoteFree h.now _ hs)
  case footswitchLineChange => exact hh _ (lineChange_closed h.foots _ _ hs)
  case footswitchDebounceExpiry => exact ha _ _ (fun _ hs => debounceExpiry_closed h.toCueFree h.panics h.now h.foots _ hs)
  case gridStepEnd => exact ha _ _ (fun _ hs => stepEnds_closed h.toCueFree h.now hs)
  case clickGateExpiry => exact ha _ _ (fun _ hs => gateExpiry_closed h.toCueFree.beat h.now _ _ _ hs)
  case outputItemEnd => exact ha _ _ (fun _ hs => itemEnd_closed h.record h.port h.now _ hs)
  case settleTimerExpiry => exact ha _ _ (fun _ hs => settleExpiry_closed h.record h.port h.now _ hs)
  case keepAliveExpiry => exact ha _ _ (fun _ hs => keepAliveExpiry_closed h.port h.now _ hs)
  case controllerIntervalExpiry => exact ha _ _ (fun _ hs => intervalExpiry_closed h.now _ hs)
  all_goals exact hreq _ _ _ _

/-- A step keeps such a property. -/
theorem step_keeps {P : State → Prop} (h : AllFree P) (hreset : ∀ a b s, P s → P (pinResetAll a b s))
    (hend : ∀ s, P s → P (endInitialisation s)) (hp : ∀ s x, P s → P { s with pending := x })
    (s t : State) (hs : P s) (hst : step s = .next t) : P t := by
  unfold step at hst
  split at hst
  · obtain rfl := outcome_inj hst
    exact h.now _ _ (endInstant_closed h hs)
  · obtain ⟨u, hu, hPu⟩ := exec_keeps h hreset hend _ _ (hp s _ hs)
    rw [hu] at hst
    obtain rfl := outcome_inj hst
    exact hPu

/-! ### One port, one slot -/

theorem portOk_set (s : State) (p : Port) (x : PortState) (hx : PortOk (s.port p) → PortOk x) (h : PortsOk s) :
    PortsOk (s.setPort p x) := by
  intro q
  by_cases e : q = p
  · subst e; rw [port_setPort]; exact hx (h q)
  · rw [port_setPort_ne _ _ _ _ e]; exact h q

theorem slotOk_set (s : State) (n : SlotNo) (x : Slot) (hx : SlotOk (s.slot n) → SlotOk x) (h : LibraryOk s) :
    LibraryOk (s.setSlot n x) := by
  intro m
  by_cases e : m = n
  · subst e; rw [slot_setSlot]; exact hx (h m)
  · rw [slot_setSlot_ne _ _ _ _ e]; exact h m

end Sys2Proof.Laws
end

