-- ==== Sys2Proof/Laws/Trigger.lean ====
section
/-! SUPPORT. What the owner of a request finds and answers, and what a trigger leaves: the selection, the live table and its
identity, the departure record, and the fields it never touches (R131, R139, R140). -/

namespace Sys2Proof.Laws

open Sys2Proof.Machine

/-! ### A request that is taken at once -/

/-- A request whose LEN fits and that is taken at once is answered by its owner (R181, R182). -/
theorem served {c : Instr} {l : Link} {k : ReqKind} {tag : Byte} {fields : List Byte} (s : State)
    (hc : requestOf c = some (l, k, tag, fields)) (hk : k.fits (lenByte fields) = true) (ht : Takes l s) :
    exec c s = answered l k tag (serve l k fields (found l s)).2 (serve l k fields (found l s)).1 := by
  rw [exec_request s hc]
  unfold request frameComplete
  rw [if_pos ht.2]
  unfold takeFrame
  simp only [mkFrame_ok, if_true]
  have hi : (countTaken l s).init = none := by simp [countTaken, ht.1]
  rw [if_neg (by simp [hi])]
  unfold answerFrame
  simp only [mkFrame, requestKind_code]
  simp [hk, answered, found]

/-- A request whose LEN does not fit is refused BAD_FIELD (R182 check 4). -/
theorem served_unfit {c : Instr} {l : Link} {k : ReqKind} {tag : Byte} {fields : List Byte} (s : State)
    (hc : requestOf c = some (l, k, tag, fields)) (hk : k.fits (lenByte fields) = false) (ht : Takes l s) :
    exec c s = refusedWith l k tag .badField s := by
  rw [exec_request s hc]
  unfold request frameComplete
  rw [if_pos ht.2]
  unfold takeFrame
  simp only [mkFrame_ok, if_true]
  have hi : (countTaken l s).init = none := by simp [countTaken, ht.1]
  rw [if_neg (by simp [hi])]
  unfold answerFrame
  simp only [mkFrame, requestKind_code]
  simp [hk, refusedWith, answered, found]

/-- The LEN byte of a field list that fits a frame. -/
theorem lenByte_toNat {fields : List Byte} (h : fields.length ≤ 58) : (lenByte fields).toNat = fields.length + 2 := by
  simp [lenByte, b1]
  omega

section
variable (l : Link) (s : State)

@[simp] theorem found_transport : (found l s).transport = s.transport := by cases l <;> rfl
@[simp] theorem found_now : (found l s).now = s.now := by cases l <;> rfl
@[simp] theorem found_tempo : (found l s).tempo = s.tempo := by cases l <;> rfl
@[simp] theorem found_cue : (found l s).cue = s.cue := by cases l <;> rfl
@[simp] theorem found_departure : (found l s).departure = s.departure := by cases l <;> rfl
@[simp] theorem found_port (p : Port) : (found l s).port p = s.port p := by cases l <;> rfl
@[simp] theorem found_ports : (found l s).ports = s.ports := by cases l <;> rfl
@[simp] theorem found_click : (found l s).click = s.click := by cases l <;> rfl
@[simp] theorem found_library : (found l s).library = s.library := by cases l <;> rfl
@[simp] theorem found_slot (n : SlotNo) : (found l s).slot n = s.slot n := by cases l <;> rfl
@[simp] theorem found_setlist : (found l s).setlist = s.setlist := by cases l <;> rfl
@[simp] theorem found_curPos : (found l s).curPos = s.curPos := by cases l <;> rfl
@[simp] theorem found_curScene : (found l s).curScene = s.curScene := by cases l <;> rfl
@[simp] theorem found_currentSlot : (found l s).currentSlot = s.currentSlot := by cases l <;> rfl
@[simp] theorem found_changeover : (found l s).changeover = s.changeover := by cases l <;> rfl
@[simp] theorem found_audition : (found l s).audition = s.audition := by cases l <;> rfl
@[simp] theorem found_inputs : (found l s).inputs = s.inputs := by cases l <;> rfl
@[simp] theorem found_foots : (found l s).foots = s.foots := by cases l <;> rfl
@[simp] theorem found_held : (found l s).held = s.held := by cases l <;> rfl
@[simp] theorem found_faultRecord : (found l s).faultRecord = s.faultRecord := by cases l <;> rfl
@[simp] theorem found_ownedSlot (m : Link) : (found l s).ownedSlot m = s.ownedSlot m := by cases l <;> rfl
@[simp] theorem found_ownedSong (m : Link) : (found l s).ownedSong m = s.ownedSong m := by cases l <;> rfl
@[simp] theorem found_ownedScene (m : Link) : (found l s).ownedScene m = s.ownedScene m := by cases l <;> rfl
@[simp] theorem found_inUse (n : SlotNo) : (found l s).inUse n = s.inUse n := by cases l <;> rfl
@[simp] theorem found_protectedPosition (p : Nat) : (found l s).protectedPosition p = s.protectedPosition p := by
  cases l <;> rfl
@[simp] theorem found_zoneHeld : (found l s).zoneHeld = s.zoneHeld := by cases l <;> rfl
@[simp] theorem found_programHeld : (found l s).programHeld = s.programHeld := by cases l <;> rfl
@[simp] theorem found_zoneFree : (found l s).zoneFree = s.zoneFree := by cases l <;> rfl
@[simp] theorem found_programFree : (found l s).programFree = s.programFree := by cases l <;> rfl
@[simp] theorem found_countInBars : (found l s).countInBars = s.countInBars := by cases l <;> rfl
@[simp] theorem found_firstSegment : (found l s).firstSegment = s.firstSegment := by cases l <;> rfl
@[simp] theorem found_beyondStopBar : (found l s).beyondStopBar = s.beyondStopBar := by cases l <;> rfl
@[simp] theorem found_sceneAt (n : SlotNo) (k : Nat) : (found l s).sceneAt n k = s.sceneAt n k := by cases l <;> rfl
@[simp] theorem found_sceneCount (n : SlotNo) : (found l s).sceneCount n = s.sceneCount n := by cases l <;> rfl
@[simp] theorem found_resolve (c : Claimant) (f : CueForm) : (found l s).resolve c f = s.resolve c f := by cases l <;> rfl

end

/-! ### What a trigger never touches -/

/-- The fields that no trigger writes but the cue arbiter does. -/
def coreOf (u : State) :=
  (u.cue, u.departure, u.library, u.setlist, u.now, u.init, u.pending, u.clkin, u.foots, u.panicCount)

theorem coreOf_setLink (s : State) (l : Link) (x : LinkState) : coreOf (s.setLink l x) = coreOf s := by cases l <;> rfl

/-- A property that the sending of programs cannot disturb, from its writes. -/
theorem sendFree_of {P : State → Prop} (hl : ∀ s l x, P s → P (State.setLink s l x))
    (hp : ∀ s p x, P s → P (State.setPort s p x)) (hh : ∀ (s : State) x, P s → P { s with held := x })
    (hf : ∀ (s : State) x, P s → P { s with faultRecord := x })
    (hc : ∀ (s : State) x, P s → P { s with changeover := x })
    (hm : ∀ (s : State) x, P s → P { s with progMem := x }) : SendFree P :=
  { offered := raiseOn_free hl, port := fun s p x _ h => hp s p x h, held := fun s x _ h => hh s x h, fault := hf,
    changeover := fun s x _ h => hc s x h, progMem := hm }

theorem trigger_core (s : State) : TriggerFree (fun u => coreOf u = coreOf s) := by
  have h : SendFree (fun u => coreOf u = coreOf s) := sendFree_of (fun s l x h => (coreOf_setLink _ _ _).trans h)
    (fun _ _ _ h => h) (fun _ _ h => h) (fun _ _ h => h) (fun _ _ h => h) (fun _ _ h => h)
  exact
    { toNoteFree := NoteFree.ofHeld (P := fun u => coreOf u = coreOf s) h.toOutFree (fun _ _ h => h) (fun _ _ h => h)
        (fun _ _ h => h) (fun _ _ h => h)
      tempo := fun _ _ h => h, transport := fun _ _ _ h => h, click := fun _ _ h => h, live := fun _ _ _ h => h,
      selection := fun _ _ _ h => h, changeover := fun _ _ h => h, progMem := fun _ _ h => h,
      audition := fun _ _ h => h }

/-- A trigger leaves library, setlist, cue slot, departure record, timebase and lines alone. -/
theorem takeTrigger_core (t : Trigger) (s : State) : coreOf (takeTrigger t s).1 = coreOf s :=
  takeTrigger_closed (trigger_core s) t rfl

/-! ### What a trigger leaves -/

/-- A trigger up to its move of the selection (R139, R140). -/
def selected (t : Trigger) (s : State) : State :=
  (moveSelection t (raiseStarted t { raiseSuperseded s with changeover := some (s.newRecord t) })).1

theorem takeTrigger_eq (t : Trigger) (s : State) : (takeTrigger t s).1 =
    completeIfDone (assignAll t.slot t.scene (replaceLive t.slot t.scene (selected t s))).state := by
  simp only [takeTrigger, carryOut, selected]

theorem raiseStarted_closed {P : State → Prop} (ho : ∀ l n s, P s → P (raiseOn l n s)) (t : Trigger) {s : State}
    (h : P s) : P (raiseStarted t s) := by
  unfold raiseStarted
  dsimp only
  split
  · exact h
  · exact raise_closed ho _ h

theorem raiseSuperseded_closed {P : State → Prop} (ho : ∀ l n s, P s → P (raiseOn l n s)) {s : State} (h : P s) :
    P (raiseSuperseded s) := by
  unfold raiseSuperseded
  split
  · exact h
  · exact raise_closed ho _ h

/-- Before the move of the selection a trigger has raised notices and made its record. -/
theorem started_read {β : Type} (g : State → β) (hl : ∀ s l x, g (State.setLink s l x) = g s)
    (hc : ∀ (s : State) x, g { s with changeover := x } = g s) (t : Trigger) (s : State) :
    g (raiseStarted t { raiseSuperseded s with changeover := some (s.newRecord t) }) = g s := by
  have ho : ∀ l n u, g u = g s → g (raiseOn l n u) = g s :=
    raiseOn_free (P := fun u => g u = g s) (fun u l x h => (hl u l x).trans h)
  refine raiseStarted_closed (P := fun u => g u = g s) ho t ((hc _ _).trans ?_)
  exact raiseSuperseded_closed (P := fun u => g u = g s) ho rfl

theorem selected_core (t : Trigger) (s : State) : coreOf (selected t s) = coreOf s := by
  refine moveSelection_closed (trigger_core s) t ?_
  exact started_read coreOf coreOf_setLink (fun _ _ => rfl) t s

theorem replaceLive_reads (n : SlotNo) (k : Nat) (s : State) :
    (replaceLive n k s).live = (s.sceneAt n k).elim [] (fun sc => sc.zones) ∧ (replaceLive n k s).liveId = some (n, k) ∧
      (replaceLive n k s).curScene = s.curScene ∧ (replaceLive n k s).curPos = s.curPos ∧
      (replaceLive n k s).transport = s.transport := by
  let P : State → Prop := fun u => (u.live, u.liveId, u.curScene, u.curPos, u.transport) =
    ((s.sceneAt n k).elim [] (fun sc => sc.zones), some (n, k), s.curScene, s.curPos, s.transport)
  have hl : ∀ s l x, P s → P (State.setLink s l x) := fun s l x h => by cases l <;> exact h
  have h : SendFree P := sendFree_of hl (fun _ _ _ h => h) (fun _ _ h => h) (fun _ _ h => h) (fun _ _ h => h) (fun _ _ h => h)
  have hn := NoteFree.ofHeld (P := P) h.toOutFree (fun _ _ h => h) (fun _ _ h => h) (fun _ _ h => h) (fun _ _ h => h)
  have : P (replaceLive n k s) := pedalCarry_closed hn rfl
  simpa [P] using this

theorem send_selection (v : List Zone × Option (SlotNo × Nat) × Option Nat × Option Nat × TransportState) :
    SendFree (fun u : State => (u.live, u.liveId, u.curScene, u.curPos, u.transport) = v) :=
  sendFree_of (fun s l x h => by cases l <;> exact h) (fun _ _ _ h => h) (fun _ _ h => h) (fun _ _ h => h)
    (fun _ _ h => h) (fun _ _ h => h)

theorem reposition_read {β : Type} (g : State → β) (hl : ∀ s l x, g (State.setLink s l x) = g s)
    (hp : ∀ s p x, g (State.setPort s p x) = g s) (ht : ∀ (s : State) x, g { s with transport := x } = g s)
    (hk : ∀ (s : State) x, g { s with tempo := x } = g s) (s : State) : g (reposition s).1 = g s := by
  have hs : ∀ m (x : State), g x = g s → g (stopByteFrom m x) = g s := fun m x h =>
    stopByteFrom_closed (P := fun u => g u = g s) (fun u p y _ h => (hp u p y).trans h) m h
  unfold reposition
  split
  · exact ht _ _
  · dsimp only
    refine raise_closed (P := fun u => g u = g s)
      (raiseOn_free (P := fun u => g u = g s) (fun u l x h => (hl u l x).trans h)) _ ?_
    have h1 : g (stopByteFor (songCont s.currentSong) s.transport.mode
        { s with transport := repositionRecord (songCont s.currentSong) s }) = g s := by
      unfold stopByteFor
      split
      · exact ht _ _
      · exact hs _ _ (ht _ _)
    generalize stopByteFor _ _ _ = v at h1
    unfold clearFor clearAccumulator
    split
    · exact (hk v _).trans h1
    · exact (hk v _).trans h1
    · exact h1

theorem clearTempo_read {β : Type} (g : State → β) (hl : ∀ s l x, g (State.setLink s l x) = g s)
    (hk : ∀ (s : State) x, g { s with tempo := x } = g s) (s : State) : g (clearTempo s) = g s := by
  unfold clearTempo
  exact (read_raiseTempo g hl _ _).trans (hk _ _)

/-- A trigger moves the current scene, and the current position too when it changes the song (R140). -/
theorem selected_selection (t : Trigger) (s : State) : (selected t s).curScene = some t.scene ∧
    (selected t s).curPos = if t.kind = .song then some t.position else s.curPos := by
  have hx := started_read (fun u => u.curPos) (fun s l x => by cases l <;> rfl) (fun _ _ => rfl) t s
  unfold selected moveSelection
  generalize raiseStarted t { raiseSuperseded s with changeover := some (s.newRecord t) } = x at hx
  cases hk : t.kind
  · exact ⟨rfl, by simpa using hx⟩
  · dsimp only
    have h1 := reposition_read (fun s => (s.curScene, s.curPos)) (fun s l x => by cases l <;> rfl) (fun _ _ _ => rfl)
      (fun _ _ => rfl) (fun _ _ => rfl) (clearTempo { x with curPos := some t.position, curScene := some t.scene })
    have h2 := clearTempo_read (fun s => (s.curScene, s.curPos)) (fun s l x => by cases l <;> rfl) (fun _ _ => rfl)
      { x with curPos := some t.position, curScene := some t.scene }
    have h3 := h1.trans h2
    exact ⟨congrArg Prod.fst h3, by simpa using congrArg Prod.snd h3⟩

/-- A trigger leaves the audition state to its caller (R139, R151). -/
theorem takeTrigger_audition (t : Trigger) (s : State) : (takeTrigger t s).1.audition = s.audition := by
  let P : State → Prop := fun u => u.audition = s.audition
  have hl : ∀ s l x, P s → P (State.setLink s l x) := fun s l x h => by cases l <;> exact h
  have h : SendFree P := sendFree_of hl (fun _ _ _ h => h) (fun _ _ h => h) (fun _ _ h => h) (fun _ _ h => h) (fun _ _ h => h)
  have hn := NoteFree.ofHeld (P := P) h.toOutFree (fun _ _ h => h) (fun _ _ h => h) (fun _ _ h => h) (fun _ _ h => h)
  refine takeTrigger_of (P := P) h (fun n k s hs => replaceLive_closed hn (fun _ _ _ h => h) n k hs) t
    (fun _ _ h => h) (fun s hs => ?_) rfl
  unfold moveSelection
  split
  · exact hs
  · have e := reposition_read (fun s => s.audition) (fun s l x => by cases l <;> rfl) (fun _ _ _ => rfl)
      (fun _ _ => rfl) (fun _ _ => rfl) (clearTempo { s with curPos := some t.position, curScene := some t.scene })
    exact e.trans ((clearTempo_read (fun s => s.audition) (fun s l x => by cases l <;> rfl) (fun _ _ => rfl) _).trans hs)

/-- What a trigger leaves (R139, R140): the live table is the target scene's, and the selection has moved. -/
theorem takeTrigger_reads (t : Trigger) (s : State) :
    (takeTrigger t s).1.live = (s.sceneAt t.slot t.scene).elim [] (fun sc => sc.zones) ∧
      (takeTrigger t s).1.liveId = some (t.slot, t.scene) ∧ (takeTrigger t s).1.curScene = some t.scene ∧
      (takeTrigger t s).1.curPos = (if t.kind = .song then some t.position else s.curPos) ∧
      (takeTrigger t s).1.transport = (selected t s).transport := by
  obtain ⟨a1, a2, a3, a4, a5⟩ := replaceLive_reads t.slot t.scene (selected t s)
  obtain ⟨b1, b2⟩ := selected_selection t s
  have hlib : (selected t s).library = s.library := congrArg (fun c => c.2.2.1) (selected_core t s)
  have hsc : (selected t s).sceneAt t.slot t.scene = s.sceneAt t.slot t.scene := by
    simp [State.sceneAt, State.slot, hlib]
  have := completeIfDone_closed (send_selection _).record (assignAll_closed (send_selection _) t.slot t.scene
    (rfl : ((replaceLive t.slot t.scene (selected t s)).live, (replaceLive t.slot t.scene (selected t s)).liveId,
      (replaceLive t.slot t.scene (selected t s)).curScene, (replaceLive t.slot t.scene (selected t s)).curPos,
      (replaceLive t.slot t.scene (selected t s)).transport) = _))
  rw [← takeTrigger_eq] at this
  simp only [Prod.mk.injEq] at this
  obtain ⟨c1, c2, c3, c4, c5⟩ := this
  exact ⟨c1.trans (a1.trans (by rw [hsc])), c2.trans a2, c3.trans (a3.trans b1), c4.trans (a4.trans b2), c5.trans a5⟩

/-- What the trigger of a change leaves (R131). -/
structure Triggered (c : Change) (s u : State) : Prop where
  cue : u.cue = none
  departure : u.departure = some c
  shows : SameShow s u
  now : u.now = s.now
  init : u.init = s.init
  audition : u.audition = none
  liveId : u.liveId = some (c.slot, c.scene)
  live : u.live = (s.sceneAt c.slot c.scene).elim [] (fun sc => sc.zones)
  scene : u.curScene = some c.scene
  position : u.curPos = if c.kind = .song then some c.position else s.curPos

theorem triggerCue_triggered (c : Change) (s : State) : Triggered c s (triggerCue c s).1 := by
  generalize hs0 : ({ s with cue := none, departure := some c } : State) = s0
  generalize hs1 : ({ (raise (s0.cueNotice .triggered c none c.displaced) s0) with audition := none } : State) = s1
  have hu : (triggerCue c s).1 = (takeTrigger c.trigger s1).1 := by rw [← hs1, ← hs0]; rfl
  generalize (triggerCue c s).1 = u at hu
  have hr : (coreOf (raise (s0.cueNotice .triggered c none c.displaced) s0),
      (raise (s0.cueNotice .triggered c none c.displaced) s0).curPos) = (coreOf s0, s0.curPos) :=
    read_raise (fun s => (coreOf s, s.curPos)) (fun s l x => by cases l <;> rfl) _ _
  have h1 : coreOf s1 = coreOf s0 := by rw [← hs1]; exact congrArg Prod.fst hr
  have h2 : s1.curPos = s.curPos := by rw [← hs1]; exact (congrArg Prod.snd hr).trans (by rw [← hs0])
  have hc : coreOf u = coreOf s0 := by rw [hu]; exact (takeTrigger_core c.trigger s1).trans h1
  obtain ⟨a1, a2, a3, a4, -⟩ := takeTrigger_reads c.trigger s1
  rw [← hu] at a1 a2 a3 a4
  have hsc : s1.sceneAt c.slot c.scene = s.sceneAt c.slot c.scene := by
    have : s1.library = s.library := by
      rw [← hs0] at h1
      exact congrArg (fun c => c.2.2.1) h1
    simp [State.sceneAt, State.slot, this]
  rw [← hs0] at hc
  simp only [coreOf, Prod.mk.injEq] at hc
  obtain ⟨c1, c2, c3, c4, c5, c6, -⟩ := hc
  exact
    { cue := c1, departure := c2, shows := ⟨c3, c4⟩, now := c5, init := c6
      audition := by rw [hu, takeTrigger_audition, ← hs1]
      liveId := a2, live := a1.trans (by rw [← hsc]; rfl), scene := a3, position := a4.trans (by rw [h2]; rfl) }

/-! ### The tempo record -/

theorem take_override (t : TempoState) (v : Nat) : (t.take v).override = t.override := by
  unfold TempoState.take
  split <;> rfl

theorem take_staged (t : TempoState) (v : Nat) : (t.take v).staged = t.staged := by
  unfold TempoState.take
  split <;> rfl

theorem take_current (t : TempoState) (v : Nat) : (t.take v).current = v := by
  unfold TempoState.take
  split
  · rename_i h
    exact h.symm
  · rfl

end Sys2Proof.Laws
end

