-- ==== Sys2Proof/Laws/Notes.lean ====
section
/-! SUPPORT. What the note table's operations leave: the sources that are held, the pedal records, the loss of an input, and an
offer to a NOTE lane that has room (R20, R27 to R33, R46, R171). -/

namespace Sys2Proof.Laws

open Sys2Proof.Machine

theorem held_raiseOn (l : Link) (n : Notice) (s : State) : (raiseOn l n s).held = s.held := by
  unfold raiseOn; split
  · rfl
  · cases l <;> rfl

theorem held_takeFault (c : FaultClass) (x : FaultSource) (s : State) : (takeFault c x s).held = s.held := by
  unfold takeFault raise; rw [held_raiseOn, held_raiseOn]

theorem held_raise (n : Notice) (s : State) : (raise n s).held = s.held := by
  unfold raise; rw [held_raiseOn, held_raiseOn]

theorem sources_offerNote (p : Port) (e : NoteEntry) (s : State) : sources (offerNote p e s).held = sources s.held := by
  unfold offerNote reportOffer overflowFault
  have h : sources (withdrawOn p ((s.port p).offer s.now e).withdrawn (s.setPort p ((s.port p).offer s.now e).port)).held =
      sources s.held := by
    unfold withdrawOn
    split
    · rfl
    · exact sources_modifyLast _ (fun e => e.setSent _ _) (fun _ => rfl) _
  split
  · rw [held_takeFault]; exact h
  · exact h

theorem sources_releaseTarget (src : Source) (v : Nat) (t : Triple) (s : State) : sources (releaseTarget src v t s).held =
    sources s.held := by
  have h1 : sources (s.held.map (fun e => if e.source = src then e.drop t else e)) = sources s.held :=
    sources_map _ (fun e => by split <;> rfl) _
  unfold releaseTarget
  dsimp only
  split
  · split
    · rw [sources_offerNote]; exact h1
    · exact h1
  · split
    · exact (sources_modifyLast _ (fun e => e.setSent _ _) (fun _ => rfl) _).trans h1
    · exact h1

theorem sources_foldl {α : Type} (f : State → α → State) (h : ∀ s x, sources (f s x).held = sources s.held) :
    ∀ (xs : List α) (s : State), sources (xs.foldl f s).held = sources s.held
  | [], _ => rfl
  | x :: xs, s => (sources_foldl f h xs _).trans (h s x)

theorem sources_releaseEntry (src : Source) (v : Nat) (s : State) :
    sources (releaseEntry src v s).held = (sources s.held).filter (fun a => decide (a ≠ src)) := by
  unfold releaseEntry
  split
  · rename_i h
    unfold State.entryOf at h
    rw [List.find?_eq_none] at h
    symm
    rw [List.filter_eq_self]
    intro a ha
    obtain ⟨e, he, rfl⟩ := List.mem_map.mp ha
    simpa using h e he
  · rename_i e h
    show sources ((releaseTargets src v _ s).held.filter _) = _
    have := sources_foldl (fun s t => releaseTarget src v t s) (fun s t => sources_releaseTarget src v t s) (e.targets.map
        (fun x => x.triple)) s
    rw [← this]
    unfold releaseTargets sources
    rw [List.filter_map]; rfl

theorem sources_releaseEntries : ∀ (srcs : List Source) (s : State),
    sources (releaseEntries srcs s).held = (sources s.held).filter (fun a => decide (a ∉ srcs))
  | [], s => by simp [releaseEntries]
  | x :: xs, s => by
    have := sources_releaseEntries xs (releaseEntry x Config.offVelocity s)
    unfold releaseEntries at this ⊢
    rw [List.foldl_cons, this, sources_releaseEntry, List.filter_filter]
    congr 1; funext a
    simp [not_or, Bool.and_comm]

theorem sources_sendPedals (d : Bool) (ds : List (Port × Chan)) (s : State) : sources (sendPedals d ds s).held =
    sources s.held :=
  sources_foldl _ (fun _ _ => sources_offerNote _ _ _) ds s

theorem sources_pedalUp (i : Input) (c : Chan) (s : State) (h : ∀ a ∈ sources s.held, a.input ≠ i) :
    sources (pedalUp i c s).held = sources s.held := by
  unfold pedalUp
  dsimp only
  show sources (releaseEntries _ _).held = _
  rw [sources_releaseEntries]
  show List.filter _ (sources (sendPedals false _ s).held) = _
  rw [sources_sendPedals, List.filter_eq_self]
  intro a ha
  have := h a ha
  simp only [decide_eq_true_eq]
  intro hm
  unfold sustainedOf at hm
  simp only [List.mem_map, List.mem_filter] at hm
  obtain ⟨e, ⟨_, h2⟩, h3⟩ := hm
  simp only [decide_eq_true_eq] at h2
  rw [← h3] at this
  exact this h2.1

theorem padOut (s : State) : OutFree (fun u => u.pedals = s.pedals ∧ u.inputs = s.inputs) :=
  { offered := raiseOn_free (fun s l x h => by cases l <;> exact h), port := fun _ _ _ _ h => h, held :=
      fun _ _ _ h => h, fault := fun _ _ h => h }

theorem pedal_of {s u : State} (h : u.pedals = s.pedals) (i : Input) (c : Chan) : u.pedal i c = s.pedal i c := by
  unfold State.pedal; rw [h]

theorem pedal_set (s : State) (i j : Input) (c d : Chan) (x : PedalRecord) :
    (s.setPedal i c x).pedal j d = if j = i ∧ d = c then x else s.pedal j d := by
  unfold State.pedal State.setPedal
  simp only [Fin.getElem_fin, Vector.getElem_set]
  by_cases h1 : j = i
  · subst h1
    by_cases h2 : d = c
    · subst h2; simp
    · have : ¬ c.val = d.val := fun h => h2 (Fin.ext h.symm)
      simp [h2, this]
  · have : ¬ i.val = j.val := fun h => h1 (Fin.ext h.symm)
    simp [h1, this]

theorem pedalUp_pedal (i : Input) (c : Chan) (s : State) (j : Input) (d : Chan) :
    (pedalUp i c s).pedal j d = if j = i ∧ d = c then .up else s.pedal j d := by
  unfold pedalUp
  dsimp only
  rw [pedal_set]
  split
  · rfl
  · rename_i h
    generalize hv : (sendPedals false (s.pedal i c).pairs s).setPedal i c { down := true, pairs := [] } = v
    have h1 := (releaseEntries_closed (padOut v) (sustainedOf i c v.held) ⟨rfl, rfl⟩).1
    rw [pedal_of h1, ← hv, pedal_set, if_neg h]
    exact pedal_of (sendPedals_closed (padOut s) _ _ ⟨rfl, rfl⟩).1 _ _

theorem pedalUp_inputs (i : Input) (c : Chan) (s : State) : (pedalUp i c s).inputs = s.inputs := by
  have : NoteFree (fun u => u.inputs = s.inputs) → (pedalUp i c s).inputs = s.inputs := fun h => pedalUp_closed h i c rfl
  have h0 : OutFree (fun u => u.inputs = s.inputs) :=
    { offered := raiseOn_free (fun s l x h => by cases l <;> exact h), port := fun _ _ _ _ h => h, held :=
        fun _ _ _ h => h, fault := fun _ _ h => h }
  unfold pedalUp
  dsimp only
  exact releaseEntries_closed h0 _ (sendPedals_closed h0 _ _ rfl)

theorem loseInput_facts (i : Input) (s : State) :
    (loseInput i s).inputs = s.inputs ∧
    sources (loseInput i s).held = (sources s.held).filter (fun a => decide (a.input ≠ i)) ∧
    ∀ j c, (loseInput i s).pedal j c = if j = i ∧ (s.pedal i c).down = true then .up else s.pedal j c := by
  unfold loseInput
  dsimp only
  obtain ⟨v, hv⟩ : ∃ v, v = releaseEntries ((s.held.filter (fun e => decide (e.source.input =
      i))).map (fun e => e.source)) s := ⟨_, rfl⟩
  rw [← hv]
  have h1 := releaseEntries_closed (padOut s) ((s.held.filter (fun e => decide (e.source.input =
      i))).map (fun e => e.source)) ⟨rfl, rfl⟩
  rw [← hv] at h1
  have h2 := sources_releaseEntries ((s.held.filter (fun e => decide (e.source.input = i))).map (fun e => e.source)) s
  rw [← hv] at h2
  have h3 : sources v.held = (sources s.held).filter (fun a => decide (a.input ≠ i)) := by
    rw [h2]
    apply List.filter_congr
    intro a ha
    obtain ⟨e, he, rfl⟩ := List.mem_map.mp ha
    simp only [List.mem_map, List.mem_filter, decide_eq_decide]
    constructor
    · intro h h4; exact h ⟨e, ⟨he, by simpa using h4⟩, rfl⟩
    · rintro h ⟨e', ⟨_, h5⟩, h6⟩
      rw [h6] at h5; exact h (by simpa using h5)
  clear hv h2
  have key : ∀ (cs : List Chan) (u : State), cs.Nodup → (∀ a ∈ sources u.held, a.input ≠ i) →
      let w := cs.foldl (fun s c => if (s.pedal i c).down then pedalUp i c s else s) u
      w.inputs = u.inputs ∧ sources w.held = sources u.held ∧
      ∀ j c, w.pedal j c = if j = i ∧ c ∈ cs ∧ (u.pedal i c).down = true then .up else u.pedal j c := by
    intro cs
    induction cs with
    | nil => intro u _ _; simp
    | cons x xs ih =>
      intro u hn hu
      have hx := (List.nodup_cons.mp hn).1
      obtain ⟨u1, hu1⟩ : ∃ u1, u1 = (if (u.pedal i x).down then pedalUp i x u else u) := ⟨_, rfl⟩
      have k1 : u1.inputs = u.inputs := by rw [hu1]; split; exact pedalUp_inputs _ _ _; rfl
      have k2 : sources u1.held = sources u.held := by rw [hu1]; split; exact sources_pedalUp _ _ _ hu; rfl
      have k3 : ∀ j c, u1.pedal j c = if j = i ∧ c = x ∧ (u.pedal i x).down = true then .up else u.pedal j c := by
        intro j c; rw [hu1]
        by_cases h : (u.pedal i x).down = true
        · rw [if_pos h, pedalUp_pedal]; simp [h]
        · rw [if_neg h]; simp [h]
      have := ih u1 (List.nodup_cons.mp hn).2 (by rw [k2]; exact hu)
      intro w
      have hw : w = xs.foldl (fun s c => if (s.pedal i c).down then pedalUp i c s else s) u1 :=
          by simp only [w, List.foldl_cons, hu1]
      rw [hw]
      refine ⟨this.1.trans k1, this.2.1.trans k2, fun j c => ?_⟩
      rw [this.2.2, k3, k3]
      by_cases hj : j = i
      · subst hj
        by_cases hc : c = x
        · subst hc; simp [hx]
        · simp [hc]
      · simp [hj]
  have := key allChans v (by decide) (by rw [h3]; intro a ha; simpa using (List.mem_filter.mp ha).2)
  refine ⟨this.1.trans h1.2, this.2.1.trans h3, fun j c => ?_⟩
  rw [this.2.2, pedal_of h1.1, pedal_of h1.1]
  have hall : c ∈ allChans := by clear this key; revert c; decide
  simp [hall]

/-- A port at which no NOTE_ON is dropped or annihilated for settle. -/
def calm (q : PortState) : Prop := q.settings.policy = .pass ∨ q.changing = false

theorem offer_room (q : PortState) (now : Nat) (e : NoteEntry) (h : q.noteLane.length < 64) (hc : calm q) :
    q.offer now e = { port := { q with noteLane := q.noteLane ++ [e] }, accepted := true, withdrawn := none, overflowed :=
        false } := by
  have h1 : (e.isNoteOn && decide (q.settings.policy = .drop) && q.changing) = false := by
    rcases hc with hc | hc
    · rw [hc]; simp
    · rw [hc]; simp
  have h2 : q.annihilation e = none := by
    unfold PortState.annihilation
    split
    · rw [if_neg]
      have : ¬ (Config.noteLaneMax ≤ q.noteLane.length) := by show ¬ (64 ≤ _); omega
      rcases hc with hc | hc
      · simp [this, hc]
      · simp [this, hc]
    · rfl
  unfold PortState.offer
  rw [h1, h2]
  dsimp only
  rw [if_neg (by simp), if_pos (.inl (show q.noteLane.length < Config.noteLaneMax from h))]

theorem offerNote_room (p : Port) (e : NoteEntry) (s : State) (h : (s.port p).noteLane.length < 64) (hc : calm (s.port p)) :
    offerNote p e s = s.setPort p { s.port p with noteLane := (s.port p).noteLane ++ [e] } ∧ acceptsNote p e s = true := by
  unfold offerNote acceptsNote
  rw [offer_room _ _ _ h hc]
  exact ⟨rfl, rfl⟩

theorem calm_off (q : PortState) (c : Chan) (k v : Nat) (h : calm q) : calm { q with noteLane :=
    q.noteLane ++ [.noteOff c k v] } := by
  rcases h with h | h
  · exact .inl h
  · right
    unfold PortState.changing at *
    simp only [List.any_append] at *
    simpa [NoteEntry.isProgram] using h

end Sys2Proof.Laws
end

