-- ==== Sys2Proof/Laws/Output.lean ====
section
/-! SUPPORT. Ports at the end of a command, the least element of a list, and what a plain step, an empty cue slot and the
trigger of a scene leave (R81, R90, R128, R139, R163). -/

namespace Sys2Proof.Laws

open Sys2Proof.Machine

/-! ### Ports -/
theorem setPort_setPort (s : State) (p : Port) (x y : PortState) : (s.setPort p x).setPort p y = s.setPort p y := by
  unfold State.setPort
  simp

theorem startIdle_port (l : Link) (s : State) (p : Port) : (startIdle l s).port p = s.port p := by
  unfold startIdle
  cases l <;> rfl

theorem placeWaiting_port (q p : Port) (h : p ≠ q) : ∀ (n : Nat) (s : State), (placeWaiting q n s).port p = s.port p ∧
    (placeWaiting q n s).now = s.now
  | 0, s => ⟨rfl, rfl⟩
  | n + 1, s => by
    unfold placeWaiting
    split
    · exact ⟨rfl, rfl⟩
    · split
      · obtain ⟨h1, h2⟩ := placeWaiting_port q p h n (State.setOffs (s.setPort q ((s.port q).enqueueClick _)) _)
        refine ⟨h1.trans ?_, h2⟩
        show (s.setPort q _).port p = _
        rw [port_setPort_ne _ _ _ _ h]
      · exact ⟨rfl, rfl⟩

theorem placeWaiting_now (q : Port) : ∀ (n : Nat) (s : State), (placeWaiting q n s).now = s.now
  | 0, s => rfl
  | n + 1, s => by
    unfold placeWaiting
    split
    · rfl
    · split
      · exact placeWaiting_now q n _
      · rfl

theorem kickPort_now (q : Port) (s : State) : (kickPort q s).now = s.now := by
  unfold kickPort; split
  · rw [placeWaiting_now]; rfl
  · rfl

theorem kickPort_ne (q p : Port) (h : p ≠ q) (s : State) : (kickPort q s).port p = s.port p := by
  unfold kickPort; split
  · rw [(placeWaiting_port q p h _ _).1, port_setPort_ne _ _ _ _ h]
  · rw [port_setPort_ne _ _ _ _ h]

theorem kickPort_eq (p : Port) (s : State) (h : ((s.port p).choose s.now).2 = false) : (kickPort p s).port p =
    ((s.port p).choose s.now).1 := by
  unfold kickPort; rw [if_neg (by simp [h])]; simp

theorem earliest_none {α : Type} (f : α → Nat) : ∀ xs : List α, earliest f xs = none ↔ xs = []
  | [] => by simp [earliest]
  | x :: xs => by
    simp only [earliest, reduceCtorEq, iff_false]
    split
    · simp
    · split <;> simp

theorem earliest_some {α : Type} (f : α → Nat) : ∀ (xs : List α) (y : α), earliest f xs = some y → y ∈ xs ∧
    ∀ x ∈ xs, f y ≤ f x
  | [], y, h => by simp [earliest] at h
  | x :: xs, y, h => by
    simp only [earliest] at h
    split at h
    · rename_i hn
      rw [earliest_none] at hn
      cases h; subst hn; simp
    · rename_i z hz
      obtain ⟨h1, h2⟩ := earliest_some f xs z hz
      split at h
      · cases h
        refine ⟨by simp, fun w hw => ?_⟩
        rcases List.mem_cons.mp hw with rfl | hw
        · exact le_refl _
        · have := h2 w hw; omega
      · cases h
        refine ⟨by simp [h1], fun w hw => ?_⟩
        rcases List.mem_cons.mp hw with rfl | hw
        · omega
        · exact h2 w hw

theorem insert_last (e : ClickEntry) : ∀ xs : List ClickEntry, (∀ x ∈ xs, x.due ≤ e.due) → insertByDue e xs = xs ++ [e]
  | [], _ => rfl
  | x :: xs, h => by
    unfold insertByDue
    rw [if_pos (h x (by simp)), insert_last e xs (fun y hy => h y (by simp [hy]))]; rfl

/-! ### Steps and triggers -/

/-- A step that begins no beat gets its duration, and a clock byte when its field is a multiple of 4 (R60, R90, R93). -/
theorem plainStep_reads (s : State) :
    (plainStep s).transport = { s.transport with
      stepEnd := some ((plainStep s).now + (stepDuration s.tempo.current s.tempo.acc).1) } ∧
    (plainStep s).tempo = { s.tempo with acc := (stepDuration s.tempo.current s.tempo.acc).2 } ∧
    (∀ p, ((plainStep s).port p).realtime = if s.transport.mode = .running ∧ s.transport.step % 4 = 0 ∧
        (s.port p).settings.clockFlag = true then
          ((s.port p).offerRealtime .clock).realtime else (s.port p).realtime) ∧ (plainStep s).now = s.now := by
  unfold plainStep
  dsimp only
  rw [clickStep_transport]
  have hcl := fun p => clickStep_realtime s p
  have h1 := clickStep_transport s
  have h2 := clickStep_tempo s
  have h3 := clickStep_now s
  generalize clickStep s = v at hcl h1 h2 h3
  by_cases hc : s.transport.mode = .running ∧ s.transport.step % 4 = 0
  · rw [if_pos hc]
    refine ⟨?_, ?_, ?_, ?_⟩
    · unfold beginStep; simp [h1, h2]
    · unfold beginStep; simp [h2]
    · intro p
      rw [beginStep_port, sendClock_port, (hcl p).2]
      by_cases hf : (s.port p).settings.clockFlag = true
      · rw [if_pos hf, if_pos ⟨hc.1, hc.2, hf⟩]
        exact offerAll_realtime _ _ _ (hcl p).1
      · rw [if_neg hf, if_neg (fun h => hf h.2.2)]
        exact (hcl p).1
    · unfold beginStep; simp [h3]
  · rw [if_neg hc]
    refine ⟨?_, ?_, ?_, ?_⟩
    · unfold beginStep; simp [h1, h2]
    · unfold beginStep; simp [h2]
    · intro p
      rw [beginStep_port, (hcl p).1, if_neg (fun h => hc ⟨h.1, h.2.1⟩)]
    · unfold beginStep; simp [h3]

theorem clickedClock_realtime (bs) (s : State) (p) : ((sendClock bs (clickStep s)).port p).realtime =
    if (s.port p).settings.clockFlag then (offerAll bs (s.port p)).realtime else (s.port p).realtime := by
  rw [sendClock_port, (clickStep_realtime s p).2]
  split
  · exact offerAll_realtime _ _ _ (clickStep_realtime s p).1
  · exact (clickStep_realtime s p).1

theorem handEvent_none (d : Bool) (s : State) (h : s.cue = none) : handEvent d s = (s, .goOn) := by
  unfold handEvent; rw [h]

theorem downbeatFromChange_none (lead) (v : State) (hh : v.cue = none) : downbeatFromChange lead v =
    runningDownbeat lead v := by
  unfold downbeatFromChange; rw [handEvent_none _ _ hh]

theorem triggerCue_scene (c : Change) (s : State) (hk : c.kind = .scene) :
    (triggerCue c s).2 = .goOn ∧ (triggerCue c s).1.transport = s.transport := by
  have hm : ∀ t (y : State), t.kind = .scene → (moveSelection t y).2 = .goOn := by
    intro t y h; unfold moveSelection; rw [h]
  constructor
  · show (takeTrigger _ _).2 = _
    simp only [takeTrigger, carryOut]
    exact hm _ _ hk
  · generalize hs0 : ({ s with cue := none, departure := some c } : State) = s0
    generalize hs1 : ({ (raise (s0.cueNotice .triggered c none c.displaced) s0) with audition := none } : State) = s1
    have hu : (triggerCue c s).1 = (takeTrigger c.trigger s1).1 := by rw [← hs1, ← hs0]; rfl
    rw [hu, (takeTrigger_reads c.trigger s1).2.2.2.2]
    have h1 : s1.transport = s.transport := by
      rw [← hs1]; exact (raise_transport _ _).trans (by rw [← hs0])
    rw [← h1]
    unfold selected moveSelection
    have hk2 : c.trigger.kind = .scene := hk
    have hst := started_read (fun u => u.transport) (fun s l x => by cases l <;> rfl) (fun _ _ => rfl) c.trigger s1
    generalize raiseStarted c.trigger _ = z at hst
    rw [hk2]
    exact hst

/-- The record of a trigger of a scene, where it still stands (R139). -/
theorem takeTrigger_record (t : Trigger) (s : State) (hk : t.kind = .scene) :
    ∀ r, (takeTrigger t s).1.changeover = some r → r.kind = t.kind ∧ r.claimant = t.claimant ∧ r.mark = t.mark ∧ r.source = s.selection ∧
    r.position = t.position ∧ r.slot = t.slot ∧ r.scene = t.scene := by
  let Q : State → Prop := fun u => ∀ r, u.changeover = some r → r.kind = t.kind ∧ r.claimant = t.claimant ∧
      r.mark = t.mark ∧ r.source = s.selection ∧ r.position = t.position ∧ r.slot = t.slot ∧ r.scene = t.scene
  have hl : ∀ s l x, Q s → Q (State.setLink s l x) := fun s l x h => by cases l <;> exact h
  have hch : ∀ (s : State) x, SameRecord s.changeover x → Q s → Q { s with changeover := x } := by
    intro u x hx hu r hr
    obtain ⟨r0, h0, h1⟩ := hx r hr
    rw [h1]; exact hu r0 h0
  have hs : SendFree Q :=
    { offered := raiseOn_free hl, port := fun _ _ _ _ h => h, held := fun _ _ _ h => h, fault := fun _ _ h => h,
      changeover := hch, progMem := fun _ _ h => h }
  have hn := NoteFree.ofHeld (P := Q) hs.toOutFree (fun _ _ h => h) (fun _ _ h => h) (fun _ _ h => h) (fun _ _ h => h)
  rw [takeTrigger_eq]
  have e : selected t s =
      { raiseStarted t { raiseSuperseded s with changeover := some (s.newRecord t) } with curScene := some t.scene } := by
    unfold selected moveSelection; rw [hk]
  have key : Q (raiseStarted t { raiseSuperseded s with changeover := some (s.newRecord t) }) := by
    refine raiseStarted_closed (P := Q) hs.offered t ?_
    intro r hr; cases hr; exact ⟨rfl, rfl, rfl, rfl, rfl, rfl, rfl⟩
  have key2 : Q (selected t s) := by
    rw [e]
    generalize raiseStarted t { raiseSuperseded s with changeover := some (s.newRecord t) } = v at key
    exact key
  exact completeIfDone_closed (P := Q) hs.record (assignAll_closed hs _ _ (replaceLive_closed hn (fun _ _ _ h => h) _ _ key2))

end Sys2Proof.Laws
end

