-- ==== Sys2Proof/Laws/PerInstr.lean ====
section
/-! SUPPORT. One lemma for each command about its frame: a well-formed request fits a frame, whose KIND names the request, whose
CHECK is right and whose LEN is judged by R182 as the field count says (R182, R196, R197). -/

namespace Sys2Proof.Laws

open Sys2Proof.Machine

/-- The frame of a request command is complete and right, and its LEN fits its kind exactly as its field count says. -/
def Encodes.Statement (c : Instr) : Prop :=
  c.wf = true → ∀ l k tag fields, requestOf c = some (l, k, tag, fields) →
    fields.length ≤ fieldMax ∧ requestKind k.code = some k ∧ (mkFrame k.code tag fields).checkOk = true ∧
      k.fits (lenByte fields) = decide (k.lens.1 ≤ fields.length + 2 ∧ fields.length + 2 ≤ k.lens.2)

/-- A command whose fields fit a frame has the property. -/
theorem encodes_of_length {c : Instr}
    (h : c.wf = true → ∀ l k tag fields, requestOf c = some (l, k, tag, fields) → fields.length ≤ fieldMax) :
    Encodes.Statement c := by
  intro hw l k tag fields hr
  have hl := h hw l k tag fields hr
  refine ⟨hl, requestKind_code k, mkFrame_ok _ _ _, ?_⟩
  have : (lenByte fields).toNat = fields.length + 2 := by
    unfold fieldMax at hl
    simp [lenByte, b1]
    omega
  simp [ReqKind.fits, this]

/-- A request command whose fields are these. -/
theorem encodes_request {c : Instr} {l : Link} {k : ReqKind} {tag : Byte} {fields : List Byte}
    (h : requestOf c = some (l, k, tag, fields)) (hl : c.wf = true → fields.length ≤ fieldMax) : Encodes.Statement c := by
  refine encodes_of_length (fun hw l' k' tag' fields' hr => ?_)
  rw [h] at hr
  cases hr
  exact hl hw

/-- A command that is no request has the property. -/
theorem encodes_event {c : Instr} (h : requestOf c = none) : Encodes.Statement c :=
  encodes_of_length (fun _ _ _ _ _ hr => by rw [h] at hr; cases hr)

theorem Encodes.pinReset (cksel1 cksel0 : Bool) : Encodes.Statement (.pinReset cksel1 cksel0) :=
  encodes_event rfl

theorem Encodes.initialisationEnd : Encodes.Statement .initialisationEnd :=
  encodes_event rfl

theorem Encodes.linkByteReceived (l : Link) (byte : Byte) (stopOk : Bool) :
    Encodes.Statement (.linkByteReceived l byte stopOk) :=
  encodes_event rfl

theorem Encodes.linkInterByteTimeout (l : Link) : Encodes.Statement (.linkInterByteTimeout l) :=
  encodes_event rfl

theorem Encodes.badFrame (l : Link) (kind tag : Byte) (fields : List Byte) (check : Byte) :
    Encodes.Statement (.badFrame l kind tag fields check) :=
  encodes_event rfl

theorem Encodes.unknownKind (l : Link) (kind tag : Byte) (fields : List Byte) :
    Encodes.Statement (.unknownKind l kind tag fields) :=
  encodes_event rfl

theorem Encodes.linkTransmitEnd (l : Link) : Encodes.Statement (.linkTransmitEnd l) :=
  encodes_event rfl

theorem Encodes.start (l : Link) (tag skip : Byte) : Encodes.Statement (.start l tag skip) :=
  encodes_request rfl (fun _ => Nat.le_of_ble_eq_true rfl)

theorem Encodes.stop (l : Link) (tag : Byte) : Encodes.Statement (.stop l tag) :=
  encodes_request rfl (fun _ => Nat.le_of_ble_eq_true rfl)

theorem Encodes.hold (l : Link) (tag : Byte) : Encodes.Statement (.hold l tag) :=
  encodes_request rfl (fun _ => Nat.le_of_ble_eq_true rfl)

theorem Encodes.go (l : Link) (tag : Byte) : Encodes.Statement (.go l tag) :=
  encodes_request rfl (fun _ => Nat.le_of_ble_eq_true rfl)

theorem Encodes.extend (l : Link) (tag : Byte) : Encodes.Statement (.extend l tag) :=
  encodes_request rfl (fun _ => Nat.le_of_ble_eq_true rfl)

theorem Encodes.tempoSet (l : Link) (tag : Byte) (tempo : Word) : Encodes.Statement (.tempoSet l tag tempo) :=
  encodes_request rfl (fun _ => Nat.le_of_ble_eq_true rfl)

theorem Encodes.tap (l : Link) (tag : Byte) : Encodes.Statement (.tap l tag) :=
  encodes_request rfl (fun _ => Nat.le_of_ble_eq_true rfl)

theorem Encodes.clickSet (l : Link) (tag : Byte) (f : ClickFields) : Encodes.Statement (.clickSet l tag f) :=
  encodes_request rfl (fun _ => Nat.le_of_ble_eq_true rfl)

theorem Encodes.songOpen (l : Link) (tag slot countIn startMode phrase : Byte) (stopBar : Word) (name : List Byte) :
    Encodes.Statement (.songOpen l tag slot countIn startMode phrase stopBar name) :=
  encodes_request rfl (fun h => by
    simp [Instr.wf] at h
    simp [Word.bytes]
    omega)

theorem Encodes.songSegment (l : Link) (tag : Byte) (f : SegmentFields) : Encodes.Statement (.songSegment l tag f) :=
  encodes_request rfl (fun _ => Nat.le_of_ble_eq_true rfl)

theorem Encodes.sceneBegin (l : Link) (tag timing : Byte) (name : List Byte) :
    Encodes.Statement (.sceneBegin l tag timing name) :=
  encodes_request rfl (fun h => by simpa [Instr.wf] using h)

theorem Encodes.sceneZone (l : Link) (tag : Byte) (f : ZoneFields) : Encodes.Statement (.sceneZone l tag f) :=
  encodes_request rfl (fun _ => Nat.le_of_ble_eq_true rfl)

theorem Encodes.sceneProgram (l : Link) (tag port channel msb lsb program : Byte) :
    Encodes.Statement (.sceneProgram l tag port channel msb lsb program) :=
  encodes_request rfl (fun _ => Nat.le_of_ble_eq_true rfl)

theorem Encodes.songClose (l : Link) (tag : Byte) : Encodes.Statement (.songClose l tag) :=
  encodes_request rfl (fun _ => Nat.le_of_ble_eq_true rfl)

theorem Encodes.songErase (l : Link) (tag slot : Byte) : Encodes.Statement (.songErase l tag slot) :=
  encodes_request rfl (fun _ => Nat.le_of_ble_eq_true rfl)

theorem Encodes.songQuery (l : Link) (tag slot : Byte) : Encodes.Statement (.songQuery l tag slot) :=
  encodes_request rfl (fun _ => Nat.le_of_ble_eq_true rfl)

theorem Encodes.setInsert (l : Link) (tag position slot : Byte) : Encodes.Statement (.setInsert l tag position slot) :=
  encodes_request rfl (fun _ => Nat.le_of_ble_eq_true rfl)

theorem Encodes.setRemove (l : Link) (tag position : Byte) : Encodes.Statement (.setRemove l tag position) :=
  encodes_request rfl (fun _ => Nat.le_of_ble_eq_true rfl)

theorem Encodes.setClear (l : Link) (tag : Byte) : Encodes.Statement (.setClear l tag) :=
  encodes_request rfl (fun _ => Nat.le_of_ble_eq_true rfl)

theorem Encodes.setQuery (l : Link) (tag : Byte) : Encodes.Statement (.setQuery l tag) :=
  encodes_request rfl (fun _ => Nat.le_of_ble_eq_true rfl)

theorem Encodes.cue (l : Link) (tag form number timing : Byte) : Encodes.Statement (.cue l tag form number timing) :=
  encodes_request rfl (fun _ => Nat.le_of_ble_eq_true rfl)

theorem Encodes.cueCancel (l : Link) (tag : Byte) : Encodes.Statement (.cueCancel l tag) :=
  encodes_request rfl (fun _ => Nat.le_of_ble_eq_true rfl)

theorem Encodes.audition (l : Link) (tag scene : Byte) : Encodes.Statement (.audition l tag scene) :=
  encodes_request rfl (fun _ => Nat.le_of_ble_eq_true rfl)

theorem Encodes.auditionEnd (l : Link) (tag : Byte) : Encodes.Statement (.auditionEnd l tag) :=
  encodes_request rfl (fun _ => Nat.le_of_ble_eq_true rfl)

theorem Encodes.outputSet (l : Link) (tag : Byte) (f : OutputFields) : Encodes.Statement (.outputSet l tag f) :=
  encodes_request rfl (fun _ => Nat.le_of_ble_eq_true rfl)

theorem Encodes.inputSet (l : Link) (tag input cueChannel watch : Byte) :
    Encodes.Statement (.inputSet l tag input cueChannel watch) :=
  encodes_request rfl (fun _ => Nat.le_of_ble_eq_true rfl)

theorem Encodes.footswitchSet (l : Link) (tag line function polarity sustainInput sustainChannel : Byte) :
    Encodes.Statement (.footswitchSet l tag line function polarity sustainInput sustainChannel) :=
  encodes_request rfl (fun _ => Nat.le_of_ble_eq_true rfl)

theorem Encodes.noticeMask (l : Link) (tag : Byte) (mask : Word) : Encodes.Statement (.noticeMask l tag mask) :=
  encodes_request rfl (fun _ => Nat.le_of_ble_eq_true rfl)

theorem Encodes.linkNote (l : Link) (tag : Byte) (text : List Byte) : Encodes.Statement (.linkNote l tag text) :=
  encodes_request rfl (fun h => by simpa [Instr.wf, fitsFrame] using h)

theorem Encodes.statusGet (l : Link) (tag part : Byte) : Encodes.Statement (.statusGet l tag part) :=
  encodes_request rfl (fun _ => Nat.le_of_ble_eq_true rfl)

theorem Encodes.countersGet (l : Link) (tag group number clear : Byte) :
    Encodes.Statement (.countersGet l tag group number clear) :=
  encodes_request rfl (fun _ => Nat.le_of_ble_eq_true rfl)

theorem Encodes.faultGet (l : Link) (tag : Byte) : Encodes.Statement (.faultGet l tag) :=
  encodes_request rfl (fun _ => Nat.le_of_ble_eq_true rfl)

theorem Encodes.faultClear (l : Link) (tag : Byte) : Encodes.Statement (.faultClear l tag) :=
  encodes_request rfl (fun _ => Nat.le_of_ble_eq_true rfl)

theorem Encodes.panic (l : Link) (tag : Byte) : Encodes.Statement (.panic l tag) :=
  encodes_request rfl (fun _ => Nat.le_of_ble_eq_true rfl)

theorem Encodes.softReset (l : Link) (tag : Byte) : Encodes.Statement (.softReset l tag) :=
  encodes_request rfl (fun _ => Nat.le_of_ble_eq_true rfl)

theorem Encodes.inputByteReceived (i : Input) (byte : Byte) (stopOk : Bool) :
    Encodes.Statement (.inputByteReceived i byte stopOk) :=
  encodes_event rfl

theorem Encodes.inputWatchExpiry (i : Input) : Encodes.Statement (.inputWatchExpiry i) :=
  encodes_event rfl

theorem Encodes.footswitchLineChange (n : FootLine) (level : Level) :
    Encodes.Statement (.footswitchLineChange n level) :=
  encodes_event rfl

theorem Encodes.footswitchDebounceExpiry (n : FootLine) : Encodes.Statement (.footswitchDebounceExpiry n) :=
  encodes_event rfl

theorem Encodes.gridStepEnd : Encodes.Statement .gridStepEnd :=
  encodes_event rfl

theorem Encodes.clickGateExpiry (p : Port) (c : Chan) (note : Nat) : Encodes.Statement (.clickGateExpiry p c note) :=
  encodes_event rfl

theorem Encodes.outputItemEnd (p : Port) : Encodes.Statement (.outputItemEnd p) :=
  encodes_event rfl

theorem Encodes.settleTimerExpiry (p : Port) : Encodes.Statement (.settleTimerExpiry p) :=
  encodes_event rfl

theorem Encodes.keepAliveExpiry (p : Port) : Encodes.Statement (.keepAliveExpiry p) :=
  encodes_event rfl

theorem Encodes.controllerIntervalExpiry (p : Port) : Encodes.Statement (.controllerIntervalExpiry p) :=
  encodes_event rfl

end Sys2Proof.Laws
end

