-- ==== Sys2Proof/Laws/Show.lean ====
section
/-! SUPPORT. What the law that current, cued and target songs are READY (R101) rests on: positions renamed by an edit of the setlist
keep their entries, an edit of the library spares a song IN USE, and a trigger to a READY song keeps the law. -/

namespace Sys2Proof.Laws

open Sys2Proof.Machine

/-! ### Sums over the library -/

/-- Replacing one slot moves a sum over the slots by the difference (R104). -/
theorem sum_slots_set (f : Slot → Nat) (v : Vector Slot 48) (n : SlotNo) (x : Slot) :
    ((v.set n x).toList.map f).sum + f v[n] = (v.toList.map f).sum + f x := by
  rw [Vector.toList_set]
  apply sum_map_set
  simp

/-- Replacing one slot moves the items held by the difference (R104). -/
theorem held_setSlot (s : State) (n : SlotNo) (x : Slot) :
    (s.setSlot n x).zoneHeld + (s.slot n).zoneItems = s.zoneHeld + x.zoneItems ∧
      (s.setSlot n x).programHeld + (s.slot n).programItems = s.programHeld + x.programItems :=
  ⟨sum_slots_set Slot.zoneItems s.library n x, sum_slots_set Slot.programItems s.library n x⟩

/-- The OPEN song of a link, from its slot (R105). -/
theorem ownedSong_eq {s : State} {l : Link} {n : SlotNo} {g : Song} {k : Option Nat} (h : s.ownedSlot l = some n)
    (hg : s.slot n = .building l g k) : s.ownedSong l = some (n, g, k) := by
  unfold State.ownedSong
  rw [h]
  dsimp only
  rw [hg]

theorem ownedSong_none {s : State} {l : Link} (h : s.ownedSlot l = none) : s.ownedSong l = none := by
  unfold State.ownedSong
  rw [h]

/-! ### Positions -/

/-- An insertion raises the positions from its own on (R118). -/
theorem getElem?_insert {xs : List SlotNo} {p q : Nat} {n m : SlotNo} (hp : p ≤ xs.length) (h : xs[q]? = some m) :
    (xs.take p ++ n :: xs.drop p)[raiseFrom p q]? = some m := by
  have hq : q < xs.length := by
    rcases Nat.lt_or_ge q xs.length with h' | h'
    · exact h'
    · rw [List.getElem?_eq_none h'] at h
      cases h
  unfold raiseFrom
  split
  · rw [List.getElem?_append_right (by simp; omega)]
    have e : q + 1 - (xs.take p).length = (q - p) + 1 := by simp; omega
    rw [e, List.getElem?_cons_succ, List.getElem?_drop, ← h]
    congr 1
    omega
  · rw [List.getElem?_append_left (by simp; omega), List.getElem?_take_of_lt (by omega)]
    exact h

/-- A removal lowers the positions above its own (R119). -/
theorem getElem?_remove {xs : List SlotNo} {p q : Nat} {m : SlotNo} (hp : p < xs.length) (hne : q ≠ p)
    (h : xs[q]? = some m) : (xs.take p ++ xs.drop (p + 1))[lowerAbove p q]? = some m := by
  unfold lowerAbove
  split
  · rw [List.getElem?_append_right (by simp; omega), List.getElem?_drop, ← h]
    congr 1
    simp
    omega
  · rw [List.getElem?_append_left (by simp; omega), List.getElem?_take_of_lt (by omega)]
    exact h

/-! ### READY songs -/

theorem isReady_of_library {s t : State} (e : t.library = s.library) (n : SlotNo) : t.IsReady n ↔ s.IsReady n := by
  unfold State.IsReady State.slot
  rw [e]

/-- An edit of one slot spares a READY song that is IN USE (R101, R107, R113). -/
theorem isReady_setSlot {s : State} {n m : SlotNo} {x : Slot} (e : SlotEdit s n x) (hu : s.inUse m = true)
    (h : s.IsReady m) : (s.setSlot n x).IsReady m := by
  by_cases he : m = n
  · subst he
    obtain ⟨g, hg⟩ := h
    rw [e.idle g hg] at hu
    cases hu
  · unfold State.IsReady
    rw [slot_setSlot_ne _ _ _ _ he]
    exact h

/-- The fields the law reads. -/
def showOf (s : State) := (s.library, s.setlist, s.curPos, s.cue, s.changeover)

theorem showOk_of {s t : State} (e : showOf t = showOf s) (h : ShowOk s) : ShowOk t := by
  simp only [showOf, Prod.mk.injEq] at e
  obtain ⟨e1, e2, e3, e4, e5⟩ := e
  have hr := isReady_of_library e1
  refine ⟨fun p hp => ?_, fun c hc => ?_, fun r hc => ?_⟩
  · rw [e3] at hp
    obtain ⟨n, h1, h2⟩ := h.current p hp
    exact ⟨n, by rw [e2]; exact h1, (hr n).mpr h2⟩
  · rw [e4] at hc
    obtain ⟨h1, h2⟩ := h.cued c hc
    exact ⟨by rw [e2]; exact h1, (hr _).mpr h2⟩
  · rw [e5] at hc
    exact (hr _).mpr (h.target r hc)

/-- The changeover after a trigger to a READY song has a READY target (R139). -/
theorem takeTrigger_target (t : Trigger) (s : State) (hr : s.IsReady t.slot)
    (h : ∀ r, s.changeover = some r → s.IsReady r.slot) :
    ∀ r, (takeTrigger t s).1.changeover = some r → s.IsReady r.slot := by
  let P : State → Prop := fun u => ∀ r, u.changeover = some r → s.IsReady r.slot
  have hl : ∀ s l x, P s → P (State.setLink s l x) := fun s l x h => by cases l <;> exact h
  have hch : ∀ (s : State) x, SameRecord s.changeover x → P s → P { s with changeover := x } := by
    intro u x hx hu r hr
    obtain ⟨r0, h0, h1⟩ := hx r hr
    rw [h1]
    exact hu r0 h0
  have hs : SendFree P :=
    { offered := raiseOn_free hl, port := fun _ _ _ _ h => h, held := fun _ _ _ h => h, fault := fun _ _ h => h,
      changeover := hch, progMem := fun _ _ h => h }
  have hn := NoteFree.ofHeld (P := P) hs.toOutFree (fun _ _ h => h) (fun _ _ h => h) (fun _ _ h => h) (fun _ _ h => h)
  refine takeTrigger_of (P := P) hs (fun n k s hs => replaceLive_closed hn (fun _ _ _ h => h) n k hs) t ?_ ?_ h
  · intro u u' _ r hr'
    cases hr'
    exact hr
  · intro u hu
    unfold moveSelection
    split
    · exact hu
    · have e := reposition_read (fun s => s.changeover) (fun s l x => by cases l <;> rfl) (fun _ _ _ => rfl)
        (fun _ _ => rfl) (fun _ _ => rfl) (clearTempo { u with curPos := some t.position, curScene := some t.scene })
      have e2 := clearTempo_read (fun s => s.changeover) (fun s l x => by cases l <;> rfl) (fun _ _ => rfl)
        { u with curPos := some t.position, curScene := some t.scene }
      intro r hr
      rw [show (reposition (clearTempo { u with curPos := some t.position, curScene := some t.scene })).1.changeover =
        u.changeover from e.trans e2] at hr
      exact hu r hr

/-- A trigger to a READY song under its own position keeps the law. -/
theorem takeTrigger_show (t : Trigger) (s : State) (h : ShowOk s) (h1 : s.setlist[t.position]? = some t.slot)
    (h2 : s.IsReady t.slot) : ShowOk (takeTrigger t s).1 := by
  have hc := takeTrigger_core t s
  simp only [coreOf, Prod.mk.injEq] at hc
  obtain ⟨c1, c2, c3, c4, -⟩ := hc
  have hrd := isReady_of_library c3
  obtain ⟨-, -, -, a4, -⟩ := takeTrigger_reads t s
  refine ⟨fun p hp => ?_, fun c hc => ?_, fun r hr => ?_⟩
  · rw [a4] at hp
    rw [c4]
    split at hp
    · cases hp
      exact ⟨_, h1, (hrd _).mpr h2⟩
    · obtain ⟨n, h3, h4⟩ := h.current p hp
      exact ⟨n, h3, (hrd _).mpr h4⟩
  · rw [c1] at hc
    rw [c4]
    obtain ⟨h3, h4⟩ := h.cued c hc
    exact ⟨h3, (hrd _).mpr h4⟩
  · exact (hrd _).mpr (takeTrigger_target t s h2 h.target r hr)

end Sys2Proof.Laws
end

