-- ==== Sys2Proof/Laws/Walks.lean ====
section
/-! SUPPORT. The walks over inputs, ports and contacts, what PANIC leaves (R176), and the end of a command during
initialisation. -/

namespace Sys2Proof.Laws

open Sys2Proof.Machine

theorem mapInputs_input (f : InputState → InputState) (s : State) (i : Input) : (mapInputs f s).input i = f (s.input i) := by
  have : ∀ (xs : List Input) (s : State), xs.Nodup → (xs.foldl (fun s i => s.setInput i (f (s.input i))) s).input i =
      if i ∈ xs then f (s.input i) else s.input i := by
    intro xs
    induction xs with
    | nil => intro s _; rfl
    | cons x xs ih =>
      intro s h
      rw [List.foldl_cons, ih _ (List.nodup_cons.mp h).2]
      have hx := (List.nodup_cons.mp h).1
      by_cases e : i = x
      · subst e; simp [hx]
      · rw [input_setInput_ne _ _ _ _ e]; simp [e]
  unfold mapInputs
  rw [this _ _ (by decide), if_pos (by clear this; revert i; decide)]

theorem mapFoots_foot (f : FootState → FootState) (s : State) (i : FootLine) : (mapFoots f s).foot i = f (s.foot i) := by
  have : ∀ (xs : List FootLine) (s : State), xs.Nodup → (xs.foldl (fun s i => s.setFoot i (f (s.foot i))) s).foot i =
      if i ∈ xs then f (s.foot i) else s.foot i := by
    intro xs
    induction xs with
    | nil => intro s _; rfl
    | cons x xs ih =>
      intro s h
      rw [List.foldl_cons, ih _ (List.nodup_cons.mp h).2]
      have hx := (List.nodup_cons.mp h).1
      by_cases e : i = x
      · subst e; simp [hx]
      · rw [foot_setFoot_ne _ _ _ _ e]; simp [e]
  unfold mapFoots
  rw [this _ _ (by decide), if_pos (by clear this; revert i; decide)]

theorem mapFoots_eq (f : FootState → FootState) (s : State) : mapFoots f s = { s with foots := (mapFoots f s).foots } := by
  have : ∀ (xs : List FootLine) (s : State), xs.foldl (fun s i => s.setFoot i (f (s.foot i))) s = { s with foots :=
      (xs.foldl (fun s i => s.setFoot i (f (s.foot i))) s).foots } := by
    intro xs
    induction xs with
    | nil => intro s; rfl
    | cons x xs ih => intro s; rw [List.foldl_cons, ih]; rfl
  exact this allFoots s

theorem mapPorts_eq (f : PortState → PortState) (s : State) : mapPorts f s = { s with ports := (mapPorts f s).ports } := by
  have : ∀ (xs : List Port) (s : State), xs.foldl (fun s i => s.setPort i (f (s.port i))) s = { s with ports :=
      (xs.foldl (fun s i => s.setPort i (f (s.port i))) s).ports } := by
    intro xs
    induction xs with
    | nil => intro s; rfl
    | cons x xs ih => intro s; rw [List.foldl_cons, ih]; rfl
  exact this allPorts s

theorem mapPorts_port (f : PortState → PortState) (s : State) (i : Port) : (mapPorts f s).port i = f (s.port i) := by
  have : ∀ (xs : List Port) (s : State), xs.Nodup → (xs.foldl (fun s i => s.setPort i (f (s.port i))) s).port i =
      if i ∈ xs then f (s.port i) else s.port i := by
    intro xs
    induction xs with
    | nil => intro s _; rfl
    | cons x xs ih =>
      intro s h
      rw [List.foldl_cons, ih _ (List.nodup_cons.mp h).2]
      have hx := (List.nodup_cons.mp h).1
      by_cases e : i = x
      · subst e; simp [hx]
      · rw [port_setPort_ne _ _ _ _ e]; simp [e]
  unfold mapPorts
  rw [this _ _ (by decide), if_pos (by clear this; revert i; decide)]

/-- With no entry waiting that the end of an instant decides, the end of an instant changes nothing (R178). -/
theorem endInstant_quiet (s : State) (h : PlacesOk s) : endInstant s = s := by
  unfold endInstant
  refine if_neg (fun ha => ?_)
  obtain ⟨p, -, hp⟩ := List.any_eq_true.1 ha
  rw [h p] at hp
  cases hp

/-- An event that is due now, or with no entry waiting for a place, finds the state as it stands. -/
theorem upTo_at {d : Nat} (s : State) (h : At d s) : s.upTo (some d) = s := by
  unfold State.upTo
  dsimp only
  split
  · exact endInstant_quiet s (h.resolve_left (Nat.not_le.2 ‹_›))
  · rfl

theorem finish_fresh (s : State) (hi : s.init.isSome = true) (ha : s.linkA = LinkState.reset) (hb : s.linkB =
    LinkState.reset) : finish s = s := by
  unfold finish kickPorts
  rw [if_pos hi]
  have h1 : startIdle .a s = s := by
    show { s with linkA := (s.linkA.choose s.now).1 } = s
    rw [ha]
    show { s with linkA := LinkState.reset } = s
    rw [← ha]
  rw [h1]
  show { s with linkB := (s.linkB.choose s.now).1 } = s
  rw [hb]
  show { s with linkB := LinkState.reset } = s
  rw [← hb]

/-! ### PANIC -/
/-- A record whose entries of some ports, where a settle timer ran, settle no more. -/
def clr (timer : Port → Bool) (ps : List Port) (r : Changeover) : Changeover :=
  { r with ports := r.ports.map (fun e => if e.port ∈ ps ∧ timer e.port = true then { e with settling := false } else e) }

theorem reportSettleEnd_ports (p : Port) (s : State) : (reportSettleEnd p s).ports = s.ports :=
  reportSettleEnd_closed (P := fun u => u.ports = s.ports)
    { offered := raiseOn_free (fun s l x h => by cases l <;> exact h), changeover := fun _ _ _ h => h } p rfl

/-- A port after PANIC (R176). -/
def panicked (q : PortState) : PortState := { q with
        noteLane := q.noteLane.filter NoteEntry.isProgram ++ allChans.map NoteEntry.sweep
        clickLane := []
        sweepPending := []
        settleDue := none }

theorem panicPort_port (p q : Port) (s : State) : (panicPort p s).port q = if q =
    p then panicked (s.port q) else s.port q := by
  have : (panicPort p s).ports = (s.setPort p (panicked (s.port p))).ports := by
    unfold panicPort
    dsimp only
    split
    · rw [reportSettleEnd_ports]; rfl
    · rfl
  rw [State.port, this]
  show (s.setPort p _).port q = _
  rw [port_setPort_ite]
  split
  · rename_i e; rw [e]
  · rfl

theorem panicPorts_port : ∀ (ps : List Port) (s : State) (q : Port), ps.Nodup →
    (ps.foldl (fun s p => panicPort p s) s).port q = if q ∈ ps then panicked (s.port q) else s.port q
  | [], _, _, _ => by simp
  | p :: ps, s, q, h => by
    rw [List.foldl_cons, panicPorts_port ps _ q (List.nodup_cons.mp h).2, panicPort_port]
    have := (List.nodup_cons.mp h).1
    by_cases e : q = p
    · subst e; simp [this]
    · simp [e]

theorem raise_changeover (n : Notice) (s : State) : (raise n s).changeover = s.changeover :=
  read_raise (fun u => u.changeover) (fun s l x => by cases l <;> rfl) n s

theorem panicPort_co (p : Port) (s : State) : (panicPort p s).changeover =
    match s.changeover with
    | none => none
    | some r => if (s.port p).settleDue.isSome ∧ r.ports.any (fun e => decide (e.port = p)) then
        (if (r.mapEntry p (fun e => { e with settling := false })).allDone then none else some (r.mapEntry p (fun e => { e
            with settling := false })))
      else some r := by
  unfold panicPort
  dsimp only
  split
  · rename_i h
    unfold reportSettleEnd
    rw [setPort_changeover]
    cases hr : s.changeover with
    | none => exact hr
    | some r =>
      dsimp only
      split
      · rename_i ha
        rw [if_pos ⟨h, ha⟩]
        unfold completeIfDone
        dsimp only
        split <;> rfl
      · rename_i ha
        rw [if_neg (fun h => ha h.2)]; exact hr
  · rename_i h
    cases hr : s.changeover with
    | none => exact hr
    | some r => dsimp only; rw [if_neg (fun h2 => h h2.1)]; exact hr

theorem clr_cons (timer : Port → Bool) (ps : List Port) (p : Port) (r : Changeover) :
    clr timer (ps ++ [p]) r = if timer p = true then (clr timer ps r).mapEntry p (fun e => { e with settling :=
        false }) else clr timer ps r := by
  unfold clr Changeover.mapEntry
  split
  · rename_i h
    dsimp only
    congr 1
    rw [List.map_map]
    apply List.map_congr_left
    intro e _
    dsimp only [Function.comp]
    obtain ⟨ep, eo, es⟩ := e
    dsimp only
    by_cases h2 : ep = p
    · subst h2
      by_cases h1 : ep ∈ ps
      · simp [h1, h]
      · simp [h1, h]
    · by_cases h1 : ep ∈ ps ∧ timer ep = true
      · simp [h1, h2]
      · have h3 : ¬ (ep ∈ ps ++ [p] ∧ timer ep = true) := by simpa [h2] using h1
        simp only [h1, h3, if_false, h2]
  · rename_i h
    congr 1
    apply List.map_congr_left
    intro e _
    by_cases h2 : e.port = p
    · simp [h2, h]
    · simp [h2]

theorem any_clr (timer : Port → Bool) (ps : List Port) (p : Port) (r : Changeover) :
    (clr timer ps r).ports.any (fun e => decide (e.port = p)) = r.ports.any (fun e => decide (e.port = p)) := by
  unfold clr
  dsimp only
  rw [List.any_map]
  congr 1; funext e
  dsimp only [Function.comp]; split <;> rfl

theorem done_out (r : Changeover) (h : r.allDone = true) : ∀ e ∈ r.ports, e.outstanding = 0 := by
  intro e he
  unfold Changeover.allDone at h
  rw [List.all_eq_true] at h
  have := h e he
  simp only [PortEntry.state] at this
  split at this
  · cases this
  · omega

theorem clr_out (timer : Port → Bool) (ps : List Port) (r : Changeover) (h : ∀ e ∈ (clr timer ps r).ports, e.outstanding =
    0) :
    ∀ e ∈ r.ports, e.outstanding = 0 := by
  intro e he
  have := h _ (List.mem_map_of_mem (f := fun e => if e.port ∈ ps ∧ timer e.port = true then { e with settling :=
      false } else e) he)
  split at this <;> exact this

/-- after the ports ps (nodup) -/
theorem panic_inv (s : State) (r : Changeover) (hr : s.changeover = some r) : ∀ (ps : List Port), ps.Nodup →
    let u := ps.foldl (fun s p => panicPort p s) s
    (u.changeover = none ∧ ∀ e ∈ r.ports, e.outstanding = 0) ∨
    (u.changeover = some (clr (fun p => (s.port p).settleDue.isSome) ps r) ∧
      ((∃ e ∈ r.ports, e.port ∈ ps ∧ (s.port e.port).settleDue.isSome =
          true) → (clr (fun p => (s.port p).settleDue.isSome) ps r).allDone = false)) := by
  intro ps
  induction ps using List.reverseRecOn with
  | nil => intro _; right; simp [clr, hr]
  | append_singleton ps p ih =>
    intro hn
    have hn1 : ps.Nodup := (List.nodup_append.mp hn).1
    have hp : p ∉ ps := by
      intro h; exact (List.nodup_append.mp hn).2.2 p h p (by simp) rfl
    intro u
    have hu : u = panicPort p (ps.foldl (fun s p => panicPort p s) s) := by simp [u]
    have hport : (ps.foldl (fun s p => panicPort p s) s).port p = s.port p := by rw [panicPorts_port _ _ _ hn1, if_neg hp]
    rcases ih hn1 with ⟨h1, h2⟩ | ⟨h1, h2⟩
    · left; refine ⟨?_, h2⟩
      rw [hu, panicPort_co, h1]
    · have hc := panicPort_co p (ps.foldl (fun s p => panicPort p s) s)
      rw [← hu, h1] at hc
      dsimp only at hc
      rw [hport, any_clr] at hc
      by_cases ht : (s.port p).settleDue.isSome = true
      · by_cases ha : r.ports.any (fun e => decide (e.port = p)) = true
        · rw [if_pos ⟨ht, ha⟩] at hc
          rw [clr_cons, if_pos ht]
          by_cases hd : ((clr (fun p => (s.port p).settleDue.isSome) ps r).mapEntry p (fun e => { e with settling :=
              false })).allDone = true
          · left; rw [if_pos hd] at hc; refine ⟨hc, ?_⟩
            apply clr_out (fun p => (s.port p).settleDue.isSome) (ps ++ [p])
            rw [clr_cons, if_pos ht]
            exact done_out _ hd
          · right; rw [if_neg hd] at hc; exact ⟨hc, fun _ => by simpa using hd⟩
        · rw [if_neg (fun h => ha h.2)] at hc
          have hne : ∀ e ∈ r.ports, e.port ≠ p := by simpa using ha
          have e1 : clr (fun p => (s.port p).settleDue.isSome) (ps ++ [p]) r =
              clr (fun p => (s.port p).settleDue.isSome) ps r := by
            unfold clr; congr 1; apply List.map_congr_left; intro e he; simp [hne e he]
          right; rw [e1]; refine ⟨hc, ?_⟩
          rintro ⟨e, he, hm, ht⟩; exact h2 ⟨e, he, by simpa [hne e he] using hm, ht⟩
      · rw [if_neg (fun h => ht h.1)] at hc
        right; rw [clr_cons, if_neg ht]; refine ⟨hc, ?_⟩
        rintro ⟨e, he, hm, ht2⟩
        refine h2 ⟨e, he, ?_, ht2⟩
        rcases List.mem_append.mp hm with h | h
        · exact h
        · rw [List.mem_singleton.mp h] at ht2; exact absurd ht2 ht

/-- What the walk of PANIC over the ports never touches. -/
def quietOf (u : State) :=
  ((u.held, u.pedals, u.click, u.panicCount, u.tempo, u.transport, u.library, u.setlist, u.curPos, u.curScene, u.cue,
      u.departure),
    (u.inputs, u.foots, u.init, u.clkin, u.pending, u.live, u.liveId, u.stealCount, u.progMem, u.audition, u.faultRecord,
      u.now))

theorem panics_quiet (ps : List Port) (s : State) : quietOf (ps.foldl (fun s p => panicPort p s) s) = quietOf s := by
  refine read_foldl quietOf (fun s p => ?_) ps s
  unfold panicPort
  dsimp only
  split
  · exact reportSettleEnd_closed (P := fun u => quietOf u = quietOf s)
      { offered := raiseOn_free (fun s l x h => by cases l <;> exact h), changeover := fun _ _ _ h => h } p rfl
  · rfl

theorem sameLinks_trans {s t u : State} (h : SameLinks s t) (k : SameLinks t u) : SameLinks s u := by
  intro l; rw [k l, h l]

theorem panics_links (ps : List Port) (s : State) : SameLinks s (ps.foldl (fun s p => panicPort p s) s) := by
  refine foldl_closed (P := fun u => SameLinks s u) (fun u p hu => ?_) ps s (fun l => rfl)
  unfold panicPort
  dsimp only
  have hf : RecordFree (fun u => SameLinks s u) :=
    { offered := fun l n u h => sameLinks_trans h (bandOnly_raiseOn l n u).links, changeover := fun _ _ _ h => h }
  split
  · exact reportSettleEnd_closed hf p hu
  · exact hu

theorem panicAll_eq (o : Origin) (s v w : State) (hv : allPorts.foldl (fun s p => panicPort p s) (emptyNoteTable s) = v)
    (hw : w = { v.setOffs [] with panicCount := bump v.panicCount }) :
    panicAll o s = raise (.panic o w.transport.bar w.transport.beat w.transport.step) w := by
  unfold panicAll
  rw [hv]
  subst hw; rfl

/-- What PANIC leaves, for whichever state its walk over the ports left. -/
structure PanicFacts (s w : State) : Prop where
  held : w.held = []
  pedals : ∀ i c, w.pedal i c = { down := false, pairs := [] }
  port : ∀ p, w.port p = panicked (s.port p)
  click : w.click = { s.click with offs := [] }
  count : w.panicCount = bump s.panicCount
  none : s.changeover = none → w.changeover = none
  some : ∀ r, s.changeover = some r → (w.changeover = Option.none ∧ ∀ e ∈ r.ports, e.outstanding = 0) ∨
    (w.changeover = some (clr (fun p => (s.port p).settleDue.isSome) allPorts r) ∧
      ((∃ e ∈ r.ports, e.port ∈ allPorts ∧ (s.port e.port).settleDue.isSome = true) →
        (clr (fun p => (s.port p).settleDue.isSome) allPorts r).allDone = false))
  rest : (w.tempo, w.transport, w.library, w.setlist, w.curPos, w.curScene, w.cue, w.departure, w.inputs, w.foots, w.init,
      w.clkin, w.pending, w.live, w.liveId, w.stealCount, w.progMem, w.audition, w.faultRecord, w.now) =
    (s.tempo, s.transport, s.library, s.setlist, s.curPos, s.curScene, s.cue, s.departure, s.inputs, s.foots, s.init,
        s.clkin, s.pending, s.live, s.liveId, s.stealCount, s.progMem, s.audition, s.faultRecord, s.now)
  links : SameLinks s w

theorem quiet_empty (s : State) : quietOf (emptyNoteTable s) =
    quietOf { s with held := [], pedals := Vector.replicate 6 (Vector.replicate 16 .up) } := rfl

theorem panicFacts (s v w : State) (hv : allPorts.foldl (fun s p => panicPort p s) (emptyNoteTable s) = v)
    (hw : w = { v.setOffs [] with panicCount := bump v.panicCount }) : PanicFacts s w := by
  have hq := panics_quiet allPorts (emptyNoteTable s)
  have hl := panics_links allPorts (emptyNoteTable s)
  have hp := panicPorts_port allPorts (emptyNoteTable s)
  have hi := fun r hr => panic_inv (emptyNoteTable s) r hr allPorts (by decide)
  have hn : (emptyNoteTable s).changeover = none → (allPorts.foldl (fun s p => panicPort p s) (emptyNoteTable
      s)).changeover = none := by
    intro h
    refine foldl_closed (P := fun u => u.changeover = none) (fun u p hu => ?_) allPorts _ h
    rw [panicPort_co, hu]
  rw [hv] at hq hl hn
  simp only [hv] at hi hp
  rw [quiet_empty] at hq
  have hm : ∀ p, (emptyNoteTable s).port p = s.port p := fun _ => rfl
  have hc : (emptyNoteTable s).changeover = s.changeover := rfl
  simp only [hm, hc] at hi hp hn
  clear hv
  dsimp only [quietOf] at hq
  simp only [Prod.mk.injEq] at hq
  obtain ⟨⟨q1,q2,q3,q4,q5,q6,q7,q8,q9,q10,q11,q12⟩, r1,r2,r3,r4,r5,r6,r7,r8,r9,r10,r11,r12⟩ := hq
  have hl2 : SameLinks s (emptyNoteTable s) := fun _ => rfl
  have hall : ∀ p : Port, p ∈ allPorts := by decide
  have hl3 := sameLinks_trans hl2 hl
  subst hw
  exact { held := q1, click := by show ({ v.click with offs := [] } : ClickState) = _; rw [q3]
          pedals := fun i c => by
            show v.pedals[i][c] = _
            rw [q2]; simp [PedalRecord.up]
          port := fun p => by
            show v.port p = _
            rw [hp p (by decide), if_pos (hall p)]
          count := by show bump v.panicCount = _; rw [q4]
          none := hn, some := hi, links := hl3
          rest := by
            show (v.tempo, v.transport, v.library, v.setlist, v.curPos, v.curScene, v.cue, v.departure, v.inputs, v.foots,
                v.init, v.clkin, v.pending, v.live, v.liveId, v.stealCount, v.progMem, v.audition, v.faultRecord, v.now) = _
            rw [q5,q6,q7,q8,q9,q10,q11,q12,r1,r2,r3,r4,r5,r6,r7,r8,r9,r10,r11,r12] }

/-- PANIC leaves what `PanicFacts` says, and then raises its notice. -/
theorem panicAll_facts (o : Origin) (s : State) :
    ∃ w, panicAll o s = raise (.panic o s.transport.bar s.transport.beat s.transport.step) w ∧ PanicFacts s w := by
  obtain ⟨v, hv⟩ : ∃ v, allPorts.foldl (fun s p => panicPort p s) (emptyNoteTable s) = v := ⟨_, rfl⟩
  have h := panicFacts s v _ hv rfl
  have h2 := panicAll_eq o s v _ hv rfl
  generalize ({ v.setOffs [] with panicCount := bump v.panicCount } : State) = w at *
  refine ⟨w, ?_, h⟩
  have := h.rest
  simp only [Prod.mk.injEq] at this
  rw [h2, this.2.1]

end Sys2Proof.Laws
end

