-- ==== Sys2Proof/Tests/Slice0.lean ====
section
/-! SUPPORT. Small tests on fixed values: an ill-formed command for each check of WellFormed, the worked figures and the
show sequences of the spec, and a witness for every statement that has hypotheses. -/

namespace Sys2Proof.Tests

open Sys2Proof.Machine

/-! ### WellFormed refuses -/

/-- A frame of 59 field bytes does not fit. -/
theorem test_wf_badFrame_long : Instr.wf (.badFrame .a 8#8 0#8 (List.replicate 59 0#8) 1#8) = false := by decide

/-- A BAD_FRAME whose CHECK is right is no bad frame: 02h + 09h + 00h + F5h = 100h. -/
theorem test_wf_badFrame_check : Instr.wf (.badFrame .a 9#8 0#8 [] 0xF5#8) = false := by decide

theorem test_wf_badFrame_good : Instr.wf (.badFrame .a 9#8 0#8 [] 0xF4#8) = true := by decide

/-- KIND 1Ch is CUE (R197), so it is not unknown. -/
theorem test_wf_unknownKind : Instr.wf (.unknownKind .a 0x1C#8 0#8 []) = false := by decide

theorem test_wf_unknownKind_long : Instr.wf (.unknownKind .a 0x80#8 0#8 (List.replicate 59 0#8)) = false := by decide

theorem test_wf_songOpen_long :
    Instr.wf (.songOpen .a 0#8 0#8 0#8 0#8 1#8 0#16 (List.replicate 53 0x41#8)) = false := by decide

theorem test_wf_sceneBegin_long : Instr.wf (.sceneBegin .a 0#8 0#8 (List.replicate 58 0x41#8)) = false := by decide

theorem test_wf_linkNote_long : Instr.wf (.linkNote .a 0#8 (List.replicate 59 0x41#8)) = false := by decide

theorem test_wf_clickGate_note : Instr.wf (.clickGateExpiry 0 0 128) = false := by decide

/-- The table gives no row any bits. -/
theorem test_decode_none : decodeTableWord 16 0x1C = none := rfl

/-! ### Worked figures of the spec -/

/-- A zone on input 0, any channel, all keys and velocities, to OUT0 channel 1. -/
def zone : Zone :=
  { inputs := 1#6, sourceChannel := none, keyLow := 0, keyHigh := 127, velLow := 1, velHigh := 127, direction := .normal,
    port := 0, chan := 0, transpose := 0, curve := .linear, scale := 100, offset := 0, pedal := .chip,
    forward := { controllers := true, bend := true, pressure := true, poly := true } }

/-- Chapter 1, worked figures: v = 64 on a SOFT zone with scale 120 and offset -10 gives 85. -/
theorem test_velocity_soft : ({ zone with curve := .soft, scale := 120, offset := -10 } : Zone).outputVelocity 64 = 85 := by
  decide

/-- Chapter 1, worked figures: c = 45, scale 110 rounds 49.5 up to 50. -/
theorem test_velocity_halves : ({ zone with curve := .fixed 45, scale := 110 } : Zone).outputVelocity 1 = 50 := by decide

/-- Chapter 1, worked figures: 139 is clamped to 127, and -5 to 1. -/
theorem test_velocity_clamps : ({ zone with curve := .fixed 79, scale := 150, offset := 20 } : Zone).outputVelocity 1 = 127 ∧
    ({ zone with curve := .fixed 10, scale := 50, offset := -10 } : Zone).outputVelocity 1 = 1 := by decide

/-- R8: REVERSE 48 to 72, transpose 12, key 48 gives 84, and NORMAL 40 - 12 gives 28. -/
theorem test_output_keys :
    ({ zone with direction := .reverse, keyLow := 48, keyHigh := 72, transpose := 12 } : Zone).outputKey 48 = 84 ∧
      ({ zone with transpose := -12 } : Zone).outputKey 40 = 28 := by decide

/-- Chapter 1, the four-layer limit: key 60 on six zones leaves four targets, one limit skip and no transpose skip. -/
theorem test_layer_limit :
    let zs : List Zone := [{ zone with port := 4 }, { zone with port := 4 }, { zone with port := 5, transpose := 48 },
      { zone with port := 5, chan := 1 }, { zone with port := 6, transpose := -12 }, { zone with port := 7, transpose := 7 }]
    (layers zs 0 4 60 100).targets.map (fun t => t.triple.key) = [60, 108, 60, 48] ∧
      (layers zs 0 4 60 100).limitSkips = 1 ∧ (layers zs 0 4 60 100).transposeSkips = 0 := by decide

/-- Chapter 4: at 12000 from A = 0 the steps last 5208, 5208 and 5209 µs, and A is 0 again. -/
theorem test_step_durations : stepDuration 12000 0 = (5208, 4000) ∧ stepDuration 12000 4000 = (5208, 8000) ∧
    stepDuration 12000 8000 = (5209, 0) := by decide

/-- Chapter 4, a ramp of a 2/4 segment over 1 bar from 12001 to 11000: the tempo at k = 1 is 11500. -/
theorem test_ramp_rounds_away : (Segment.mk 1 2 4 12001 1 (some 11000)).rampValue 1 = 11500 := by decide

/-- Chapter 4, worked figures for tap tempo: 612000 gives 9804, and three intervals of 1848000 in all give 9740. -/
theorem test_tap_tempo : tapTempo [612000] = 9804 ∧ tapTempo [618000, 615000, 615000] = 9740 := by decide

/-- Chapter 11, worked frame: CUE 03h 00h 03h with tag 12h is A5h 05h 1Ch 12h 03h 00h 03h C7h. -/
theorem test_cue_frame : (mkFrame 0x1C#8 0x12#8 [3#8, 0#8, 3#8]).bytes =
    [0xA5#8, 0x05#8, 0x1C#8, 0x12#8, 0x03#8, 0x00#8, 0x03#8, 0xC7#8] := by decide

/-- Chapter 11, worked frame: the OK reply with 00h 04h 09h 00h 01h 03h has KIND 9Ch and CHECK 39h. -/
theorem test_cue_reply : (replyTo 0x1C#8 0x12#8 (.ok [0#8, 4#8, 9#8, 0#8, 1#8, 3#8])).frame.bytes =
    [0xA5#8, 0x08#8, 0x9C#8, 0x12#8, 0#8, 4#8, 9#8, 0#8, 1#8, 3#8, 0x39#8] := by decide

/-- Chapter 11: the refusal CUE_HELD has KIND 80h, LEN 04h and the fields 1Ch 0Bh. -/
theorem test_cue_held_reply : ((replyTo 0x1C#8 0x12#8 (.refuse .cueHeld [])).frame.bytes.take 6) =
    [0xA5#8, 0x04#8, 0x80#8, 0x12#8, 0x1C#8, 0x0B#8] := by decide

/-- R162: a PROGRAM entry with MSB and LSB is three messages; a SWEEP is two. -/
theorem test_entry_messages : (NoteEntry.program 2 (some 1) (some 5) 7).messages.map (fun m => m.status :: m.data) =
      [[0xB2#8, 0#8, 1#8], [0xB2#8, 32#8, 5#8], [0xC2#8, 7#8]] ∧
    (NoteEntry.sweep 0).messages.map (fun m => m.status :: m.data) =
      [[0xB0#8, 64#8, 0#8], [0xB0#8, 123#8, 0#8]] := by decide

/-! ### One step each -/

/-- The state after a command. -/
def after (c : Instr) (s : State) : State :=
  match exec c s with
  | .next t => t
  | .fault _ => s
  | .refused _ => s

/-- The part after initialisation, nothing loaded. -/
def idle : State := { State.reset with init := none }

/-- A song like the one of chapter 5's first worked example: one segment of 4/4 at 12000, a count-in bar, two scenes. -/
def song : Song :=
  { name := [0x41#8], countIn := 1, startMode := .follow, phrase := 4, stopBar := some 8,
    segments := [{ startBar := 1, numerator := 4, denominator := 4, tempo := 12000, rampBars := 0, rampTarget := none }],
    scenes := [{ name := [], timing := .bar, zones := [zone],
                 assignments := [{ port := 0, chan := 0, msb := none, lsb := none, program := 5 }] },
               { name := [0x42#8], timing := .phrase, zones := [zone], assignments := [] }] }

/-- Slot 0 is READY, positions 0 and 1 name it and position 2 names an EMPTY slot; scene 0 of position 0 is current. -/
def onStage : State :=
  { idle.setSlot 0 (.ready song) with setlist := [0, 0, 1], curPos := some 0, curScene := some 0 }

/-- A transport state in place of STOPPED. -/
def inMode (m : TransportMode) (s : State) : State := { s with transport := { s.transport with mode := m } }

/-- Chapter 5, the first beat of a song: the first step begins at 0 and lasts 5208 µs, bar 1, beat 1. -/
theorem test_start_step : (after (.start .a 7#8 1#8) onStage).transport.stepEnd = some 5208 ∧
    (after (.start .a 7#8 1#8) onStage).transport.mode = .running := by decide +kernel

theorem test_start_count_in : (after (.start .a 7#8 0#8) onStage).transport.mode = .countIn := by decide +kernel

/-! ### Witnesses: states that meet the hypotheses of the statements, clause by clause -/

/-- A claim about what an Option holds, from the value it holds. -/
theorem of_some {α : Type} {o : Option α} {c : α} {P : α → Prop} (h : o = some c) (p : P c) : ∀ x, o = some x → P x := by
  rintro x k
  exact Option.some.inj (h.symm.trans k) ▸ p

/-- A claim about what an Option holds, where it holds nothing. -/
theorem of_none {α : Type} {o : Option α} {P : α → Prop} (h : o = none) : ∀ x, o = some x → P x :=
  fun _ k => nomatch h.symm.trans k

/-- `onStage` with a START waiting. -/
def waiting : State := { onStage with pending := [.start .a 7#8 1#8] }

theorem waiting_steps : ∃ t, step waiting = .next t := ⟨_, rfl⟩

theorem song_ok : SongOk song where
  name := ⟨by decide, by decide, by decide⟩
  countIn := by decide
  phrase := by decide
  stopBar := of_some rfl (by decide)
  segments := ⟨by decide, by
    intro x h
    obtain rfl := List.mem_singleton.mp h
    exact ⟨by decide, by decide, by decide, by decide, of_none rfl⟩⟩
  rising := by decide
  first := of_some rfl rfl
  scenes := ⟨by decide, by
    have z : ZoneOk zone := ⟨by decide, by decide, by decide, by decide, nofun, by decide, by decide⟩
    intro x h
    obtain rfl | h := List.mem_cons.mp h
    · exact ⟨⟨by decide, by decide, nofun⟩, ⟨by decide, fun y k => List.mem_singleton.mp k ▸ z⟩,
        ⟨by decide, fun y k => List.mem_singleton.mp k ▸ ⟨nofun, nofun, by decide⟩⟩, by decide⟩
    · obtain rfl := List.mem_singleton.mp h
      exact ⟨⟨by decide, by decide, by decide⟩, ⟨by decide, fun y k => List.mem_singleton.mp k ▸ z⟩, ⟨by decide, nofun⟩,
        by decide⟩⟩

theorem onStage_slot (n : SlotNo) : onStage.slot n = if n = 0 then .ready song else .empty := by
  revert n
  decide

theorem link_ok_reset : LinkOk LinkState.reset where
  buffer := by decide
  replies := by decide
  waiting h := absurd rfl h
  idle _ := ⟨rfl, rfl⟩
  kinds := List.nodup_nil
  admitted _ h := absurd h List.not_mem_nil
  repeats _ h := absurd h List.not_mem_nil
  timer := by decide

theorem onStage_library : LibraryOk onStage := by
  intro n
  rw [onStage_slot]
  split
  · exact ⟨song_ok, by decide⟩
  · trivial

theorem waiting_safe : Safe waiting where
  links l := by cases l <;> exact link_ok_reset
  rest := ⟨fun _ => ⟨rfl, rfl, rfl, rfl, rfl, rfl⟩, fun _ => rfl, fun _ => ⟨rfl, rfl⟩⟩
  cue _ := rfl
  start := ⟨nofun, nofun, nofun, nofun⟩
  ports p := by
    have h : ∀ p, waiting.port p = PortState.reset := by decide
    rw [h p]
    exact ⟨by decide, by decide, by decide, by decide, by decide, by decide, List.nodup_nil⟩
  tempo := ⟨by decide, by decide, nofun, nofun, ⟨by decide, nofun⟩, nofun⟩
  click := List.nodup_nil
  record := by
    have h : ∀ p, waiting.port p = PortState.reset := by decide
    refine ⟨nofun, fun p => ?_, nofun, fun p => ?_⟩ <;> rw [h p]
    · rfl
    · exact nofun
  held := ⟨by decide, List.nodup_nil⟩
  targets _ h := absurd h List.not_mem_nil
  library := onStage_library
  pools := ⟨by decide, by decide⟩
  owners := by
    have h : ∀ l n, (waiting.slot n).ownedBy l = false := by
      intro l
      cases l <;> decide
    intro l n m k
    simp [h] at k
  shows := by
    refine ⟨of_some rfl ⟨0, rfl, song, by decide⟩, of_none rfl, of_none rfl⟩

theorem witness_StepTakesFrontCommand : waiting.pending = [.start .a 7#8 1#8] ∧ idle.pending = [] ∧ ∀ p, (idle.port p).noteLane.length ≤ 64 := by decide

theorem witness_LinksStaySafe : LinksOk waiting ∧ ∃ t, step waiting = .next t := ⟨waiting_safe.links, waiting_steps⟩
/-- Two PROGRAM entries of the active record stand in the lane of OUT0, and two click note-offs of one note pend on two channels. -/
def changingOver : State :=
  { (onStage.setPort 0 { PortState.reset with noteLane := [.program 0 none none 5, .program 15 none none 6] }).setOffs
      [{ port := 0, chan := 9, note := 76, due := 20000, waiting := false },
        { port := 0, chan := 8, note := 76, due := 20000, waiting := true }] with
    changeover := some { kind := .scene, claimant := .linkA, mark := .none
                         source := { position := some 0, slot := some 0, scene := some 0 }
                         position := 0, slot := 0, scene := 1
                         ports := [{ port := 0, outstanding := 2, settling := false }] } }

theorem witness_PortsStaySafe : PortsOk changingOver ∧ StartOk changingOver ∧ ClickOk changingOver ∧
    RecordOk changingOver ∧ changingOver.pending = [] ∧ ∃ t, step changingOver = .next t := by
  have h : ∀ p, p ≠ 0 → changingOver.port p = PortState.reset := by decide
  have k : ∀ p, (changingOver.port p).entry = none := by decide
  refine ⟨fun p => ?_, ⟨nofun, nofun, nofun, nofun⟩, by unfold ClickOk; decide,
    ⟨fun r e => ?_, by decide, fun r e => ?_, fun p e f => ?_⟩, rfl, _, rfl⟩
  · by_cases e : p = 0
    · subst e
      exact ⟨by decide, by decide, by decide, by decide, by decide, by decide, by decide⟩
    · rw [h p e]
      exact ⟨by decide, by decide, by decide, by decide, by decide, by decide, List.nodup_nil⟩
  · cases e
    decide
  · cases e
    decide
  · rw [k p] at f
    cases f

/-- An entry of four targets is held. -/
def fourTargets : State :=
  { onStage with held := [{
      source := { input := 0, chan := 0, key := 60 }
      state := .down
      scene := 0
      targets := [0, 1, 2, 3].map (fun k =>
        { triple := { port := 0, chan := 0, key := k }, velocity := 100, pedal := .chip, forward := zone.forward, sent := true }) }] }

theorem witness_HeldTableStaysSafe : HeldOk fourTargets ∧ TargetsOk fourTargets ∧ ∃ t, step fourTargets = .next t :=
  ⟨⟨by decide, by decide⟩, fun e h => by obtain rfl := List.mem_singleton.mp h; decide, _, rfl⟩
theorem witness_StoppedStaysAtBarOne : ShowOk waiting ∧ RestOk waiting ∧ ∃ t, step waiting = .next t :=
  ⟨waiting_safe.shows, waiting_safe.rest, waiting_steps⟩
theorem witness_StoppedCueSlotIsEmpty : CueOk waiting ∧ ∃ t, step waiting = .next t := ⟨waiting_safe.cue, waiting_steps⟩
theorem witness_LibraryStaysSafe : LibraryOk waiting ∧ ∃ t, step waiting = .next t := ⟨waiting_safe.library, waiting_steps⟩
theorem witness_PoolsAndOwnersStaySafe : (PoolsOk waiting ∧ OwnersOk waiting) ∧ ∃ t, step waiting = .next t :=
  ⟨⟨waiting_safe.pools, waiting_safe.owners⟩, waiting_steps⟩
theorem witness_ShownSongsStayReady : ShowOk waiting ∧ ∃ t, step waiting = .next t := ⟨waiting_safe.shows, waiting_steps⟩

theorem witness_PlayersLeaveTheShow : (∃ t, exec .gridStepEnd onStage = .next t) ∧
    (∃ t, exec (.inputByteReceived 5 0xFF#8 true) onStage = .next t) ∧ ∃ t, exec (.outputItemEnd 7) onStage = .next t :=
  ⟨⟨_, rfl⟩, ⟨_, rfl⟩, _, rfl⟩

/-- One reply. -/
def reply : Reply := { request := 1#8, tag := 7#8, result := none, data := [] }

/-- A frame that asks for STOP. -/
def stopFrame : Frame := mkFrame 2#8 8#8 []

/-- LINK A has four replies queued and `n` frames waiting. -/
def crowded (n : Nat) : State :=
  { onStage with linkA := { LinkState.reset with
      replies := List.replicate 4 reply, buffer := List.replicate n stopFrame, tx := some (wireOf reply.frame 0) } }

theorem witness_RequestReachesItsOwner :
    (requestOf (.start .a 7#8 1#8) = some (.a, .start, 7#8, [1#8]) ∧ fitsFrame [1#8] = true ∧ Takes .a onStage ∧
      ReqKind.start.fits (lenByte [1#8]) = true) ∧
    requestOf (.linkNote .b 7#8 (List.replicate 58 0x41#8)) = some (.b, .linkNote, 7#8, List.replicate 58 0x41#8) ∧
      fitsFrame (List.replicate 58 0x41#8) = true ∧ Takes .b onStage ∧
      ReqKind.linkNote.fits (lenByte (List.replicate 58 0x41#8)) = false := by decide

theorem witness_BusyDuringInitialisation :
    requestOf (.stop .b 7#8) = some (.b, .stop, 7#8, []) ∧ State.reset.init.isSome = true ∧
    HasRoom .b State.reset := by decide

theorem witness_StrayFramesAreAnswered : requestKind 0#8 = none ∧ requestKind 0xFF#8 = none ∧ Takes .a onStage ∧
    (State.reset.init ≠ none ∧ HasRoom .a State.reset) ∧ checkFails 9#8 0#8 [] 0xF4#8 = true ∧ HasRoom .a onStage := by decide

/-- A request, a frame of an unknown kind and one that fails CHECK, before three waiting frames and before four. -/
theorem witness_FrameWaitsOrIsLost :
    ((∃ k tag fields, requestOf (.stop .a 7#8) = some (.a, k, tag, fields) ∧ stopFrame = mkFrame k.code 8#8 fields) ∧
      (∃ kind tag fields, Instr.unknownKind .a 0#8 7#8 [] = .unknownKind .a kind tag fields) ∧
      ∃ kind tag fields check, Instr.badFrame .a 9#8 7#8 [] 0#8 = .badFrame .a kind tag fields check) ∧
    (¬ HasRoom .a (crowded 3) ∧ ((crowded 3).link .a).buffer.length < 4) ∧
    ¬ HasRoom .a (crowded 4) ∧ 4 ≤ ((crowded 4).link .a).buffer.length :=
  ⟨⟨⟨_, _, _, rfl, rfl⟩, ⟨_, _, _, rfl⟩, _, _, _, _, rfl⟩, by decide⟩

theorem witness_BytesMakeTheFrame : ∀ f, f = mkFrame 0x1C#8 0x12#8 (List.replicate 58 0#8) →
    f.len = lenByte f.fields ∧ fitsFrame f.fields = true ∧ (onStage.link .a).rx = .hunt ∧
    (onStage.link .a).interByteDue = none := by
  rintro _ rfl
  decide

/-- With no entry waiting for a place, a command due at any instant finds the state as it stands. -/
theorem at_of {s : State} (h : ∀ p, (s.port p).noteLane.length ≤ 64) (d : Nat) : At d s :=
  .inr (fun p => Laws.unplaced_of_le (h p))

/-- LINK A with its receiver in a state and the inter-byte timer running. -/
def receiving (r : RxState) : State := { onStage with linkA := { LinkState.reset with rx := r, interByteDue := some 5000 } }

theorem witness_ReceiverTable : (onStage.link .a).rx = .hunt ∧ ((receiving .length).link .a).rx = .length ∧
    ((receiving (.body 2#8 [])).link .a).rx = .body 2#8 [] ∧
    ((receiving (.check 2#8 [2#8, 8#8])).link .a).rx = .check 2#8 [2#8, 8#8] ∧
    ((receiving .length).link .a).interByteDue = some 5000 := by decide

theorem witness_ReceiverTable_at : At 5000 (receiving .length) := at_of (by decide) _

/-- LINK A sends, one BEAT notice and nothing else waiting. -/
def noticeWaits : State :=
  { onStage with linkA := { LinkState.reset with
      mask := 0x1FFF#13, notices := [{ notice := .beat 1 1 12000, repeats := 0 }], tx := some (wireOf reply.frame 0) } }

/-- LINK A sends its last frame. -/
def lastFrame : State := { onStage with linkA := { LinkState.reset with tx := some (wireOf reply.frame 0) } }

theorem witness_LinkTransmitterTable : (onStage.link .a).tx = none ∧
    (((crowded 0).link .a).tx = some (wireOf reply.frame 0) ∧
      ((crowded 0).link .a).replies = reply :: List.replicate 3 reply ∧
      ((crowded 0).link .a).buffer = []) ∧
    ((crowded 4).link .a).buffer = stopFrame :: List.replicate 3 stopFrame ∧
    ((noticeWaits.link .a).tx = some (wireOf reply.frame 0) ∧ (noticeWaits.link .a).replies = [] ∧
      (noticeWaits.link .a).notices = [{ notice := .beat 1 1 12000, repeats := 0 }]) ∧
    (lastFrame.link .a).tx = some (wireOf reply.frame 0) ∧ (lastFrame.link .a).replies = [] ∧
      (lastFrame.link .a).notices = [] := by decide

theorem witness_LinkTransmitterTable_at (d : Nat) : At d (crowded 0) ∧ At d (crowded 4) ∧ At d noticeWaits ∧ At d lastFrame :=
  ⟨at_of (by decide) d, at_of (by decide) d, at_of (by decide) d, at_of (by decide) d⟩

/-- A change that LINK B has cued: the second scene of the current song at its next bar. -/
def change : Change :=
  { claimant := .linkB, position := 0, slot := 0, scene := 1, kind := .scene, timing := .bar, relative := true,
    source := .link .b, displaced := none }

/-- `onStage` in a transport state, a grid step ending at 5208, with a change in the cue slot. -/
def cued (m : TransportMode) (c : Change) : State :=
  { onStage with transport := { onStage.transport with mode := m, stepEnd := some 5208 }, cue := some c }

theorem witness_StartTable : Takes .a onStage ∧ LibraryOk onStage ∧ CueOk onStage ∧ flag 2#8 = none ∧
    flag 0#8 = some false ∧ flag 1#8 = some true ∧ onStage.transport.mode = .stopped ∧ 0 < onStage.countInBars ∧
    (Takes .a idle ∧ idle.countInBars = 0) ∧
    Takes .a (inMode .running onStage) ∧ LibraryOk (inMode .running onStage) ∧ CueOk (inMode .running onStage) ∧
    (inMode .running onStage).transport.mode ≠ .stopped :=
  ⟨by decide, onStage_library, fun _ => rfl, by decide, by decide, by decide, by decide, by decide, by decide, by decide,
    onStage_library, fun _ => rfl, by decide⟩

theorem witness_StopTable : (Takes .a onStage ∧ onStage.transport.mode = .stopped) ∧
    (Takes .a (inMode .running onStage) ∧ (inMode .running onStage).transport.mode ≠ .stopped ∧
      (inMode .running onStage).cue = none) ∧
    Takes .a (cued .countIn change) ∧ (cued .countIn change).transport.mode ≠ .stopped ∧
      (cued .countIn change).cue = some change := by decide

/-- `onStage` HELD at the downbeat of a bar. -/
def heldAt (bar : Nat) : State := { onStage with transport := { onStage.transport with mode := .held, bar := bar } }

/-- `onStage` RUNNING with hold-pending set. -/
def holding : State := { onStage with transport := { onStage.transport with mode := .running, holdPending := true } }

theorem witness_HoldAndGoTable :
    (Takes .a (inMode .running onStage) ∧ (inMode .running onStage).transport.mode = .running ∧
      (inMode .running onStage).transport.holdPending = false) ∧
    (Takes .a holding ∧ holding.transport.mode = .running ∧ holding.transport.holdPending = true) ∧
    (Takes .a onStage ∧ onStage.transport.mode ≠ .running ∧ onStage.transport.mode ≠ .held) ∧
    (Takes .a (heldAt 9) ∧ (heldAt 9).transport.mode = .held ∧ (heldAt 9).cue = none ∧ (heldAt 9).beyondStopBar = true) ∧
    Takes .a (heldAt 8) ∧ (heldAt 8).transport.mode = .held ∧ (heldAt 8).cue = none ∧ (heldAt 8).beyondStopBar = false := by
  decide

/-- HELD with a change in the slot: beyond the stop bar, at a bar where a PHRASE change is not due, and at one where it is. -/
theorem witness_HoldAndGoTable_cued : ∀ s : Nat → State, (∀ b, s b = { heldAt b with cue := some { change with timing := .phrase } }) →
    (Takes .a (s 9) ∧ (s 9).transport.mode = .held ∧ (s 9).beyondStopBar = true) ∧
    (Takes .a (s 2) ∧ (s 2).beyondStopBar = false ∧ (s 2).currentSong = some song ∧ (2 - 1) % song.phrase ≠ 0) ∧
    Takes .a (s 5) ∧ (s 5).beyondStopBar = false ∧ (s 5).currentSong = some song ∧ (5 - 1) % song.phrase = 0 := by
  intro s h
  rw [h, h, h]
  decide

/-- `onStage` RUNNING in the last step of a 4/4 bar that has been extended `n` times. -/
def lastStep (n : Nat) : State :=
  { onStage with transport := { onStage.transport with
      mode := .running, beat := 4 + n, step := 383 + 96 * n, extension := n, stepEnd := some 5208 } }

theorem witness_ExtendTable : (Takes .a (lastStep 3) ∧ (lastStep 3).transport.mode = .running ∧
      (lastStep 3).transport.extension < 4 ∧ (lastStep 3).transport.denominator = 4 ∧
      (lastStep 3).transport.step + 1 = (lastStep 3).transport.barLength) ∧
    (Takes .a (lastStep 4) ∧ (lastStep 4).transport.mode = .running ∧ 4 ≤ (lastStep 4).transport.extension) ∧
    Takes .a onStage ∧ onStage.transport.mode ≠ .running := by decide

theorem witness_TempoSetTable : (1999#16 ≠ 0#16 ∧ (1999#16 : Word).toNat < 2000) ∧ 30000 < (30001#16 : Word).toNat ∧
    2000 ≤ (2000#16 : Word).toNat ∧ (30000#16 : Word).toNat ≤ 30000 ∧
    (Takes .b onStage ∧ onStage.transport.mode = .stopped ∧ onStage.segmentInUse = none) ∧
    (∀ r, ({ onStage with tempo := { onStage.tempo with segment := some 0, ramp := r } } : State).segmentInUse = some
      { startBar := 1, numerator := 4, denominator := 4, tempo := 12000, rampBars := 0, rampTarget := none }) ∧
    Takes .b (inMode .held onStage) ∧ (inMode .held onStage).transport.mode ≠ .stopped :=
  ⟨by decide, by decide, by decide, by decide, by decide, fun _ => rfl, by decide⟩

/-- `onStage` at an instant, in a transport state, with a tap series whose last tap came at 1,000,000. -/
def tapped (now : Nat) (m : TransportMode) (taps : List Nat) : State :=
  { inMode m onStage with now := now, tempo := { onStage.tempo with lastTap := some 1000000, taps := taps } }

theorem witness_TapTable : (Takes .a onStage ∧ onStage.tempo.lastTap = none) ∧
    (Takes .a (tapped 1199999 .stopped []) ∧ (tapped 1199999 .stopped []).tempo.lastTap = some 1000000 ∧
      (tapped 1199999 .stopped []).now - 1000000 < 200000) ∧
    (Takes .a (tapped 4000001 .stopped []) ∧ 3000000 < (tapped 4000001 .stopped []).now - 1000000) ∧
    (Takes .a (tapped 1200000 .stopped [300000, 300000, 300000]) ∧
      200000 ≤ (tapped 1200000 .stopped [300000, 300000, 300000]).now - 1000000 ∧
      (tapped 1200000 .stopped [300000, 300000, 300000]).transport.mode = .stopped) ∧
    Takes .a (tapped 4000000 .running []) ∧ (tapped 4000000 .running []).now - 1000000 ≤ 3000000 ∧
      (tapped 4000000 .running []).transport.mode ≠ .stopped := by decide

/-- No entry waits for a place, and one does while OUT0 sends until 640. -/
theorem witness_TransmittersTouchOnlyTheirOwn : PlacesOk onStage ∧ ∀ s, s = onStage.setPort 0 { PortState.reset with
      noteLane := List.replicate 65 (.sweep 0), sweepPending := [3]
      wire := some { bytes := [0xFE#8], status := none, ends := 640 } } →
    ¬ PlacesOk s ∧ dueOf (.outputItemEnd 0) s = some 640 ∧ s.now < 640 := by
  unfold PlacesOk
  refine ⟨by decide, ?_⟩
  rintro _ rfl
  decide

/-- The tempo unit at its ends: the lowest tempo, the highest accumulator, override, staged value and taps. -/
theorem witness_StepDurationsAreExact_kept : ∀ s : State, s = { waiting with
      tempo := { current := 2000, acc := 1999, segment := some 0, ramp := .none, override := some 30000,
                 staged := some { value := .tempo 30000, due := .beat }, lastTap := some 0, taps := [200000, 3000000, 200000] } } →
    LibraryOk s ∧ ShowOk s ∧ TempoOk s ∧ ∃ t, step s = .next t := by
  rintro _ rfl
  have k := waiting_safe.shows
  refine ⟨onStage_library, ⟨k.current, k.cued, k.target⟩,
    ⟨by decide, by decide, of_some rfl (by decide), fun x v h e => ?_, by decide, nofun⟩, _, rfl⟩
  cases h
  cases e
  decide

theorem witness_StepDurationsAreExact : 0 < 2000 ∧ 0 < 2000 ∧ 1999 < 2000 := by decide

/-- The spec's ranges at their ends: the readers accept these fields. -/
def segFields (bar : Word) : SegmentFields :=
  { startBar := bar, numerator := 15#8, denominator := 8#8, tempo := 30000#16, rampBars := 64#8, rampTarget := 2000#16 }

/-- The segment of `segFields`. -/
def seg (bar : Nat) : Segment :=
  { startBar := bar, numerator := 15, denominator := 8, tempo := 30000, rampBars := 64, rampTarget := some 2000 }

/-- `n` segments, each starting `gap` bars after the one before. -/
def segs (n gap : Nat) : List Segment := (List.range n).map (fun k => seg (k * gap + 1))

/-- A scene with `n` zones and no assignments. -/
def sceneOf (n : Nat) : Scene := { name := [], timing := .bar, zones := List.replicate n zone, assignments := [] }

/-- Slot 1 is OPEN for a link, the cursor on a scene or on none; slot 0 as on stage. -/
def opened (l : Link) (segments : List Segment) (scenes : List Scene) (k : Option Nat) : State :=
  onStage.setSlot 1 (.building l { song with segments := segments, scenes := scenes } k)

theorem witness_SongOpenTable :
    (Takes .a onStage ∧ ([0x41#8] : List Byte).length + 6 ≤ 58 ∧
      songHeader ([48#8, 0#8, 0#8, 1#8] ++ Word.bytes 0#16 ++ [0x41#8]) = none) ∧
    songHeader ([47#8, 4#8, 1#8, 8#8] ++ Word.bytes 9998#16 ++ [0x41#8]) = some (47,
      { name := [0x41#8], countIn := 4, startMode := .wait, phrase := 8, stopBar := some 9998, segments := [], scenes := [] }) ∧
    (Takes .a (opened .a [] [] none) ∧ (opened .a [] [] none).ownedSlot .a = some 1) ∧
    (Takes .a (opened .b [] [] none) ∧ (opened .b [] [] none).ownedSlot .a = none ∧
      (opened .b [] [] none).slot 1 = .building .b { song with segments := [], scenes := [] } none) ∧
    (onStage.ownedSlot .a = none ∧ onStage.slot 0 = .ready song ∧ onStage.inUse 0 = true) ∧
    onStage.slot 1 = .empty ∧ (onStage.setSlot 47 (.ready song)).slot 47 = .ready song ∧
      (onStage.setSlot 47 (.ready song)).inUse 47 = false := by decide

theorem witness_SongSegmentTable : (Takes .a onStage ∧ onStage.ownedSlot .a = none) ∧
    Takes .a (opened .a (segs 7 1) [] none) ∧ (opened .a (segs 7 1) [] none).ownedSlot .a = some 1 ∧
    segmentRecord (segmentBytes { segFields 1#16 with numerator := 16#8 }) = none ∧
    segmentRecord (segmentBytes (segFields 8#16)) = some (seg 8) ∧
    segmentRecord (segmentBytes (segFields 7#16)) = some (seg 7) ∧
    (opened .a (segs 8 1) [] none).ownedSlot .a = some 1 ∧ 8 ≤ (segs 8 1).length ∧
    ((segs 7 1).length < 8 ∧ segs 7 1 = segs 6 1 ++ [seg 7] ∧ (seg 7).startBar ≤ (seg 7).startBar ∧
      (seg 7).startBar < (seg 8).startBar) ∧
    ((opened .a [] [] none).ownedSlot .a = some 1 ∧ (seg 1).startBar = 1 ∧ (seg 7).startBar ≠ 1) := by decide

theorem witness_SceneBeginTable : (Takes .a onStage ∧ ([] : List Byte).length + 1 ≤ 58 ∧ onStage.ownedSlot .a = none) ∧
    (∀ x : Timing, 0#8 ≠ x.code) ∧ ¬ IsText 0 12 (List.replicate 13 0x41#8) ∧ (4#8 = Timing.phrase.code ∧ IsText 0 12 []) ∧
    ((opened .a [] (List.replicate 12 (sceneOf 0)) (some 11)).ownedSlot .a = some 1 ∧
      12 ≤ (List.replicate 12 (sceneOf 0)).length) ∧
    (opened .a [] (List.replicate 11 (sceneOf 0)) (some 10)).ownedSlot .a = some 1 ∧
      (List.replicate 11 (sceneOf 0)).length < 12 := by
  refine ⟨by decide, fun x => by cases x <;> decide, fun h => absurd h.2.1 (by decide), ⟨rfl, by decide, by decide, nofun⟩,
    by decide, by decide⟩

/-- The fields of `zone`. -/
def zoneFields : ZoneFields :=
  { inputs := 1#8, sourceChannel := 0xFF#8, keyLow := 0#8, keyHigh := 127#8, velLow := 1#8, velHigh := 127#8,
    direction := 0#8, targetPort := 0#8, targetChannel := 0#8, transpose := 0#8, curve := 0#8, fixedVelocity := 0xFF#8, scale := 100#8,
    offset := 0#8, pedalMode := 0#8, forward := 15#8 }

/-- Program 5 on OUT0 and a channel. -/
def assign (c : Chan) : Assignment := { port := 0, chan := c, msb := none, lsb := none, program := 5 }

/-- A scene with an assignment for each of the first `n` channels. -/
def programsOf (n : Nat) : Scene :=
  { name := [], timing := .bar, zones := [], assignments := (allChans.take n).map assign }

/-- `opened .a` with three songs that hold what one scene under the cursor leaves of a pool: 12 full scenes each. -/
def pooled (full last sc : Scene) : State :=
  (((opened .a [] [sc] (some 0)).setSlot 2 (.ready { song with scenes := List.replicate 12 full })).setSlot 3
    (.ready { song with scenes := List.replicate 12 full })).setSlot 4 (.ready { song with scenes := [last, last, last, last] })

/-- Every zone item is held. -/
def zonesOut : State :=
  ((pooled (sceneOf 16) (sceneOf 16) (sceneOf 15)).setSlot 5
    (.ready { song with scenes := List.replicate 12 (sceneOf 16) })).setSlot 6
    (.ready { song with scenes := List.replicate 6 (sceneOf 16) ++ [sceneOf 15] })

/-- Every program item is held. -/
def programsOut : State :=
  (pooled (programsOf 16) (programsOf 16) (programsOf 15)).setSlot 5
    (.ready { song with scenes := [programsOf 16, programsOf 16, programsOf 16] })

theorem witness_SceneItemsTable_zone : (Takes .a onStage ∧ onStage.ownedSlot .a = none) ∧
    ((opened .a [] [] none).ownedSlot .a = some 1 ∧
      (opened .a [] [] none).slot 1 = .building .a { song with segments := [], scenes := [] } none) ∧
    zoneRecord (zoneBytes { zoneFields with inputs := 0#8 }) = none ∧ zoneRecord (zoneBytes zoneFields) = some zone ∧
    (Takes .a (opened .a [] [sceneOf 16] (some 0)) ∧ (opened .a [] [sceneOf 16] (some 0)).ownedSlot .a = some 1 ∧
      16 ≤ (sceneOf 16).zones.length) ∧
    ((opened .a [] [sceneOf 15] (some 0)).ownedSlot .a = some 1 ∧ (sceneOf 15).zones.length < 16 ∧
      (opened .a [] [sceneOf 15] (some 0)).zoneHeld < 768) ∧
    Takes .a zonesOut ∧ zonesOut.ownedSlot .a = some 1 ∧ zonesOut.zoneHeld = 768 := by decide

theorem witness_SceneItemsTable_program : assignmentRecord [0#8, 16#8, 0xFF#8, 0xFF#8, 5#8] = none ∧
    assignmentRecord [0#8, 14#8, 0xFF#8, 0xFF#8, 5#8] = some (assign 14) ∧
    (Takes .a (opened .a [] [programsOf 15] (some 0)) ∧ (opened .a [] [programsOf 15] (some 0)).ownedSlot .a = some 1 ∧
      (programsOf 15).assignments = (programsOf 14).assignments ++ [assign 14] ∧
      (∀ x ∈ (programsOf 14).assignments, ¬ (x.port = (assign 14).port ∧ x.chan = (assign 14).chan))) ∧
    ((∀ x ∈ (programsOf 15).assignments, ¬ (x.port = (assign 15).port ∧ x.chan = (assign 15).chan)) ∧
      (programsOf 15).assignments.length < 16 ∧ (opened .a [] [programsOf 15] (some 0)).programHeld < 512) ∧
    ((opened .a [] [programsOf 16] (some 0)).ownedSlot .a = some 1 ∧ 16 ≤ (programsOf 16).assignments.length ∧
      ∀ x ∈ (programsOf 16).assignments, ¬ (x.port = 1 ∧ x.chan = (assign 15).chan)) ∧
    Takes .a programsOut ∧ programsOut.ownedSlot .a = some 1 ∧ programsOut.programHeld = 512 := by decide

theorem witness_SongCloseTable : (Takes .a onStage ∧ onStage.ownedSlot .a = none) ∧
    (Takes .a (opened .a [] [] none) ∧ (opened .a [] [] none).ownedSlot .a = some 1) ∧
    (opened .a (segs 1 1) [] none).ownedSlot .a = some 1 ∧
    ((opened .a (segs 2 63) [sceneOf 0] (some 0)).ownedSlot .a = some 1 ∧ (segs 2 63)[0]? = some (seg 1) ∧
      (segs 2 63)[1]? = some (seg 64) ∧ 0 < (seg 1).rampBars ∧ (seg 64).startBar < (seg 1).startBar + (seg 1).rampBars) ∧
    (opened .a (segs 2 64) [sceneOf 0] (some 0)).ownedSlot .a = some 1 ∧
    ∀ j x y, (segs 2 64)[j]? = some x → (segs 2 64)[j + 1]? = some y → 0 < x.rampBars →
      x.startBar + x.rampBars ≤ y.startBar := by
  refine ⟨by decide, by decide, by decide, by decide, by decide, fun j x y h k _ => ?_⟩
  match j, h, k with
  | 0, h, k =>
    cases h
    cases k
    decide
  | n + 1, _, k => exact absurd k (by simp [segs])

theorem witness_SongEraseTable : (Takes .a onStage ∧ 48 ≤ (48#8 : Byte).toNat) ∧
    ((47 : SlotNo).val = (47#8 : Byte).toNat ∧ onStage.slot 47 = .empty) ∧
    (Takes .a (opened .b [] [] none) ∧
      (opened .b [] [] none).slot 1 = .building Link.a.other { song with segments := [], scenes := [] } none) ∧
    (onStage.slot 0 = .ready song ∧ onStage.inUse 0 = true) ∧
    (opened .a [] [] none).slot 1 = .building .a { song with segments := [], scenes := [] } none ∧
    (onStage.setSlot 1 (.ready song)).slot 1 = .ready song ∧ (onStage.setSlot 1 (.ready song)).inUse 1 = false := by decide

/-- `onStage` with `n` entries in the setlist. -/
def listed (n : Nat) : State := { onStage with setlist := List.replicate n 0 }

theorem witness_SetInsertTable : Takes .a onStage ∧ 64 < (65#8 : Byte).toNat ∧ 47 < (48#8 : Byte).toNat ∧
    ((47 : SlotNo).val = (47#8 : Byte).toNat ∧ onStage.setlist.length < 4 ∧ 4 ≤ 64) ∧
    (Takes .a (listed 64) ∧ 64 ≤ (listed 64).setlist.length) ∧
    (Takes .a (listed 63) ∧ 63 ≤ (listed 63).setlist.length ∧ (listed 63).setlist.length < 64) ∧
    ∀ q, (fun q => if 63 ≤ q then q + 1 else q) q = if 63 ≤ q then q + 1 else q :=
  ⟨by decide, by decide, by decide, by decide, by decide, by decide, fun _ => rfl⟩

theorem witness_SetRemoveTable : Takes .a onStage ∧ 63 < (64#8 : Byte).toNat ∧ onStage.setlist.length ≤ 3 ∧
    (0 < onStage.setlist.length ∧ onStage.curPos = some 0) ∧
    (2 < onStage.setlist.length ∧ onStage.curPos ≠ some 2) ∧ (∀ c, onStage.cue = some c → c.position ≠ 2) ∧
    (∀ r, onStage.changeover = some r → r.position ≠ 2 ∧ r.source.position ≠ some 2) ∧
    ∀ q, (fun q => if 2 < q then q - 1 else q) q = if 2 < q then q - 1 else q :=
  ⟨by decide, by decide, by decide, by decide, by decide, of_none rfl, of_none rfl, fun _ => rfl⟩

theorem witness_SetClearAndQuery : (Takes .a onStage ∧ onStage.curPos ≠ none) ∧
    (Takes .b idle ∧ idle.curPos = none ∧ idle.cue = none) ∧ onStage.setlist[2]? = some 1 ∧ onStage.setlist.length < 64 := by
  decide

theorem witness_SongQueryTable : (Takes .a onStage ∧ 48 ≤ (48#8 : Byte).toNat) ∧
    ((47 : SlotNo).val = (47#8 : Byte).toNat ∧ onStage.slot 47 = .empty) ∧ onStage.slot 0 = .ready song ∧
    (opened .b [] [] none).slot 1 = .building .b { song with segments := [], scenes := [] } none := by decide

/-- A changeover to the second scene of the current song, one message outstanding on OUT0. -/
def record : Changeover :=
  { kind := .scene, claimant := .linkA, mark := .none, source := onStage.selection, position := 0, slot := 0, scene := 1,
    ports := [{ port := 0, outstanding := 1, settling := false }] }

/-- `onStage` with an active changeover. -/
def changing (r : Changeover) : State := { onStage with changeover := some r }

theorem witness_StatusGetTable : (Takes .a onStage ∧ 1 < (2#8 : Byte).toNat) ∧ onStage.cue = none ∧
    onStage.changeover = none ∧
    (Takes .b (cued .running change) ∧ (cued .running change).cue = some change) ∧
    Takes .b (changing record) ∧ (changing record).changeover = some record := by decide
/-- Positions 0, 1 and 3 name slot 0, position 2 names the EMPTY slot 1; the current position and scene are given. -/
def standing (p m : Option Nat) : State := { onStage with setlist := [0, 0, 1, 0], curPos := p, curScene := m }

theorem witness_ResolutionTable :
    ((cued .running change).cue = some change ∧ change.relative = true ∧ change.claimant = .linkB) ∧
    (∀ x, (cued .running change).cue = some x → x.relative = true → x.claimant ≠ .stage) ∧
    ((idle.reference .stage).1 = none ∧ idle.curPos = none) ∧
    (standing (some 0) (some 0)).reference .stage = (some 0, some 0) ∧
    ((standing (some 3) none).reference .stage = (some 3, none) ∧ (standing (some 3) none).setlist.length ≤ 3 + 1) ∧
    (standing (some 0) (some 0)).setlist[0]? = some 0 ∧ (standing (some 0) (some 0)).slot 0 = .ready song ∧
    (0 + 1 < song.scenes.length ∧ song.scenes.length ≤ 1 + 1 ∧
      (standing (some 0) (some 1)).reference .stage = (some 0, some 1)) ∧
    (standing (some 0) (some 1)).setlist[1]? = some 0 ∧ (standing (some 1) (some 1)).reference .stage = (some 1, some 1) ∧
    (standing (some 1) (some 1)).setlist[2]? = some 1 ∧ (standing (some 1) (some 1)).slot 1 = .empty ∧
    (standing (some 3) (some 1)).reference .stage = (some 3, some 1) ∧
    (onStage.sceneAt 0 1).map (fun sc => sc.timing) = some .phrase :=
  ⟨by decide, of_some rfl (by decide), by decide, by decide, by decide, by decide, by decide, by decide, by decide, by decide,
    by decide, by decide, by decide, by decide⟩

/-- The slot is empty, holds a change of the claimant, and holds one of another. -/
theorem witness_ResolutionTable_displaced : onStage.cue = none ∧ (cued .running change).cue = some change ∧
    change.claimant = .linkB ∧ change.claimant ≠ .stage := by decide

theorem witness_ResolutionTable_notReady : ¬ (standing (some 1) (some 1)).IsReady 1 :=
  fun ⟨g, h⟩ => Slot.noConfusion (show Slot.empty = .ready g from h)

/-- A change of another claimant in place of `change`. -/
def changeBy (c : Claimant) : Change := { change with claimant := c }

theorem witness_CueTable_refused : (Takes .b onStage ∧ cueForm 6#8 0#8 = none ∧ cueTiming 5#8 = none) ∧
    (cueForm 5#8 63#8 = some (.position 63) ∧ cueForm 2#8 11#8 = some (.scene 11) ∧ cueTiming 4#8 = some (some .phrase)) ∧
    (Takes .b (cued .running (changeBy .linkA)) ∧ (cued .running (changeBy .linkA)).cue = some (changeBy .linkA) ∧
      (changeBy .linkA).claimant = .linkA) ∧
    (Takes .a (cued .running (changeBy .stage)) ∧ (cued .running (changeBy .stage)).cue = some (changeBy .stage)) ∧
    (∀ x, onStage.cue = some x → x.claimant ≠ .stage ∧ (x.claimant = .linkA → Link.b = .a)) ∧
    onStage.resolve .linkB (.position 63) = .error .notFound :=
  ⟨by decide, by decide, by decide, by decide, of_none rfl, rfl⟩

theorem witness_CueTable_taken :
    (∀ x, (cued .running change).cue = some x → x.claimant ≠ .stage ∧ (x.claimant = .linkA → Link.a = .a)) ∧
    (cueForm 0#8 0#8 = some .nextScene ∧ cueTiming 1#8 = some (some .now)) ∧
    (cued .running change).resolve .linkA .nextScene = .ok { position := 0, slot := 0, scene := 1, kind := .scene } ∧
    ((cued .running change).changeOf { claimant := .linkA, form := .nextScene, timing := some .now, source := .link .a }
      { position := 0, slot := 0, scene := 1, kind := .scene }).timing = .now ∧
    ((cued .running change).changeOf { claimant := .linkA, form := .nextScene, timing := none, source := .link .a }
      { position := 0, slot := 0, scene := 1, kind := .scene }).timing = .phrase ∧
    onStage.transport.mode = .stopped ∧ (cued .running change).transport.mode ≠ .stopped ∧
    (∀ x, (cued .running change).cue = some x → if x.claimant = claimantOf .a then CueDetail.displaced = .replaced ∧
        some Claimant.linkB = none else CueDetail.displaced = .displaced ∧ some Claimant.linkB = some x.claimant) ∧
    (∀ x, (cued .running change).cue = some x → if x.claimant = claimantOf .b then CueDetail.replaced = .replaced ∧
        (none : Option Claimant) = none else CueDetail.replaced = .displaced ∧ none = some x.claimant) :=
  ⟨of_some rfl (by decide), by decide, rfl, rfl, rfl, rfl, by decide, of_some rfl (by decide), of_some rfl (by decide)⟩

theorem witness_StageTable : onStage.resolve .stage .prevScene = .error .endOfList ∧
    (cued .running change).resolve .stage .nextScene = .ok { position := 0, slot := 0, scene := 1, kind := .scene } ∧
    ((cued .running change).changeOf { claimant := .stage, form := .nextScene, timing := none, source := .foot 0 }
      { position := 0, slot := 0, scene := 1, kind := .scene }).timing ≠ .now ∧
    (cued .running change).transport.mode ≠ .stopped ∧
    (∀ x, (cued .running change).cue = some x → if x.claimant = .stage then CueDetail.displaced = .replaced ∧
        some Claimant.linkB = none else CueDetail.displaced = .displaced ∧ some Claimant.linkB = some x.claimant) ∧
    onStage.resolve .stage .nextScene = .ok { position := 0, slot := 0, scene := 1, kind := .scene } ∧
    onStage.transport.mode = .stopped :=
  ⟨rfl, rfl, by decide, by decide, of_some rfl (by decide), rfl, rfl⟩

theorem witness_CueCancelTable : (Takes .b (cued .running change) ∧ (cued .running change).cue = some change ∧
      change.claimant = claimantOf .b) ∧ Takes .a (cued .running change) ∧
    (Takes .b (cued .running (changeBy .linkA)) ∧ (cued .running (changeBy .linkA)).cue = some (changeBy .linkA)) ∧
    (Takes .a (cued .running (changeBy .stage)) ∧ (cued .running (changeBy .stage)).cue = some (changeBy .stage)) ∧
    (Takes .a { onStage with departure := some change } ∧ { onStage with departure := some change }.cue = none) ∧
    Takes .a onStage ∧ onStage.cue = none ∧ onStage.departure = none := by decide

theorem witness_AuditionTable : (Takes .a onStage ∧ 11 < (12#8 : Byte).toNat) ∧
    (Takes .a (inMode .held onStage) ∧ (11#8 : Byte).toNat ≤ 11 ∧ (inMode .held onStage).transport.mode ≠ .stopped) ∧
    (Takes .a idle ∧ idle.transport.mode = .stopped ∧ idle.currentSlot = none) ∧
    (onStage.currentSlot = some 0 ∧ onStage.sceneCount 0 ≤ (2#8 : Byte).toNat) ∧
    (onStage.transport.mode = .stopped ∧ onStage.curPos = some 0 ∧ (1#8 : Byte).toNat < onStage.sceneCount 0 ∧
      onStage.curScene = some 0 ∧ onStage.audition = none) ∧
    Takes .b { onStage with audition := some 1 } ∧ { onStage with audition := some 1 }.currentSlot = some 0 := by decide

/-- OUTPUT_SET fields for a port with keep-alive as given, the other settings at the ends of their ranges. -/
def outFields (p keep : Byte) : OutputFields :=
  { port := p, runningStatus := 0#8, clockFlag := 1#8, keepAlive := keep, settleTime := 200#8, settlePolicy := 2#8,
    interval := 20#8, laneMode := 1#8, weight := 16#8 }

/-- The settings of `outFields`. -/
def outSettings (keep : Bool) : PortSettings :=
  { runningStatus := false, clockFlag := true, keepAlive := keep, settleTime := 200, policy := .pass, interval := 20,
    laneMode := .noteFirst, weight := 16 }

/-- `onStage` with one port's contents. -/
def withPort (p : Port) (q : PortState) : State := onStage.setPort p q

theorem places_withPort (p : Port) (q : PortState) (h : q.noteLane.length ≤ 64) : PlacesOk (withPort p q) := by
  intro j
  by_cases e : j = p
  · rw [e, withPort, Laws.port_setPort]
    exact Laws.unplaced_of_le h
  · rw [withPort, Laws.port_setPort_ne _ _ _ _ e]
    exact Laws.unplaced_of_le ((show ∀ p, (onStage.port p).noteLane.length ≤ 64 by decide) j)

/-- `onStage` with one input parser's contents. -/
def withInput (i : Input) (x : InputState) : State := onStage.setInput i x

/-- FS3 is a SUSTAIN line for IN5 channel 16, held down. -/
def footDown : State := onStage.setFoot 3 { FootState.reset with
  level := .closed, debounced := .closed, function := .sustain, sustain := some (5, 15) }

theorem witness_SettingsTable_output : Takes .a onStage ∧ portSettings (outputBytes (outFields 8#8 0#8)) = none ∧
    portSettings (outputBytes (outFields 7#8 0#8)) = some (7, outSettings false) ∧
    portSettings (outputBytes (outFields 7#8 1#8)) = some (7, outSettings true) ∧ (outSettings false).keepAlive = false ∧
    ((outSettings true).keepAlive = true ∧ (onStage.port 7).keepAliveDue = none ∧ (onStage.port 7).wire = none) ∧
    (Takes .a (withPort 7 { PortState.reset with keepAliveDue := some 250000 }) ∧
      ((withPort 7 { PortState.reset with keepAliveDue := some 250000 }).port 7).keepAliveDue ≠ none) := by decide

theorem witness_SettingsTable_others :
    clickSettings [4#8, 0#8, 0#8, 0#8, 0#8, 0#8, 0#8, 0#8, 0#8, 0#8, 0#8, 5#8] = none ∧
    (clickSettings [3#8, 3#8, 7#8, 15#8, 127#8, 127#8, 127#8, 31#8, 31#8, 31#8, 3#8, 250#8]).isSome = true ∧
    inputSettings [6#8, 0#8, 0#8] = none ∧ inputSettings [5#8, 15#8, 0#8] = some (5, some 15, false) ∧
    ((onStage.input 5).watchOn = true ∧ (onStage.input 5).watch = .unwatched) ∧
    (Takes .a (withInput 5 { InputState.reset with watch := .lost }) ∧
      ((withInput 5 { InputState.reset with watch := .lost }).input 5).watchOn = true ∧
      ((withInput 5 { InputState.reset with watch := .lost }).input 5).watch ≠ .unwatched) ∧
    footSettings [4#8, 0#8, 0#8, 0xFF#8, 0xFF#8] = none ∧
    footSettings [3#8, 8#8, 1#8, 5#8, 15#8] = some (3, .sustain, .break, some (5, 15)) ∧
    (onStage.foot 3).function ≠ .sustain ∧
    (Takes .a footDown ∧ (footDown.foot 3).function = .sustain ∧ (footDown.foot 3).pressed = true ∧
      (footDown.foot 3).sustain = some (5, 15)) :=
  ⟨rfl, rfl, rfl, rfl, by decide, by decide, rfl, rfl, by decide, by decide⟩

theorem witness_MaskNoteAndCounters : Takes .a onStage ∧ 8192 ≤ (8192#16 : Word).toNat ∧
    ((8191#16 : Word).toNat < 8192 ∧ (8191#13).toNat = (8191#16 : Word).toNat) ∧
    ((List.replicate 33 0x41#8).length ≤ 58 ∧ ¬ IsText 0 32 (List.replicate 33 0x41#8)) ∧
    IsText 0 32 (List.replicate 32 0x7E#8) ∧ IsText 0 32 [] ∧
    (2 < (3#8 : Byte).toNat ∧ 5 < (6#8 : Byte).toNat ∧ 7 < (8#8 : Byte).toNat ∧ 1#8 ≠ 0#8 ∧ 1 < (2#8 : Byte).toNat) ∧
    (5 : Input).val = (5#8 : Byte).toNat ∧ (7 : Port).val = (7#8 : Byte).toNat :=
  ⟨by decide, by decide, by decide, ⟨by decide, fun h => absurd h.2.1 (by decide)⟩, ⟨by decide, by decide, by decide⟩,
    ⟨by decide, by decide, nofun⟩, by decide, by decide, by decide⟩

/-- A fault record that has counted 254 later faults. -/
def fault : FaultRecord := { cls := .inputLost, source := .input 5, bar := 1, beat := 1, step := 0, later := 254 }

theorem witness_FaultsAndNotices : (Takes .a onStage ∧ onStage.faultRecord = none) ∧
    (Takes .b { onStage with faultRecord := some fault } ∧
      { onStage with faultRecord := some fault }.faultRecord = some fault) ∧
    State.reset.init ≠ none ∧ (onStage.link .a).mask.getLsbD (Notice.bar 1 1 12000).kind.bit = false ∧
    (onStage.init = none ∧ (onStage.link .b).mask.getLsbD (Notice.fault .inputLost (.input 5) true fault).kind.bit = true ∧
      (onStage.link .b).notices = []) ∧
    noticeWaits.init = none ∧ (noticeWaits.link .a).mask.getLsbD (Notice.beat 1 2 12000).kind.bit = true ∧
    (noticeWaits.link .a).notices = [] ++ { notice := .beat 1 1 12000, repeats := 0 } :: [] := by decide

/-- Every message of the record has been sent, and the settle timer of OUT0, which it started, runs. -/
def settlingRecord : Changeover := { record with ports := [{ port := 0, outstanding := 0, settling := true }] }

/-- `onStage` in that state. -/
def settling : State :=
  { withPort 0 { PortState.reset with settleDue := some 20000 } with changeover := some settlingRecord }

theorem witness_PanicTable : (Takes .a onStage ∧ onStage.changeover = none) ∧
    (Takes .a (changing record) ∧ (changing record).changeover = some record ∧ ∃ e ∈ record.ports, 0 < e.outstanding) ∧
    Takes .a settling ∧ settling.changeover = some settlingRecord ∧
    (∃ e ∈ settlingRecord.ports, (settling.port e.port).settleDue.isSome = true) ∧
    ∀ e ∈ settlingRecord.ports, e.outstanding = 0 ∧ (e.settling = true → (settling.port e.port).settleDue.isSome = true) := by
  decide

theorem witness_SoftResetTable : (Takes .a onStage ∧ onStage.currentSlot = some 0 ∧ onStage.curScene = some 0) ∧
    Takes .a idle ∧ idle.currentSlot = none := by decide

theorem witness_ResetAndInitialisation : idle.init = none ∧ State.reset.init = some 50000 ∧ At 50000 State.reset :=
  ⟨by decide, by decide, at_of (by decide) _⟩

/-- IN0 without a watch, its parser as given. -/
def parsing (p : ParseState) (r : Option Byte) : State :=
  withInput 0 { InputState.reset with watchOn := false, parse := p, running := r }

/-- Whatever the watch of an input, some state meets the four clauses on what the watch does with a byte. -/
theorem witness_InputByteTable_watch (i : Input) (b : Byte) (s : State) : ∀ w x : State,
    w = s.setInput i { s.input i with watch := .watched, watchDue := some (s.now + 300000) } →
    x = s.setInput i { s.input i with watch := .unwatched, watchDue := none } →
    ∃ v, ((s.input i).watchOn = false ∨ (s.input i).watch = .unwatched ∧ b ≠ 0xFE#8 → v = s) ∧
      ((s.input i).watchOn = true → (s.input i).watch = .watched → v = w) ∧
      ((s.input i).watchOn = true → (s.input i).watch ≠ .watched → b = 0xFE#8 → v = raise (.input i .watched) w) ∧
      ((s.input i).watchOn = true → (s.input i).watch = .lost → b ≠ 0xFE#8 → v = raise (.input i .unwatched) x) := by
  intro w x _ _
  cases hb : (s.input i).watchOn <;> cases hw : (s.input i).watch <;> by_cases k : b = 0xFE#8 <;> simp [k]

theorem witness_InputByteTable_parse : (State.reset.init ≠ none ∧ onStage.init = none) ∧
    (0xF8 ≤ (0xF8#8 : Byte).toNat ∧ (0xEF#8 : Byte).toNat < 0xF0 ∧ 0xF0 ≤ (0xF0#8 : Byte).toNat ∧
      0x80 ≤ (0x80#8 : Byte).toNat ∧ (0xF7#8 : Byte).toNat < 0xF8 ∧ (0x7F#8 : Byte).toNat < 0x80) ∧
    (((parsing .exclusive none).input 0).parse = .exclusive ∧ ((parsing .exclusive none).input 0).watchOn = false) ∧
    ((parsing (.common 2) none).input 0).parse = .common 2 ∧ ((parsing (.common 1) none).input 0).parse = .common 1 ∧
    (((parsing .ready none).input 0).parse = .ready ∧ ((parsing .ready none).input 0).running = none) ∧
    ((parsing (.collecting 0x90#8 []) none).input 0).parse = .collecting 0x90#8 [] ∧
    ((parsing (.collecting 0x90#8 [60#8]) none).input 0).parse = .collecting 0x90#8 [60#8] ∧
    (((parsing .ready (some 0xC0#8)).input 0).parse = .ready ∧
      ((parsing .ready (some 0xC0#8)).input 0).running = some 0xC0#8 ∧
      (0xC0#8 : Byte).toNat / 16 = 12) := by decide

/-- IN0 was watched to 300 ms, its pedal on channel 1 is down. -/
def watched : State :=
  (withInput 0 { InputState.reset with watch := .watched, watchDue := some 300000 }).setPedal 0 0 { down := true, pairs := [] }

theorem witness_InputByteTable_expiry : (onStage.input 0).watchDue = none ∧ (watched.input 0).watchDue = some 300000 ∧
    (watched.pedal 0 0).down = true ∧ (watched.pedal 0 1).down = false := by decide

theorem witness_InputByteTable_at : At 300000 watched := at_of (by decide) _

theorem witness_MessageTable : (0x8F#8 : Byte).toNat % 16 = (15 : Chan).val ∧ (0x8F#8 : Byte).toNat / 16 = 8 ∧
    (0x90#8 : Byte).toNat / 16 = 9 ∧ (0xA0#8 : Byte).toNat / 16 = 10 ∧ (0xB0#8 : Byte).toNat / 16 = 11 ∧
    (0xC0#8 : Byte).toNat / 16 = 12 ∧ (0xD0#8 : Byte).toNat / 16 = 13 ∧ (0xEF#8 : Byte).toNat / 16 = 14 ∧
    (120 ≤ (120#8 : Byte).toNat ∧ (119#8 : Byte).toNat < 120 ∧ 119#8 ≠ 64#8 ∧ 119#8 ≠ 0#8 ∧ 119#8 ≠ 32#8) ∧
    ((withInput 0 { InputState.reset with cueChannel := some 0 }).input 0).cueChannel = some 0 ∧ (20#8 : Byte) ≠ 119#8 ∧
    (63#8 : Byte).toNat < 64 ∧ 64 ≤ (64#8 : Byte).toNat ∧ (onStage.input 0).cueChannel ≠ some 0 := by decide

/-- The target of `zone` for key 60 and velocity 100. -/
def target (sent : Bool) (pedal : PedalMode) : HeldTarget :=
  { triple := { port := 0, chan := 0, key := 60 }, velocity := 100, pedal, forward := zone.forward, sent }

/-- The entry of IN0, channel 1, key 60. -/
def heldBy (st : HeldState) (x : HeldTarget) : HeldEntry :=
  { source := { input := 0, chan := 0, key := 60 }, state := st, scene := 0, targets := [x] }

/-- `zone` is live, these entries are held, and the NOTE lane of OUT0 has `n` entries. -/
def playing (held : List HeldEntry) (n : Nat) : State :=
  { withPort 0 { PortState.reset with noteLane := List.replicate n (.sweep 0) } with live := [zone], held }

theorem witness_NoteTable_on : (layers idle.live 0 0 60 100).targets = [] ∧
    (layers (playing [] 62).live 0 0 60 100).targets = [target false .chip] ∧
    (playing [] 62).entryOf { input := 0, chan := 0, key := 60 } = none ∧ (playing [] 62).held.length < 96 ∧
    ((playing [] 62).port 0).noteLane.length + 2 ≤ 64 ∧ ((playing [] 62).port 0).settings.policy = .pass := by decide

theorem witness_NoteTable_off : ∀ src : Source, src = { input := 0, chan := 0, key := 60 } →
    (playing [] 0).entryOf src = none ∧
    (playing [heldBy .sustained (target true .chip)] 0).entryOf src = some (heldBy .sustained (target true .chip)) ∧
    ((playing [heldBy .down (target true .chip)] 0).setPedal 0 0 { down := true, pairs := [] }).entryOf src =
      some (heldBy .down (target true .chip)) ∧
    (((playing [heldBy .down (target true .chip)] 0).setPedal 0 0 { down := true, pairs := [] }).pedal 0 0).down = true ∧
    ((playing [heldBy .down (target true .module)] 63).entryOf src = some (heldBy .down (target true .module)) ∧
      ((playing [heldBy .down (target true .module)] 63).port 0).noteLane.length < 64 ∧
      ((playing [heldBy .down (target true .module)] 63).port 0).settings.policy = .pass ∧
      ((playing [heldBy .down (target true .module)] 63).pedal 0 0).down = false ∧
      holderCount (playing [heldBy .down (target true .module)] 63).held (target true .module).triple = 1 ∧
      (target true .module).forward.poly = true) ∧
    (playing [heldBy .down (target false .module)] 0).entryOf src = some (heldBy .down (target false .module)) := by
  rintro _ rfl
  decide

theorem witness_NoteTable_held : HeldOk (playing [heldBy .down (target true .module)] 63) := ⟨by decide, by decide⟩

/-- The same target held by another key of IN0. -/
def otherBy (sent : Bool) : HeldEntry :=
  { heldBy .down (target sent .module) with source := { input := 0, chan := 0, key := 61 } }

/-- A release with no other holder, with one that sounds, and with one that does not. -/
theorem witness_NoteTable_release : (playing [heldBy .down (target true .chip)] 0).held =
      [] ++ heldBy .down (target true .chip) :: [] ∧
    (heldBy .down (target true .chip)).targets = [] ++ target true .chip :: [] ∧
    (∀ sent, (playing [heldBy .down (target true .chip), otherBy sent] 0).held =
      [] ++ heldBy .down (target true .chip) :: [otherBy sent] ∧
      (∀ y ∈ [otherBy sent], y.source ≠ (heldBy .down (target true .chip)).source) ∧
      ∃ z ∈ (otherBy sent).targets, z.triple = (target true .chip).triple ∧ z.sent = sent) ∧
    ∀ y ∈ [otherBy false], ∀ z ∈ y.targets, z.triple = (target true .chip).triple → z.sent = false := by decide

/-- The steal takes a SUSTAINED entry behind a DOWN one, and the oldest where all are DOWN. -/
theorem witness_NoteTable_steal : (playing [otherBy true, heldBy .sustained (target true .chip)] 0).held =
      [otherBy true] ++ heldBy .sustained (target true .chip) :: [] ∧
    (heldBy .sustained (target true .chip)).state = .sustained ∧ (∀ y ∈ [otherBy true], y.state = .down) ∧
    (playing [otherBy true] 0).held = [] ++ otherBy true :: [] ∧ ∀ y ∈ (playing [otherBy true] 0).held, y.state = .down := by
  decide

/-- A claim from a holder that sounds and from one that does not, taken by the lane, and dropped by a full one. -/
theorem witness_NoteTable_claim : ∀ src : Source, src = { input := 0, chan := 0, key := 60 } →
    (∃ y ∈ (playing [otherBy true] 0).held, y.source ≠ src ∧ ∃ z ∈ y.targets, z.triple = (target true .chip).triple ∧
      z.sent = true) ∧
    (∀ y ∈ (playing [otherBy false] 0).held, y.source ≠ src → ∀ z ∈ y.targets, z.triple = (target true .chip).triple →
      z.sent = false) ∧
    acceptsNote 0 (.noteOn 0 60 100) (playing [] 63) = true ∧ acceptsNote 0 (.noteOn 0 60 100) (playing [] 64) = false := by
  rintro _ rfl
  decide

/-- A note-on at a full table, and one of a source that already has an entry. -/
theorem witness_NoteTable_full : 96 ≤ (playing ((List.range 96).map (fun k =>
      { heldBy .down (target true .chip) with source := { input := 1, chan := 0, key := k } })) 0).held.length ∧
    (playing [heldBy .down (target true .chip)] 62).entryOf { input := 0, chan := 0, key := 60 } =
      some (heldBy .down (target true .chip)) ∧
    holderCount (playing [heldBy .down (target true .chip)] 62).held (target true .chip).triple = 1 := by decide

/-- A note-off with the pedal down of an entry with MODULE targets alone, and of one with a CHIP target. -/
theorem witness_NoteTable_pedal : (∀ x ∈ (heldBy .down (target true .module)).targets, x.pedal = .module) ∧
    (∃ x ∈ (heldBy .down (target true .chip)).targets, x.pedal = .chip) ∧
    (∀ p, ((playing [] 63).port p).noteLane.length +
      ([(0, 0)] : List (Port × Chan)).countP (fun d => decide (d.1 = p)) ≤ 64) ∧
    (onStage.pedal 5 15).down = false ∧ ((onStage.setPedal 5 15 { down := true, pairs := [(7, 15)] }).pedal 5 15).down = true := by
  decide

theorem witness_RouterTable : zone.direction = .normal ∧ ({ zone with direction := .reverse } : Zone).direction = .reverse ∧
    (zone.keyLow ≤ 0 ∧ 127 ≤ zone.keyHigh) ∧ (∀ f, zone.curve = .fixed f → 1 ≤ f ∧ f ≤ 127) ∧
    (∀ f, ({ zone with curve := .fixed 127 } : Zone).curve = .fixed f → 1 ≤ f ∧ f ≤ 127) ∧
    ((((1 * 25 + 50) / 100 : Nat) : Int) + (0 : Int) < 1 ∧ 127 < (((127 * 100 + 50) / 100 : Nat) : Int) + (1 : Int)) ∧
    zone.scale = 100 ∧ zone.offset = 0 ∧
    (4 ≤ (Layers.mk (List.replicate 4 (target false .chip)) 0 0).targets.length ∧
      (Layers.mk (List.replicate 3 (target false .chip)) 0 0).targets.length < 4) ∧
    (127 < ({ zone with transpose := 1 } : Zone).outputKey 127 ∧ ({ zone with transpose := -1 } : Zone).outputKey 0 < 0) ∧
    (zone.outputKey 127 = (127 : Nat) ∧ zone.outputKey 60 = (60 : Nat)) ∧
    (∃ x ∈ [target false .chip], x.triple = { port := 0, chan := 0, key := 60 }) ∧
    ∀ x ∈ [target false .chip], x.triple ≠ { port := 0, chan := 0, key := 127 } :=
  ⟨rfl, rfl, by decide, nofun, fun f h => by cases h; decide, by decide, rfl, rfl, by decide, by decide, by decide, by decide,
    by decide⟩

/-- The next zone of a table matches or does not, and its pair is new to a destination list, in it, or not admitted. -/
theorem witness_RouterTable_walk : zone.matchesNote 0 0 60 100 = true ∧ zone.matchesNote 1 0 60 100 = false ∧
    (zone.sourceMatch 0 0 = true ∧ zone.forward.admits .bend = true ∧ (zone.port, zone.chan) ∉ destinations [] 0 0 .bend ∧
      (zone.port, zone.chan) ∈ destinations [zone] 0 0 .bend) ∧
    zone.sourceMatch 1 0 = false ∧ ({ zone.forward with bend := false } : Forward).admits .bend = false ∧
    zone.pedal ≠ .module ∧ (zone.port, zone.chan) ∉ pedalDestinations [] 0 0 ∧
    (zone.port, zone.chan) ∈ pedalDestinations [{ zone with pedal := .module }] 0 0 := by decide

/-- R14: a bend goes to the two destinations of three zones, once each, in table order. -/
theorem test_route_bend : ∀ s, s = routeControl 0 0 .bend 8192 { onStage with live := [zone, { zone with chan := 4 }, zone] } →
    (s.port 0).slots.map (fun m => (m.key.chan, m.value)) = [(0, 8192), (4, 8192)] ∧ (s.port 1).slots = [] := by
  rintro _ rfl
  decide

/-- FS0 with a function, a polarity and a level, its debounce timer running to 12000. -/
def line (f : FootFunction) (p : Polarity) (v : Level) : State :=
  onStage.setFoot 0 { FootState.reset with
    level := v, function := f, polarity := p, debounceDue := some 12000,
    sustain := if f = .sustain then some (0, 0) else none }

theorem witness_FootswitchTable : (onStage.foot 0).level = .opened ∧ State.reset.init ≠ none ∧ onStage.init = none ∧
    (onStage.foot 0).debounceDue = none ∧
    (∀ f p v, ((line f p v).foot 0).debounceDue = some 12000 ∧ ((line f p v).foot 0).function = f ∧
      ((line f p v).foot 0).polarity = p ∧ ((line f p v).foot 0).level = v) ∧
    ((line .sustain .make .closed).foot 0).sustain = some (0, 0) ∧
    (inMode .running (line .holdGo .make .closed)).transport.mode = .running ∧
    (line .startStop .make .closed).transport.mode = .stopped :=
  ⟨rfl, by decide, rfl, rfl, fun _ _ _ => ⟨rfl, rfl, rfl, rfl⟩, rfl, rfl, rfl⟩

theorem witness_FootswitchTable_at (f : FootFunction) (p : Polarity) (v : Level) : At 12000 (line f p v) :=
  at_of (show ∀ p, (onStage.port p).noteLane.length ≤ 64 by decide) _

/-- `onStage` on the grid: a transport state, a bar, a step, and a step end at 5208. -/
def onGrid (m : TransportMode) (bar step : Nat) : State :=
  { onStage with transport := { onStage.transport with mode := m, bar := bar, step := step, stepEnd := some 5208 } }

/-- The same with hold-pending set, or with count-in bars remaining. -/
def onGridWith (m : TransportMode) (hold : Bool) (countIn : Nat) : State :=
  { onGrid m 1 383 with transport := { (onGrid m 1 383).transport with holdPending := hold, countIn := countIn } }

theorem witness_GridTable_steps : onStage.transport.stepEnd = none ∧
    ((onGrid .running 1 381).transport.stepEnd = some 5208 ∧ (onGrid .running 1 381).transport.mode = .running ∧
      (onGrid .running 1 381).transport.step + 1 < (onGrid .running 1 381).transport.barLength ∧
      ((onGrid .running 1 381).transport.step + 1) % (onGrid .running 1 381).transport.beatLength ≠ 0) ∧
    (onGrid .countIn 1 0).transport.mode = .countIn ∧
    ((onGrid .running 1 287).transport.step + 1 < (onGrid .running 1 287).transport.barLength ∧
      ((onGrid .running 1 287).transport.step + 1) % (onGrid .running 1 287).transport.beatLength = 0 ∧
      (onGrid .running 1 287).cue = none) := by decide

theorem witness_GridTable_bars :
    ((onGridWith .running true 0).transport.barLength ≤ (onGridWith .running true 0).transport.step + 1 ∧
      (onGridWith .running true 0).transport.holdPending = true) ∧
    ((onGrid .running 8 383).transport.mode = .running ∧ (onGrid .running 8 383).currentSong = some song ∧
      song.stopBar = some 8 ∧ 8 < min ((onGrid .running 8 383).transport.bar + 1) 9999 ∧ (onGrid .running 8 383).cue = none) ∧
    (onGrid .running 7 383).transport.holdPending = false ∧
    (∀ g b, (onGrid .running 7 383).currentSong = some g → g.stopBar = some b →
      min ((onGrid .running 7 383).transport.bar + 1) 9999 ≤ b) ∧
    ((cued .running change).cue = some change ∧ change.timing = .bar ∧ change.kind = .scene) :=
  ⟨by decide, by decide, by decide, fun g b h k => by cases h; cases k; decide, by decide⟩

/-- The last step of bar 7, with LINK B's change for the next bar in the slot. -/
def dueNext : State := { onGrid .running 7 383 with cue := some change }

theorem witness_GridTable_cue : (dueNext.transport.stepEnd = some 5208 ∧ dueNext.transport.mode = .running ∧
      dueNext.transport.barLength ≤ dueNext.transport.step + 1 ∧ dueNext.transport.holdPending = false ∧
      dueNext.cue = some change ∧ change.timing = .bar ∧ change.kind = .scene) ∧
    ∀ g b, dueNext.currentSong = some g → g.stopBar = some b → min (dueNext.transport.bar + 1) 9999 ≤ b :=
  ⟨by decide, fun g b h k => by cases h; cases k; decide⟩

/-- Every state of the grid here is at its step's end, as is one whose step has ended while an entry waits. -/
theorem witness_GridTable_at (m : TransportMode) (bar step : Nat) : At 5208 (onGrid m bar step) ∧ At 5208 dueNext ∧
    ∀ q, At 5208 ({ (onGrid m bar step).setPort 0 q with now := 5208 } : State) :=
  ⟨at_of (show ∀ p, (onStage.port p).noteLane.length ≤ 64 by decide) _, at_of (by decide) _, fun _ => .inl (Nat.le_refl _)⟩

theorem witness_GridTable_countIn :
    ((onGridWith .countIn false 2).transport.mode = .countIn ∧
      (onGridWith .countIn false 2).transport.barLength ≤ (onGridWith .countIn false 2).transport.step + 1 ∧
      1 < (onGridWith .countIn false 2).transport.countIn) ∧
    ((onGridWith .countIn false 1).transport.countIn ≤ 1 ∧ (onGridWith .countIn false 1).transport.bar = 1 ∧
      (onGridWith .countIn false 1).transport.holdPending = false ∧ (onGridWith .countIn false 1).cue = none) ∧
    ∀ g b, (onGridWith .countIn false 1).currentSong = some g → g.stopBar = some b → 1 ≤ b :=
  ⟨by decide, by decide, fun g b h k => by cases h; cases k; decide⟩

/-- Segments and bars at their ends, and ramps both ways. -/
theorem witness_GridTable_map : segs 2 64 = [seg 1] ++ seg 65 :: [] ∧ ((seg 65).startBar ≤ 65 ∧ ∀ x ∈ ([] : List Segment), 65 < x.startBar) ∧
    (segs 2 64 = [] ++ seg 1 :: [seg 65] ∧ ∀ x ∈ [seg 65], 64 < x.startBar) ∧ (∀ x ∈ segs 2 64, 0 < x.startBar) ∧
    (seg 1).rampTarget.getD (seg 1).tempo < (seg 1).tempo ∧ (seg 1).tempo ≤ ({ seg 1 with rampTarget := none } : Segment).rampTarget.getD 30000 := by
  decide

/-- Whatever the state, some records meet the hypotheses on a beat evaluation. -/
theorem witness_GridTable_beat (down : Bool) (s : State) (n : Nat) (_hn : n = segmentAt s.mapInUse s.transport.bar) :
    ∃ t v w : TempoState, ∃ x : Nat,
    (s.transport.mode = .countIn → t = s.tempo) ∧
    (s.transport.mode ≠ .countIn → down = true → s.tempo.segment ≠ some n →
      ∀ g, g = (s.mapInUse[n]?).getD defaultSegment → t = { s.tempo with
        segment := some n
        override := if n = 0 then s.tempo.override else none
        ramp := if g.rampBars = 0 then .none else if n = 0 ∧ s.tempo.override.isSome = true then .ended else .ramping 0 }) ∧
    (s.transport.mode ≠ .countIn → (down = false ∨ s.tempo.segment = some n) →
      (s.segmentInUse = none → t = s.tempo) ∧ ∀ g, s.segmentInUse = some g → t = { s.tempo with ramp :=
        (match s.tempo.ramp with
          | .ramping k => if g.rampBars * g.numerator ≤ k + 1 then .arrived else .ramping (k + 1)
          | r => r) }) ∧
    (s.tempo.staged = none → v = t) ∧
    (∀ y, s.tempo.staged = some y → (down = true ∨ y.due = .beat) → v = { t with
      staged := none
      override := (match y.value with | .tempo z => some z | .clear => none)
      ramp := (match y.value, t.ramp with | .tempo _, .ramping _ => .ended | _, r => r) }) ∧
    (∀ y, s.tempo.staged = some y → down = false → y.due ≠ .beat → v = t) ∧
    (∀ y, v.override = some y → x = y) ∧
    (v.override = none → v.segment.bind (fun i => s.mapInUse[i]?) = none → x = s.firstSegment.tempo) ∧
    (∀ g, v.override = none → v.segment.bind (fun i => s.mapInUse[i]?) = some g → x = (match v.ramp with
      | .ramping k => g.rampValue k | .arrived => g.rampTarget.getD g.tempo | _ => g.tempo)) ∧
    w = (if x = v.current then v else { v with current := x, acc := 0 }) := by
  obtain ⟨t, h1, h2, h3⟩ : ∃ t : TempoState, (s.transport.mode = .countIn → t = s.tempo) ∧
      (s.transport.mode ≠ .countIn → down = true → s.tempo.segment ≠ some n →
        ∀ g, g = (s.mapInUse[n]?).getD defaultSegment → t = { s.tempo with
          segment := some n
          override := if n = 0 then s.tempo.override else none
          ramp := if g.rampBars = 0 then .none else if n = 0 ∧ s.tempo.override.isSome = true then .ended else .ramping 0 }) ∧
      (s.transport.mode ≠ .countIn → (down = false ∨ s.tempo.segment = some n) →
        (s.segmentInUse = none → t = s.tempo) ∧ ∀ g, s.segmentInUse = some g → t = { s.tempo with ramp :=
          (match s.tempo.ramp with
            | .ramping k => if g.rampBars * g.numerator ≤ k + 1 then .arrived else .ramping (k + 1)
            | r => r) }) := by
    by_cases hm : s.transport.mode = .countIn
    · exact ⟨_, fun _ => rfl, fun h => absurd hm h, fun h => absurd hm h⟩
    · by_cases hs : down = false ∨ s.tempo.segment = some n
      · cases hg : s.segmentInUse with
        | none => exact ⟨_, fun h => absurd h hm, fun _ hd hx => (hs.elim (fun h => by simp [h] at hd) hx).elim,
            fun _ _ => ⟨fun _ => rfl, nofun⟩⟩
        | some g => exact ⟨_, fun h => absurd h hm, fun _ hd hx => (hs.elim (fun h => by simp [h] at hd) hx).elim,
            fun _ _ => ⟨nofun, fun _ h => by cases h; rfl⟩⟩
      · exact ⟨_, fun h => absurd h hm, fun _ _ _ _ h => by subst h; rfl, fun _ h => absurd h hs⟩
  obtain ⟨v, k1, k2, k3⟩ : ∃ v : TempoState, (s.tempo.staged = none → v = t) ∧
      (∀ y, s.tempo.staged = some y → (down = true ∨ y.due = .beat) → v = { t with
        staged := none
        override := (match y.value with | .tempo z => some z | .clear => none)
        ramp := (match y.value, t.ramp with | .tempo _, .ramping _ => .ended | _, r => r) }) ∧
      (∀ y, s.tempo.staged = some y → down = false → y.due ≠ .beat → v = t) := by
    cases hs : s.tempo.staged with
    | none => exact ⟨_, fun _ => rfl, nofun, nofun⟩
    | some y =>
      by_cases hd : down = true ∨ y.due = .beat
      · exact ⟨_, nofun, fun _ h _ => by cases h; rfl, fun _ h a b => by
          cases h
          exact (hd.elim (fun h => by simp [a] at h) b).elim⟩
      · exact ⟨_, nofun, fun _ h a => by cases h; exact absurd a hd, fun _ _ _ _ => rfl⟩
  refine ⟨t, v, _, (match v.override, v.segment.bind (fun i => s.mapInUse[i]?) with
    | some y, _ => y
    | none, none => s.firstSegment.tempo
    | none, some g => (match v.ramp with
      | .ramping k => g.rampValue k | .arrived => g.rampTarget.getD g.tempo | _ => g.tempo)), h1, h2, h3, k1, k2, k3, ?_, ?_, ?_, rfl⟩
  · intro y h
    simp [h]
  · intro h k
    simp [h, k]
  · intro g h k
    simp [h, k]

/-- The continuation after a trigger exists. -/
theorem witness_GridTable_go : ∃ go : (State → State) → State × Cont → State, (∀ f r, go f (r, .goOn) = f r) ∧
    (∀ f r, go f (r, .restart) = runningDownbeat (some .start) r) ∧ (∀ f r, go f (r, .countIn) = countInDownbeat r) ∧
    ∀ f r, go f (r, .halt) = r :=
  ⟨fun f x => match x with
    | (r, .goOn) => f r
    | (r, .restart) => runningDownbeat (some .start) r
    | (r, .countIn) => countInDownbeat r
    | (r, .halt) => r, fun _ _ => rfl, fun _ _ => rfl, fun _ _ => rfl, fun _ _ => rfl⟩

/-- Beats with a BEAT change in the slot and of a count-in; the stop bar, a due change of each timing, one that is not due, and the
end of a count-in, each with a change in the slot. -/
theorem witness_GridTable_changes : ∀ s : TransportMode → Nat → Nat → Timing → State,
    (∀ m b n t, s m b n t = { onGridWith m false 1 with
      transport := { (onGrid m b n).transport with countIn := 1 }, cue := some { change with timing := t } }) →
    ((s .running 1 287 .beat).transport.step + 1 < (s .running 1 287 .beat).transport.barLength ∧
      ((s .running 1 287 .beat).transport.step + 1) % (s .running 1 287 .beat).transport.beatLength = 0) ∧
    (s .countIn 1 287 .beat).transport.mode = .countIn ∧
    ((s .running 8 383 .bar).currentSong = some song ∧ (s .running 8 383 .bar).transport.holdPending = false ∧
      (s .running 8 383 .bar).transport.barLength ≤ (s .running 8 383 .bar).transport.step + 1 ∧ song.stopBar = some 8) ∧
    ((s .running 4 383 .phrase).transport.bar + 1 - 1) % song.phrase = 0 ∧
    ((s .running 7 383 .phrase).transport.bar + 1 - 1) % song.phrase ≠ 0 ∧
    (s .countIn 1 383 .bar).transport.countIn ≤ 1 ∧ (s .countIn 1 383 .bar).transport.bar = 1 := by
  intro s h
  simp only [h]
  decide

/-- The click entry of an accent. -/
def clicked : ClickEntry := { on := true, chan := 9, note := 76, velocity := 127, due := 0 }

/-- A pending NOTE_OFF of the accent's note on OUT0, channel 10. -/
def gate (waiting : Bool) : ClickOff := { port := 0, chan := 9, note := 76, due := 20000, waiting }

/-- `onStage` with `n` entries in the CLICK lane of OUT0 and one pending NOTE_OFF. -/
def clicking (n : Nat) (waiting : Bool) : State :=
  (withPort 0 { PortState.reset with clickLane := List.replicate n clicked }).setOffs [gate waiting]

theorem witness_ClickTable : (onStage.offFor 0 9 76 = none ∧ (∀ e ∈ (onStage.port 0).clickLane, e.due ≤ onStage.now)) ∧
    (ClickChannel.reset.port = 0 ∧ (76, 31) = (ClickChannel.reset.accentNote, ClickChannel.reset.accentLevel) ∧
      (77, 24) = (ClickChannel.reset.beatNote, ClickChannel.reset.beatLevel) ∧
      (77, 16) = (ClickChannel.reset.subNote, ClickChannel.reset.subLevel)) ∧
    (onStage.port 0).clickLane.length < 8 ∧
    ((clicking 8 false).offFor 0 9 77 = none ∧ 8 ≤ ((clicking 8 false).port 0).clickLane.length ∧
      ∀ e ∈ ((clicking 8 false).port 0).clickLane, e.due ≤ (clicking 8 false).now) ∧
    (clicking 8 true).offFor 0 9 76 = some (gate true) ∧ (clicking 8 false).offFor 0 9 76 = some (gate false) ∧
    ((clicking 7 false).offFor 0 9 76 = some (gate false) ∧ ((clicking 7 false).port 0).clickLane.length < 8 ∧
      ∀ e ∈ ((clicking 7 false).port 0).clickLane, e.due ≤ 20000) := by decide

theorem witness_ClickTable_at (n : Nat) (w : Bool) : At 20000 (clicking n w) := .inr (places_withPort 0 _ (Nat.zero_le _))

/-- A note-off that is cut short, with room for both entries, for one, and for none. -/
theorem witness_ClickTable_cut : ∀ n, n = 6 ∨ n = 7 ∨ n = 8 →
    (clicking n false).offFor 0 9 76 ≠ none ∧ ((clicking n false).port 0).clickLane.length = n ∧
    ∀ e ∈ ((clicking n false).port 0).clickLane, e.due ≤ (clicking n false).now := by
  rintro _ (rfl | rfl | rfl) <;> decide

/-- A CLICK entry begins, and a NOTE_OFF waits for the room. -/
theorem witness_ClickTable_room : ∀ s : State, s = clicking 8 true →
    s.init = none ∧ ((s.port 0).choose s.now).2 = true ∧ 
    (∀ e ∈ ((s.port 0).choose s.now).1.clickLane, e.due ≤ s.now) ∧
    (∀ r, r ∈ [gate true] ↔ r ∈ s.click.offs ∧ r.port = 0 ∧ r.waiting = true) ∧
    [gate true].Pairwise (fun a b => a.due < b.due) := by
  rintro _ rfl
  refine ⟨rfl, by decide, by decide, fun r => ?_, by decide⟩
  simp only [List.mem_singleton, show (clicking 8 true).click.offs = [gate true] from rfl]
  exact ⟨fun h => by cases h; exact ⟨rfl, rfl, rfl⟩, fun h => h.1⟩

/-- What OUT0 sends: one byte, or the last message of a lane entry. -/
def sends (status : Option Byte) (e : Option InProgress) (settle : Nat) : PortState :=
  { PortState.reset with
    settings := { PortSettings.reset with settleTime := settle }, wire := some { bytes := [0xC0#8, 5#8], status, ends := 640 },
    entry := e }

/-- The end of an entry. -/
def ending (e : LaneEntry) (left : List Message) (ofRecord : Bool) : Option InProgress :=
  some { entry := e, left, ofRecord, emptyStatus := false }

/-- A program entry. -/
def prog : LaneEntry := .note (.program 0 none none 5)

theorem witness_OutputTable_end : (onStage.port 0).wire = none ∧
    ((withPort 0 (sends none none 0)).port 0).wire = some { bytes := [0xC0#8, 5#8], status := none, ends := 640 } ∧
    ((withPort 0 (sends (some 0xC0#8) none 0)).port 0).entry = none ∧
    (∀ e left r, ((withPort 0 (sends (some 0xC0#8) (ending e left r) 1)).port 0).entry = ending e left r) ∧
    ((withPort 0 (sends (some 0xC0#8) (ending prog [] true) 0)).port 0).settings.settleTime = 0 ∧
    0 < ((withPort 0 (sends (some 0xC0#8) (ending prog [] true) 1)).port 0).settings.settleTime ∧
    onStage.init = none ∧ ((onStage.port 0).choose onStage.now).2 = false :=
  ⟨rfl, rfl, rfl, fun _ _ _ => rfl, rfl, by decide, rfl, rfl⟩

theorem witness_OutputTable_at (e : Option InProgress) (st : Option Byte) (n : Nat) : At 640 (withPort 0 (sends st e n)) ∧
    At 640 ({ withPort 0 { sends st e n with noteLane := List.replicate 65 (.sweep 0), sweepPending := [3] } with now := 640 } : State) :=
  ⟨.inr (places_withPort 0 _ (Nat.zero_le _)), .inl (Nat.le_refl _)⟩

/-- A DIRTY merge slot last sent 20 ms ago. -/
def dirty : MergeSlot := { key := { chan := 0, kind := .controller 1 }, value := 5, state := .dirty 5000, sent := some 0 }

/-- A port with these settings, entries and slots. -/
def lanes (m : LaneMode) (grants : Nat) (g : Option LaneChoice) (clicks : List ClickEntry) (notes : List NoteEntry)
    (slots : List MergeSlot) : PortState :=
  { PortState.reset with
    settings := { PortSettings.reset with laneMode := m, interval := 20 }, clickLane := clicks, noteLane := notes,
    slots := slots, lastGrant := g, grantCount := grants }

/-- A choice that begins no CLICK entry. -/
theorem witness_OutputTable_kick : onStage.init = none ∧ ((onStage.port 0).choose onStage.now).2 = false := by decide

theorem witness_OutputTable_choice : (sends none none 0).wire ≠ none ∧
    ({ PortState.reset with realtime := [.clock] }.wire = none ∧
      { PortState.reset with realtime := [.clock] }.realtime = .clock :: []) ∧
    ({ PortState.reset with entry := ending prog [{ status := 0xC0#8, data := [5#8] }] true }.realtime = [] ∧
      { PortState.reset with entry := ending prog [{ status := 0xC0#8, data := [5#8] }] true }.wire = none) ∧
    ((lanes .round 0 none [clicked] [] []).clickLane = clicked :: [] ∧ clicked.due ≤ 0) ∧
    ((lanes .round 0 none [{ clicked with due := 1 }] [] []).nextSlot 0 = none ∧
      (lanes .round 0 none [{ clicked with due := 1 }] [] []).noteEligible = false ∧ 0 < { clicked with due := 1 }.due) ∧
    ((lanes .round 0 none [] [.sweep 0] [dirty]).nextSlot 19999 = none ∧
      (lanes .round 0 none [] [.sweep 0] [dirty]).noteEligible = true) ∧
    ((lanes .round 0 none [] [] [dirty]).nextSlot 20000 = some dirty ∧
      (lanes .round 0 none [] [] [dirty]).noteEligible = false) ∧
    ((lanes .round 0 (some .note) [] [.sweep 0] [dirty]).nextSlot 20000 = some dirty ∧
      (lanes .round 0 (some .note) [] [.sweep 0] [dirty]).lastGrant = some .note ∧
      (lanes .round 0 none [] [.sweep 0] [dirty]).lastGrant ≠ some .note) ∧
    ((lanes .noteFirst 4 none [] [.sweep 0] [dirty]).nextSlot 20000 = some dirty ∧
      (lanes .noteFirst 4 none [] [.sweep 0] [dirty]).settings.weight ≤ 4) ∧
    (lanes .noteFirst 3 none [] [.sweep 0] [dirty]).nextSlot 20000 = some dirty ∧
      3 < (lanes .noteFirst 3 none [] [.sweep 0] [dirty]).settings.weight := by decide

/-- A merge slot of a key, in a state. -/
def slotOf (n : Nat) (st : MergeState) (sent : Option Nat) : MergeSlot :=
  { key := { chan := 0, kind := .controller n }, value := 5, state := st, sent }

/-- Every slot is taken; the last one is in a state. -/
def fullSlots (st : MergeState) : List MergeSlot := (List.range 23).map (fun n => slotOf n (.dirty 0) none) ++ [slotOf 119 st (some 0)]

/-- A value finds its key in each state, a place for a new one, no place, and a CLEAN slot it can take. -/
theorem witness_OutputTable_place : (∀ st, (lanes .round 0 none [] [] [slotOf 7 st none]).slots = [] ++ slotOf 7 st none :: []) ∧
    (lanes .round 0 none [] [] []).slots.length < 24 ∧
    (∀ st, 24 ≤ (fullSlots st).length ∧ (∀ y ∈ fullSlots st, y.key ≠ { chan := 0, kind := .bend }) ∧
      fullSlots st = (List.range 23).map (fun n => slotOf n (.dirty 0) none) ++ slotOf 119 st (some 0) :: []) ∧
    (slotOf 119 .clean (some 0)).state = .clean ∧ 0 + (lanes .round 0 none [] [] []).settings.interval * 1000 ≤ 20000 ∧
    ∀ y ∈ fullSlots (.dirty 0), y.state ≠ .clean := by
  refine ⟨fun _ => rfl, by decide, fun st => ⟨by simp [fullSlots], fun y h => ?_, rfl⟩, rfl, by decide, by decide⟩
  simp only [fullSlots, List.mem_append, List.mem_map, List.mem_singleton] at h
  rcases h with ⟨n, -, rfl⟩ | rfl <;> simp [slotOf]

/-- Two DIRTY slots, the one dirtied first last in the list; a NOTE lane and a slot for each kind of grant. -/
theorem witness_OutputTable_grants : ∀ q, q = lanes .round 0 none [] [.sweep 0] [slotOf 1 (.dirty 9) none, slotOf 2 (.dirty 5) none] →
    q.slots = [slotOf 1 (.dirty 9) none] ++ slotOf 2 (.dirty 5) none :: [] ∧ q.noteLane = .sweep 0 :: [] ∧
    (∀ y ∈ [slotOf 1 (.dirty 9) none], y.key ≠ (slotOf 2 (.dirty 5) none).key) ∧
    (∀ y ∈ [slotOf 1 (.dirty 9) none], ∀ b, y.state = .dirty b → 5 < b) ∧
    (∃ f : Message → List Byte, ∀ m, f m =
      if q.settings.runningStatus = true ∧ q.lastStatus = some m.status then m.data else m.status :: m.data) ∧
    ∃ g : Nat → Chan → Byte, ∀ k c, g k c = b1 (16 * k + c.val) := by
  rintro _ rfl
  refine ⟨rfl, rfl, by decide, fun y h b k => ?_, ⟨_, fun _ => rfl⟩, ⟨_, fun _ _ => rfl⟩⟩
  obtain rfl := List.mem_singleton.mp h
  cases k
  decide

theorem witness_PortTimersTable : (onStage.port 0).settleDue = none ∧
    ((withPort 0 { PortState.reset with settleDue := some 20000 }).port 0).settleDue = some 20000 ∧
    (onStage.port 0).keepAliveDue = none ∧ ((withPort 0 (sends none none 0)).port 0).wire ≠ none ∧
    (((withPort 0 { PortState.reset with keepAliveDue := some 250000 }).port 0).keepAliveDue = some 250000 ∧
      ((withPort 0 { PortState.reset with keepAliveDue := some 250000 }).port 0).wire = none) ∧
    (∀ m ∈ (onStage.port 0).slots, m = dirty) ∧
    (dirty ∈ ((withPort 0 (lanes .round 0 none [] [] [dirty])).port 0).slots ∧ dirty.state = .dirty 5000 ∧
      dirty.sent = some 0 ∧ 20000 = 0 + ((withPort 0 (lanes .round 0 none [] [] [dirty])).port 0).settings.interval * 1000 ∧
      (withPort 0 (lanes .round 0 none [] [] [dirty])).now < 20000) ∧
    (∀ m' ∈ ((withPort 0 (lanes .round 0 none [] [] [dirty])).port 0).slots, ∀ a' e', m'.state = .dirty a' →
      m'.sent = some e' → 0 < e' + 20 * 1000 → 0 ≤ e') ∧
    (onStage.changeover = none ∧ (changing record).changeover = some record ∧ (∀ e ∈ record.ports, e.port ≠ 1) ∧
      (∃ e ∈ record.ports, e.port = 0)) :=
  ⟨rfl, rfl, rfl, by decide, by decide, by decide, by decide, fun _ _ _ _ _ _ _ => Nat.zero_le _, by decide⟩

theorem witness_PortTimersTable_at (d : Nat) : (∀ n, At d (withPort 0 { PortState.reset with settleDue := n })) ∧
    (∀ n, At d (withPort 0 { PortState.reset with keepAliveDue := n })) ∧ PlacesOk (withPort 0 (lanes .round 0 none [] [] [dirty])) :=
  ⟨fun _ => .inr (places_withPort 0 _ (Nat.zero_le _)), fun _ => .inr (places_withPort 0 _ (Nat.zero_le _)),
    places_withPort 0 _ (Nat.zero_le _)⟩

/-- Both ends of the record's report: with every entry DONE, and with one that is not. -/
theorem witness_PortTimersTable_report :
    (∀ e ∈ ({ record with ports := [{ port := 0, outstanding := 0, settling := false }] } : Changeover).ports,
      e.outstanding = 0 ∧ e.settling = false) ∧ ∃ e ∈ record.ports, 0 < e.outstanding ∨ e.settling = true := by decide

theorem witness_PortTimersTable_w (s : State) : ∃ w : Changeover → State,
    (∀ x, (∀ e ∈ x.ports, e.outstanding = 0 ∧ e.settling = false) → w x =
      { raise (.change .done x 0 0 (s.sceneName x.slot x.scene)) { s with changeover := some x } with changeover := none }) ∧
    ∀ x, (∃ e ∈ x.ports, 0 < e.outstanding ∨ e.settling = true) → w x = { s with changeover := some x } := by
  refine ⟨fun x => if ∀ e ∈ x.ports, e.outstanding = 0 ∧ e.settling = false then
      { raise (.change .done x 0 0 (s.sceneName x.slot x.scene)) { s with changeover := some x } with changeover := none }
      else { s with changeover := some x }, fun x h => if_pos h, fun x ⟨e, h, k⟩ => if_neg fun n => ?_⟩
  obtain ⟨a, b⟩ := n e h
  simp [a, b] at k

/-- A full NOTE lane of OUT0, its channel-4 SWEEP pending, with a byte on the wire that ends at 640. -/
def crowdedPort (e : NoteEntry) : PortState :=
  { PortState.reset with
    noteLane := List.replicate 63 (.noteOff 0 60 64) ++ [e], sweepPending := [3]
    wire := some { bytes := [0xFE#8], status := none, ends := 640 } }

/-- A port with `n` entries, the last of them a NOTE_ON, in a policy; a PROGRAM entry first where it is changing. -/
def offered (n : Nat) (policy : SettlePolicy) (changes : Bool) : PortState :=
  { PortState.reset with
    settings := { PortSettings.reset with policy }
    noteLane := (if changes then [NoteEntry.program 0 none none 5] else []) ++ List.replicate n (.noteOff 0 61 64) ++
      [.noteOn 0 60 100] }

/-- A full lane with a SWEEP pending and one entry waiting behind its 64 places. -/
def overfull (e : NoteEntry) : PortState :=
  { PortState.reset with noteLane := List.replicate 64 (.noteOff 0 60 64) ++ [e], sweepPending := [3] }

/-- A NOTE lane that has lost an entry: an entry waits for the place, and none does with no SWEEP pending and with one. -/
theorem witness_PortTimersTable_lose : 64 ≤ (crowdedPort (.sweep 0)).noteLane.length ∧
    (PortState.reset.noteLane.length < 64 ∧ PortState.reset.sweepPending = []) ∧
    ({ crowdedPort (.sweep 0) with noteLane := List.replicate 63 (.sweep 0) } : PortState).noteLane.length < 64 ∧
    (crowdedPort (.sweep 0)).sweepPending = 3 :: [] := by decide

/-- Each reason for which an entry waits, at its boundary, and none; a PROGRAM entry where the choice at 640 grants the NOTE lane, and not
before, nor with another entry waiting. -/
theorem witness_PortTimersTable_awaits : (crowdedPort (.sweep 0)).sweepPending ≠ [] ∧ 64 < (overfull (.sweep 0)).noteLane.length ∧
    ({ crowdedPort (.sweep 0) with wire := none } : PortState).awaits 0 (.pedal 5 true) = true ∧
    (crowdedPort (.sweep 0)).awaits 640 (.pedal 5 true) = true ∧
    (crowdedPort (.sweep 0)).awaits 639 (.pedal 5 true) = false ∧ (crowdedPort (.noteOn 0 61 100)).awaits 0 (.pedal 5 true) = true ∧
    (crowdedPort (.program 2 none none 9)).awaits 0 (.pedal 5 true) = true ∧
    ({ crowdedPort (.sweep 0) with sweepPending := [] } : PortState).awaits 640 (.pedal 5 true) = false ∧
    (crowdedPort (.sweep 0)).awaits 640 (assign 0).entry = true ∧ (crowdedPort (.sweep 0)).awaits 639 (assign 0).entry = false ∧
    (crowdedPort (.program 2 none none 9)).awaits 0 (assign 0).entry = false ∧
    (overfull (.sweep 0)).awaits 0 (assign 0).entry = false := by decide

/-- A port's next choice: with an item that ends later, with one that ends now and grants the NOTE lane or the REALTIME lane, and with a
settle under HOLD that runs out now. -/
theorem witness_PortTimersTable_grants : ∀ q : PortState, q = crowdedPort (.sweep 0) → ∀ w, q.wire = some w →
    (639 < w.ends ∧ q.grantsNow 639 = false) ∧ (w.ends ≤ 640 ∧ q.grantsNow 640 = true) ∧
    ({ q with realtime := [.clock] } : PortState).grantsNow 640 = false ∧
    ∀ x : PortState, x = { q with settings := { PortSettings.reset with policy := .hold }, wire := none, settleDue := some 640 } →
      x.wire = none ∧ x.grantsNow 640 = true ∧ x.grantsNow 639 = false := by
  rintro _ rfl _ ⟨⟩
  refine ⟨by decide, by decide, by decide, ?_⟩
  rintro _ rfl
  decide

/-- Every case of an offer: dropped by policy, annihilated on a changing port and on a full lane, room, the wait for a place, the full
lane with a NOTE_ON and without one. -/
theorem witness_PortTimersTable_offer : ((offered 0 .drop true).settings.policy = .drop ∧ (offered 0 .drop true).changing = true) ∧
    ((offered 1 .hold true).settings.policy ≠ .pass ∧ (offered 1 .hold true).changing = true ∧
      (offered 1 .hold true).noteLane = [.program 0 none none 5, .noteOff 0 61 64] ++ .noteOn 0 60 100 :: []) ∧
    (64 ≤ (offered 63 .pass false).noteLane.length ∧
      (offered 63 .pass false).noteLane = List.replicate 63 (.noteOff 0 61 64) ++ .noteOn 0 60 100 :: []) ∧
    ((offered 62 .pass false).noteLane.length < 64 ∧ (offered 62 .pass false).changing = false) ∧
    (64 ≤ (crowdedPort (.sweep 0)).noteLane.length ∧ (crowdedPort (.sweep 0)).awaits 640 (.sweep 0) = true) ∧
    ((offered 63 .pass false).noteLane = ((List.replicate 63 (.noteOff 0 61 64)) ++ [.noteOn 0 60 100]) ++ [] ∧
      (offered 63 .pass false).awaits 0 (.sweep 0) = false) ∧
    (((overfull (.sweep 0)).noteLane = List.replicate 64 (.noteOff 0 60 64) ++ [.sweep 0]) ∧ [NoteEntry.sweep 0] = [] ++ [.sweep 0] ∧
      (overfull (.sweep 0)).awaits 0 (assign 0).entry = false) ∧
    ((crowdedPort (.sweep 0)).noteLane = (List.replicate 63 (.noteOff 0 60 64) ++ [.sweep 0]) ++ [] ∧
      (∀ x ∈ (crowdedPort (.sweep 0)).noteLane, x.isNoteOn = false) ∧ (crowdedPort (.sweep 0)).awaits 0 (.sweep 0) = false) ∧
    (NoteEntry.sweep 0).isNoteOn = false := by decide

/-- What the note table and the fault record hear: nothing, an overflow, a withdrawal with no target that sounds and with one. -/
theorem witness_PortTimersTable_heard : ((offered 0 .pass false).offer 0 (.sweep 0)).withdrawn = none ∧
    ((offered 0 .pass false).offer 0 (.sweep 0)).overflowed = false ∧
    ((crowdedPort (.sweep 0)).offer 0 (.sweep 0)).withdrawn = none ∧
    ((crowdedPort (.sweep 0)).offer 0 (.sweep 0)).overflowed = true ∧
    ((offered 63 .pass false).offer 0 (.noteOff 0 60 64)).withdrawn = some (0, 60) ∧
    ((offered 63 .pass false).offer 0 (.noteOff 0 60 64)).overflowed = false ∧
    (∀ h ∈ (withPort 0 (offered 63 .pass false)).held, ∀ x ∈ h.targets, x.sent = false) ∧
    (playing [heldBy .down (target true .chip)] 0).held = [] ++ heldBy .down (target true .chip) :: [] ∧
    ∃ x ∈ (heldBy .down (target true .chip)).targets, x.triple = { port := 0, chan := 0, key := 60 } ∧ x.sent = true := by decide

/-- An instant's end: no entry waits, a PROGRAM entry alone does behind places without a NOTE_ON, and an entry that waits meets a full lane
with a NOTE_ON to give way and with none, behind a PROGRAM entry that waits. -/
theorem witness_PortTimersTable_meet : ∀ xs, xs = List.replicate 64 (NoteEntry.noteOff 0 60 64) →
    PortState.reset.noteLane.length ≤ 64 ∧
    (∀ e, (overfull e).noteLane = xs ++ [e] ∧ xs.length = 64 ∧ [e] = e :: [] ++ [] ∧ [e] = [] ++ e :: []) ∧
    (∀ x ∈ xs, x.isNoteOn = false) ∧ (∀ x ∈ [(assign 0).entry], x.isProgram = true) ∧
    (List.replicate 63 (NoteEntry.sweep 0) ++ NoteEntry.noteOn 0 60 100 :: []).length = 64 ∧
    [(assign 0).entry, .pedal 0 true] = (assign 0).entry :: [] ++ [.pedal 0 true] ∧
    [(assign 0).entry, .pedal 0 true] = [(assign 0).entry] ++ .pedal 0 true :: [] ∧
    (NoteEntry.pedal 0 true).isNoteOn = false ∧ (NoteEntry.pedal 0 true).isProgram = false ∧
    (NoteEntry.noteOn 0 61 100).isProgram = false := by
  rintro _ rfl
  exact ⟨Nat.zero_le _, fun _ => ⟨rfl, rfl, rfl, rfl⟩, by decide, by decide, rfl, rfl, rfl, rfl, rfl, rfl⟩

/-- R178, the freed place taken first: the SWEEP takes the place, and the offered entry meets a full lane. -/
theorem test_place_first : ∀ t, t = after (.outputItemEnd 0) (withPort 0 (crowdedPort (.sweep 0))) →
    (t.port 0).noteLane.getLast? = some (.sweep 3) ∧ (t.port 0).noteLane.length = 64 ∧ (t.port 0).sweepPending = [] ∧
    acceptsNote 0 (.pedal 5 true) t = false := by
  rintro _ rfl
  decide +kernel

/-- R178: a state of OUT0 at 640 to which a PEDAL entry of channel 6 is offered first. -/
def offeredFirst (q : PortState) : State := offerNote 0 (.pedal 5 true) (({ onStage with now := 640 } : State).setPort 0 q)

/-- R178, the offer taken first and then the end of an item: the entry takes the place, and the SWEEP waits for the next loss. -/
theorem test_offer_first_item : ∀ t, t = after (.outputItemEnd 0) (offeredFirst (crowdedPort (.sweep 0))) →
    (t.port 0).noteLane.getLast? = some (.pedal 5 true) ∧ (t.port 0).noteLane.length = 64 ∧ (t.port 0).sweepPending = [3] := by
  rintro _ rfl
  decide +kernel

/-- R178, the offer taken first and then an OUTPUT_SET that leaves HOLD while the port is SETTLING. -/
theorem test_offer_first_policy : ∀ q, q = { crowdedPort (.sweep 0) with
      settings := { PortSettings.reset with policy := .hold }, wire := none, settleDue := some 20000 } →
    (finish (offeredFirst q) = offeredFirst q) ∧
    ∀ t, t = finish ((offeredFirst q).setPort 0 (((offeredFirst q).port 0).configure 640 PortSettings.reset)) →
    (t.port 0).noteLane.getLast? = some (.pedal 5 true) ∧ (t.port 0).noteLane.length = 64 ∧ (t.port 0).sweepPending = [3] := by
  rintro _ rfl
  refine ⟨by decide +kernel, ?_⟩
  rintro _ rfl
  decide +kernel

/-- R178, the offer taken first and then an annihilation (R171), with the item on the wire ending later. -/
theorem test_offer_first_annihilation :
    ∀ t, t = offerNote 0 (.noteOff 0 61 64) (offeredFirst { crowdedPort (.noteOn 0 61 100) with
      wire := some { bytes := [0xFE#8], status := none, ends := 900 } }) →
    (t.port 0).noteLane.getLast? = some (.pedal 5 true) ∧ (t.port 0).noteLane.length = 64 ∧ (t.port 0).sweepPending = [3] ∧
    (t.port 0).overflow = 0 := by
  rintro _ rfl
  decide +kernel

/-- R178, the offer taken first and then the removal of a PROGRAM entry by a changeover (R142). -/
theorem test_offer_first_changeover :
    ∀ t, t = withdrawProgram 0 2 (offeredFirst { crowdedPort (.program 2 none none 9) with
      wire := some { bytes := [0xFE#8], status := none, ends := 900 } }) →
    (t.port 0).noteLane.getLast? = some (.pedal 5 true) ∧ (t.port 0).noteLane.length = 64 ∧ (t.port 0).sweepPending = [3] := by
  rintro _ rfl
  decide +kernel

/-- R178 and log 37: a CLOCK byte goes first, no place frees at the instant, and at its end the entry meets the full lane. -/
theorem test_offer_first_full : ∀ s, s = offeredFirst (crowdedPort (.sweep 0)) →
    ∀ t, t = after (.outputItemEnd 0) (s.setPort 0 ((s.port 0).offerRealtime .clock)) →
    (t.port 0).noteLane.length = 65 ∧ (t.port 0).wire.map (fun w => w.bytes) = some [0xF8#8] ∧
    ∀ u, u = tick t → (u.port 0).noteLane.length = 64 ∧ (u.port 0).sweepPending = [3, 5] ∧ (u.port 0).overflow = 1 := by
  rintro _ rfl _ rfl
  refine ⟨by decide +kernel, by decide +kernel, ?_⟩
  rintro _ rfl
  decide +kernel

/-- A trigger under way at 640 with OUT0 as given and a record whose entry for OUT0 is SETTLING. -/
def sendingTo (q : PortState) : Sending :=
  { state := { (changing { record with ports := [{ port := 0, outstanding := 0, settling := true }] }).setPort 0 q with now := 640 }
    enqueued := 0, dropped := 0 }

/-- R142, R137, R153: a PROGRAM entry that meets a full lane with a SWEEP pending, where no place frees, is dropped at its enqueue: the
port list is not touched, the setting becomes UNKNOWN, and it counts as dropped. -/
theorem test_program_dropped : ∀ w, w = sendingTo { crowdedPort (.program 2 none none 9) with
      wire := some { bytes := [0xFE#8], status := none, ends := 900 } } → ∀ u, u = w.assign (assign 0) →
    u.enqueued = 0 ∧ u.dropped = 1 ∧ u.state.changeover = w.state.changeover ∧ u.state.program 0 0 = none ∧
    (u.state.port 0).noteLane = (w.state.port 0).noteLane ∧ (u.state.port 0).overflow = 1 := by
  rintro _ rfl _ rfl
  decide +kernel

/-- R178: a PROGRAM entry offered at the instant at which the item on the wire ends takes the place that the grant frees. -/
theorem test_program_first : ∀ w, w = (sendingTo (crowdedPort (.sweep 0))).assign (assign 0) →
    w.enqueued = 1 ∧ w.state.changeover.map (fun r => r.ports) = some [{ port := 0, outstanding := 1, settling := true }] ∧
    ∀ t, t = after (.outputItemEnd 0) w.state →
      (t.port 0).noteLane.getLast? = some (assign 0).entry ∧ (t.port 0).noteLane.length = 64 ∧ (t.port 0).sweepPending = [3] := by
  rintro _ rfl
  refine ⟨by decide +kernel, by decide +kernel, ?_⟩
  rintro _ rfl
  decide +kernel

/-- Log 37: a CLOCK byte goes first, and the PROGRAM entry keeps its place at the instant's end and takes it at the byte's. -/
theorem test_program_keeps_place : ∀ s, s = ((sendingTo (crowdedPort (.sweep 0))).assign (assign 0)).state →
    ∀ t, t = tick (after (.outputItemEnd 0) (s.setPort 0 ((s.port 0).offerRealtime .clock))) →
    (t.port 0).noteLane.length = 65 ∧ t.changeover = s.changeover ∧ t.progMem = s.progMem ∧
    ∀ u, u = after (.outputItemEnd 0) t → (u.port 0).noteLane.getLast? = some (assign 0).entry ∧ (u.port 0).noteLane.length = 64 ∧
      (u.port 0).sweepPending = [3] := by
  rintro _ rfl _ rfl
  refine ⟨by decide +kernel, by decide +kernel, by decide +kernel, ?_⟩
  rintro _ rfl
  decide +kernel

/-- Whatever the state, one state and record meet the hypotheses on what a trigger makes of the record. -/
theorem witness_CueTable_record (s : State) (r : Changeover) : ∃ y : State,
    (s.changeover = none → y = { s with changeover := some r }) ∧
    (∀ x, s.changeover = some x →
      y = { raise (.change .superseded x 0 0 (s.sceneName x.slot x.scene)) s with changeover := some r }) := by
  cases h : s.changeover with
  | none => exact ⟨_, fun _ => rfl, nofun⟩
  | some x => exact ⟨_, nofun, fun _ k => by cases k; rfl⟩

/-- `onStage` in a mode, with a song of a start mode and a count-in in slot 0. -/
def leading (m : TransportMode) (mode : StartMode) (bars : Nat) : State :=
  (inMode m onStage).setSlot 0 (.ready { song with startMode := mode, countIn := bars })

/-- A song change while STOPPED and while RUNNING, by the start mode and the count-in of the new song, or with no song. -/
theorem witness_CueTable_song : (inMode .stopped onStage).transport.mode = .stopped ∧
    (inMode .running onStage).transport.mode ≠ .stopped ∧
    { inMode .running onStage with curPos := some 2 }.currentSong = none ∧
    (∀ mode bars, mode = .wait ∨ mode = .follow → bars = 0 ∨ bars = 4 →
      { leading .running mode bars with curPos := some 1 }.currentSong = some { song with startMode := mode, countIn := bars }) := by
  refine ⟨rfl, by decide, rfl, ?_⟩
  rintro _ _ (rfl | rfl) (rfl | rfl) <;> rfl

/-- The assignment of the first scene against program memory that holds it and that does not, with a PROGRAM entry of its channel
in the lane and without, taken by the lane and dropped by a full one. -/
theorem witness_CueTable_assign : (onStage.setProgram 0 0 (some (assign 0).setting)).program 0 0 = some (assign 0).setting ∧
    onStage.program 0 0 ≠ some (assign 0).setting ∧ ((onStage.port 0).noteLane.any (NoteEntry.isProgramOn 0)) = false ∧
    (∀ p : NoteEntry, p = .program 0 none none 9 →
      ((withPort 0 { PortState.reset with noteLane := [p] }).port 0).noteLane.any (NoteEntry.isProgramOn 0) = true) ∧
    (∀ x : NoteEntry, x.isProgramOn 0 = true ↔ ∃ b l p, x = .program 0 b l p) ∧
    ((onStage.port 0).offer 0 (assign 0).entry).accepted = true ∧
    (({ PortState.reset with noteLane := List.replicate 64 (.sweep 0) } : PortState).offer 0 (assign 0).entry).accepted = false ∧
    ∀ q : PortState, q = { PortState.reset with noteLane := List.replicate 64 (.noteOff 0 60 64) } → (q.offer 0 (assign 0).entry).accepted = false := by
  refine ⟨by decide, by decide, rfl, by rintro _ rfl; decide, fun x => ?_, by decide, by decide, by rintro _ rfl; decide⟩
  cases x <;> simp [NoteEntry.isProgramOn]

/-- The record with nothing outstanding, and with something. -/
theorem witness_CueTable_done : onStage.changeover = none ∧ (changing record).changeover = some record ∧
    (∃ e ∈ record.ports, 0 < e.outstanding ∨ e.settling = true) ∧
    ∀ e ∈ ({ record with ports := [] } : Changeover).ports, e.outstanding = 0 ∧ e.settling = false := by decide

/-! ### The show sequences of chapter 12, one event each -/

/-- A zone of chapter 12: all keys, LINEAR, scale 100, no transpose. -/
def plain (i : BitVec 6) (p : Port) (m : PedalMode) : Zone :=
  { zone with inputs := i, sourceChannel := some 0, port := p, pedal := m }

/-- Scene 0 and scene 1 of the first sequence. -/
def downbeatSong : Song :=
  { song with
    scenes := [{ name := [], timing := .bar, assignments := [],
                 zones := [plain 1#6 1 .chip, plain 1#6 2 .module, plain 2#6 3 .chip] },
               { name := [], timing := .bar, assignments := [{ port := 4, chan := 0, msb := none, lsb := none, program := 48 }],
                 zones := [plain 1#6 2 .module, plain 1#6 4 .module, plain 2#6 1 .chip, plain 2#6 3 .chip] }] }

/-- One target on channel 1, sent. -/
def onPort (p : Port) (key : Nat) (m : PedalMode) : HeldTarget :=
  { triple := { port := p, chan := 0, key }, velocity := 90, pedal := m, forward := zone.forward, sent := true }

/-- An entry of an input on channel 1. -/
def entry (i : Input) (key : Nat) (st : HeldState) (n : Nat) (ts : List HeldTarget) : HeldEntry :=
  { source := { input := i, chan := 0, key }, state := st, scene := n, targets := ts }

/-- E1 to E4. -/
def chord : List HeldEntry :=
  [entry 0 60 .sustained 0 [onPort 1 60 .chip], entry 0 64 .sustained 0 [onPort 1 64 .chip],
    entry 0 67 .sustained 0 [onPort 1 67 .chip], entry 1 72 .down 0 [onPort 3 72 .chip]]

/-- The first sequence before the downbeat: the last step of bar 8, the STAGE change in the slot. -/
def beforeDownbeat : State :=
  let s : State := { onGrid .running 8 383 with
    library := (onStage.library.set 5 (.ready { downbeatSong with stopBar := none })), setlist := [5], curPos := some 0,
    curScene := some 0, cue := some { change with claimant := .stage, slot := 5, source := .foot 0 }, held := chord,
    live := [plain 1#6 1 .chip, plain 1#6 2 .module, plain 2#6 3 .chip], liveId := some (5, 0) }
  (s.setPedal 0 0 { down := true, pairs := [(2, 0)] }).setProgram 4 0 (some { msb := none, lsb := none, program := 12 })

/-- The same after the trigger: scene 1 is live, OUT4's PROGRAM has gone out. -/
def afterDownbeat (held : List HeldEntry) : State :=
  { beforeDownbeat with
    cue := none, curScene := some 1, held, liveId := some (5, 1),
    live := [plain 1#6 2 .module, plain 1#6 4 .module, plain 2#6 1 .chip, plain 2#6 3 .chip] }.setPedal 0 0
    { down := true, pairs := [(2, 0), (4, 0)] }

/-- Pedal carry's PEDAL 127 stands ahead of the PROGRAM entry on OUT4, no other port gets an entry, and the notes stay. -/
theorem test_downbeat_trigger : ∀ t, t = nextStep beforeDownbeat →
    (t.port 4).noteLane = [.pedal 0 true, .program 0 none none 48] ∧ (t.port 2).noteLane = [] ∧ t.held = chord ∧
    t.pedal 0 0 = { down := true, pairs := [(2, 0), (4, 0)] } ∧ t.curScene = some 1 ∧ t.transport.bar = 9 := by
  rintro _ rfl
  decide +kernel

theorem test_downbeat_retrigger : ∀ t, t = noteOn 1 0 64 90 (afterDownbeat chord) →
    (t.port 1).noteLane = [.noteOff 0 64 64, .noteOn 0 64 90] ∧ (t.port 3).noteLane = [.noteOn 0 64 90] ∧
    holderCount t.held { port := 1, chan := 0, key := 64 } = 2 := by
  rintro _ rfl
  decide

theorem test_downbeat_pedal_up :
    ∀ t, t = askPedal 0 0 false (afterDownbeat (chord ++ [entry 1 64 .down 1 [onPort 1 64 .chip, onPort 3 64 .chip]])) →
    (t.port 1).noteLane = [.noteOff 0 60 64, .noteOff 0 67 64] ∧ (t.port 2).noteLane = [.pedal 0 false] ∧
    (t.port 4).noteLane = [.pedal 0 false] ∧ t.held.map (fun e => e.source.key) = [72, 64] := by
  rintro _ rfl
  decide

/-- The ramp sequence: 560,000 gives 10714 and the pair 560,000 and 555,000 gives 10762; k = 3 of 10000 to 12000 is 10750. -/
theorem test_ramp_sequence : tapTempo [560000] = 10714 ∧ tapTempo [560000, 555000] = 10762 ∧
    (Segment.mk 1 4 4 10000 2 (some 12000)).rampValue 3 = 10750 := by decide

/-- The setlist sequence: SET_INSERT at 3 moves the cue of position 3 to 4. -/
theorem test_setlist_sequence : ∀ t, t = after (.setInsert .a 1#8 3#8 14#8)
      { onStage with setlist := [4, 9, 11, 6, 2, 7], curPos := some 2, cue := some { change with position := 3, slot := 6 } } →
    t.setlist = [4, 9, 11, 14, 6, 2, 7] ∧ t.curPos = some 2 ∧ t.cue.map (fun c => c.position) = some 4 := by
  rintro _ rfl
  decide +kernel

/-- E1 and E2 share a triple; the pedal of IN2 is down. -/
def twoKeyboards : State :=
  { onStage with
    held := [entry 0 60 .down 0 [onPort 1 60 .chip], entry 2 60 .down 0 [onPort 1 60 .chip, onPort 5 60 .module]] }.setPedal 2 0
    { down := true, pairs := [(5, 0)] }

/-- The lost keyboard: E2 goes with its module note and its pedal, E1 keeps the shared triple sounding. -/
theorem test_lost_keyboard :
    ((loseInput 2 twoKeyboards).port 1).noteLane = [] ∧
    ((loseInput 2 twoKeyboards).port 5).noteLane = [.noteOff 0 60 64, .pedal 0 false] ∧
    (loseInput 2 twoKeyboards).held.map (fun e => e.source.input) = [0] ∧
    (loseInput 2 twoKeyboards).pedal 2 0 = { down := false, pairs := [] } := by
  decide +kernel
/-- An assignment of the third sequence. -/
def prg (p : Port) (c : Chan) (n : Nat) : Assignment := { port := p, chan := c, msb := none, lsb := none, program := n }

/-- Scenes 0 to 2 of the third sequence. -/
def dropSong : Song :=
  { song with scenes := [{ name := [], timing := .bar, zones := [], assignments := [] },
      { name := [], timing := .bar, zones := [plain 8#6 6 .chip], assignments := [prg 0 0 2, prg 6 0 10, prg 6 1 20] },
      { name := [], timing := .bar, zones := [plain 8#6 6 .chip], assignments := [prg 6 0 10, prg 6 1 30] }] }

/-- OUT6 with policy DROP and settle time 300 ms, and these NOTE lane entries. -/
def dropPort (lane : List NoteEntry) : PortState :=
  { PortState.reset with settings := { PortSettings.reset with policy := .drop, settleTime := 30 }, noteLane := lane }

/-- The trigger of a scene. -/
def dropChange (n : Nat) : Change := { change with claimant := .linkA, timing := .now, scene := n, source := .link .a }

/-- The third sequence before the first trigger. -/
def dropStart : State :=
  { ((withPort 6 (dropPort (List.replicate 20 (.noteOff 0 1 64)))).setSlot 0 (.ready dropSong)).setProgram 6 0
      (some { msb := none, lsb := none, program := 5 }) with
    setlist := [0], transport := { onStage.transport with mode := .running } }.setProgram 6 1
    (some { msb := none, lsb := none, program := 5 })

/-- The record after the first trigger and OUT0's transmission. -/
def dropSecond : State :=
  { (dropStart.setPort 6 (dropPort (List.replicate 20 (NoteEntry.noteOff 0 1 64) ++
        [NoteEntry.program 0 none none 10, NoteEntry.program 1 none none 20]))).setProgram 6 0
      (some { msb := none, lsb := none, program := 10 }) with
    curScene := some 1, live := [plain 8#6 6 .chip], liveId := some (0, 1),
    changeover := some { record with ports := [{ port := 6, outstanding := 2, settling := false }] } }.setProgram 6 1
    (some { msb := none, lsb := none, program := 20 })

theorem test_drop_first : ((triggerCue (dropChange 1) dropStart).1.port 6).noteLane.drop 20 =
      [.program 0 none none 10, .program 1 none none 20] ∧
    ((triggerCue (dropChange 1) dropStart).1.changeover.map (fun r => r.ports)) =
      some [{ port := 0, outstanding := 1, settling := false }, { port := 6, outstanding := 2, settling := false }] := by
  decide +kernel

/-- A NOTE_ON at a changing DROP port is discarded and its flag cleared. -/
theorem test_drop_note : ((noteOn 3 0 55 100 dropSecond).port 6).settleDrop = 1 ∧
    (noteOn 3 0 55 100 dropSecond).held.map (fun e => e.targets.map (fun x => x.sent)) = [[false]] := by decide +kernel

/-- The second trigger withdraws channel 2's program, keeps channel 1's, and the port stays QUEUED 2. -/
theorem test_drop_superseded :
    ((triggerCue (dropChange 2) dropSecond).1.port 6).noteLane.drop 20 = [.program 0 none none 10, .program 1 none none 30] ∧
    (triggerCue (dropChange 2) dropSecond).1.changeover.map (fun r => r.ports) =
      some [{ port := 6, outstanding := 2, settling := false }] := by
  decide +kernel

end Sys2Proof.Tests
end

section
/-! The zone router (chapter 1). The walk is taken apart one zone at a time: what a zone does to the layer list, and what it
adds to a destination list. An induction over the table then gives what holds of the whole lists. -/

namespace Sys2Proof.Proofs.Router

open Sys2Proof.Machine Sys2Proof.Laws

/-! ### Matching (R7) -/

theorem sourceMatch_iff (z : Zone) (i : Input) (c : Chan) :
    z.sourceMatch i c = true ↔
      z.inputs.getLsbD i.val = true ∧ (z.sourceChannel = none ∨ z.sourceChannel = some c) := by
  simp [Zone.sourceMatch]

theorem matchesNote_iff (z : Zone) (i : Input) (c : Chan) (k v : Nat) :
    z.matchesNote i c k v = true ↔
      z.inputs.getLsbD i.val = true ∧ (z.sourceChannel = none ∨ z.sourceChannel = some c) ∧
        z.keyLow ≤ k ∧ k ≤ z.keyHigh ∧ z.velLow ≤ v ∧ v ≤ z.velHigh := by
  simp [Zone.matchesNote, sourceMatch_iff, and_assoc]

/-! ### Output keys (R8) -/

theorem outputKey_normal {z : Zone} (h : z.direction = .normal) (k : Nat) : z.outputKey k = k + z.transpose := by
  unfold Zone.outputKey
  rw [h]

theorem outputKey_reverse {z : Zone} (h : z.direction = .reverse) (k : Nat) :
    z.outputKey k = z.keyHigh - (k - z.keyLow : Int) + z.transpose := by
  unfold Zone.outputKey
  rw [h]

/-- The mirrored key of REVERSE stays in the zone's key range, whose two ends change places. -/
theorem mirror_mem_range {lo hi k : Nat} (h1 : lo ≤ k) (h2 : k ≤ hi) {m : Int} (hm : m = hi - (k - lo : Int)) :
    (lo : Int) ≤ m ∧ m ≤ hi ∧ (k = lo → m = hi) ∧ (k = hi → m = lo) := by
  omega

/-! ### Output velocities (R11, R12) -/

/-- The product of two numbers that add to 127 is at most 63 times 64, so the bend is at most 15. -/
theorem bendTerm_le_fifteen {v : Nat} (h : v ≤ 127) : bendTerm v ≤ 15 := by
  have hsq := four_mul_le_sq_add v (127 - v)
  rw [Nat.add_sub_of_le h, Nat.mul_assoc] at hsq
  unfold bendTerm
  omega

/-- HARD takes less than the whole velocity away. -/
theorem bendTerm_lt {v : Nat} (h : 1 ≤ v) : bendTerm v < v := by
  have hprod : v * (127 - v) ≤ v * 127 := Nat.mul_le_mul_left v (Nat.sub_le 127 v)
  unfold bendTerm
  omega

/-- SOFT stays below the top of the range. -/
theorem add_bendTerm_le {v : Nat} (h : v ≤ 127) : v + bendTerm v ≤ 127 := by
  have hprod : v * (127 - v) ≤ 127 * (127 - v) := Nat.mul_le_mul_right _ h
  unfold bendTerm
  omega

theorem curveValue_mem_range {c : Curve} {v : Nat} (h1 : 1 ≤ v) (h2 : v ≤ 127)
    (hf : ∀ f, c = .fixed f → 1 ≤ f ∧ f ≤ 127) : 1 ≤ c.value v ∧ c.value v ≤ 127 := by
  cases c with
  | linear => exact ⟨h1, h2⟩
  | soft => exact ⟨Nat.le_add_right_of_le h1, add_bendTerm_le h2⟩
  | hard => exact ⟨Nat.sub_pos_of_lt (bendTerm_lt h1), Nat.sub_le_of_le_add (Nat.le_add_right_of_le h2)⟩
  | fixed f => exact hf f rfl

theorem clampVelocity_of_lt {x : Int} (h : x < 1) : clampVelocity x = 1 := if_pos h

theorem clampVelocity_of_gt {x : Int} (h : 127 < x) : clampVelocity x = 127 := by
  unfold clampVelocity
  rw [if_neg (by omega), if_pos h]

theorem clampVelocity_of_mem {x : Int} (h1 : 1 ≤ x) (h2 : x ≤ 127) : (clampVelocity x : Int) = x := by
  unfold clampVelocity
  rw [if_neg (by omega), if_neg (by omega)]
  omega

theorem clampVelocity_mem_range (x : Int) : 1 ≤ clampVelocity x ∧ clampVelocity x ≤ 127 := by
  unfold clampVelocity
  split
  · decide
  · split <;> omega

theorem outputVelocity_mem_range (z : Zone) (v : Nat) : 1 ≤ z.outputVelocity v ∧ z.outputVelocity v ≤ 127 :=
  clampVelocity_mem_range _

/-- A FIXED zone with scale 100 and offset 0 sends its fixed velocity. -/
theorem outputVelocity_fixed {z : Zone} {f : Nat} (hs : z.scale = 100) (ho : z.offset = 0) (hc : z.curve = .fixed f)
    (h1 : 1 ≤ f) (h2 : f ≤ 127) (v : Nat) : z.outputVelocity v = f := by
  have hn : (((z.curve.value v * z.scale + 50) / 100 : Nat) : Int) + z.offset = f := by
    rw [hs, ho, hc]
    simp only [Curve.value]
    omega
  unfold Zone.outputVelocity
  rw [hn]
  exact_mod_cast clampVelocity_of_mem (x := f) (by omega) (by omega)

/-! ### One zone of the layer list (R9) -/

/-- The target that a zone gives for a triple: its velocity, and the pedal mode and forward flags it copies (R10). -/
def targetOf (z : Zone) (v : Nat) (t : Triple) : HeldTarget :=
  { triple := t, velocity := z.outputVelocity v, pedal := z.pedal, forward := z.forward, sent := false }

section
variable {a : Layers} {z : Zone} {k v : Nat} {t : Triple}

theorem deal_of_full (h : 4 ≤ a.targets.length) : a.deal z k v = { a with limitSkips := a.limitSkips + 1 } := if_pos h

theorem deal_of_outside (h : a.targets.length < 4) (hk : z.outputKey k < 0 ∨ 127 < z.outputKey k) :
    a.deal z k v = { a with transposeSkips := a.transposeSkips + 1 } := by
  unfold Layers.deal
  rw [if_neg (show ¬ Config.layerMax ≤ a.targets.length from Nat.not_le.2 h), if_pos hk]

/-- With room and a key in range, whether the target joins depends on its triple alone. -/
theorem deal_of_inside (h : a.targets.length < 4) (hk : z.outputKey k = t.key) (hr : t.key ≤ 127) (hp : t.port = z.port)
    (hc : t.chan = z.chan) :
    a.deal z k v = if ∃ x ∈ a.targets, x.triple = t then a
      else { a with targets := a.targets ++ [targetOf z v t] } := by
  have ht : ({ port := z.port, chan := z.chan, key := (z.outputKey k).toNat } : Triple) = t := by
    rw [hk, ← hp, ← hc, Int.toNat_natCast]
  have hin : ¬ (z.outputKey k < 0 ∨ 127 < z.outputKey k) := by omega
  unfold Layers.deal
  rw [if_neg (show ¬ Config.layerMax ≤ a.targets.length from Nat.not_le.2 h), if_neg hin]
  simp only [ht, List.any_eq_true, decide_eq_true_eq]
  rfl

end

/-- A matching zone leaves the targets as they were, or adds one new target for its own port, channel and output key. -/
theorem deal_targets (a : Layers) (z : Zone) (k v : Nat) :
    (a.deal z k v).targets = a.targets ∨
    ∃ t : Triple, a.targets.length < 4 ∧ z.outputKey k = t.key ∧ t.key ≤ 127 ∧ t.port = z.port ∧ t.chan = z.chan ∧
      (∀ x ∈ a.targets, x.triple ≠ t) ∧ (a.deal z k v).targets = a.targets ++ [targetOf z v t] := by
  rcases Nat.lt_or_ge a.targets.length 4 with h | h
  · by_cases hk : z.outputKey k < 0 ∨ 127 < z.outputKey k
    · exact .inl (by rw [deal_of_outside h hk])
    · obtain ⟨n, hn⟩ := Int.eq_ofNat_of_zero_le (show 0 ≤ z.outputKey k by omega)
      have hr : n ≤ 127 := by omega
      have hd := deal_of_inside (a := a) (v := v) (t := { port := z.port, chan := z.chan, key := n }) h hn hr rfl rfl
      split at hd
      · exact .inl (by rw [hd])
      · rename_i hnew
        exact .inr ⟨_, h, hn, hr, rfl, rfl, fun x hx e => hnew ⟨x, hx, e⟩, by rw [hd]⟩
  · exact .inl (by rw [deal_of_full h])

/-! ### The whole layer list (R6, R9, R10) -/

/-- A target comes from a zone of a table that matches the note. -/
def ComesFrom (live : List Zone) (i : Input) (c : Chan) (k v : Nat) (x : HeldTarget) : Prop :=
  x.triple.key ≤ 127 ∧ 1 ≤ x.velocity ∧ x.velocity ≤ 127 ∧
    ∃ z ∈ live, z.matchesNote i c k v = true ∧ x.triple.port = z.port ∧ x.triple.chan = z.chan ∧
      (x.triple.key : Int) = z.outputKey k ∧ x.velocity = z.outputVelocity v

/-- What holds of the layer list all through the walk. -/
structure LayersOk (live : List Zone) (i : Input) (c : Chan) (k v : Nat) (a : Layers) : Prop where
  atMostFour : a.targets.length ≤ 4
  distinct : (a.targets.map (fun x => x.triple)).Nodup
  comesFrom : ∀ x ∈ a.targets, ComesFrom live i c k v x

theorem targetOf_comesFrom {live : List Zone} {i : Input} {c : Chan} {k v : Nat} {z : Zone} {t : Triple} (hz : z ∈ live)
    (hm : z.matchesNote i c k v = true) (hk : z.outputKey k = t.key) (hr : t.key ≤ 127) (hp : t.port = z.port)
    (hc : t.chan = z.chan) : ComesFrom live i c k v (targetOf z v t) :=
  ⟨hr, (outputVelocity_mem_range z v).1, (outputVelocity_mem_range z v).2, z, hz, hm, hp, hc, hk.symm, rfl⟩

theorem layersOk_deal {live : List Zone} {i : Input} {c : Chan} {k v : Nat} {a : Layers} {z : Zone} (hz : z ∈ live)
    (hm : z.matchesNote i c k v = true) (h : LayersOk live i c k v a) : LayersOk live i c k v (a.deal z k v) := by
  rcases deal_targets a z k v with hsame | ⟨t, hlen, hk, hr, hp, hc, hnew, hadd⟩
  · exact ⟨hsame ▸ h.atMostFour, hsame ▸ h.distinct, hsame ▸ h.comesFrom⟩
  · refine ⟨?_, ?_, ?_⟩
    · rw [hadd, List.length_append]
      exact hlen
    · rw [hadd, List.map_append, List.nodup_append]
      refine ⟨h.distinct, List.nodup_singleton _, fun u hu w hw => ?_⟩
      obtain ⟨x, hx, rfl⟩ := List.mem_map.1 hu
      obtain rfl : w = t := List.mem_singleton.1 hw
      exact hnew x hx
    · rw [hadd]
      intro x hx
      rcases List.mem_append.1 hx with hx | hx
      · exact h.comesFrom x hx
      · obtain rfl := List.mem_singleton.1 hx
        exact targetOf_comesFrom hz hm hk hr hp hc

theorem layersOk_layers (live : List Zone) (i : Input) (c : Chan) (k v : Nat) :
    LayersOk live i c k v (layers live i c k v) := by
  refine List.foldlRecOn _ _ ⟨Nat.zero_le _, List.nodup_nil, fun x hx => nomatch hx⟩ fun a ha z hz => ?_
  obtain ⟨hlive, hm⟩ := List.mem_filter.1 hz
  exact layersOk_deal hlive hm ha

theorem layers_concat (live : List Zone) (z : Zone) (i : Input) (c : Chan) (k v : Nat) :
    layers (live ++ [z]) i c k v =
      if z.matchesNote i c k v = true then (layers live i c k v).deal z k v else layers live i c k v := by
  unfold layers
  rw [List.filter_append, List.foldl_append, List.filter_singleton]
  cases z.matchesNote i c k v with
  | false => rfl
  | true => rfl

/-! ### The skips of a note-on (R9) -/

/-- Lane entries, their reports and notices leave the inputs as they are. -/
theorem inputs_outFree (x : Vector InputState 6) : OutFree (fun u => u.inputs = x) :=
  { offered := raiseOn_free (fun s l y h => by cases l <;> exact h), port := fun _ _ _ _ h => h, held := fun _ _ _ h => h
    fault := fun _ _ h => h }

theorem recordNoteOn_inputs (src : Source) (n : Nat) (ts : List HeldTarget) (s : State) :
    (recordNoteOn src n ts s).inputs = s.inputs := by
  have hfree := inputs_outFree s.inputs
  refine foldl_closed (P := fun u => u.inputs = s.inputs) (fun _ x hu => claim_closed hfree src x hu) ts _ ?_
  exact makeRoom_closed hfree (fun _ _ h => h) src.input (releaseEntry_closed hfree src Config.offVelocity rfl)

/-- At the inputs a note-on counts its skips and does nothing else. -/
theorem noteOn_inputs (i : Input) (c : Chan) (k v : Nat) (s : State) :
    (noteOn i c k v s).inputs = (countSkips i (layers s.live i c k v) s).inputs := by
  unfold noteOn
  dsimp only
  split
  · rfl
  · exact recordNoteOn_inputs _ _ _ _

theorem noteOn_input (i : Input) (c : Chan) (k v : Nat) (s : State) (j : Input) :
    (noteOn i c k v s).input j = (countSkips i (layers s.live i c k v) s).input j := by
  unfold State.input
  rw [noteOn_inputs]

/-! ### Destination lists (R14, R16) -/

theorem mem_addNew {α : Type} [DecidableEq α] (xs : List α) (x y : α) : y ∈ addNew xs x ↔ y ∈ xs ∨ y = x := by
  unfold addNew
  split
  · rename_i hx
    exact ⟨.inl, fun h => h.elim id (fun e => e ▸ hx)⟩
  · simp

theorem pairsOf_concat (zs : List Zone) (z : Zone) : pairsOf (zs ++ [z]) = addNew (pairsOf zs) (z.port, z.chan) := by
  unfold pairsOf
  rw [List.foldl_append]
  rfl

theorem pairsOf_nodup (zs : List Zone) : (pairsOf zs).Nodup :=
  List.foldlRecOn zs _ List.nodup_nil fun _ h _ _ => addNew_nodup _ h

theorem mem_pairsOf (zs : List Zone) (d : Port × Chan) : d ∈ pairsOf zs ↔ ∃ z ∈ zs, d = (z.port, z.chan) := by
  induction zs using List.reverseRecOn with
  | nil => simp [pairsOf]
  | append_singleton zs z ih => simp [pairsOf_concat, mem_addNew, ih, or_and_right, exists_or]

section
variable (q : Zone → Bool) (live : List Zone) (z : Zone)

/-- A zone that admits the message appends its pair where the list has not named it yet. -/
theorem pairsOf_filter_concat_new (hz : q z = true) (hd : (z.port, z.chan) ∉ pairsOf (live.filter q)) :
    pairsOf ((live ++ [z]).filter q) = pairsOf (live.filter q) ++ [(z.port, z.chan)] := by
  rw [List.filter_append, List.filter_singleton, hz]
  exact (pairsOf_concat _ _).trans (if_neg hd)

/-- A zone that does not admit it, or whose pair is named already, leaves the list as it is. -/
theorem pairsOf_filter_concat_same (h : q z = false ∨ (z.port, z.chan) ∈ pairsOf (live.filter q)) :
    pairsOf ((live ++ [z]).filter q) = pairsOf (live.filter q) := by
  rw [List.filter_append, List.filter_singleton]
  cases hz : q z with
  | false => simp
  | true =>
    have hd := h.resolve_left (by simp [hz])
    exact (pairsOf_concat _ _).trans (if_pos hd)

end

theorem mem_destinations (live : List Zone) (i : Input) (c : Chan) (k : MergeKind) (d : Port × Chan) :
    d ∈ destinations live i c k ↔
      ∃ z ∈ live, z.sourceMatch i c = true ∧ z.forward.admits k = true ∧ d = (z.port, z.chan) := by
  simp [destinations, mem_pairsOf, and_assoc]

theorem mem_pedalDestinations (live : List Zone) (i : Input) (c : Chan) (d : Port × Chan) :
    d ∈ pedalDestinations live i c ↔
      ∃ z ∈ live, z.sourceMatch i c = true ∧ z.pedal = .module ∧ d = (z.port, z.chan) := by
  simp [pedalDestinations, mem_pairsOf, and_assoc]

/-! ### Placing a controller value (R14) -/

/-- Place a value in the merge slots of some destinations, in the order of the list. -/
def placeAll (k : MergeKind) (v : Nat) (ds : List (Port × Chan)) (s : State) : State :=
  ds.foldl (fun s d => s.setPort d.1 ((s.port d.1).place s.now { chan := d.2, kind := k } v)) s

theorem routeControl_eq_placeAll (i : Input) (c : Chan) (k : MergeKind) (v : Nat) (s : State) :
    routeControl i c k v s = placeAll k v (destinations s.live i c k) s := rfl

theorem placeAll_cons (k : MergeKind) (v : Nat) (d : Port × Chan) (ds : List (Port × Chan)) (s : State) :
    placeAll k v (d :: ds) s =
      placeAll k v ds (s.setPort d.1 ((s.port d.1).place s.now { chan := d.2, kind := k } v)) := rfl

theorem placeAll_frame (k : MergeKind) (v : Nat) (ds : List (Port × Chan)) (s : State) :
    placeAll k v ds s = { s with ports := (placeAll k v ds s).ports } := by
  induction ds generalizing s with
  | nil => rfl
  | cons d ds ih =>
    rw [placeAll_cons, ih]
    rfl

/-- Each port takes the values for its own channels, in the order of the list. -/
theorem placeAll_port (k : MergeKind) (v : Nat) (ds : List (Port × Chan)) (s : State) (p : Port) :
    (placeAll k v ds s).port p = ((ds.filter (fun d => decide (d.1 = p))).map (fun d => d.2)).foldl
      (fun q x => q.place s.now { chan := x, kind := k } v) (s.port p) := by
  induction ds generalizing s with
  | nil => rfl
  | cons d ds ih =>
    rw [placeAll_cons, ih, setPort_now, port_setPort_ite]
    by_cases h : d.1 = p
    · subst h
      simp
    · simp [h, Ne.symm h]

/-! ### The statement -/

/-- Settles O55: each clause is the lemma above for one zone or for the whole walk. -/
theorem routerTable : Obligations.RouterTable := by
  unfold Obligations.RouterTable
  refine ⟨fun z k v => ⟨fun h => outputKey_normal h k, ?reverse, ?velocity⟩, ?matching, ?deal, ?layers, ?skips,
    ?destinationStep, ?destinationList, ?placing⟩
  case reverse =>
    rintro h m rfl
    exact ⟨outputKey_reverse h k, fun h1 h2 => mirror_mem_range h1 h2 rfl⟩
  case velocity =>
    rintro h1 h2 c rfl
    refine ⟨fun h => by rw [h]; rfl, fun h => by rw [h]; rfl, fun h => by rw [h]; rfl, fun f h => by rw [h]; rfl,
      bendTerm_le_fifteen h2, ?_, ?_, curveValue_mem_range h1 h2, ?_⟩
    · rintro (rfl | rfl) <;> decide
    · rintro (rfl | rfl) <;> decide
    · rintro n rfl
      exact ⟨clampVelocity_of_lt, clampVelocity_of_gt, clampVelocity_of_mem, (outputVelocity_mem_range z v).1,
        (outputVelocity_mem_range z v).2, fun hs ho f hc hf1 hf2 => outputVelocity_fixed hs ho hc hf1 hf2 v⟩
  case matching =>
    exact fun z i c k v => ⟨sourceMatch_iff z i c, matchesNote_iff z i c k v, rfl, rfl, rfl⟩
  case deal =>
    intro a z k v
    refine ⟨deal_of_full, deal_of_outside, fun t hlen hk hr hp hc => ?_⟩
    have hdeal := deal_of_inside (v := v) hlen hk hr hp hc
    exact ⟨fun hdup => hdeal.trans (if_pos hdup), fun hnew => hdeal.trans (if_neg fun ⟨x, hx, e⟩ => hnew x hx e)⟩
  case layers =>
    rintro live i c k v a rfl
    have hok := layersOk_layers live i c k v
    exact ⟨rfl, fun z => ⟨fun hm => (layers_concat live z i c k v).trans (if_pos hm),
      fun hm => (layers_concat live z i c k v).trans (if_neg (by simp [hm]))⟩,
      hok.atMostFour, hok.distinct, hok.comesFrom⟩
  case skips =>
    rintro i c k v s a rfl
    exact ⟨(noteOn_input i c k v s i).trans (input_setInput s i _),
      fun j hj => (noteOn_input i c k v s j).trans (input_setInput_ne s i j _ hj)⟩
  case destinationStep =>
    rintro live i c z d rfl
    constructor
    · rintro k ds rfl
      refine ⟨rfl, fun hm hk => pairsOf_filter_concat_new _ live z (by simp [hm, hk]), fun h => ?_⟩
      exact pairsOf_filter_concat_same _ live z ((or_assoc.2 h).imp_left Bool.and_eq_false_iff.2)
    · rintro ds rfl
      refine ⟨rfl, fun hm hk => pairsOf_filter_concat_new _ live z (by simp [hm, hk]), fun h => ?_⟩
      exact pairsOf_filter_concat_same _ live z
        ((or_assoc.2 h).imp_left fun hz => Bool.and_eq_false_iff.2 (hz.imp_right decide_eq_false))
  case destinationList =>
    exact fun live i c => ⟨fun k => ⟨pairsOf_nodup _, mem_destinations live i c k⟩, pairsOf_nodup _,
      mem_pedalDestinations live i c⟩
  case placing =>
    rintro i c k v s ds rfl
    exact ⟨_, rfl, placeAll_frame k v _ s, placeAll_port k v _ s⟩

end Sys2Proof.Proofs.Router
end

section
/-! EXTEND (R87): the request by transport state and extension count, and the beat it adds to the end of the bar. -/

namespace Sys2Proof.Proofs.Extend

open Sys2Proof.Machine Sys2Proof.Laws

/-! ### The request by state and extension count (R87) -/

section
variable {o : Origin} {s : State}

theorem extendBar_of_room (hrun : s.transport.mode = .running) (hroom : s.transport.extension < 4) :
    extendBar o s = (raiseTransport .extend (some o)
      { s with transport := { s.transport with extension := s.transport.extension + 1 } }, .ok []) :=
  (if_pos hrun).trans (if_pos hroom)

theorem extendBar_of_full (hrun : s.transport.mode = .running) (hfull : 4 ≤ s.transport.extension) :
    extendBar o s = (s, .refuse .full [Limit.extension.code]) :=
  (if_pos hrun).trans (if_neg hfull.not_gt)

theorem extendBar_of_not_running (hrun : s.transport.mode ≠ .running) : extendBar o s = (s, .refuse .wrongState []) :=
  if_neg hrun

end

/-- A request of EXTEND that is taken at once is answered by the transport unit. -/
theorem exec_extend {l : Link} {s : State} (tag : Byte) (ht : Takes l s) :
    exec (.extend l tag) s =
      answered l .extend tag (extendBar (.link l) (found l s)).2 (extendBar (.link l) (found l s)).1 :=
  served s rfl rfl ht

/-! ### The added beat (R80, R81) -/

/-- The transport record of a bar with one more beat. -/
def withBeat (t : TransportState) : TransportState := { t with extension := t.extension + 1 }

theorem barLength_withBeat (t : TransportState) : (withBeat t).barLength = t.barLength + t.beatLength := by
  show (t.numerator + (t.extension + 1)) * t.beatLength = (t.numerator + t.extension) * t.beatLength + t.beatLength
  rw [← Nat.add_assoc, Nat.succ_mul]

theorem beatLength_pos {t : TransportState} (h : t.denominator = 4 ∨ t.denominator = 8) : 0 < t.beatLength := by
  unfold TransportState.beatLength
  rcases h with h | h <;> rw [h] <;> decide

/-- A step of RUNNING within the bar that falls on a multiple `k` of the beat length begins beat `k + 1`. -/
theorem nextStep_of_beat {u : State} {k : Nat} (hrun : u.transport.mode = .running) (hpos : 0 < u.transport.beatLength)
    (hk : u.transport.step + 1 = k * u.transport.beatLength) (hbar : u.transport.step + 1 < u.transport.barLength) :
    nextStep u = beat { u with transport := { u.transport with step := u.transport.step + 1, beat := k + 1 } } := by
  have hmod : (u.transport.step + 1) % u.transport.beatLength = 0 := by rw [hk, Nat.mul_mod_left]
  have hdiv : (u.transport.step + 1) / u.transport.beatLength = k := by rw [hk, Nat.mul_div_cancel _ hpos]
  unfold nextStep beginStepInBar
  rw [if_neg hbar.not_ge]
  simp only [hmod, hdiv, hrun, if_true]

/-- After EXTEND, the step that was to begin the next bar begins the added beat. -/
theorem nextStep_of_extended {t : TransportState} {u : State} (hrun : t.mode = .running)
    (hden : t.denominator = 4 ∨ t.denominator = 8) (hlast : t.step + 1 = t.barLength) (hu : u.transport = withBeat t) :
    nextStep u = beat { u with transport := { u.transport with
      step := t.barLength
      beat := t.numerator + t.extension + 1 } } := by
  have hpos := beatLength_pos hden
  have hbar : t.step + 1 < (withBeat t).barLength := by
    rw [barLength_withBeat]
    omega
  rw [nextStep_of_beat (k := t.numerator + t.extension) (hu ▸ hrun) (hu ▸ hpos) (hu ▸ hlast) (hu ▸ hbar), ← hlast, hu]
  rfl

/-! ### The statement -/

/-- Settles O24: one branch of `extendBar` for each clause, and the added beat from the longer bar. -/
theorem extendTable : Obligations.ExtendTable := by
  unfold Obligations.ExtendTable
  intro l tag s ht
  rw [exec_extend tag ht]
  have hfound : (found l s).transport = s.transport := found_transport l s
  refine ⟨fun hrun hroom => ⟨?taken, barLength_withBeat _, fun hden hlast u hu => ?beat⟩, fun hrun hfull => ?full,
    fun hrun => ?wrongState⟩
  case taken => rw [extendBar_of_room (hfound ▸ hrun) (hfound ▸ hroom), hfound]
  case beat => exact nextStep_of_extended hrun hden hlast hu
  case full => rw [extendBar_of_full (hfound ▸ hrun) (hfound ▸ hfull)]
  case wrongState =>
    rw [extendBar_of_not_running (hfound ▸ hrun)]
    rfl

end Sys2Proof.Proofs.Extend
end

section
/-! SCENE_BEGIN (R109): the fields of a new scene, the request by owned song, fields and scene count, and the pools, which the new
scene leaves as they were. -/

namespace Sys2Proof.Proofs.SceneBegin

open Sys2Proof.Machine Sys2Proof.Laws

/-! ### The fields (R103, R197) -/

/-- The scene that SCENE_BEGIN makes: a name and a default timing, with no zones and no assignments. -/
def newScene (x : Timing) (name : List Byte) : Scene := { name, timing := x, zones := [], assignments := [] }

theorem sceneHeader_iff {t : Byte} {name : List Byte} {sc : Scene} :
    sceneHeader (t :: name) = some sc ↔ ∃ x : Timing, t = x.code ∧ IsText 0 12 name ∧ sc = newScene x name := by
  unfold sceneHeader
  simp only [Option.bind_eq_bind, Option.bind_eq_some_iff, timing_iff, text_iff, Option.some.injEq]
  constructor
  · rintro ⟨x, hx, _, ⟨hname, rfl⟩, rfl⟩
    exact ⟨x, hx, hname, rfl⟩
  · rintro ⟨x, hx, hname, rfl⟩
    exact ⟨x, hx, name, ⟨hname, rfl⟩, rfl⟩

theorem sceneHeader_eq_none {t : Byte} {name : List Byte} (h : (∀ x : Timing, t ≠ x.code) ∨ ¬ IsText 0 12 name) :
    sceneHeader (t :: name) = none := by
  refine Option.eq_none_iff_forall_ne_some.2 fun sc hsc => ?_
  obtain ⟨x, hx, hname, -⟩ := sceneHeader_iff.1 hsc
  exact h.elim (fun ht => ht x hx) (fun hn => hn hname)

/-- LEN fits SCENE_BEGIN exactly when the name has at most 12 characters (R102, R182 check 4). -/
theorem fits_sceneBegin {t : Byte} {name : List Byte} (h : name.length + 1 ≤ 58) :
    ReqKind.sceneBegin.fits (lenByte (t :: name)) = decide (name.length ≤ 12) := by
  have hlen : (lenByte (t :: name)).toNat = name.length + 3 := lenByte_toNat h
  simp only [ReqKind.fits, ReqKind.lens, hlen, decide_eq_decide]
  omega

/-! ### The request by owned song, fields and scene count (R106, R109) -/

section
variable {l : Link} {f : List Byte} {s : State}

theorem sceneBegin_of_no_song (h : s.ownedSong l = none) : sceneBegin l f s = (s, .refuse .wrongState []) := by
  unfold sceneBegin
  rw [h]

variable {n : SlotNo} {g : Song} {k : Option Nat} {sc : Scene}

theorem sceneBegin_of_bad_fields (h : s.ownedSong l = some (n, g, k)) (hf : sceneHeader f = none) :
    sceneBegin l f s = (s, .refuse .badField []) := by
  simp only [sceneBegin, h, hf]

theorem sceneBegin_of_full (h : s.ownedSong l = some (n, g, k)) (hf : sceneHeader f = some sc)
    (hfull : 12 ≤ g.scenes.length) : sceneBegin l f s = (s, .refuse .full [Limit.scenes.code]) := by
  simp only [sceneBegin, h, hf]
  exact if_pos hfull

theorem sceneBegin_of_room (h : s.ownedSong l = some (n, g, k)) (hf : sceneHeader f = some sc)
    (hroom : g.scenes.length < 12) :
    sceneBegin l f s = (s.setSlot n (.building l { g with scenes := g.scenes ++ [sc] } (some g.scenes.length)),
      .ok [b1 g.scenes.length]) := by
  simp only [sceneBegin, h, hf]
  exact if_neg hroom.not_ge

/-- A request of SCENE_BEGIN that is taken at once and whose LEN fits is answered by the library. -/
theorem exec_sceneBegin {name : List Byte} (tag t : Byte) (ht : Takes l s) (hname : name.length ≤ 12) :
    exec (.sceneBegin l tag t name) s =
      answered l .sceneBegin tag (sceneBegin l (t :: name) (found l s)).2 (sceneBegin l (t :: name) (found l s)).1 :=
  served s rfl (by simp [fits_sceneBegin (show name.length + 1 ≤ 58 by omega), hname]) ht

/-! ### The pools (R104) -/

/-- A new scene that holds nothing takes no item from either pool. -/
theorem held_addScene {o o' : Link} {k' : Option Nat} {x : Timing} {name : List Byte} {u : State}
    (hslot : s.slot n = .building o g k)
    (hu : u = s.setSlot n (.building o' { g with scenes := g.scenes ++ [newScene x name] } k')) :
    u.zoneHeld = s.zoneHeld ∧ u.programHeld = s.programHeld := by
  obtain ⟨hz, hp⟩ := held_setSlot s n (.building o' { g with scenes := g.scenes ++ [newScene x name] } k')
  rw [← hu, hslot] at hz hp
  simpa [Slot.zoneItems, Slot.programItems, newScene] using And.intro hz hp

end

/-! ### The statement -/

/-- Settles O32: a name that is too long fails by its LEN; for any other the branch of `sceneBegin` answers. -/
theorem sceneBeginTable : Obligations.SceneBeginTable := by
  unfold Obligations.SceneBeginTable
  intro l tag t name s ht hfits
  refine ⟨fun hnone hlen => ?wrongState, fun n g k hown hslot => ?owner⟩
  case wrongState =>
    rw [exec_sceneBegin tag t ht hlen, sceneBegin_of_no_song (by simp [ownedSong_none hnone])]
    rfl
  case owner =>
    have hsong : (found l s).ownedSong l = some (n, g, k) := by simp [ownedSong_eq hown hslot]
    refine ⟨fun hbad => ?badField, fun x hx hname => ?goodFields⟩
    case badField =>
      by_cases hlen : name.length ≤ 12
      · rw [exec_sceneBegin tag t ht hlen, sceneBegin_of_bad_fields hsong (sceneHeader_eq_none hbad)]
        rfl
      · exact served_unfit s rfl (by simp [fits_sceneBegin hfits, hlen]) ht
    case goodFields =>
      have hheader : sceneHeader (t :: name) = some (newScene x name) := sceneHeader_iff.2 ⟨x, hx, hname, rfl⟩
      rw [exec_sceneBegin tag t ht hname.2.1]
      refine ⟨fun hfull => ?full, fun hroom => ?room⟩
      case full =>
        rw [sceneBegin_of_full hsong hheader hfull]
        rfl
      case room =>
        rw [sceneBegin_of_room hsong hheader hroom]
        obtain ⟨hz, hp⟩ := held_addScene ((found_slot l s n).trans hslot) rfl
        exact ⟨_, rfl, rfl, hz.trans (found_zoneHeld l s), hp.trans (found_programHeld l s)⟩

end Sys2Proof.Proofs.SceneBegin
end

section
/-! SET_INSERT and SET_REMOVE (R118, R119): each request by its fields and the list, when a position may not be removed, and what
the edited list holds at the renumbered positions. -/

namespace Sys2Proof.Proofs.SetlistEdit

open Sys2Proof.Machine Sys2Proof.Laws

/-! ### The fields (R197) -/

theorem numIn_eq_none {lo hi : Nat} {b : Byte} (h : hi < b.toNat) : numIn lo hi b = none := by
  refine Option.eq_none_iff_forall_ne_some.2 fun n hn => ?_
  obtain ⟨-, hle, -⟩ := numIn_iff.1 hn
  exact h.not_ge hle

theorem below_eq_none {n : Nat} {b : Byte} (h : n ≤ b.toNat) : below n b = none := by
  refine Option.eq_none_iff_forall_ne_some.2 fun x hx => ?_
  exact absurd (below_iff.1 hx ▸ x.isLt) h.not_gt

/-! ### SET_INSERT by fields and list (R118) -/

section
variable {pb nb : Byte} {s : State} {p : Nat} {n : SlotNo}

theorem setInsert_of_bad_field (h : 64 < pb.toNat ∨ 47 < nb.toNat) :
    setInsert [pb, nb] s = (s, .refuse .badField []) := by
  rcases h with hpb | hnb
  · simp only [setInsert, numIn_eq_none hpb]
  · simp only [setInsert, below_eq_none hnb]
    cases numIn 0 64 pb <;> rfl

theorem setInsert_of_beyond (hp : numIn 0 64 pb = some p) (hn : below 48 nb = some n) (h : s.setlist.length < p) :
    setInsert [pb, nb] s = (s, .refuse .notFound []) := by
  simp only [setInsert, hp, hn, if_pos h]

theorem setInsert_of_full (hp : numIn 0 64 pb = some p) (hn : below 48 nb = some n) (h : p ≤ s.setlist.length)
    (hfull : 64 ≤ s.setlist.length) : setInsert [pb, nb] s = (s, .refuse .full [Limit.setlist.code]) := by
  simp only [setInsert, hp, hn, if_neg h.not_gt]
  exact if_pos hfull

theorem setInsert_of_room (hp : numIn 0 64 pb = some p) (hn : below 48 nb = some n) (h : p ≤ s.setlist.length)
    (hroom : s.setlist.length < 64) :
    setInsert [pb, nb] s =
      (mapPositions (raiseFrom p) { s with setlist := s.setlist.take p ++ n :: s.setlist.drop p },
        .ok [b1 (s.setlist.length + 1)]) := by
  simp only [setInsert, hp, hn, if_neg h.not_gt]
  exact if_neg hroom.not_ge

/-! ### SET_REMOVE by field and list (R119) -/

theorem setRemove_of_bad_field (h : 63 < pb.toNat) : setRemove [pb] s = (s, .refuse .badField []) := by
  simp only [setRemove, numIn_eq_none h]

theorem setRemove_of_beyond (hp : numIn 0 63 pb = some p) (h : s.setlist.length ≤ p) :
    setRemove [pb] s = (s, .refuse .notFound []) := by
  simp only [setRemove, hp, if_pos h]

theorem setRemove_of_protected (hp : numIn 0 63 pb = some p) (h : p < s.setlist.length)
    (hheld : s.protectedPosition p = true) : setRemove [pb] s = (s, .refuse .inUse []) := by
  simp only [setRemove, hp, if_neg h.not_ge, if_pos hheld]

theorem setRemove_of_free (hp : numIn 0 63 pb = some p) (h : p < s.setlist.length)
    (hfree : ¬ s.protectedPosition p = true) :
    setRemove [pb] s =
      (mapPositions (lowerAbove p) { s with setlist := s.setlist.take p ++ s.setlist.drop (p + 1) },
        .ok [b1 (s.setlist.length - 1)]) := by
  simp only [setRemove, hp, if_neg h.not_ge, if_neg hfree]

/-- The positions that may not be removed: the current one, the cue slot's, and the changeover's source and target. -/
theorem protectedPosition_iff :
    s.protectedPosition p = true ↔ s.curPos = some p ∨ (∃ c, s.cue = some c ∧ c.position = p) ∨
      ∃ r, s.changeover = some r ∧ (r.position = p ∨ r.source.position = some p) := by
  unfold State.protectedPosition
  cases s.cue <;> cases s.changeover <;> simp [or_assoc]

end

/-! ### The owner of the setlist answers -/

section
variable {l : Link} {s : State}

theorem exec_setInsert (tag pb nb : Byte) (ht : Takes l s) :
    exec (.setInsert l tag pb nb) s =
      answered l .setInsert tag (setInsert [pb, nb] (found l s)).2 (setInsert [pb, nb] (found l s)).1 :=
  served s rfl rfl ht

theorem exec_setRemove (tag pb : Byte) (ht : Takes l s) :
    exec (.setRemove l tag pb) s =
      answered l .setRemove tag (setRemove [pb] (found l s)).2 (setRemove [pb] (found l s)).1 :=
  served s rfl rfl ht

/-! ### The list after an edit -/

/-- The counting of the frame leaves the positions held elsewhere as they were. -/
theorem mapPositions_found (f : Nat → Nat) (xs : List SlotNo) :
    mapPositions f { found l s with setlist := xs } = { found l s with
      setlist := xs
      curPos := s.curPos.map f
      cue := s.cue.map (fun c => { c with position := f c.position })
      changeover := s.changeover.map (fun r =>
        { r with position := f r.position, source := { r.source with position := r.source.position.map f } }) } := by
  simp only [mapPositions, found_curPos, found_cue, found_changeover]

end

/-- The inserted number stands at its position (R118). -/
theorem getElem?_inserted {xs : List SlotNo} {p : Nat} (n : SlotNo) (h : p ≤ xs.length) :
    (xs.take p ++ n :: xs.drop p)[p]? = some n := by
  have hlen : (xs.take p).length = p := List.length_take_of_le h
  rw [List.getElem?_append_right hlen.le, hlen, Nat.sub_self, List.getElem?_cons_zero]

/-! ### The statements -/

/-- Settles O36: one branch of `setInsert` for each clause; the edited list keeps its entries at the raised positions. -/
theorem setInsertTable : Obligations.SetInsertTable := by
  unfold Obligations.SetInsertTable
  intro l tag pb nb s ht
  rw [exec_setInsert tag pb nb ht]
  refine ⟨fun hbad => ?badField, fun n p hn hpb hmax => ?goodFields⟩
  case badField =>
    rw [setInsert_of_bad_field hbad]
    rfl
  case goodFields =>
    have hp : numIn 0 64 pb = some p := numIn_iff.2 ⟨Nat.zero_le _, hpb ▸ hmax, hpb⟩
    have hslot : below 48 nb = some n := below_iff.2 hn
    have hlist : (found l s).setlist = s.setlist := found_setlist l s
    refine ⟨fun hbeyond => ?notFound, fun hle hfull => ?full, fun hle hroom up hup => ?room⟩
    case notFound =>
      rw [setInsert_of_beyond hp hslot (hlist ▸ hbeyond)]
      rfl
    case full =>
      rw [setInsert_of_full hp hslot (hlist ▸ hle) (hlist ▸ hfull)]
      rfl
    case room =>
      obtain rfl : up = raiseFrom p := funext hup
      rw [setInsert_of_room hp hslot (hlist ▸ hle) (hlist ▸ hroom), hlist]
      exact ⟨_, rfl, mapPositions_found _ _, getElem?_inserted n hle, fun q m hq => getElem?_insert hle hq⟩

/-- Settles O37: one branch of `setRemove` for each clause; the edited list keeps its other entries at the lowered positions. -/
theorem setRemoveTable : Obligations.SetRemoveTable := by
  unfold Obligations.SetRemoveTable
  intro l tag pb s ht
  rw [exec_setRemove tag pb ht]
  refine ⟨fun hbad => ?badField, fun p hpb hmax => ?goodField⟩
  case badField =>
    rw [setRemove_of_bad_field hbad]
    rfl
  case goodField =>
    have hp : numIn 0 63 pb = some p := numIn_iff.2 ⟨Nat.zero_le _, hpb ▸ hmax, hpb⟩
    have hlist : (found l s).setlist = s.setlist := found_setlist l s
    have hprot : (found l s).protectedPosition p = s.protectedPosition p := found_protectedPosition l s p
    refine ⟨fun hbeyond => ?notFound, fun hlt hheld => ?inUse, fun hlt hcur hcue hchange down hdown => ?free⟩
    case notFound =>
      rw [setRemove_of_beyond hp (hlist ▸ hbeyond)]
      rfl
    case inUse =>
      rw [setRemove_of_protected hp (hlist ▸ hlt) (hprot ▸ protectedPosition_iff.2 hheld)]
      rfl
    case free =>
      have hfree : ¬ s.protectedPosition p = true := by
        rw [protectedPosition_iff]
        rintro (h | ⟨c, hc, h⟩ | ⟨r, hr, h⟩)
        · exact hcur h
        · exact hcue c hc h
        · exact h.elim (hchange r hr).1 (hchange r hr).2
      obtain rfl : down = lowerAbove p := funext hdown
      rw [setRemove_of_free hp (hlist ▸ hlt) (hprot ▸ hfree), hlist]
      exact ⟨_, rfl, mapPositions_found _ _, fun q m hne hq => getElem?_remove hlt hne hq⟩

end Sys2Proof.Proofs.SetlistEdit
end

section
/-! Notices and the fault record (R186, R191, R192): what one notice does to a link's queue and which links it reaches, what a fault
leaves in the record, and the two requests that answer it. -/

namespace Sys2Proof.Proofs.FaultsAndNotices

open Sys2Proof.Machine Sys2Proof.Laws

/-! ### A notice offered to a link's queue (R186) -/

/-- The unsent entry of a notice's kind takes its details and counts the repeat; an entry of another kind stays. -/
def coalesce (n : Notice) (e : NoticeEntry) : NoticeEntry :=
  if e.notice.kind = n.kind then { notice := n, repeats := bumpSmall e.repeats } else e

theorem map_coalesce_of_absent {n : Notice} {es : List NoticeEntry} (h : ∀ e ∈ es, e.notice.kind ≠ n.kind) :
    es.map (coalesce n) = es :=
  (List.map_congr_left fun e he => if_neg (h e he)).trans (List.map_id es)

section
variable {k : LinkState} {n : Notice}

theorem offer_of_masked (hmask : k.mask.getLsbD n.kind.bit = false) : k.offer n = k :=
  if_neg (by simp [hmask])

theorem offer_of_absent (hmask : k.mask.getLsbD n.kind.bit = true) (h : ∀ e ∈ k.notices, e.notice.kind ≠ n.kind) :
    k.offer n = { k with notices := k.notices ++ [{ notice := n, repeats := 0 }] } :=
  (if_pos hmask).trans (if_neg (by simpa using h))

theorem offer_of_waiting {e : NoticeEntry} (hmask : k.mask.getLsbD n.kind.bit = true) (he : e ∈ k.notices)
    (hkind : e.notice.kind = n.kind) : k.offer n = { k with notices := k.notices.map (coalesce n) } :=
  (if_pos hmask).trans (if_pos (List.any_eq_true.2 ⟨e, he, decide_eq_true hkind⟩))

/-- Where one entry alone has the kind, it changes in its place and the others stay. -/
theorem offer_of_one_waiting {e : NoticeEntry} {xs ys : List NoticeEntry} (hmask : k.mask.getLsbD n.kind.bit = true)
    (hsplit : k.notices = xs ++ e :: ys) (hkind : e.notice.kind = n.kind) (hxs : ∀ x ∈ xs, x.notice.kind ≠ n.kind)
    (hys : ∀ x ∈ ys, x.notice.kind ≠ n.kind) :
    k.offer n = { k with notices := xs ++ { notice := n, repeats := min (e.repeats + 1) 255 } :: ys } := by
  have hentry : coalesce n e = { notice := n, repeats := min (e.repeats + 1) 255 } := if_pos hkind
  rw [offer_of_waiting hmask (by simp [hsplit]) hkind, hsplit, List.map_append, List.map_cons, map_coalesce_of_absent hxs,
    map_coalesce_of_absent hys, hentry]

end

/-! ### A notice raised on one link (R185, R186) -/

section
variable {l : Link} {n : Notice} {s : State}

theorem raiseOn_of_initialising (h : s.init ≠ none) : raiseOn l n s = s :=
  if_pos (Option.isSome_iff_ne_none.2 h)

theorem raiseOn_of_ready (h : s.init = none) : raiseOn l n s = s.setLink l ((s.link l).offer n) :=
  if_neg (by simp [h])

theorem raiseOn_of_masked (hmask : (s.link l).mask.getLsbD n.kind.bit = false) : raiseOn l n s = s := by
  unfold raiseOn
  rw [offer_of_masked hmask, setLink_self, ite_self]

end

/-! ### A fault taken (R191) -/

section
variable {cls : FaultClass} {src : FaultSource} {s : State}

theorem takeFault_of_empty (h : s.faultRecord = none) {r : FaultRecord}
    (hr : r = { cls, source := src, bar := s.transport.bar, beat := s.transport.beat,
                step := s.transport.step, later := 0 }) :
    takeFault cls src s = raise (.fault cls src true r) { s with faultRecord := some r } := by
  have hafter : faultAfter s cls src = r := by simp only [faultAfter, h, hr]
  simp only [takeFault, hafter, h, Option.isNone_none]

theorem takeFault_of_held {x r : FaultRecord} (h : s.faultRecord = some x)
    (hr : r = { x with later := min (x.later + 1) 255 }) :
    takeFault cls src s = raise (.fault cls src false r) { s with faultRecord := some r } := by
  have hafter : faultAfter s cls src = r := by simp only [faultAfter, h, hr, bumpSmall, Config.smallCountMax]
  simp only [takeFault, hafter, h, Option.isNone_some]

end

/-! ### The two requests (R192) -/

/-- The data of the replies in the words of R198: FFh and zeros for an empty record, the record's fields for any other. -/
theorem faultData_eq {o : Option FaultRecord} {data : List Byte}
    (hempty : o = none → data = [0xFF#8, 0#8, 0#8, 0#8, 0#8, 0#8, 0#8, 0#8])
    (hheld : ∀ r, o = some r →
      data = [r.cls.code, r.source.code] ++ b2 r.bar ++ [b1 r.beat] ++ b2 r.step ++ [b1 r.later]) :
    faultData o = data := by
  cases o with
  | none => exact (hempty rfl).symm
  | some r => exact (hheld r rfl).symm

section
variable {l : Link} {s : State}

theorem exec_faultGet (tag : Byte) (ht : Takes l s) :
    exec (.faultGet l tag) s = answered l .faultGet tag (.ok (faultData s.faultRecord)) (found l s) := by
  rw [← found_faultRecord l s]
  exact served s rfl rfl ht

theorem exec_faultClear (tag : Byte) (ht : Takes l s) :
    exec (.faultClear l tag) s =
      answered l .faultClear tag (.ok (faultData s.faultRecord)) { found l s with faultRecord := none } := by
  rw [← found_faultRecord l s]
  exact served s rfl rfl ht

end

/-! ### The statement -/

/-- Settles O48: the record's data in the two replies, the record after a fault, and the three cases of a link's queue. -/
theorem faultsAndNotices : Obligations.FaultsAndNotices := by
  unfold Obligations.FaultsAndNotices
  refine ⟨?requests, fun cls src s => ?fault, fun _ _ => rfl, ?queue⟩
  case requests =>
    intro l tag s ht data hempty hheld
    rw [← faultData_eq hempty hheld]
    exact ⟨exec_faultGet tag ht, exec_faultClear tag ht⟩
  case fault =>
    exact ⟨fun hnone _ hr => takeFault_of_empty hnone hr, fun _ hsome _ hr => takeFault_of_held hsome hr⟩
  case queue =>
    rintro l n s k rfl
    refine ⟨fun h => h.elim raiseOn_of_initialising raiseOn_of_masked, fun hready hmask => ?_⟩
    rw [raiseOn_of_ready hready]
    refine ⟨fun habsent => ?newEntry, fun xs e ys hsplit hkind hxs hys => ?repeated⟩
    case newEntry => rw [offer_of_absent hmask habsent]
    case repeated => rw [offer_of_one_waiting hmask hsplit hkind hxs hys]

end Sys2Proof.Proofs.FaultsAndNotices
end

section
/-! The song library (chapter 6). Three laws read nothing but the slots: a song's bounds, the pools and the owners. One lemma says
that such a law needs to be kept by the edit of a slot alone; the edit is the same in the three proofs. -/

namespace Sys2Proof.Proofs.Library

open Sys2Proof.Machine Sys2Proof.Laws

/-! ### Laws of the library -/

/-- A property of the library alone. -/
abbrev ReadsLibrary (P : State → Prop) : Prop := ∀ s t : State, t.library = s.library → P s → P t

/-- A property of the library alone is disturbed by no unit if the edit of a slot does not disturb it. -/
theorem ReadsLibrary.blockFree {P : State → Prop} (h : ReadsLibrary P)
    (hedit : ∀ s n x, SlotEdit s n x → P s → P (s.setSlot n x)) : BlockFree P :=
  { links := fun s l x => h s _ (by cases l <;> rfl)
    port := fun s _ _ _ => h s _ rfl
    held := fun s _ => h s _ rfl
    fault := fun s _ => h s _ rfl
    pedals := fun s _ => h s _ rfl
    steals := fun s _ => h s _ rfl
    inputs := fun s _ => h s _ rfl
    tempo := fun s _ => h s _ rfl
    transport := fun s _ _ => h s _ rfl
    click := fun s _ => h s _ rfl
    live := fun s _ _ => h s _ rfl
    selection := fun s _ _ => h s _ rfl
    changeover := fun s _ => h s _ rfl
    progMem := fun s _ => h s _ rfl
    audition := fun s _ => h s _ rfl
    cue := fun s _ _ => h s _ rfl
    library := hedit
    setlist := fun s _ => h s _ rfl
    foots := fun s _ => h s _ rfl
    panics := fun s _ => h s _ rfl
    now := fun s _ => h s _ rfl }

theorem pinResetAll_library (a b : Bool) (s : State) : (pinResetAll a b s).library = State.reset.library := by
  unfold pinResetAll
  rw [mapFoots_eq]

theorem endInitialisation_library (s : State) : (endInitialisation s).library = s.library := by
  unfold endInitialisation
  split
  · rfl
  · rw [mapPorts_eq, mapFoots_eq]
    rfl

/-- A property of the library alone that holds at reset and that the edit of a slot keeps is kept by every step. -/
theorem ReadsLibrary.step {P : State → Prop} (h : ReadsLibrary P) (hreset : P State.reset)
    (hedit : ∀ s n x, SlotEdit s n x → P s → P (s.setSlot n x)) {s t : State} (hs : P s) (hst : step s = .next t) : P t :=
  step_keeps (h.blockFree hedit).all (fun a b _ _ => h State.reset _ (pinResetAll_library a b _) hreset)
    (fun s => h s _ (endInitialisation_library s)) (fun s _ => h s _ rfl) s t hs hst

theorem slot_reset (n : SlotNo) : State.reset.slot n = .empty := by simp [State.slot, State.reset]

/-! ### Songs -/

theorem slot_of_library {s t : State} (h : t.library = s.library) (n : SlotNo) : t.slot n = s.slot n := by
  unfold State.slot
  rw [h]

theorem libraryOk_reads : ReadsLibrary LibraryOk := fun _ _ h hs n => slot_of_library h n ▸ hs n

theorem libraryOk_reset : LibraryOk State.reset := fun n => slot_reset n ▸ trivial

/-- Settles O9: a song's bounds are read from its slot alone, and every edit of a slot keeps them. -/
theorem libraryStaysSafe : Obligations.LibraryStaysSafe := by
  unfold Obligations.LibraryStaysSafe
  intro s t hs hst
  exact libraryOk_reads.step libraryOk_reset (fun s n x hx => slotOk_set s n x hx.safe) hs hst

/-! ### Pools -/

theorem poolsOk_reads : ReadsLibrary PoolsOk := by
  intro s t h hs
  unfold PoolsOk State.zoneHeld State.programHeld
  rw [h]
  exact hs

theorem poolsOk_reset : PoolsOk State.reset := by
  unfold PoolsOk State.zoneHeld State.programHeld
  decide

/-- An edit takes an item only from a pool that holds one (R104). -/
theorem poolsOk_setSlot (s : State) (n : SlotNo) (x : Slot) (hx : SlotEdit s n x) (hs : PoolsOk s) :
    PoolsOk (s.setSlot n x) := by
  obtain ⟨hzones, hprograms⟩ := held_setSlot s n x
  obtain ⟨hz, hp⟩ := hs
  have hz' := hx.zones
  have hp' := hx.programs
  unfold State.zoneFree at hz'
  unfold State.programFree at hp'
  exact ⟨by omega, by omega⟩

/-! ### Owners -/

theorem ownersOk_reads : ReadsLibrary OwnersOk := by
  intro s t h hs l n m
  rw [slot_of_library h, slot_of_library h]
  exact hs l n m

theorem ownersOk_reset : OwnersOk State.reset := by
  intro l n m h
  rw [slot_reset] at h
  cases h

/-- With no slot found for a link, no slot is its own. -/
theorem not_ownedBy_of_ownedSlot {s : State} {l : Link} (h : s.ownedSlot l = none) (n : SlotNo) :
    (s.slot n).ownedBy l = false := by
  have hall := List.find?_eq_none.mp h n (List.mem_finRange n)
  exact Bool.eq_false_iff.mpr hall

/-- A slot that comes to be a link's own finds no other of that link (R105). -/
theorem ownersOk_setSlot (s : State) (n : SlotNo) (x : Slot) (hx : SlotEdit s n x) (hs : OwnersOk s) :
    OwnersOk (s.setSlot n x) := by
  have only : ∀ l m, m ≠ n → x.ownedBy l = true → (s.slot m).ownedBy l = true → m = n := by
    intro l m _ hown hm
    rcases hx.owner l hown with hn | hnone
    · exact hs l m n hm hn
    · rw [not_ownedBy_of_ownedSlot hnone] at hm
      cases hm
  intro l a b ha hb
  by_cases ea : a = n
  · by_cases eb : b = n
    · rw [ea, eb]
    · rw [ea, slot_setSlot] at ha
      rw [slot_setSlot_ne _ _ _ _ eb] at hb
      rw [ea, only l b eb ha hb]
  · rw [slot_setSlot_ne _ _ _ _ ea] at ha
    by_cases eb : b = n
    · rw [eb, slot_setSlot] at hb
      rw [eb, only l a ea hb ha]
    · rw [slot_setSlot_ne _ _ _ _ eb] at hb
      exact hs l a b ha hb

/-- Settles O10: both laws are read from the library alone, and every edit of a slot keeps them. -/
theorem poolsAndOwnersStaySafe : Obligations.PoolsAndOwnersStaySafe := by
  unfold Obligations.PoolsAndOwnersStaySafe
  rintro s t ⟨hp, ho⟩ hst
  exact ⟨poolsOk_reads.step poolsOk_reset poolsOk_setSlot hp hst, ownersOk_reads.step ownersOk_reset ownersOk_setSlot ho hst⟩

end Sys2Proof.Proofs.Library
end

section
/-! The songs that are shown (R101): the current, the cued and the target song are READY. The law reads the library, the setlist,
the current position, the cue slot and the changeover record; each write to one of them keeps it for a reason of its own. -/

namespace Sys2Proof.Proofs.Shown

open Sys2Proof.Machine Sys2Proof.Laws

/-! ### Writes to other fields -/

theorem showOk_setLink (s : State) (l : Link) (x : LinkState) (h : ShowOk s) : ShowOk (s.setLink l x) :=
  showOk_of (by cases l <;> rfl) h

theorem showOk_noteFree : NoteFree ShowOk :=
  NoteFree.ofHeld
    { offered := raiseOn_free showOk_setLink
      port := fun s _ _ _ h => showOk_of (s := s) rfl h
      held := fun s _ _ h => showOk_of (s := s) rfl h
      fault := fun s _ h => showOk_of (s := s) rfl h }
    (fun s _ h => showOk_of (s := s) rfl h) (fun s _ h => showOk_of (s := s) rfl h) (fun s _ h => showOk_of (s := s) rfl h)
    (fun s _ h => showOk_of (s := s) rfl h)

theorem showOk_beatFree : BeatFree ShowOk :=
  { offered := showOk_noteFree.offered
    port := showOk_noteFree.port
    tempo := fun s _ h => showOk_of (s := s) rfl h
    sameMode := fun s _ _ _ h => showOk_of (s := s) rfl h
    click := fun s _ h => showOk_of (s := s) rfl h }

/-! ### The cue slot and the changeover record -/

/-- A cue slot that is empty or holds a READY song under its own position keeps the law. -/
theorem showOk_cue {s : State} {x d : Option Change} (h : ShowOk s)
    (hx : ∀ c, x = some c → s.setlist[c.position]? = some c.slot ∧ s.IsReady c.slot) :
    ShowOk { s with cue := x, departure := d } :=
  ⟨h.current, hx, h.target⟩

theorem showOk_changeover (s : State) (x : Option Changeover) (hx : SameRecord s.changeover x) (h : ShowOk s) :
    ShowOk { s with changeover := x } := by
  refine ⟨h.current, h.cued, fun r hr => ?_⟩
  obtain ⟨r0, h0, hsame⟩ := hx r hr
  rw [hsame]
  exact h.target r0 h0

/-- A change that is cued, or one that resolves, names a READY song under its position. -/
theorem change_ready {c : Change} {s : State} (h : ShowOk s) (hc : s.cue = some c ∨ Resolves s c) :
    s.setlist[c.position]? = some c.slot ∧ s.IsReady c.slot :=
  hc.elim (h.cued c) (fun hr => ⟨hr.names, hr.ready⟩)

theorem showOk_triggerCue (c : Change) (s : State) (hc : s.cue = some c ∨ Resolves s c) (h : ShowOk s) :
    ShowOk (triggerCue c s).1 := by
  obtain ⟨hnames, hready⟩ := change_ready h hc
  have hmoved : ShowOk { s with cue := none, departure := some c } := showOk_cue h (fun _ e => nomatch e)
  have hraised : showOf { raise (State.cueNotice { s with cue := none, departure := some c } .triggered c none c.displaced)
      { s with cue := none, departure := some c } with audition := none } =
      showOf { s with cue := none, departure := some c } :=
    read_raise (fun u => showOf { u with audition := none }) (fun s l x => by cases l <;> rfl) _ _
  have hfields := hraised
  simp only [showOf, Prod.mk.injEq] at hfields
  obtain ⟨hlib, hset, -⟩ := hfields
  refine takeTrigger_show c.trigger _ (showOk_of hraised hmoved) ?_ ((isReady_of_library hlib _).mpr hready)
  rw [hset]
  exact hnames

theorem showOk_stopBy (cause : Cause) (o : Option Origin) (s : State) (h : ShowOk s) : ShowOk (stopBy cause o s) := by
  have hcleared : ShowOk (clearTempo (stopByteFrom s.transport.mode (restTransport s))) :=
    clearTempo_closed showOk_beatFree (stopByteFrom_closed showOk_noteFree.port _ (showOk_of (s := s) rfl h))
  refine raise_closed showOk_noteFree.offered _ ?_
  unfold cueOnStop
  split
  · rename_i x hx
    exact showOk_triggerCue x _ (.inl hx) hcleared
  · exact hcleared

/-- A trigger within the current song goes to a READY song. -/
theorem showOk_scene (t : Trigger) (s : State) (_ : t.kind = .scene) (hstay : Stays s t) (h : ShowOk s) :
    ShowOk (takeTrigger t s).1 := by
  obtain ⟨n, hn, hready⟩ := h.current _ hstay.position
  have hslot : s.setlist[t.position]? = some t.slot := by
    have hcur := hstay.slot
    rwa [State.currentSlot, hstay.position, Option.bind_some] at hcur
  obtain rfl : t.slot = n := Option.some.inj (hslot.symm.trans hn)
  exact takeTrigger_show t s h hslot hready

theorem showOf_mapInputs (f : InputState → InputState) (s : State) : showOf (mapInputs f s) = showOf s := by
  unfold mapInputs
  exact read_foldl showOf (f := fun u i => u.setInput i (f (u.input i))) (fun _ _ => rfl) _ _

theorem showOf_mapPorts (f : PortState → PortState) (s : State) : showOf (mapPorts f s) = showOf s := by
  rw [mapPorts_eq]
  simp only [showOf]

/-- The fields the law reads after a SOFT_RESET: no change is cued and no changeover is active. -/
theorem showOf_softReset (s : State) : showOf (softResetAll s) = (s.library, s.setlist, s.curPos, none, none) := by
  have hlive : (reloadLive s).library = s.library ∧ (reloadLive s).setlist = s.setlist ∧ (reloadLive s).curPos = s.curPos := by
    unfold reloadLive
    split <;> exact ⟨rfl, rfl, rfl⟩
  obtain ⟨h1, h2, h3⟩ := hlive
  unfold softResetAll
  rw [showOf_mapInputs, showOf_mapPorts]
  simp only [showOf, State.setOffs, restTransport, softResetTempo, emptyNoteTable, h1, h2, h3]

theorem showOk_softReset (s : State) (h : ShowOk s) : ShowOk (softResetAll s) :=
  showOk_of (showOf_softReset s) (s := { s with cue := none, changeover := none })
    ⟨h.current, fun _ e => (nomatch e), fun _ e => (nomatch e)⟩

theorem showOk_cueFree : CueFree ShowOk :=
  { toNoteFree := showOk_noteFree
    tempo := showOk_beatFree.tempo
    sameMode := showOk_beatFree.sameMode
    click := showOk_beatFree.click
    run := fun s _ _ h => showOk_of (s := s) rfl h
    enter := fun s _ _ hc h => showOk_cue (d := s.departure) h (fun _ e => Option.some.inj e ▸ ⟨hc.names, hc.ready⟩)
    cancel := fun _ h => showOk_cue h (fun _ e => nomatch e)
    trigger := showOk_triggerCue
    stop := showOk_stopBy
    scene := showOk_scene
    audition := fun s _ h => showOk_of (s := s) rfl h
    changeover := showOk_changeover
    soft := showOk_softReset }

/-! ### The library and the setlist -/

theorem inUse_of_current {s : State} {p : Nat} {n : SlotNo} (hp : s.curPos = some p) (hn : s.setlist[p]? = some n) :
    s.inUse n = true := by
  simp [State.inUse, State.currentSlot, hp, hn]

theorem inUse_of_cued {s : State} {c : Change} (hc : s.cue = some c) : s.inUse c.slot = true := by
  simp [State.inUse, hc]

theorem inUse_of_target {s : State} {r : Changeover} (hr : s.changeover = some r) : s.inUse r.slot = true := by
  simp [State.inUse, hr]

/-- An edit of a slot spares a song IN USE (R101). -/
theorem showOk_setSlot (s : State) (n : SlotNo) (x : Slot) (hx : SlotEdit s n x) (h : ShowOk s) : ShowOk (s.setSlot n x) := by
  refine ⟨fun p hp => ?_, fun c hc => ?_, fun r hr => ?_⟩
  · obtain ⟨m, hm, hready⟩ := h.current p hp
    exact ⟨m, hm, isReady_setSlot hx (inUse_of_current hp hm) hready⟩
  · obtain ⟨hnames, hready⟩ := h.cued c hc
    exact ⟨hnames, isReady_setSlot hx (inUse_of_cued hc) hready⟩
  · exact isReady_setSlot hx (inUse_of_target hr) (h.target r hr)

/-- Positions that keep naming their entries in another list keep the law. -/
theorem showOk_mapPositions {s : State} {f : Nat → Nat} {xs : List SlotNo} (h : ShowOk s)
    (hcur : ∀ p m, s.curPos = some p → s.setlist[p]? = some m → xs[f p]? = some m)
    (hcue : ∀ c, s.cue = some c → s.setlist[c.position]? = some c.slot → xs[f c.position]? = some c.slot) :
    ShowOk (mapPositions f { s with setlist := xs }) := by
  refine ⟨fun q hq => ?_, fun c hc => ?_, fun r hr => ?_⟩
  · obtain ⟨p, hp, rfl⟩ := Option.map_eq_some_iff.mp hq
    obtain ⟨m, hm, hready⟩ := h.current p hp
    exact ⟨m, hcur p m hp hm, hready⟩
  · obtain ⟨c0, hc0, rfl⟩ := Option.map_eq_some_iff.mp hc
    obtain ⟨hnames, hready⟩ := h.cued c0 hc0
    exact ⟨hcue c0 hc0 hnames, hready⟩
  · obtain ⟨r0, hr0, rfl⟩ := Option.map_eq_some_iff.mp hr
    exact h.target r0 hr0

/-- A position that may be removed is neither current nor cued (R119). -/
theorem free_position {s : State} {p : Nat} (h : s.protectedPosition p = false) :
    s.curPos ≠ some p ∧ ∀ c, s.cue = some c → c.position ≠ p := by
  simp only [State.protectedPosition, Bool.or_eq_false_iff, decide_eq_false_iff_not] at h
  obtain ⟨⟨hcur, hcue⟩, -⟩ := h
  refine ⟨hcur, fun c hc => ?_⟩
  rw [hc] at hcue
  simpa using hcue

theorem showOk_allFree : AllFree ShowOk :=
  { toCueFree := showOk_cueFree
    library := showOk_setSlot
    insert := fun _ _ _ hp h => showOk_mapPositions h (fun _ _ _ hm => getElem?_insert hp hm)
      (fun _ _ hm => getElem?_insert hp hm)
    remove := by
      intro s p hp hfree h
      obtain ⟨hcur, hcue⟩ := free_position hfree
      exact showOk_mapPositions h (fun q m hq hm => getElem?_remove hp (fun e => hcur (e ▸ hq)) hm)
        (fun c hc hm => getElem?_remove hp (hcue c hc) hm)
    clear := fun s hp hc h => ⟨fun _ e => (nomatch hp.symm.trans e), fun _ e => (nomatch hc.symm.trans e), h.target⟩
    foots := fun s _ h => showOk_of (s := s) rfl h
    panics := fun s _ h => showOk_of (s := s) rfl h
    now := fun s _ h => showOk_of (s := s) rfl h
    progMem := fun s _ h => showOk_of (s := s) rfl h
    links := showOk_setLink }

/-! ### Resets and the statement -/

theorem showOk_reset : ShowOk State.reset := ⟨fun _ e => (nomatch e), fun _ e => (nomatch e), fun _ e => (nomatch e)⟩

theorem showOk_pinReset (a b : Bool) (s : State) : ShowOk (pinResetAll a b s) := by
  refine showOk_of (s := State.reset) ?_ showOk_reset
  unfold pinResetAll
  rw [mapFoots_eq]
  rfl

theorem showOk_endInitialisation (s : State) (h : ShowOk s) : ShowOk (endInitialisation s) := by
  unfold endInitialisation
  split
  · exact h
  · rw [mapPorts_eq, mapFoots_eq]
    exact showOk_of (s := s) rfl h

/-- Settles O11: every write to the library, the setlist, the selection, the cue slot or the record keeps the law. -/
theorem shownSongsStayReady : Obligations.ShownSongsStayReady := by
  unfold Obligations.ShownSongsStayReady
  intro s t hs hst
  exact step_keeps showOk_allFree (fun a b s _ => showOk_pinReset a b s) showOk_endInitialisation
    (fun s _ h => showOk_of (s := s) rfl h) s t hs hst

end Sys2Proof.Proofs.Shown
end

section
/-! The cue slot of a STOPPED transport (R129). The law reads the transport's mode and the cue slot. What leaves the transport
STOPPED empties the slot, since it triggers what the slot holds; what fills the slot runs the transport. -/

namespace Sys2Proof.Proofs.CueSlot

open Sys2Proof.Machine Sys2Proof.Laws

theorem cueOk_of_empty {s : State} (h : s.cue = none) : CueOk s := fun _ => h

theorem cueOk_of_running {s : State} (h : s.transport.mode ≠ .stopped) : CueOk s := fun e => absurd e h

/-! ### Writes to other fields -/

theorem cueOk_setLink (s : State) (l : Link) (x : LinkState) (h : CueOk s) : CueOk (s.setLink l x) := by
  cases l <;> exact h

theorem cueOk_sendFree : SendFree CueOk :=
  { offered := raiseOn_free cueOk_setLink
    port := fun _ _ _ _ h => h
    held := fun _ _ _ h => h
    fault := fun _ _ h => h
    changeover := fun _ _ _ h => h
    progMem := fun _ _ h => h }

theorem cueOk_noteFree : NoteFree CueOk :=
  NoteFree.ofHeld cueOk_sendFree.toOutFree (fun _ _ h => h) (fun _ _ h => h) (fun _ _ h => h) (fun _ _ h => h)

/-! ### Triggers and stops -/

theorem cueOk_triggerCue (c : Change) (s : State) : CueOk (triggerCue c s).1 :=
  cueOk_of_empty (triggerCue_triggered c s).cue

/-- A stop triggers the change that stands, so the slot is empty after it (R129). -/
theorem stopBy_cue (cause : Cause) (o : Option Origin) (s : State) : (stopBy cause o s).cue = none := by
  unfold stopBy raiseTransport cueOnStop
  rw [raise_cue]
  split
  · exact (triggerCue_triggered _ _).cue
  · rename_i hnone
    exact hnone

/-- An audition's trigger leaves the mode and the cue slot alone (R151). -/
theorem cueOk_scene (t : Trigger) (s : State) (hk : t.kind = .scene) (_ : Stays s t) (h : CueOk s) :
    CueOk (takeTrigger t s).1 :=
  takeTrigger_scene cueOk_sendFree (fun _ _ _ h => replaceLive_closed cueOk_noteFree (fun _ _ _ h => h) _ _ h) t hk
    (fun _ _ h => h) (fun _ _ h => h) h

theorem softResetAll_cue (s : State) : (softResetAll s).cue = none := by
  have hshow := Shown.showOf_softReset s
  simp only [showOf, Prod.mk.injEq] at hshow
  obtain ⟨-, -, -, hcue, -⟩ := hshow
  exact hcue

theorem cueOk_allFree : AllFree CueOk :=
  { toNoteFree := cueOk_noteFree
    tempo := fun _ _ h => h
    sameMode := fun _ _ hm hx _ => cueOk_of_running (hx ▸ hm)
    click := fun _ _ h => h
    run := fun _ _ hx _ => cueOk_of_running hx
    enter := fun _ _ hm _ _ => cueOk_of_running hm
    cancel := fun _ _ => cueOk_of_empty rfl
    trigger := fun c s _ _ => cueOk_triggerCue c s
    stop := fun cause o s _ => cueOk_of_empty (stopBy_cue cause o s)
    scene := cueOk_scene
    audition := fun _ _ h => h
    changeover := fun _ _ _ h => h
    soft := fun s _ => cueOk_of_empty (softResetAll_cue s)
    library := fun _ _ _ _ h => h
    insert := fun _ _ _ _ h hm => Option.map_eq_none_iff.mpr (h hm)
    remove := fun _ _ _ _ h hm => Option.map_eq_none_iff.mpr (h hm)
    clear := fun _ _ hc _ => cueOk_of_empty hc
    foots := fun _ _ h => h
    panics := fun _ _ h => h
    now := fun _ _ h => h
    progMem := fun _ _ h => h
    links := cueOk_setLink }

/-! ### Resets and the statement -/

theorem pinResetAll_cue (a b : Bool) (s : State) : (pinResetAll a b s).cue = none := by
  unfold pinResetAll
  rw [mapFoots_eq]
  rfl

theorem cueOk_endInitialisation (s : State) (h : CueOk s) : CueOk (endInitialisation s) := by
  unfold endInitialisation
  split
  · exact h
  · rw [mapPorts_eq, mapFoots_eq]
    exact h

/-- Settles O8: a stop empties the slot, and only a transport that runs lets a change into it. -/
theorem stoppedCueSlotIsEmpty : Obligations.StoppedCueSlotIsEmpty := by
  unfold Obligations.StoppedCueSlotIsEmpty
  intro s t hs hst
  exact step_keeps cueOk_allFree (fun a b s _ => cueOk_of_empty (pinResetAll_cue a b s)) cueOk_endInitialisation
    (fun _ _ h => h) s t hs hst

end Sys2Proof.Proofs.CueSlot
end

section
/-! The transport at rest (R80). The law reads the transport and, for its meter, the current song. Whatever enters STOPPED writes the
record at rest in the meter of the map in use; whatever edits the show leaves the current song alone, since it is IN USE (R101). -/

namespace Sys2Proof.Proofs.Rest

open Sys2Proof.Machine Sys2Proof.Laws

/-! ### What the law reads -/

theorem firstSegment_of_song {s t : State} (h : t.currentSong = s.currentSong) : t.firstSegment = s.firstSegment := by
  unfold State.firstSegment State.mapInUse
  rw [h]

theorem restOk_of (s : State) {t : State} (ht : t.transport = s.transport) (hsong : t.currentSong = s.currentSong) (h : RestOk s) :
    RestOk t := by
  have hseg := firstSegment_of_song hsong
  exact ⟨ht ▸ h.position, ht ▸ h.step, by rw [ht, hseg]; exact h.meter⟩

theorem restOk_of_running {s : State} (h : s.transport.mode ≠ .stopped) : RestOk s :=
  ⟨fun e => absurd e h, fun e => absurd e h, fun e => absurd e h⟩

/-- A record at bar 1 in the meter of the map in use is at rest, whatever its mode. -/
theorem restOk_atStart {s : State} {m : TransportMode} (h : s.transport = .atStart m s.firstSegment) : RestOk s := by
  refine ⟨?_, fun _ => ?_, fun _ => ?_⟩ <;> rw [h]
  · exact atRest_atStart _ _
  · rfl
  · exact ⟨rfl, rfl⟩

theorem restOk_restTransport (s : State) : RestOk (restTransport s) := restOk_atStart (m := .stopped) rfl

theorem restOk_repositionRecord (k : Cont) (s : State) : RestOk { s with transport := repositionRecord k s } := by
  cases k with
  | goOn => exact restOk_atStart (m := .stopped) rfl
  | restart => exact restOk_atStart (m := .running) rfl
  | countIn => exact restOk_of_running (fun e => nomatch e)
  | halt => exact restOk_atStart (m := .stopped) rfl

/-! ### Writes to other fields -/

theorem restOk_setLink (s : State) (l : Link) (x : LinkState) (h : RestOk s) : RestOk (s.setLink l x) := by
  cases l <;> exact restOk_of s rfl rfl h

theorem restOk_sendFree : SendFree RestOk :=
  { offered := raiseOn_free restOk_setLink
    port := fun s _ _ _ h => restOk_of s rfl rfl h
    held := fun s _ _ h => restOk_of s rfl rfl h
    fault := fun s _ h => restOk_of s rfl rfl h
    changeover := fun s _ _ h => restOk_of s rfl rfl h
    progMem := fun s _ h => restOk_of s rfl rfl h }

theorem restOk_noteFree : NoteFree RestOk :=
  NoteFree.ofHeld restOk_sendFree.toOutFree (fun s _ h => restOk_of s rfl rfl h)
    (fun s _ h => restOk_of s rfl rfl h) (fun s _ h => restOk_of s rfl rfl h)
    (fun s _ h => restOk_of s rfl rfl h)

theorem restOk_beatFree : BeatFree RestOk :=
  { offered := restOk_noteFree.offered
    port := restOk_noteFree.port
    tempo := fun s _ h => restOk_of s rfl rfl h
    sameMode := fun _ _ hm hx _ => restOk_of_running (hx ▸ hm)
    click := fun s _ h => restOk_of s rfl rfl h }

theorem restOk_replaceLive (n : SlotNo) (k : Nat) (s : State) (h : RestOk s) : RestOk (replaceLive n k s) :=
  replaceLive_closed restOk_noteFree (fun s _ _ h => restOk_of s rfl rfl h) n k h

theorem restOk_audition (s : State) (x : Option Nat) (h : RestOk s) : RestOk { s with audition := x } :=
  restOk_of s rfl rfl h

/-! ### Triggers, stops and resets -/

/-- Whatever the song's header makes of the transport, a record that is STOPPED is at rest in the new song (R92). -/
theorem restOk_reposition (s : State) : RestOk (reposition s).1 := by
  unfold reposition
  split
  · exact restOk_restTransport s
  · refine raise_closed restOk_noteFree.offered _ ?_
    have hrecord := restOk_repositionRecord (songCont s.currentSong) s
    have hstop : RestOk (stopByteFor (songCont s.currentSong) s.transport.mode
        { s with transport := repositionRecord (songCont s.currentSong) s }) := by
      unfold stopByteFor
      split
      · exact hrecord
      · exact stopByteFrom_closed restOk_noteFree.port _ hrecord
    unfold clearFor
    split
    · exact restOk_beatFree.tempo _ _ hstop
    · exact restOk_beatFree.tempo _ _ hstop
    · exact hstop

theorem restOk_moveSelection (t : Trigger) (s : State) (h : RestOk s) : RestOk (moveSelection t s).1 := by
  unfold moveSelection
  split
  · exact restOk_of s rfl rfl h
  · exact restOk_reposition _

theorem restOk_takeTrigger (t : Trigger) (s : State) (h : RestOk s) : RestOk (takeTrigger t s).1 :=
  takeTrigger_of restOk_sendFree restOk_replaceLive t (fun s _ h => restOk_of s rfl rfl h) (restOk_moveSelection t) h

theorem restOk_triggerCue (c : Change) (s : State) (h : RestOk s) : RestOk (triggerCue c s).1 := by
  have hmoved : RestOk { s with cue := none, departure := some c } := restOk_of s rfl rfl h
  have hraised := raise_closed restOk_noteFree.offered
    (State.cueNotice { s with cue := none, departure := some c } .triggered c none c.displaced) hmoved
  exact restOk_takeTrigger _ _ (restOk_audition _ _ hraised)

theorem restOk_stopBy (cause : Cause) (o : Option Origin) (s : State) : RestOk (stopBy cause o s) := by
  have hcleared : RestOk (clearTempo (stopByteFrom s.transport.mode (restTransport s))) :=
    clearTempo_closed restOk_beatFree (stopByteFrom_closed restOk_noteFree.port _ (restOk_restTransport s))
  refine raise_closed restOk_noteFree.offered _ ?_
  unfold cueOnStop
  split
  · exact restOk_triggerCue _ _ hcleared
  · exact hcleared

theorem restOk_softReset (s : State) : RestOk (softResetAll s) := by
  unfold softResetAll
  refine mapInputs_closed restOk_noteFree.inputs _ (mapPorts_closed restOk_noteFree.port _ (fun _ _ => softReset_ok) ?_)
  exact restOk_of (restTransport (softResetTempo (emptyNoteTable (reloadLive s)))) rfl rfl (restOk_restTransport _)

theorem restOk_reset : RestOk State.reset := restOk_atStart (m := .stopped) rfl

theorem restOk_pinReset (a b : Bool) (s : State) : RestOk (pinResetAll a b s) := by
  unfold pinResetAll
  rw [mapFoots_eq]
  exact restOk_of State.reset rfl rfl restOk_reset

theorem restOk_endInitialisation (s : State) (h : RestOk s) : RestOk (endInitialisation s) := by
  unfold endInitialisation
  split
  · exact h
  · rw [mapPorts_eq, mapFoots_eq]
    exact restOk_of s rfl rfl h

/-! ### Edits of the show -/

theorem currentSong_of_slot {s : State} {p : Nat} {n : SlotNo} (hp : s.curPos = some p) (hn : s.setlist[p]? = some n) :
    s.currentSong = (s.slot n).song? := by
  simp [State.currentSong, State.currentSlot, hp, hn]

theorem currentSong_of_none {s : State} (h : s.curPos = none) : s.currentSong = none := by
  simp [State.currentSong, State.currentSlot, h]

/-- The slot of the current song is READY and IN USE, so no request edits it (R101). -/
theorem currentSong_setSlot {s : State} {n : SlotNo} {x : Slot} (hx : SlotEdit s n x) (h : ShowOk s) :
    (s.setSlot n x).currentSong = s.currentSong := by
  rcases Option.eq_none_or_eq_some s.curPos with hp | ⟨p, hp⟩
  · rw [currentSong_of_none hp, currentSong_of_none (s := s.setSlot n x) hp]
  · obtain ⟨m, hm, g, hg⟩ := h.current p hp
    have hne : m ≠ n := by
      rintro rfl
      have hfree := hx.idle g hg
      rw [Shown.inUse_of_current hp hm] at hfree
      cases hfree
    rw [currentSong_of_slot hp hm, currentSong_of_slot (s := s.setSlot n x) hp hm, slot_setSlot_ne _ _ _ _ hne]

/-- An edit of the setlist that keeps the current position on its entry keeps the current song. -/
theorem currentSong_mapPositions {s : State} {f : Nat → Nat} {xs : List SlotNo} (h : ShowOk s)
    (hxs : ∀ p m, s.curPos = some p → s.setlist[p]? = some m → xs[f p]? = some m) :
    (mapPositions f { s with setlist := xs }).currentSong = s.currentSong := by
  rcases Option.eq_none_or_eq_some s.curPos with hp | ⟨p, hp⟩
  · rw [currentSong_of_none hp, currentSong_of_none (Option.map_eq_none_iff.mpr hp)]
  · obtain ⟨m, hm, -⟩ := h.current p hp
    rw [currentSong_of_slot hp hm, currentSong_of_slot (p := f p) (n := m) (congrArg (Option.map f) hp) (hxs p m hp hm)]
    rfl

/-! ### Both laws together -/

/-- The two laws that are kept together: the second needs the current song to be READY. -/
abbrev RestAndShow (s : State) : Prop := ShowOk s ∧ RestOk s

theorem restAndShow_allFree : AllFree RestAndShow := by
  have hs := Shown.showOk_allFree
  have hout : OutFree RestAndShow :=
    { offered := fun l n s h => ⟨hs.offered l n s h.1, restOk_noteFree.offered l n s h.2⟩
      port := fun s p x hx h => ⟨hs.port s p x hx h.1, restOk_noteFree.port s p x hx h.2⟩
      held := fun s x hx h => ⟨hs.held s x hx h.1, restOk_noteFree.held s x hx h.2⟩
      fault := fun s x h => ⟨hs.fault s x h.1, restOk_noteFree.fault s x h.2⟩ }
  exact
    { toOutFree := hout
      create := fun s src n ts h => ⟨hs.create s src n ts h.1, restOk_noteFree.create s src n ts h.2⟩
      pedals := fun s x h => ⟨hs.pedals s x h.1, restOk_noteFree.pedals s x h.2⟩
      steals := fun s x h => ⟨hs.steals s x h.1, restOk_noteFree.steals s x h.2⟩
      inputs := fun s x h => ⟨hs.inputs s x h.1, restOk_noteFree.inputs s x h.2⟩
      tempo := fun s x h => ⟨hs.tempo s x h.1, restOk_beatFree.tempo s x h.2⟩
      sameMode := fun s x hm hx h => ⟨hs.sameMode s x hm hx h.1, restOk_beatFree.sameMode s x hm hx h.2⟩
      click := fun s x h => ⟨hs.click s x h.1, restOk_beatFree.click s x h.2⟩
      run := fun s x hx h => ⟨hs.run s x hx h.1, restOk_of_running hx⟩
      enter := fun s c hm hc h => ⟨hs.enter s c hm hc h.1, restOk_of_running hm⟩
      cancel := fun s h => ⟨hs.cancel s h.1, restOk_of s rfl rfl h.2⟩
      trigger := fun c s hc h => ⟨hs.trigger c s hc h.1, restOk_triggerCue c s h.2⟩
      stop := fun cause o s h => ⟨hs.stop cause o s h.1, restOk_stopBy cause o s⟩
      scene := fun t s hk hstay h => ⟨hs.scene t s hk hstay h.1, restOk_takeTrigger t s h.2⟩
      audition := fun s x h => ⟨hs.audition s x h.1, restOk_of s rfl rfl h.2⟩
      changeover := fun s x hx h => ⟨hs.changeover s x hx h.1, restOk_sendFree.changeover s x hx h.2⟩
      soft := fun s h => ⟨hs.soft s h.1, restOk_softReset s⟩
      library := fun s n x hx h => ⟨hs.library s n x hx h.1, restOk_of s rfl (currentSong_setSlot hx h.1) h.2⟩
      insert := fun s p n hp h => ⟨hs.insert s p n hp h.1, restOk_of s rfl
        (currentSong_mapPositions h.1 (fun _ _ _ hm => getElem?_insert hp hm)) h.2⟩
      remove := fun s p hp hfree h => ⟨hs.remove s p hp hfree h.1, restOk_of s rfl (currentSong_mapPositions h.1
        (fun _ _ hq hm => getElem?_remove hp (fun e => (Shown.free_position hfree).1 (e ▸ hq)) hm)) h.2⟩
      clear := fun s hp hc h => ⟨hs.clear s hp hc h.1, restOk_of s rfl
        ((currentSong_of_none (s := { s with setlist := [] }) hp).trans (currentSong_of_none hp).symm) h.2⟩
      foots := fun s x h => ⟨hs.foots s x h.1, restOk_of s rfl rfl h.2⟩
      panics := fun s x h => ⟨hs.panics s x h.1, restOk_of s rfl rfl h.2⟩
      now := fun s x h => ⟨hs.now s x h.1, restOk_of s rfl rfl h.2⟩
      progMem := fun s x h => ⟨hs.progMem s x h.1, restOk_sendFree.progMem s x h.2⟩
      links := fun s l x h => ⟨hs.links s l x h.1, restOk_setLink s l x h.2⟩ }

/-- Settles O7: what stops the transport writes the record at rest, and what edits the show spares the current song. -/
theorem stoppedStaysAtBarOne : Obligations.StoppedStaysAtBarOne := by
  unfold Obligations.StoppedStaysAtBarOne
  intro s t hshow hrest hst
  have hkept := step_keeps restAndShow_allFree
    (fun a b s _ => ⟨Shown.showOk_pinReset a b s, restOk_pinReset a b s⟩)
    (fun s h => ⟨Shown.showOk_endInitialisation s h.1, restOk_endInitialisation s h.2⟩)
    (fun s _ h => ⟨showOk_of (s := s) rfl h.1, restOk_of s rfl rfl h.2⟩) s t ⟨hshow, hrest⟩ hst
  exact hkept.2

end Sys2Proof.Proofs.Rest
end

section
/-! What a command does between the end of the instant before it and the choices of the transmitters after it. Every command has
this one shape, so a law of the whole machine is three facts: about the end of an instant, the effects and the end of a command. -/

namespace Sys2Proof.Proofs.Effects

open Sys2Proof.Machine Sys2Proof.Laws

/-! ### One shape for every command -/

/-- The frame whose arrival a command is: a request's, one of an unknown kind, or one that fails CHECK (R182). -/
def arrival : Instr → Option (Link × Frame)
  | .unknownKind l kind tag fields => some (l, mkFrame kind tag fields)
  | .badFrame l kind tag fields check => some (l, { len := lenByte fields, kind, tag, fields, check })
  | c => (requestOf c).map (fun x => (x.1, mkFrame x.2.1.code x.2.2.1 x.2.2.2))

/-- What a command does, the transmitters' choices at its end apart. -/
def effect (c : Instr) (s : State) : State :=
  match c with
  | .pinReset a b => pinResetAll a b s
  | .initialisationEnd => endInitialisation s
  | .linkByteReceived l b ok => linkByte l b ok s
  | .linkInterByteTimeout l => interByteTimeout l s
  | .linkTransmitEnd l => transmitEnd l s
  | .inputByteReceived i b ok => inputByte i b ok s
  | .inputWatchExpiry i => watchExpiry i s
  | .footswitchLineChange n v => lineChange n v s
  | .footswitchDebounceExpiry n => debounceExpiry n s
  | .gridStepEnd => stepEnds s
  | .clickGateExpiry p ch n => gateExpiry p ch n s
  | .outputItemEnd p => itemEnd p s
  | .settleTimerExpiry p => settleExpiry p s
  | .keepAliveExpiry p => keepAliveExpiry p s
  | .controllerIntervalExpiry p => intervalExpiry p s
  | c => (arrival c).elim s (fun x => frameComplete x.1 x.2 s)

/-- A command is its effect, after the instant before it has ended, and then the choices of the transmitters. -/
theorem exec_eq (c : Instr) (s : State) : exec c s = .next (finish (effect c (s.upTo (dueOf c s)))) := by
  cases c <;> rfl

/-- What arrives as a frame has no instant of its own, and its effect is that the frame is complete. -/
theorem exec_of_arrival {c : Instr} {l : Link} {f : Frame} (h : arrival c = some (l, f)) (s : State) :
    exec c s = .next (finish (frameComplete l f s)) := by
  rw [exec_eq]
  cases c <;> simp only [arrival, requestOf, Option.map_none, Option.map_some, Option.some.injEq, Prod.mk.injEq,
    reduceCtorEq] at h <;> obtain ⟨rfl, rfl⟩ := h <;> rfl

/-- A command that is due at an instant, found as the rules let it be found. -/
theorem exec_of_at {c : Instr} {s : State} {d : Nat} (hd : dueOf c s = some d) (h : At d s) :
    exec c s = .next (finish (effect c s)) := by
  rw [exec_eq, hd, upTo_at s h]

/-- A command that has no instant of its own. -/
theorem exec_of_undue {c : Instr} {s : State} (hd : dueOf c s = none) : exec c s = .next (finish (effect c s)) := by
  rw [exec_eq, hd]
  rfl

/-- Two states a step away from one queue: an instant that ends, or the front command's outcome. -/
theorem step_cases {s t : State} (h : step s = .next t) :
    (s.pending = [] ∧ t = { endInstant s with now := s.now + 1 }) ∨
    ∃ c rest, s.pending = c :: rest ∧
      t = finish (effect c (State.upTo (dueOf c { s with pending := rest }) { s with pending := rest })) := by
  unfold step at h
  split at h
  · rename_i hempty
    exact .inl ⟨hempty, (outcome_inj h).symm⟩
  · rename_i c rest hfront
    rw [exec_eq] at h
    exact .inr ⟨c, rest, hfront, (outcome_inj h).symm⟩

/-! ### The queue of waiting commands -/

/-- A property of the queue alone. -/
theorem pending_blockFree (x : List Instr) : BlockFree (fun s => s.pending = x) :=
  { links := fun s l y h => by cases l <;> exact h
    port := fun _ _ _ _ h => h
    held := fun _ _ h => h
    fault := fun _ _ h => h
    pedals := fun _ _ h => h
    steals := fun _ _ h => h
    inputs := fun _ _ h => h
    tempo := fun _ _ h => h
    transport := fun _ _ _ h => h
    click := fun _ _ h => h
    live := fun _ _ _ h => h
    selection := fun _ _ _ h => h
    changeover := fun _ _ h => h
    progMem := fun _ _ h => h
    audition := fun _ _ h => h
    cue := fun _ _ _ h => h
    library := fun _ _ _ _ h => h
    setlist := fun _ _ h => h
    foots := fun _ _ h => h
    panics := fun _ _ h => h
    now := fun _ _ h => h }

theorem pinResetAll_pending (a b : Bool) (s : State) : (pinResetAll a b s).pending = s.pending := by
  unfold pinResetAll
  rw [mapFoots_eq]

theorem endInitialisation_pending (s : State) : (endInitialisation s).pending = s.pending := by
  unfold endInitialisation
  split
  · rfl
  · rw [mapPorts_eq, mapFoots_eq]
    rfl

/-- Settles O2: every command has the one shape, and no unit writes to the queue. -/
theorem everyCommandCompletes : Obligations.EveryCommandCompletes := by
  unfold Obligations.EveryCommandCompletes
  intro c s
  exact exec_keeps (P := fun u => u.pending = s.pending) (pending_blockFree _).all
    (fun a b u h => (pinResetAll_pending a b u).trans h) (fun u h => (endInitialisation_pending u).trans h) c s rfl

/-- Settles O1: the two branches of `step`, and the end of an instant with no entry waiting. -/
theorem stepTakesFrontCommand : Obligations.StepTakesFrontCommand := by
  unfold Obligations.StepTakesFrontCommand
  refine ⟨fun c rest s h => ?_, fun s h => ?_⟩
  · unfold step
    rw [h]
  · have htick : step s = .next { endInstant s with now := s.now + 1 } := by
      unfold step
      rw [h]
      rfl
    refine ⟨htick, fun hplaces => ?_⟩
    rw [htick, endInstant_quiet s hplaces]

/-! ### Players and the show -/

/-- A property of the library and the setlist alone. -/
theorem show_cueFree (s : State) : CueFree (SameShow s) :=
  WriteFree.cueFree
    { links := fun u l y h => by cases l <;> exact h
      port := fun _ _ _ _ h => h
      held := fun _ _ h => h
      fault := fun _ _ h => h
      pedals := fun _ _ h => h
      steals := fun _ _ h => h
      inputs := fun _ _ h => h
      tempo := fun _ _ h => h
      transport := fun _ _ _ h => h
      click := fun _ _ h => h
      live := fun _ _ _ h => h
      selection := fun _ _ _ h => h
      changeover := fun _ _ h => h
      progMem := fun _ _ h => h
      audition := fun _ _ h => h
      cue := fun _ _ _ h => h }

theorem sameShow_startIdle (s u : State) (l : Link) (h : SameShow s u) : SameShow s (startIdle l u) := by
  unfold startIdle
  cases l <;> exact h

theorem sameShow_finish (s u : State) (h : SameShow s u) : SameShow s (finish u) := by
  have hk : SameShow s (kickPorts u) := kickPorts_closed (show_cueFree s).port (show_cueFree s).click h
  exact sameShow_startIdle s _ _ (sameShow_startIdle s _ _ hk)

theorem sameShow_endInstant (s : State) : SameShow s (endInstant s) := by
  unfold endInstant
  split
  · exact sameShow_startIdle s _ _ (sameShow_startIdle s _ _ (foldl_closed (P := SameShow s)
      (f := fun u p => meetFulls p u) (fun _ p h => meetFulls_closed (show_cueFree s).toOutFree p h) allPorts s ⟨rfl, rfl⟩))
  · exact ⟨rfl, rfl⟩

theorem sameShow_upTo (s : State) (due : Option Nat) : SameShow s (s.upTo due) := by
  unfold State.upTo
  split
  · exact ⟨rfl, rfl⟩
  · split
    · exact sameShow_endInstant s
    · exact ⟨rfl, rfl⟩

theorem sameShow_endInitialisation (s u : State) (h : SameShow s u) : SameShow s (endInitialisation u) := by
  unfold endInitialisation
  split
  · exact h
  · rw [mapPorts_eq, mapFoots_eq]
    exact h

/-- Settles O13: none of these events reaches the song library or the setlist. -/
theorem playersLeaveTheShow : Obligations.PlayersLeaveTheShow := by
  unfold Obligations.PlayersLeaveTheShow
  intro s t c hc hexec
  rw [exec_eq] at hexec
  obtain rfl := outcome_inj hexec
  have hup := sameShow_upTo s (dueOf c s)
  have hk := show_cueFree s
  have hnow : ∀ (u : State) (x : Nat), SameShow s u → SameShow s { u with now := x } := fun _ _ h => h
  have hfoots : ∀ (u : State) (x : Vector FootState 4), SameShow s u → SameShow s { u with foots := x } := fun _ _ h => h
  have hpanics : ∀ (u : State) (x : Nat), SameShow s u → SameShow s { u with panicCount := x } := fun _ _ h => h
  refine sameShow_finish s _ ?_
  rcases hc with rfl | rfl | ⟨i, b, k, rfl⟩ | ⟨i, rfl⟩ | ⟨n, v, rfl⟩ | ⟨n, rfl⟩ | ⟨p, ch, n, rfl⟩ | ⟨p, rfl⟩ | ⟨p, rfl⟩ |
    ⟨p, rfl⟩ | ⟨p, rfl⟩
  · exact stepEnds_closed hk hnow hup
  · exact sameShow_endInitialisation s _ hup
  · exact inputByte_closed hk i b k hup
  · exact watchExpiry_closed hk.toNoteFree hnow i hup
  · exact lineChange_closed hfoots n v hup
  · exact debounceExpiry_closed hk hpanics hnow hfoots n hup
  · exact gateExpiry_closed hk.beat hnow p ch n hup
  · exact itemEnd_closed hk.record hk.port hnow p hup
  · exact settleExpiry_closed hk.record hk.port hnow p hup
  · exact keepAliveExpiry_closed hk.port hnow p hup
  · exact intervalExpiry_closed hnow p hup

end Sys2Proof.Proofs.Effects
end

section
/-! The links (chapter 10). What a link's receiver, buffer, reply queue and transmitter hold is moved by the link unit alone; the
owners of requests and the other units move only its notices, its mask and its counters. So an owner's work is a frame for the first
part and keeps the law of the second. -/

namespace Sys2Proof.Proofs.Links

open Sys2Proof.Machine Sys2Proof.Laws Sys2Proof.Proofs.Effects

/-! ### The law of the notices (R186, R187) -/

/-- The notice queue of a link is as R186 and R187 keep it. -/
structure NoticesOk (k : LinkState) : Prop where
  kinds : (k.notices.map (fun e => e.notice.kind)).Nodup
  admitted : ∀ e ∈ k.notices, k.mask.getLsbD e.notice.kind.bit = true
  repeats : ∀ e ∈ k.notices, e.repeats ≤ Config.smallCountMax

theorem LinkOk.notices {k : LinkState} (h : LinkOk k) : NoticesOk k := ⟨h.kinds, h.admitted, h.repeats⟩

theorem noticesOk_of {k x : LinkState} (h : NoticesOk k) (hn : x.notices = k.notices) (hm : x.mask = k.mask) : NoticesOk x :=
  ⟨hn ▸ h.kinds, hn ▸ hm ▸ h.admitted, hn ▸ h.repeats⟩

theorem noticesOk_sublist {k : LinkState} {xs : List NoticeEntry} (hx : xs.Sublist k.notices) (h : NoticesOk k) :
    NoticesOk { k with notices := xs } :=
  ⟨h.kinds.sublist (hx.map _), fun e he => h.admitted e (hx.subset he), fun e he => h.repeats e (hx.subset he)⟩

theorem noticesOk_masked {k : LinkState} (m : BitVec 13) (h : NoticesOk k) :
    NoticesOk { k with mask := m, notices := k.notices.filter (fun e => m.getLsbD e.notice.kind.bit) } :=
  ⟨h.kinds.sublist (List.filter_sublist.map _), fun _ he => (List.mem_filter.mp he).2,
    fun e he => h.repeats e (List.mem_filter.mp he).1⟩

/-- R186: an entry of the notice's kind, with the count raised. -/
theorem noticesOk_coalesced {k : LinkState} (n : Notice) (h : NoticesOk k) :
    NoticesOk { k with notices := k.notices.map (fun e =>
      if e.notice.kind = n.kind then { notice := n, repeats := bumpSmall e.repeats } else e) } := by
  have hkind : ∀ e : NoticeEntry, (if e.notice.kind = n.kind then
      { notice := n, repeats := bumpSmall e.repeats } else e : NoticeEntry).notice.kind = e.notice.kind := by
    intro e
    split
    · rename_i hk
      exact hk.symm
    · rfl
  refine ⟨?_, fun e he => ?_, fun e he => ?_⟩
  · rw [List.map_map]
    exact (List.map_congr_left (fun e _ => hkind e)) ▸ h.kinds
  · obtain ⟨x, hx, rfl⟩ := List.mem_map.mp he
    rw [hkind]
    exact h.admitted x hx
  · obtain ⟨x, hx, rfl⟩ := List.mem_map.mp he
    split
    · exact Nat.min_le_right _ _
    · exact h.repeats x hx

theorem noticesOk_offer {k : LinkState} (n : Notice) (h : NoticesOk k) : NoticesOk (k.offer n) := by
  unfold LinkState.offer
  split
  · rename_i hmask
    split
    · exact noticesOk_coalesced n h
    · rename_i hnew
      have habsent : ∀ e ∈ k.notices, e.notice.kind ≠ n.kind := by simpa using hnew
      refine ⟨?_, fun e he => ?_, fun e he => ?_⟩
      · rw [List.map_append, List.nodup_append]
        refine ⟨h.kinds, List.nodup_singleton _, fun a ha b hb => ?_⟩
        obtain ⟨x, hx, rfl⟩ := List.mem_map.mp ha
        obtain rfl := List.mem_singleton.mp hb
        exact habsent x hx
      · rcases List.mem_append.mp he with he | he
        · exact h.admitted e he
        · obtain rfl := List.mem_singleton.mp he
          exact hmask
      · rcases List.mem_append.mp he with he | he
        · exact h.repeats e he
        · obtain rfl := List.mem_singleton.mp he
          exact Nat.zero_le _
  · exact h

/-! ### The frame of an owner's work -/

/-- What the link unit alone moves: receiver, timer, buffer, replies and transmitter. -/
def wired (k : LinkState) := (k.rx, k.interByteDue, k.buffer, k.replies, k.tx)

/-- The links stand as they did in `s`, notices, masks and counters apart, and their notices are as the rules keep them. -/
def Framed (s u : State) : Prop := ∀ l, wired (u.link l) = wired (s.link l) ∧ NoticesOk (u.link l)

theorem framed_of_links {s u v : State} (h : ∀ l, v.link l = u.link l) (hu : Framed s u) : Framed s v :=
  fun l => (h l).symm ▸ hu l

theorem framed_setLink {s u : State} {l : Link} {x : LinkState} (hw : wired x = wired (u.link l)) (hx : NoticesOk x)
    (h : Framed s u) : Framed s (u.setLink l x) := by
  intro m
  by_cases e : m = l
  · subst e
    rw [link_setLink]
    exact ⟨hw.trans (h m).1, hx⟩
  · rw [link_setLink_ne _ _ _ _ e]
    exact h m

theorem framed_raiseOn (s : State) (l : Link) (n : Notice) (u : State) (h : Framed s u) : Framed s (raiseOn l n u) := by
  unfold raiseOn
  split
  · exact h
  · refine framed_setLink ?_ (noticesOk_offer n (h l).2) h
    rw [offer_notices]
    rfl

theorem framed_trigger (s : State) : TriggerFree (Framed s) :=
  { toNoteFree := NoteFree.ofHeld
      { offered := framed_raiseOn s
        port := fun u _ _ _ h => framed_of_links (u := u) (fun l => by cases l <;> rfl) h
        held := fun u _ _ h => framed_of_links (u := u) (fun l => by cases l <;> rfl) h
        fault := fun u _ h => framed_of_links (u := u) (fun l => by cases l <;> rfl) h }
      (fun u _ h => framed_of_links (u := u) (fun l => by cases l <;> rfl) h)
      (fun u _ h => framed_of_links (u := u) (fun l => by cases l <;> rfl) h)
      (fun u _ h => framed_of_links (u := u) (fun l => by cases l <;> rfl) h)
      (fun u _ h => framed_of_links (u := u) (fun l => by cases l <;> rfl) h)
    tempo := fun u _ h => framed_of_links (u := u) (fun l => by cases l <;> rfl) h
    transport := fun u _ _ h => framed_of_links (u := u) (fun l => by cases l <;> rfl) h
    click := fun u _ h => framed_of_links (u := u) (fun l => by cases l <;> rfl) h
    live := fun u _ _ h => framed_of_links (u := u) (fun l => by cases l <;> rfl) h
    selection := fun u _ _ h => framed_of_links (u := u) (fun l => by cases l <;> rfl) h
    changeover := fun u _ h => framed_of_links (u := u) (fun l => by cases l <;> rfl) h
    progMem := fun u _ h => framed_of_links (u := u) (fun l => by cases l <;> rfl) h
    audition := fun u _ h => framed_of_links (u := u) (fun l => by cases l <;> rfl) h }

theorem framed_cleared (s u : State) (h : Framed s u) : Framed s (clearGroup .global u) := by
  intro l
  have hl := h l
  cases l <;> exact ⟨hl.1, hl.2.kinds, hl.2.admitted, hl.2.repeats⟩

theorem framed_owner (s : State) : OwnerFree (Framed s) :=
  { toCueFree := CueFree.ofTrigger (framed_trigger s)
      (fun u _ _ h => framed_of_links (u := u) (fun l => by cases l <;> rfl) h)
    library := fun u _ _ _ h => framed_of_links (u := u) (fun l => by cases l <;> rfl) h
    insert := fun u _ _ _ h => framed_of_links (u := u) (fun l => by cases l <;> rfl) h
    remove := fun u _ _ _ h => framed_of_links (u := u) (fun l => by cases l <;> rfl) h
    clear := fun u _ _ h => framed_of_links (u := u) (fun l => by cases l <;> rfl) h
    foots := fun u _ h => framed_of_links (u := u) (fun l => by cases l <;> rfl) h
    panics := fun u _ h => framed_of_links (u := u) (fun l => by cases l <;> rfl) h
    masked := fun _ l m h => framed_setLink rfl (noticesOk_masked m (h l).2) h
    cleared := framed_cleared s }

theorem framed_now (s : State) (u : State) (x : Nat) (h : Framed s u) : Framed s { u with now := x } :=
  framed_of_links (u := u) (fun l => by cases l <;> rfl) h


/-! ### A link before the choice of its transmitter -/

/-- A link between the effect of a command and the choice of its transmitter: an IDLE transmitter may have found work. -/
structure LinkMid (k : LinkState) : Prop where
  buffer : k.buffer.length ≤ Config.bufferMax
  replies : k.replies.length ≤ Config.bufferMax
  waiting : k.buffer ≠ [] → k.replies.length = Config.bufferMax
  drained : k.tx = none → k.buffer = []
  timer : k.rx = .hunt ↔ k.interByteDue = none

/-- Both links before the choices of their transmitters. -/
def LinksMid (s : State) : Prop := ∀ l, LinkMid (s.link l) ∧ NoticesOk (s.link l)

theorem LinkOk.mid {k : LinkState} (h : LinkOk k) : LinkMid k :=
  ⟨h.buffer, h.replies, h.waiting, fun ht => Classical.byContradiction fun hb => by
    have hfull := h.waiting hb
    rw [(h.idle ht).1] at hfull
    exact absurd hfull (by decide), h.timer⟩

theorem LinksOk.mid {s : State} (h : LinksOk s) : LinksMid s := fun l => ⟨LinkOk.mid (h l), LinkOk.notices (h l)⟩

theorem LinkMid.of_wired {k x : LinkState} (hw : wired x = wired k) (h : LinkMid k) : LinkMid x := by
  simp only [wired, Prod.mk.injEq] at hw
  obtain ⟨hrx, hdue, hbuffer, hreplies, htx⟩ := hw
  exact ⟨hbuffer ▸ h.buffer, hreplies ▸ h.replies, hbuffer ▸ hreplies ▸ h.waiting, htx ▸ hbuffer ▸ h.drained,
    hrx ▸ hdue ▸ h.timer⟩

theorem LinksMid.framed {s : State} (h : LinksMid s) : Framed s s := fun l => ⟨rfl, (h l).2⟩

/-- A frame of links that stand as the rules keep them stands so too. -/
theorem Framed.mid {s u : State} (hs : ∀ l, LinkMid (s.link l)) (h : Framed s u) : LinksMid u :=
  fun l => ⟨(hs l).of_wired (h l).1, (h l).2⟩

theorem linksMid_setLink {s : State} {l : Link} {x : LinkState} (hx : LinkMid x) (hn : NoticesOk x) (h : LinksMid s) :
    LinksMid (s.setLink l x) := by
  intro m
  by_cases e : m = l
  · subst e
    rw [link_setLink]
    exact ⟨hx, hn⟩
  · rw [link_setLink_ne _ _ _ _ e]
    exact h m

theorem linksMid_now {s : State} (x : Nat) (h : LinksMid s) : LinksMid { s with now := x } := fun l => by
  cases l
  · exact h .a
  · exact h .b

/-! ### The choice of a transmitter (R184) -/

theorem noticesOk_tail {k : LinkState} {e : NoticeEntry} {es : List NoticeEntry} (he : k.notices = e :: es) (h : NoticesOk k) :
    NoticesOk { k with notices := es } :=
  noticesOk_sublist (he ▸ List.sublist_cons_self e es) h

theorem choose_busy {k : LinkState} {w : LinkWire} (now : Nat) (htx : k.tx = some w) : k.choose now = (k, false) := by
  unfold LinkState.choose
  rw [htx]
  rfl

theorem choose_reply {k : LinkState} {r : Reply} {rs : List Reply} (now : Nat) (htx : k.tx = none) (hr : k.replies = r :: rs) :
    k.choose now = ({ k with replies := rs, tx := some (wireOf r.frame now) }, true) := by
  unfold LinkState.choose
  rw [htx, if_neg nofun, hr]

theorem choose_notice {k : LinkState} {e : NoticeEntry} {es : List NoticeEntry} (now : Nat) (htx : k.tx = none)
    (hr : k.replies = []) (he : k.notices = e :: es) :
    k.choose now = ({ k with notices := es, tx := some (wireOf e.frame now) }, false) := by
  unfold LinkState.choose
  rw [htx, if_neg nofun, hr, he]

theorem choose_idle {k : LinkState} (now : Nat) (htx : k.tx = none) (hr : k.replies = []) (he : k.notices = []) :
    k.choose now = (k, false) := by
  unfold LinkState.choose
  rw [htx, if_neg nofun, hr, he]

/-- After its choice a link is as the rules keep it: it is IDLE only with nothing to send. -/
theorem linkOk_choose {k : LinkState} (now : Nat) (h : LinkMid k) (hn : NoticesOk k) : LinkOk (k.choose now).1 := by
  cases htx : k.tx with
  | some w =>
    rw [choose_busy now htx]
    exact ⟨h.buffer, h.replies, h.waiting, fun e => absurd (htx.symm.trans e) nofun, hn.kinds, hn.admitted, hn.repeats, h.timer⟩
  | none =>
    have hempty : k.buffer = [] := h.drained htx
    cases hr : k.replies with
    | cons r rs =>
      rw [choose_reply now htx hr]
      have hlen := h.replies
      rw [hr, List.length_cons] at hlen
      exact ⟨h.buffer, Nat.le_of_succ_le hlen, fun hb => absurd hempty hb, nofun, hn.kinds, hn.admitted, hn.repeats, h.timer⟩
    | nil =>
      cases he : k.notices with
      | cons e es =>
        rw [choose_notice now htx hr he]
        have ht := noticesOk_tail he hn
        exact ⟨h.buffer, h.replies, fun hb => absurd hempty hb, nofun, ht.kinds, ht.admitted, ht.repeats, h.timer⟩
      | nil =>
        rw [choose_idle now htx hr he]
        exact ⟨h.buffer, h.replies, h.waiting, fun _ => ⟨hr, he⟩, hn.kinds, hn.admitted, hn.repeats, h.timer⟩

theorem startIdle_link (l m : Link) (s : State) :
    (startIdle l s).link m = if m = l then ((s.link l).choose s.now).1 else s.link m := by
  unfold startIdle
  split
  · rename_i e
    subst e
    exact link_setLink _ _ _
  · rename_i e
    exact link_setLink_ne _ _ _ _ e

/-- Both transmitters have chosen. -/
theorem linksOk_started {s : State} (h : LinksMid s) : LinksOk (startIdle .b (startIdle .a s)) := by
  intro l
  have hnow : (startIdle .a s).now = s.now := rfl
  cases l
  · rw [startIdle_link, if_neg nofun, startIdle_link, if_pos rfl]
    exact linkOk_choose _ (h .a).1 (h .a).2
  · rw [startIdle_link, if_pos rfl, startIdle_link, if_neg nofun]
    exact linkOk_choose _ (h .b).1 (h .b).2

theorem framed_kickPorts {s u : State} (h : Framed s u) : Framed s (kickPorts u) :=
  kickPorts_closed (framed_owner s).port (framed_owner s).click h

theorem linksOk_finish {s : State} (h : LinksMid s) : LinksOk (finish s) :=
  linksOk_started (Framed.mid (fun l => (h l).1) (framed_kickPorts (LinksMid.framed h)))

theorem linksOk_endInstant {s : State} (h : LinksOk s) : LinksOk (endInstant s) := by
  unfold endInstant
  split
  · refine linksOk_started (Framed.mid (fun l => LinkOk.mid (h l)) ?_)
    exact foldl_closed (P := Framed s) (f := fun u p => meetFulls p u)
      (fun _ p hu => meetFulls_closed (framed_owner s).toOutFree p hu) allPorts s (LinksMid.framed (LinksOk.mid h))
  · exact h

theorem linksOk_upTo {s : State} (due : Option Nat) (h : LinksOk s) : LinksOk (s.upTo due) := by
  unfold State.upTo
  split
  · exact h
  · split
    · exact linksOk_endInstant h
    · exact h

/-! ### A frame is taken (R182) -/

/-- The taking of a frame answers with one reply and moves nothing else of what is wired. -/
theorem framed_takeFrame (l : Link) (f : Frame) {s : State} (h : Framed s s) :
    ∃ r, Framed (s.setLink l { s.link l with replies := (s.link l).replies ++ [r] }) (takeFrame l f s) := by
  have htaken : Framed s (countTaken l s) := framed_setLink rfl (noticesOk_of (h l).2 rfl rfl) h
  have hpush : ∀ (r : Reply) (u : State), Framed s u →
      Framed (s.setLink l { s.link l with replies := (s.link l).replies ++ [r] }) (pushReply l r u) := by
    intro r u hu m
    unfold pushReply
    by_cases e : m = l
    · subst e
      rw [link_setLink, link_setLink]
      have hm := (hu m).1
      simp only [wired, Prod.mk.injEq] at hm ⊢
      obtain ⟨hrx, hdue, hbuffer, hreplies, htx⟩ := hm
      exact ⟨⟨hrx, hdue, hbuffer, congrArg (· ++ [r]) hreplies, htx⟩, noticesOk_of (hu m).2 rfl rfl⟩
    · rw [link_setLink_ne _ _ _ _ e, link_setLink_ne _ _ _ _ e]
      exact hu m
  unfold takeFrame
  dsimp only
  split
  · split
    · exact ⟨_, hpush _ _ htaken⟩
    · exact ⟨_, hpush _ _ (answerFrame_closed (framed_owner s) l f htaken)⟩
  · refine ⟨_, hpush _ _ ?_⟩
    exact takeFault_closed (framed_owner s).toOutFree _ _ (framed_setLink rfl (noticesOk_of (htaken l).2 rfl rfl) htaken)

theorem linksMid_takeFrame {l : Link} (f : Frame) {s : State} (hn : ∀ m, NoticesOk (s.link m)) (hother : ∀ m ≠ l, LinkMid (s.link m))
    (hl : ∀ r, LinkMid { s.link l with replies := (s.link l).replies ++ [r] }) : LinksMid (takeFrame l f s) := by
  obtain ⟨r, hr⟩ := framed_takeFrame l f (fun m => ⟨rfl, hn m⟩)
  refine Framed.mid (fun m => ?_) hr
  by_cases e : m = l
  · subst e
    rw [link_setLink]
    exact hl r
  · rw [link_setLink_ne _ _ _ _ e]
    exact hother m e

theorem linksMid_frameComplete {l : Link} (f : Frame) {s : State} (h : LinksMid s) (hdrained : (s.link l).tx = none → (s.link l).replies = []) :
    LinksMid (frameComplete l f s) := by
  unfold frameComplete
  split
  · rename_i hfree
    have hm := (h l).1
    refine linksMid_takeFrame f (fun m => (h m).2) (fun m _ => (h m).1) (fun r => ?_)
    exact ⟨hm.buffer, by rw [List.length_append]; exact hfree.2, fun hb => absurd hfree.1 hb, hm.drained, hm.timer⟩
  · rename_i hheld
    have hm := (h l).1
    have hfull : (s.link l).replies.length = Config.bufferMax := by
      by_cases hb : (s.link l).buffer = []
      · exact Nat.le_antisymm hm.replies (Nat.le_of_not_lt (fun hlt => hheld ⟨hb, hlt⟩))
      · exact hm.waiting hb
    split
    · rename_i hroom
      refine linksMid_setLink ⟨?_, hm.replies, fun _ => hfull, fun htx => ?_, hm.timer⟩ (noticesOk_of (h l).2 rfl rfl) h
      · rw [List.length_append]
        exact hroom
      · rw [hdrained htx] at hfull
        exact absurd hfull (by decide)
    · refine Framed.mid (fun m => (h m).1) ?_
      exact takeFault_closed (framed_owner s).toOutFree _ _
        (framed_setLink rfl (noticesOk_of (h l).2 rfl rfl) (LinksMid.framed h))

/-! ### The receiver and the transmitter -/

/-- Links as they are kept, with the receiver of one of them moved. -/
theorem linksOk_rx {l : Link} {s : State} (h : LinksOk s) (x : RxState) (due : Option Nat) (ht : x = .hunt ↔ due = none) :
    LinksOk (s.setLink l { s.link l with rx := x, interByteDue := due }) := by
  intro m
  by_cases e : m = l
  · subst e
    rw [link_setLink]
    have hm := h m
    exact ⟨hm.buffer, hm.replies, hm.waiting, hm.idle, hm.kinds, hm.admitted, hm.repeats, ht⟩
  · rw [link_setLink_ne _ _ _ _ e]
    exact h m

/-- A bad frame is counted and is a fault (R180): notices and counters alone. -/
theorem linksMid_countBadFrame (l : Link) {s : State} (h : LinksMid s) : LinksMid (countBadFrame l s) :=
  Framed.mid (fun m => (h m).1) (takeFault_closed (framed_owner s).toOutFree _ _
    (framed_setLink rfl (noticesOk_of (h l).2 rfl rfl) (LinksMid.framed h)))

theorem linksMid_dropFrame (l : Link) {s : State} (h : LinksMid s) : LinksMid (dropFrame l s) :=
  linksMid_countBadFrame l (linksMid_setLink ⟨(h l).1.buffer, (h l).1.replies, (h l).1.waiting, (h l).1.drained, ⟨fun _ => rfl, fun _ => rfl⟩⟩
    (noticesOk_of (h l).2 rfl rfl) h)

theorem linksMid_receiving (l : Link) {x : RxState} (hx : x ≠ .hunt) {s : State} (h : LinksMid s) :
    LinksMid (receiving l x s) :=
  linksMid_setLink ⟨(h l).1.buffer, (h l).1.replies, (h l).1.waiting, (h l).1.drained, ⟨fun e => absurd e hx, nofun⟩⟩
    (noticesOk_of (h l).2 rfl rfl) h

theorem linksMid_hunt (l : Link) (b : Byte) {s : State} (h : LinksMid s) : LinksMid (hunt l b s) := by
  unfold hunt
  split
  · exact linksMid_receiving l (x := .length) (by decide) h
  · exact h

theorem linksMid_takeLinkByte (l : Link) (b : Byte) {s : State} (h : LinksOk s) : LinksMid (takeLinkByte l b s) := by
  have hmid := LinksOk.mid h
  unfold takeLinkByte
  split
  · exact linksMid_hunt l b hmid
  · split
    · exact linksMid_receiving l (by simp) hmid
    · exact linksMid_hunt l b (linksMid_dropFrame l hmid)
  · split
    · exact linksMid_receiving l (by simp) hmid
    · exact linksMid_receiving l (by simp) hmid
  · have hrx := linksOk_rx (l := l) h .hunt none ⟨fun _ => rfl, fun _ => rfl⟩
    exact linksMid_frameComplete _ (LinksOk.mid hrx) (fun htx => ((hrx l).idle htx).1)

theorem linksMid_linkByte (l : Link) (b : Byte) (stopOk : Bool) {s : State} (h : LinksOk s) :
    LinksMid (linkByte l b stopOk s) := by
  unfold linkByte
  split
  · exact linksMid_takeLinkByte l b h
  · split
    · exact LinksOk.mid h
    · exact linksMid_dropFrame l (LinksOk.mid h)

theorem linksMid_interByteTimeout (l : Link) {s : State} (h : LinksOk s) : LinksMid (interByteTimeout l s) := by
  unfold interByteTimeout
  split
  · exact LinksOk.mid h
  · exact linksMid_dropFrame l (linksMid_now _ (LinksOk.mid h))

/-- A reply has left, and the oldest frame that waits, if any, is taken (R181). -/
theorem linksMid_takeBuffered {l : Link} {s : State} {r : Reply} {rs : List Reply} (hr : (s.link l).replies = r :: rs) (w : LinkWire)
    (h : LinksMid s) : LinksMid (takeBuffered l (s.setLink l { s.link l with replies := rs, tx := some w })) := by
  obtain ⟨hk, hn⟩ := h l
  have hlen := hk.replies
  rw [hr, List.length_cons] at hlen
  unfold takeBuffered
  rw [link_setLink]
  dsimp only
  split
  · rename_i hb
    exact linksMid_setLink ⟨hk.buffer, Nat.le_of_succ_le hlen, fun e => absurd hb e, nofun, hk.timer⟩ (noticesOk_of hn rfl rfl) h
  · rename_i f fs hb
    have hfull := hk.waiting (hb ▸ nofun)
    rw [hr, List.length_cons] at hfull
    have hbuffer := hk.buffer
    rw [hb, List.length_cons] at hbuffer
    rw [setLink_setLink]
    refine linksMid_takeFrame f (fun m => ?_) (fun m e => ?_) (fun a => ?_)
    · by_cases e : m = l
      · subst e
        rw [link_setLink]
        exact noticesOk_of hn rfl rfl
      · rw [link_setLink_ne _ _ _ _ e]
        exact (h m).2
    · rw [link_setLink_ne _ _ _ _ e]
      exact (h m).1
    · rw [link_setLink]
      have hsum : (rs ++ [a]).length = Config.bufferMax := by rw [List.length_append]; exact hfull
      exact ⟨Nat.le_of_succ_le hbuffer, Nat.le_of_eq hsum, fun _ => hsum, nofun, hk.timer⟩

/-- The frame in transmission ends with a reply in the queue. -/
theorem transmitEnd_of_reply {l : Link} {s : State} {w : LinkWire} {r : Reply} {rs : List Reply} (hw : (s.link l).tx = some w)
    (hr : (s.link l).replies = r :: rs) :
    transmitEnd l s = takeBuffered l ((s.reach w.ends).setLink l
      { s.link l with replies := rs, tx := some (wireOf r.frame (s.reach w.ends).now) }) := by
  unfold transmitEnd
  rw [hw]
  dsimp only
  rw [choose_reply (s.reach w.ends).now (k := { (s.reach w.ends).link l with tx := none }) rfl hr, if_pos rfl]
  rfl

/-- The frame in transmission ends with no reply in the queue. -/
theorem transmitEnd_of_none {l : Link} {s : State} {w : LinkWire} (hw : (s.link l).tx = some w) (hr : (s.link l).replies = []) :
    transmitEnd l s = (s.reach w.ends).setLink l
      (({ s.link l with tx := none } : LinkState).choose (s.reach w.ends).now).1 := by
  have hchoice : (({ (s.reach w.ends).link l with tx := none } : LinkState).choose (s.reach w.ends).now).2 = false := by
    have htx : ({ (s.reach w.ends).link l with tx := none } : LinkState).tx = none := rfl
    by_cases he : (s.link l).notices = []
    · rw [choose_idle _ htx hr he]
    · obtain ⟨e, es, he⟩ := List.exists_cons_of_ne_nil he
      rw [choose_notice _ htx hr he]
  unfold transmitEnd
  rw [hw]
  dsimp only at hchoice ⊢
  rw [hchoice, if_neg nofun]
  rfl

/-- The end of a frame: the link chooses, and a reply that leaves makes room for a waiting frame (R181, R184). -/
theorem linksMid_transmitEnd (l : Link) {s : State} (h : LinksOk s) : LinksMid (transmitEnd l s) := by
  rcases Option.eq_none_or_eq_some (s.link l).tx with hw | ⟨w, hw⟩
  · unfold transmitEnd
    rw [hw]
    exact LinksOk.mid h
  · have hu : LinksMid (s.reach w.ends) := linksMid_now _ (LinksOk.mid h)
    by_cases hr : (s.link l).replies = []
    case neg =>
      obtain ⟨r, rs, hr⟩ := List.exists_cons_of_ne_nil hr
      rw [transmitEnd_of_reply hw hr]
      exact linksMid_takeBuffered (s := s.reach w.ends) hr _ hu
    case pos =>
      rw [transmitEnd_of_none hw hr]
      obtain ⟨hk, hn⟩ := hu l
      have hempty : (s.link l).buffer = [] := Classical.byContradiction fun hb => by
        have hfull := (h l).waiting hb
        rw [hr] at hfull
        exact absurd hfull (by decide)
      have hmid : LinkMid { s.link l with tx := none } := ⟨hk.buffer, hk.replies, hk.waiting, fun _ => hempty, hk.timer⟩
      have hok := linkOk_choose (s.reach w.ends).now hmid (noticesOk_of hn rfl rfl)
      exact linksMid_setLink (LinkOk.mid hok) (LinkOk.notices hok) hu

/-! ### Every step -/

theorem links_endInitialisation (s : State) (l : Link) : (endInitialisation s).link l = s.link l := by
  unfold endInitialisation
  split
  · rfl
  · rw [mapPorts_eq, mapFoots_eq]
    cases l <;> rfl

theorem linkOk_reset : LinkOk LinkState.reset where
  buffer := by decide
  replies := by decide
  waiting h := absurd rfl h
  idle _ := ⟨rfl, rfl⟩
  kinds := List.nodup_nil
  admitted _ h := absurd h List.not_mem_nil
  repeats _ h := absurd h List.not_mem_nil
  timer := by decide

theorem links_pinResetAll (a b : Bool) (s : State) (l : Link) : (pinResetAll a b s).link l = LinkState.reset := by
  unfold pinResetAll
  rw [mapFoots_eq]
  cases l <;> rfl

theorem linksMid_effect (c : Instr) {s : State} (h : LinksOk s) : LinksMid (effect c s) := by
  have hs := LinksOk.mid h
  have hframe : ∀ u, Framed s u → LinksMid u := fun u => Framed.mid (fun l => (hs l).1)
  have hk := framed_owner s
  have hnow := framed_now s
  have h0 : Framed s s := LinksMid.framed hs
  cases c
  case pinReset => exact fun l => links_pinResetAll _ _ s l ▸ ⟨LinkOk.mid linkOk_reset, LinkOk.notices linkOk_reset⟩
  case initialisationEnd => exact hframe _ (framed_of_links (links_endInitialisation s) h0)
  case linkByteReceived => exact linksMid_linkByte _ _ _ h
  case linkInterByteTimeout => exact linksMid_interByteTimeout _ h
  case linkTransmitEnd => exact linksMid_transmitEnd _ h
  case inputByteReceived => exact hframe _ (inputByte_closed hk.toCueFree _ _ _ h0)
  case inputWatchExpiry => exact hframe _ (watchExpiry_closed hk.toNoteFree hnow _ h0)
  case footswitchLineChange => exact hframe _ (lineChange_closed hk.foots _ _ h0)
  case footswitchDebounceExpiry => exact hframe _ (debounceExpiry_closed hk.toCueFree hk.panics hnow hk.foots _ h0)
  case gridStepEnd => exact hframe _ (stepEnds_closed hk.toCueFree hnow h0)
  case clickGateExpiry => exact hframe _ (gateExpiry_closed hk.toCueFree.beat hnow _ _ _ h0)
  case outputItemEnd => exact hframe _ (itemEnd_closed hk.record hk.port hnow _ h0)
  case settleTimerExpiry => exact hframe _ (settleExpiry_closed hk.record hk.port hnow _ h0)
  case keepAliveExpiry => exact hframe _ (keepAliveExpiry_closed hk.port hnow _ h0)
  case controllerIntervalExpiry => exact hframe _ (intervalExpiry_closed hnow _ h0)
  all_goals exact linksMid_frameComplete _ hs (fun htx => ((h _).idle htx).1)

/-- Settles O4: the effect of a command leaves at most an IDLE transmitter with work, and its end lets every transmitter choose. -/
theorem linksStaySafe : Obligations.LinksStaySafe := by
  unfold Obligations.LinksStaySafe
  intro s t h hst
  rcases step_cases hst with ⟨_, rfl⟩ | ⟨c, rest, _, rfl⟩
  · intro l
    cases l
    · exact linksOk_endInstant h .a
    · exact linksOk_endInstant h .b
  · have hrest : LinksOk { s with pending := rest } := fun l => by
      cases l
      · exact h .a
      · exact h .b
    exact linksOk_finish (linksMid_effect c (linksOk_upTo _ hrest))

end Sys2Proof.Proofs.Links
end

section
/-! The link tables (chapter 10): the taking of a frame, the input buffer, the receiver byte by byte and the transmitter. -/

namespace Sys2Proof.Proofs.LinkTables

open Sys2Proof.Machine Sys2Proof.Laws Sys2Proof.Proofs.Effects Sys2Proof.Proofs.Links

/-! ### A frame that arrives -/

theorem arrival_of_request {c : Instr} {l : Link} {k : ReqKind} {tag : Byte} {fields : List Byte}
    (h : requestOf c = some (l, k, tag, fields)) : arrival c = some (l, mkFrame k.code tag fields) := by
  cases c <;> simp only [requestOf, reduceCtorEq, Option.some.injEq, Prod.mk.injEq] at h <;>
    obtain ⟨rfl, rfl, rfl, rfl⟩ := h <;> rfl

/-- A frame that finds room is taken (R181). -/
theorem frameComplete_of_room {l : Link} {s : State} (f : Frame) (h : HasRoom l s) : frameComplete l f s = takeFrame l f s := by
  unfold frameComplete
  rw [if_pos h]

theorem found_init (l : Link) (s : State) : (found l s).init = s.init := by cases l <;> rfl

/-- During initialisation a frame is answered BUSY (R185). -/
theorem takeFrame_of_busy {l : Link} {s : State} {f : Frame} (hf : f.checkOk = true) (hi : s.init.isSome = true) :
    takeFrame l f s = pushReply l (replyTo f.kind f.tag (.refuse .busy [])) (found l s) := by
  have hi' : (countTaken l s).init.isSome = true := by
    rw [← hi]
    exact congrArg Option.isSome (found_init l s)
  unfold takeFrame
  dsimp only
  rw [if_pos hf, if_pos hi']
  rfl

/-- Outside initialisation a frame that passes CHECK is answered by its kind (R182). -/
theorem takeFrame_of_ready {l : Link} {s : State} {f : Frame} (hf : f.checkOk = true) (hi : s.init = none) :
    takeFrame l f s = pushReply l (replyTo f.kind f.tag (answerFrame l f (found l s)).2) (answerFrame l f (found l s)).1 := by
  have hi' : ¬ (countTaken l s).init.isSome = true := by
    have h := found_init l s
    rw [hi] at h
    rw [show (countTaken l s).init = none from h]
    exact nofun
  unfold takeFrame
  dsimp only
  rw [if_pos hf, if_neg hi']
  rfl

theorem takeFrame_of_bad {l : Link} {s : State} {f : Frame} (hf : f.checkOk = false) :
    takeFrame l f s = pushReply l (replyTo f.kind f.tag (.refuse .badFrame [])) (countBadFrame l (found l s)) := by
  unfold takeFrame
  dsimp only
  rw [if_neg (by rw [hf]; exact nofun)]
  rfl

/-- Settles O14: the LEN check of R182 parts the two outcomes. -/
theorem requestReachesItsOwner : Obligations.RequestReachesItsOwner := by
  unfold Obligations.RequestReachesItsOwner
  intro c l k tag fields s hc _ ht
  split
  · rename_i hfits
    exact served s hc hfits ht
  · rename_i hfits
    exact served_unfit s hc (Bool.eq_false_iff.mpr hfits) ht

/-- Settles O15: BUSY comes before the kind is looked at. -/
theorem busyDuringInitialisation : Obligations.BusyDuringInitialisation := by
  unfold Obligations.BusyDuringInitialisation
  intro c l k tag fields s hc hinit hroom
  rw [exec_of_arrival (arrival_of_request hc), frameComplete_of_room _ hroom, takeFrame_of_busy (mkFrame_ok _ _ _) hinit]
  rfl

/-- Settles O16: a frame of an unknown kind passes CHECK, a bad frame does not. -/
theorem strayFramesAreAnswered : Obligations.StrayFramesAreAnswered := by
  unfold Obligations.StrayFramesAreAnswered
  intro l kind tag fields s
  refine ⟨fun hkind ht => ?_, fun _ hinit hroom => ?_, fun check hcheck hroom => ?_⟩
  · have hanswer : answerFrame l (mkFrame kind tag fields) (found l s) = (found l s, .refuse .unknownKind []) := by
      unfold answerFrame
      rw [show requestKind (mkFrame kind tag fields).kind = none from hkind]
    rw [exec_of_arrival (c := .unknownKind l kind tag fields) rfl, frameComplete_of_room _ ht.2,
      takeFrame_of_ready (mkFrame_ok _ _ _) ht.1, hanswer]
    rfl
  · rw [exec_of_arrival (c := .unknownKind l kind tag fields) rfl, frameComplete_of_room _ hroom,
      takeFrame_of_busy (mkFrame_ok _ _ _) (Option.isSome_iff_ne_none.mpr hinit)]
    rfl
  · unfold checkFails at hcheck
    have hbad := (Bool.not_eq_true' _).mp hcheck
    have hcount : ((found l s).link l).badFrames = (s.link l).badFrames := by cases l <;> rfl
    rw [exec_of_arrival (c := .badFrame l kind tag fields check) rfl, frameComplete_of_room _ hroom, takeFrame_of_bad hbad, ← hcount]
    rfl

theorem frameComplete_of_wait {l : Link} {s : State} (f : Frame) (h : ¬ HasRoom l s) (hb : (s.link l).buffer.length < 4) :
    frameComplete l f s = s.setLink l { s.link l with buffer := (s.link l).buffer ++ [f] } := by
  unfold frameComplete
  rw [if_neg h]
  exact if_pos hb

theorem frameComplete_of_full {l : Link} {s : State} (f : Frame) (h : ¬ HasRoom l s) (hb : 4 ≤ (s.link l).buffer.length) :
    frameComplete l f s = overrun l s := by
  unfold frameComplete
  rw [if_neg h]
  exact if_neg (Nat.not_lt.mpr hb)

/-- Settles O17: the three sorts of frame arrive alike, and R181 looks at the buffer alone. -/
theorem frameWaitsOrIsLost : Obligations.FrameWaitsOrIsLost := by
  unfold Obligations.FrameWaitsOrIsLost
  intro c l f s hc hroom
  have harrival : arrival c = some (l, f) := by
    rcases hc with ⟨k, tag, fields, hreq, rfl⟩ | ⟨kind, tag, fields, rfl, rfl⟩ | ⟨kind, tag, fields, check, rfl, rfl⟩
    · exact arrival_of_request hreq
    · rfl
    · rfl
  rw [exec_of_arrival harrival]
  exact ⟨fun hb => by rw [frameComplete_of_wait f hroom hb], fun hb => by rw [frameComplete_of_full f hroom hb]; rfl⟩

/-! ### The receiver (R179) -/

theorem dropFrame_now (l : Link) (s : State) : (dropFrame l s).now = s.now := by
  unfold dropFrame countBadFrame takeFault
  simp

section
variable {l : Link} {s : State} {len : Byte} {stored : List Byte} (b : Byte)

theorem takeLinkByte_of_hunt (h : (s.link l).rx = .hunt) : takeLinkByte l b s = hunt l b s := by
  unfold takeLinkByte
  rw [h]

theorem takeLinkByte_of_length (h : (s.link l).rx = .length) : takeLinkByte l b s =
    if 2 ≤ b.toNat ∧ b.toNat ≤ 60 then receiving l (.body b []) s else hunt l b (dropFrame l s) := by
  unfold takeLinkByte
  rw [h]

theorem takeLinkByte_of_body (h : (s.link l).rx = .body len stored) : takeLinkByte l b s =
    receiving l (if stored.length + 1 < len.toNat then .body len (stored ++ [b]) else .check len (stored ++ [b])) s := by
  unfold takeLinkByte
  rw [h]
  dsimp only
  split <;> rfl

theorem takeLinkByte_of_check (h : (s.link l).rx = .check len stored) : takeLinkByte l b s = completeRx l len stored b s := by
  unfold takeLinkByte
  rw [h]

end

/-- Settles O19: one clause for each receive state. -/
theorem receiverTable : Obligations.ReceiverTable := by
  unfold Obligations.ReceiverTable
  intro l b s
  have hbyte : exec (.linkByteReceived l b true) s = .next (finish (takeLinkByte l b s)) := rfl
  refine ⟨fun hrx => ?_, fun hrx => ?_, fun len stored hrx => ?_, fun len stored hrx => ?_, ?_, fun d hd hat => ?_, ?_⟩
  · rw [hbyte, takeLinkByte_of_hunt b hrx]
    unfold hunt
    split <;> rfl
  · rw [hbyte, takeLinkByte_of_length b hrx]
    unfold hunt receiving
    rw [dropFrame_now]
    split
    · rfl
    · split <;> rfl
  · rw [hbyte, takeLinkByte_of_body b hrx]
    rfl
  · rw [hbyte, takeLinkByte_of_check b hrx]
    rfl
  · rw [exec_of_undue rfl, effect, linkByte, if_neg nofun]
    split <;> rfl
  · rw [exec_of_at (c := .linkInterByteTimeout l) hd hat, effect, interByteTimeout, hd]
    rfl
  · unfold dropFrame countBadFrame
    rw [setLink_setLink, link_setLink]
    rfl

/-! ### The bytes of a frame -/

theorem receiving_receiving (l : Link) (x y : RxState) (s : State) : receiving l x (receiving l y s) = receiving l x s := by
  unfold receiving
  rw [setLink_setLink, link_setLink, setLink_now]

theorem receiving_rx (l : Link) (x : RxState) (s : State) : ((receiving l x s).link l).rx = x := by
  unfold receiving
  rw [link_setLink]

/-- The bytes of a body, as many as LEN counts, bring the receiver to CHECK. -/
theorem foldl_body (l : Link) (len : Byte) (s : State) : ∀ (bs stored : List Byte), bs ≠ [] → stored.length + bs.length = len.toNat →
    bs.foldl (fun s b => linkByte l b true s) (receiving l (.body len stored) s) = receiving l (.check len (stored ++ bs)) s
  | [], _, h, _ => absurd rfl h
  | b :: bs, stored, _, hlen => by
    have hstep : linkByte l b true (receiving l (.body len stored) s) =
        receiving l (if stored.length + 1 < len.toNat then .body len (stored ++ [b]) else .check len (stored ++ [b])) s := by
      rw [show linkByte l b true (receiving l (.body len stored) s) = takeLinkByte l b (receiving l (.body len stored) s) from rfl,
        takeLinkByte_of_body b (receiving_rx l _ s), receiving_receiving]
    rw [List.length_cons] at hlen
    rw [List.foldl_cons, hstep]
    by_cases hbs : bs = []
    · subst hbs
      rw [if_neg (by simp only [List.length_nil] at hlen; omega)]
      rfl
    · have hpos := List.length_pos_of_ne_nil hbs
      rw [if_pos (by omega), foldl_body l len s bs (stored ++ [b]) hbs (by rw [List.length_append, List.length_singleton]; omega),
        List.append_assoc]
      rfl

/-- The bytes of a frame complete it, and the receiver is left as it was found. -/
theorem foldl_frame {l : Link} {f : Frame} {s : State} (hlen : f.len.toNat = f.fields.length + 2) (hle : f.fields.length ≤ 58)
    (hrx : (s.link l).rx = .hunt) (hdue : (s.link l).interByteDue = none) :
    f.bytes.foldl (fun s b => linkByte l b true s) s = frameComplete l f s := by
  have hbytes : f.bytes = 0xA5#8 :: f.len :: ((f.kind :: f.tag :: f.fields) ++ [f.check]) := rfl
  have hsync : linkByte l 0xA5#8 true s = receiving l .length s :=
    (takeLinkByte_of_hunt _ hrx).trans (if_pos rfl)
  have hlength : linkByte l f.len true (receiving l .length s) = receiving l (.body f.len []) s := by
    refine (takeLinkByte_of_length _ (receiving_rx l _ s)).trans ?_
    rw [if_pos ⟨by omega, by omega⟩, receiving_receiving]
  have hbody := foldl_body l f.len s (f.kind :: f.tag :: f.fields) [] nofun (by
    simp only [List.length_cons, List.length_nil]
    omega)
  have hself : (receiving l (.check f.len (f.kind :: f.tag :: f.fields)) s).setLink l
      { (receiving l (.check f.len (f.kind :: f.tag :: f.fields)) s).link l with rx := .hunt, interByteDue := none } = s := by
    unfold receiving
    rw [setLink_setLink, link_setLink]
    have : ({ s.link l with rx := .hunt, interByteDue := none } : LinkState) = s.link l := by
      rw [← hrx, ← hdue]
    exact (congrArg (s.setLink l) this).trans (setLink_self s l)
  rw [hbytes, List.foldl_cons, hsync, List.foldl_cons, hlength, List.foldl_append, hbody, List.nil_append, List.foldl_cons,
    List.foldl_nil]
  refine (takeLinkByte_of_check _ (receiving_rx l _ s)).trans ?_
  unfold completeRx
  rw [hself]
  rfl

/-- Settles O18: SYNC and LEN, the body and CHECK. -/
theorem bytesMakeTheFrame : Obligations.BytesMakeTheFrame := by
  unfold Obligations.BytesMakeTheFrame
  intro l f s hlen hfits hrx hdue
  have hle : f.fields.length ≤ 58 := of_decide_eq_true hfits
  exact foldl_frame (hlen ▸ lenByte_toNat hle) hle hrx hdue

/-- Settles O20: the transmitter's choice by what the queues hold. -/
theorem linkTransmitterTable : Obligations.LinkTransmitterTable := by
  unfold Obligations.LinkTransmitterTable
  intro l s
  refine ⟨fun hw => ?_, fun w hw hat => ?_⟩
  · rw [exec_of_undue (c := .linkTransmitEnd l) (Option.map_eq_none_iff.mpr hw), effect, transmitEnd, hw]
  · rw [exec_of_at (c := .linkTransmitEnd l) (congrArg (Option.map _) hw) hat, effect]
    refine ⟨fun r rs hr => ?_, fun hr => ?_⟩
    · rw [transmitEnd_of_reply hw hr]
      unfold takeBuffered
      rw [link_setLink]
      refine ⟨fun hb => ?_, fun f fs hb => ?_⟩
      · simp only [hb]
        rfl
      · simp only [hb]
        rw [setLink_setLink]
        rfl
    · rw [transmitEnd_of_none hw hr]
      refine ⟨fun e es he => ?_, fun he => ?_⟩
      · rw [choose_notice (k := { s.link l with tx := none }) _ rfl hr he]
        rfl
      · rw [choose_idle (k := { s.link l with tx := none }) _ rfl hr he]

end Sys2Proof.Proofs.LinkTables
end

section
/-! The reset state (R185): every list is empty, every timer stopped and every unit at its reset value. -/

namespace Sys2Proof.Proofs.AtReset

open Sys2Proof.Machine Sys2Proof.Laws Sys2Proof.Proofs.Links

theorem reset_port : ∀ p, State.reset.port p = PortState.reset := by decide

theorem reset_slot : ∀ n, State.reset.slot n = Slot.empty := by decide

theorem portOk_reset : PortOk PortState.reset :=
  ⟨by decide, by decide, by decide, by decide, by decide, by decide, List.nodup_nil⟩

theorem recordOk_reset : RecordOk State.reset where
  ports := nofun
  counts p := by
    rw [reset_port]
    rfl
  settling := nofun
  wires p := by
    rw [reset_port]
    exact nofun

theorem safe_reset : Safe State.reset where
  links l := by cases l <;> exact linkOk_reset
  rest := ⟨fun _ => ⟨rfl, rfl, rfl, rfl, rfl, rfl⟩, fun _ => rfl, fun _ => ⟨rfl, rfl⟩⟩
  cue _ := rfl
  start := ⟨fun _ => rfl, fun _ => by decide, fun _ => by decide, fun _ p => by
    rw [reset_port]
    rfl⟩
  ports p := reset_port p ▸ portOk_reset
  tempo := ⟨by decide, by decide, nofun, nofun, ⟨by decide, nofun⟩, nofun⟩
  click := List.nodup_nil
  record := recordOk_reset
  held := ⟨by decide, List.nodup_nil⟩
  targets _ h := absurd h List.not_mem_nil
  library n := by
    rw [reset_slot]
    trivial
  pools := ⟨by decide, by decide⟩
  owners l n m h := by
    rw [reset_slot] at h
    exact absurd h nofun
  shows := ⟨nofun, nofun, nofun⟩

/-- Settles O3: the reset state is safe part by part. -/
theorem safeAtReset : Obligations.SafeAtReset := by
  unfold Obligations.SafeAtReset
  exact ⟨safe_reset, rfl⟩

end Sys2Proof.Proofs.AtReset
end

section
/-! What the readers of whole records accept: each field as its own reader takes it, and the record they make. -/

namespace Sys2Proof.Proofs.Records

open Sys2Proof.Machine Sys2Proof.Laws

/-! ### The song library's records (R63, R2, R102, R103) -/

theorem songHeader_iff {slot countIn mode phrase : Byte} {stopBar : Word} {name : List Byte} {n : SlotNo} {g : Song} :
    songHeader ([slot, countIn, mode, phrase] ++ stopBar.bytes ++ name) = some (n, g) ↔
      n.val = slot.toNat ∧ countIn.toNat ≤ 4 ∧ mode = g.startMode.code ∧
      (phrase.toNat = 1 ∨ phrase.toNat = 2 ∨ phrase.toNat = 4 ∨ phrase.toNat = 8) ∧ stopBar.toNat ≤ 9998 ∧
      IsText 1 16 name ∧
      g = { name, countIn := countIn.toNat, startMode := g.startMode, phrase := phrase.toNat,
            stopBar := if stopBar.toNat = 0 then none else some stopBar.toNat, segments := [], scenes := [] } := by
  simp only [songHeader, Word.bytes, List.cons_append, List.nil_append, Option.bind_eq_bind, Option.bind_eq_some_iff, below_iff,
    numIn_iff, startMode_iff, phrase_iff, stopBar_iff, text_iff, word_bytes, Option.some.injEq, Prod.mk.injEq]
  constructor
  · rintro ⟨_, hslot, _, ⟨_, hcount, rfl⟩, m, hmode, _, ⟨hphrase, rfl⟩, _, ⟨hstop, rfl⟩, _, ⟨hname, rfl⟩, rfl, rfl⟩
    exact ⟨hslot, hcount, hmode, hphrase, hstop, hname, rfl⟩
  · rintro ⟨hslot, hcount, hmode, hphrase, hstop, hname, hg⟩
    exact ⟨_, hslot, _, ⟨Nat.zero_le _, hcount, rfl⟩, _, hmode, _, ⟨hphrase, rfl⟩, _, ⟨hstop, rfl⟩, _, ⟨hname, rfl⟩, rfl, hg.symm⟩

theorem segmentRecord_iff {f : SegmentFields} {x : Segment} :
    segmentRecord (segmentBytes f) = some x ↔
      1 ≤ f.startBar.toNat ∧ f.startBar.toNat ≤ 9999 ∧ 1 ≤ f.numerator.toNat ∧ f.numerator.toNat ≤ 15 ∧
      (f.denominator.toNat = 4 ∨ f.denominator.toNat = 8) ∧ 2000 ≤ f.tempo.toNat ∧ f.tempo.toNat ≤ 30000 ∧
      f.rampBars.toNat ≤ 64 ∧ (f.rampBars.toNat = 0 → f.rampTarget.toNat = 0) ∧
      (f.rampBars.toNat ≠ 0 → 2000 ≤ f.rampTarget.toNat ∧ f.rampTarget.toNat ≤ 30000) ∧
      x = { startBar := f.startBar.toNat, numerator := f.numerator.toNat, denominator := f.denominator.toNat,
            tempo := f.tempo.toNat, rampBars := f.rampBars.toNat,
            rampTarget := if f.rampBars.toNat = 0 then none else some f.rampTarget.toNat } := by
  simp only [segmentRecord, segmentBytes, Word.bytes, List.cons_append, List.nil_append, Option.bind_eq_bind,
    Option.bind_eq_some_iff, numIn_iff, denom_iff, tempoIn_iff, ramp_iff, word_bytes, Option.ite_none_right_eq_some, Option.some.injEq]
  constructor
  · rintro ⟨_, ⟨hn1, hn2, rfl⟩, _, ⟨hd, rfl⟩, _, ⟨ht1, ht2, rfl⟩, _, ⟨_, hr, rfl⟩, _, ⟨hr0, hr1, rfl⟩, ⟨hs1, hs2⟩, rfl⟩
    exact ⟨hs1, hs2, hn1, hn2, hd, ht1, ht2, hr, hr0, hr1, rfl⟩
  · rintro ⟨hs1, hs2, hn1, hn2, hd, ht1, ht2, hr, hr0, hr1, rfl⟩
    exact ⟨_, ⟨hn1, hn2, rfl⟩, _, ⟨hd, rfl⟩, _, ⟨ht1, ht2, rfl⟩, _, ⟨Nat.zero_le _, hr, rfl⟩, _, ⟨hr0, hr1, rfl⟩, ⟨hs1, hs2⟩, rfl⟩

theorem sceneHeader_reads {t : Byte} {name : List Byte} {x : Scene} :
    sceneHeader (t :: name) = some x ↔
      t = x.timing.code ∧ IsText 0 12 name ∧ x = { name, timing := x.timing, zones := [], assignments := [] } := by
  rw [SceneBegin.sceneHeader_iff]
  constructor
  · rintro ⟨y, ht, hname, rfl⟩
    exact ⟨ht, hname, rfl⟩
  · rintro ⟨ht, hname, hx⟩
    exact ⟨_, ht, hname, hx⟩

theorem zoneRecord_iff {f : ZoneFields} {z : Zone} :
    zoneRecord (zoneBytes f) = some z ↔
      f.inputs.toNat < 64 ∧ f.inputs ≠ 0#8 ∧ z.inputs = f.inputs.setWidth 6 ∧ CarriesChan f.sourceChannel z.sourceChannel ∧
      z.keyLow = f.keyLow.toNat ∧ z.keyHigh = f.keyHigh.toNat ∧ f.keyLow.toNat ≤ f.keyHigh.toNat ∧
      f.keyHigh.toNat ≤ 127 ∧ z.velLow = f.velLow.toNat ∧ z.velHigh = f.velHigh.toNat ∧ 1 ≤ f.velLow.toNat ∧
      f.velLow.toNat ≤ f.velHigh.toNat ∧ f.velHigh.toNat ≤ 127 ∧
      (match z.direction with | .normal => f.direction = 0#8 | .reverse => f.direction = 1#8) ∧
      z.port.val = f.targetPort.toNat ∧ z.chan.val = f.targetChannel.toNat ∧
      z.transpose = f.transpose.toInt ∧ -48 ≤ f.transpose.toInt ∧ f.transpose.toInt ≤ 48 ∧
      (match z.curve with
        | .linear => f.curve = 0#8 ∧ f.fixedVelocity = 0xFF#8
        | .soft => f.curve = 1#8 ∧ f.fixedVelocity = 0xFF#8
        | .hard => f.curve = 2#8 ∧ f.fixedVelocity = 0xFF#8
        | .fixed v => f.curve = 3#8 ∧ v = f.fixedVelocity.toNat ∧ 1 ≤ v ∧ v ≤ 127) ∧
      z.scale = f.scale.toNat ∧ 25 ≤ f.scale.toNat ∧ f.scale.toNat ≤ 200 ∧
      z.offset = f.offset.toInt ∧ -64 ≤ f.offset.toInt ∧ f.offset.toInt ≤ 64 ∧
      (match z.pedal with | .chip => f.pedalMode = 0#8 | .module => f.pedalMode = 1#8) ∧
      f.forward.toNat < 16 ∧ z.forward = { controllers := f.forward.getLsbD 0, bend := f.forward.getLsbD 1,
                                           pressure := f.forward.getLsbD 2, poly := f.forward.getLsbD 3 } := by
  unfold zoneRecord zoneBytes
  constructor
  · intro h
    obtain ⟨_, hin, h⟩ := read_step h
    obtain ⟨_, hsc, h⟩ := read_step h
    obtain ⟨_, hkl, h⟩ := read_step h
    obtain ⟨_, hkh, h⟩ := read_step h
    obtain ⟨_, hvl, h⟩ := read_step h
    obtain ⟨_, hvh, h⟩ := read_step h
    obtain ⟨_, hdir, h⟩ := read_step h
    obtain ⟨_, hp, h⟩ := read_step h
    obtain ⟨_, hc, h⟩ := read_step h
    obtain ⟨_, htr, h⟩ := read_step h
    obtain ⟨_, hcv, h⟩ := read_step h
    obtain ⟨_, hsca, h⟩ := read_step h
    obtain ⟨_, hoff, h⟩ := read_step h
    obtain ⟨_, hpm, h⟩ := read_step h
    obtain ⟨_, hfw, h⟩ := read_step h
    obtain ⟨⟨hkeys, hvels⟩, h⟩ := Option.ite_none_right_eq_some.mp h
    obtain rfl := Option.some.inj h
    obtain ⟨hset, hne, rfl⟩ := inputSet_iff.mp hin
    obtain ⟨_, _, rfl⟩ := numIn_iff.mp hkl
    obtain ⟨_, hkey, rfl⟩ := numIn_iff.mp hkh
    obtain ⟨hvel, _, rfl⟩ := numIn_iff.mp hvl
    obtain ⟨_, hvel', rfl⟩ := numIn_iff.mp hvh
    obtain ⟨htlo, hthi, rfl⟩ := signed_iff.mp htr
    obtain ⟨hslo, hshi, rfl⟩ := numIn_iff.mp hsca
    obtain ⟨holo, hohi, rfl⟩ := signed_iff.mp hoff
    obtain ⟨hflags, rfl⟩ := forward_iff.mp hfw
    exact ⟨hset, hne, rfl, chan_iff.mp hsc, rfl, rfl, hkeys, hkey, rfl, rfl, hvel, hvels, hvel', direction_iff.mp hdir,
      below_iff.mp hp, below_iff.mp hc, rfl, htlo, hthi, curve_iff.mp hcv, rfl, hslo, hshi, rfl, holo, hohi, pedal_iff.mp hpm,
      hflags, rfl⟩
  · obtain ⟨ins, sc, kl, kh, vl, vh, dir, p, c, tr, cv, sca, off, pm, fw⟩ := z
    rintro ⟨hin, hne, rfl, hsc, rfl, rfl, hkeys, hkey, rfl, rfl, hvel, hvels, hvel', hdir, hp, hc, rfl, htr, htr', hcv, rfl, hsca,
      hsca', rfl, hoff, hoff', hpm, hfw, rfl⟩
    refine read_intro (inputSet_iff.mpr ⟨hin, hne, rfl⟩) (read_intro (chan_iff.mpr hsc) ?_)
    refine read_intro (numIn_iff.mpr ⟨Nat.zero_le _, hkeys.trans hkey, rfl⟩) (read_intro (numIn_iff.mpr ⟨Nat.zero_le _, hkey, rfl⟩) ?_)
    refine read_intro (numIn_iff.mpr ⟨hvel, hvels.trans hvel', rfl⟩) (read_intro (numIn_iff.mpr ⟨hvel.trans hvels, hvel', rfl⟩) ?_)
    refine read_intro (direction_iff.mpr hdir) (read_intro (below_iff.mpr hp) (read_intro (below_iff.mpr hc) ?_))
    refine read_intro (signed_iff.mpr ⟨htr, htr', rfl⟩) (read_intro (curve_iff.mpr hcv) ?_)
    refine read_intro (numIn_iff.mpr ⟨hsca, hsca', rfl⟩) (read_intro (signed_iff.mpr ⟨hoff, hoff', rfl⟩) ?_)
    exact read_intro (pedal_iff.mpr hpm) (read_intro (forward_iff.mpr ⟨hfw, rfl⟩) (if_pos ⟨hkeys, hvels⟩))

theorem assignmentRecord_iff {p c m l n : Byte} {a : Assignment} :
    assignmentRecord [p, c, m, l, n] = some a ↔
      a.port.val = p.toNat ∧ a.chan.val = c.toNat ∧ CarriesOpt 0 127 m a.msb ∧ CarriesOpt 0 127 l a.lsb ∧
      n.toNat ≤ 127 ∧ a.program = n.toNat := by
  simp only [assignmentRecord, Option.bind_eq_bind, Option.bind_eq_some_iff, below_iff, opt_iff, numIn_iff, Option.some.injEq]
  constructor
  · rintro ⟨p, hp, c, hc, m, hm, l, hl, _, ⟨_, hn, rfl⟩, rfl⟩
    exact ⟨hp, hc, hm, hl, hn, rfl⟩
  · rintro ⟨hp, hc, hm, hl, hn, hprogram⟩
    exact ⟨_, hp, _, hc, _, hm, _, hl, _, ⟨Nat.zero_le _, hn, rfl⟩, by rw [← hprogram]⟩

/-- Settles O28: one equivalence for each record of the library. -/
theorem libraryFields : Obligations.LibraryFields := by
  unfold Obligations.LibraryFields
  exact ⟨fun _ _ _ _ _ _ _ _ => songHeader_iff, fun _ _ => segmentRecord_iff, fun _ _ _ => sceneHeader_reads,
    fun _ _ => zoneRecord_iff, fun _ _ _ _ _ _ => assignmentRecord_iff⟩

/-! ### The settings' records and the fields of CUE (R94, R156, R50, R56, R122) -/

theorem clickSettings_iff {f : ClickFields} {n : ClickNo} {c : ClickChannel} :
    clickSettings (clickBytes f) = some (n, c) ↔
      n.val = f.channel.toNat ∧
      (match c.mode with
        | .off => f.mode = 0#8 | .always => f.mode = 1#8 | .countInOnly => f.mode = 2#8 | .runningOnly => f.mode = 3#8) ∧
      c.port.val = f.port.toNat ∧ c.chan.val = f.midiChannel.toNat ∧
      c.accentNote = f.accentNote.toNat ∧ c.beatNote = f.beatNote.toNat ∧ c.subNote = f.subNote.toNat ∧
      c.accentNote ≤ 127 ∧ c.beatNote ≤ 127 ∧ c.subNote ≤ 127 ∧
      c.accentLevel = f.accentLevel.toNat ∧ c.beatLevel = f.beatLevel.toNat ∧ c.subLevel = f.subLevel.toNat ∧
      c.accentLevel ≤ 31 ∧ c.beatLevel ≤ 31 ∧ c.subLevel ≤ 31 ∧
      (match c.subdivision with
        | .none => f.subdivision = 0#8 | .eighth => f.subdivision = 1#8
        | .sixteenth => f.subdivision = 2#8 | .triplet => f.subdivision = 3#8) ∧
      c.gate = f.gate.toNat ∧ 5 ≤ c.gate ∧ c.gate ≤ 250 := by
  simp only [clickSettings, clickBytes, Option.bind_eq_bind, Option.bind_eq_some_iff, below_iff, clickMode_iff, numIn_iff,
    subdivision_iff, Option.some.injEq, Prod.mk.injEq]
  constructor
  · rintro ⟨_, hn, m, hm, p, hp, ch, hch, _, ⟨_, ha, rfl⟩, _, ⟨_, hb, rfl⟩, _, ⟨_, hs, rfl⟩, _, ⟨_, hal, rfl⟩, _, ⟨_, hbl, rfl⟩,
      _, ⟨_, hsl, rfl⟩, sub, hsub, _, ⟨hg, hg', rfl⟩, rfl, rfl⟩
    exact ⟨hn, hm, hp, hch, rfl, rfl, rfl, ha, hb, hs, rfl, rfl, rfl, hal, hbl, hsl, hsub, rfl, hg, hg'⟩
  · obtain ⟨m, p, ch, an, bn, sn, al, bl, sl, sub, gate⟩ := c
    rintro ⟨hn, hm, hp, hch, rfl, rfl, rfl, ha, hb, hs, rfl, rfl, rfl, hal, hbl, hsl, hsub, rfl, hg, hg'⟩
    exact ⟨_, hn, m, hm, p, hp, ch, hch, _, ⟨Nat.zero_le _, ha, rfl⟩, _, ⟨Nat.zero_le _, hb, rfl⟩, _, ⟨Nat.zero_le _, hs, rfl⟩,
      _, ⟨Nat.zero_le _, hal, rfl⟩, _, ⟨Nat.zero_le _, hbl, rfl⟩, _, ⟨Nat.zero_le _, hsl, rfl⟩, sub, hsub, _, ⟨hg, hg', rfl⟩, rfl, rfl⟩

theorem portSettings_iff {f : OutputFields} {p : Port} {x : PortSettings} :
    portSettings (outputBytes f) = some (p, x) ↔
      p.val = f.port.toNat ∧ f.runningStatus = bFlag x.runningStatus ∧ f.clockFlag = bFlag x.clockFlag ∧
      f.keepAlive = bFlag x.keepAlive ∧ x.settleTime = f.settleTime.toNat ∧ x.settleTime ≤ 200 ∧
      (match x.policy with
        | .hold => f.settlePolicy = 0#8 | .drop => f.settlePolicy = 1#8 | .pass => f.settlePolicy = 2#8) ∧
      x.interval = f.interval.toNat ∧
      (x.interval = 0 ∨ x.interval = 2 ∨ x.interval = 5 ∨ x.interval = 10 ∨ x.interval = 20) ∧
      (match x.laneMode with | .round => f.laneMode = 0#8 | .noteFirst => f.laneMode = 1#8) ∧
      x.weight = f.weight.toNat ∧ 1 ≤ x.weight ∧ x.weight ≤ 16 := by
  simp only [portSettings, outputBytes, Option.bind_eq_bind, Option.bind_eq_some_iff, below_iff, flag_iff, numIn_iff, policy_iff,
    interval_iff, laneMode_iff, Option.some.injEq, Prod.mk.injEq]
  constructor
  · rintro ⟨_, hp, rs, hrs, clk, hclk, ka, hka, _, ⟨_, hst, rfl⟩, pol, hpol, _, ⟨rfl, hiv⟩, lm, hlm, _, ⟨hw, hw', rfl⟩, rfl, rfl⟩
    exact ⟨hp, hrs, hclk, hka, rfl, hst, hpol, rfl, hiv, hlm, rfl, hw, hw'⟩
  · obtain ⟨rs, clk, ka, st, pol, iv, lm, w⟩ := x
    rintro ⟨hp, hrs, hclk, hka, rfl, hst, hpol, rfl, hiv, hlm, rfl, hw, hw'⟩
    exact ⟨_, hp, rs, hrs, clk, hclk, ka, hka, _, ⟨Nat.zero_le _, hst, rfl⟩, pol, hpol, _, ⟨rfl, hiv⟩, lm, hlm,
      _, ⟨hw, hw', rfl⟩, rfl, rfl⟩

theorem inputSettings_iff {i c w : Byte} {n : Input} {x : Option Chan} {on : Bool} :
    inputSettings [i, c, w] = some (n, x, on) ↔ n.val = i.toNat ∧ CarriesChan c x ∧ w = bFlag on := by
  simp only [inputSettings, Option.bind_eq_bind, Option.bind_eq_some_iff, below_iff, chan_iff, flag_iff, Option.some.injEq,
    Prod.mk.injEq]
  constructor
  · rintro ⟨_, hi, _, hc, _, hw, rfl, rfl, rfl⟩
    exact ⟨hi, hc, hw⟩
  · rintro ⟨hi, hc, hw⟩
    exact ⟨_, hi, _, hc, _, hw, rfl, rfl, rfl⟩

theorem footSettings_iff {b f p si sc : Byte} {n : FootLine} {x : FootFunction} {pol : Polarity} {src : Option (Input × Chan)} :
    footSettings [b, f, p, si, sc] = some (n, x, pol, src) ↔
      n.val = b.toNat ∧
      (match x with
        | .none => f = 0#8 | .nextScene => f = 1#8 | .prevScene => f = 2#8 | .nextSong => f = 3#8 | .tap => f = 4#8
        | .startStop => f = 5#8 | .holdGo => f = 6#8 | .panic => f = 7#8 | .sustain => f = 8#8) ∧
      (match pol with | .make => p = 0#8 | .break => p = 1#8) ∧
      (if x = .sustain then ∃ i c, src = some (i, c) ∧ i.val = si.toNat ∧ c.val = sc.toNat
       else src = none ∧ si = 0xFF#8 ∧ sc = 0xFF#8) := by
  simp only [footSettings, Option.bind_eq_bind, Option.bind_eq_some_iff, below_iff, footFunction_iff, polarity_iff]
  constructor
  · rintro ⟨m, hm, y, hy, q, hq, h⟩
    by_cases hsustain : y = .sustain
    · rw [if_pos hsustain] at h
      simp only [Option.bind_eq_some_iff, below_iff, Option.some.injEq, Prod.mk.injEq] at h
      obtain ⟨i, hi, c, hc, rfl, rfl, rfl, rfl⟩ := h
      exact ⟨hm, hy, hq, by rw [if_pos hsustain]; exact ⟨i, c, rfl, hi, hc⟩⟩
    · rw [if_neg hsustain] at h
      simp only [Option.ite_none_right_eq_some, Option.some.injEq, Prod.mk.injEq] at h
      obtain ⟨⟨hsi, hsc⟩, rfl, rfl, rfl, rfl⟩ := h
      exact ⟨hm, hy, hq, by rw [if_neg hsustain]; exact ⟨rfl, hsi, hsc⟩⟩
  · rintro ⟨hn, hx, hpol, h⟩
    refine ⟨n, hn, x, hx, pol, hpol, ?_⟩
    split at h
    · rename_i hsustain
      obtain ⟨i, c, rfl, hi, hc⟩ := h
      simp only [if_pos hsustain, Option.bind_eq_some_iff, below_iff]
      exact ⟨i, hi, c, hc, rfl⟩
    · rename_i hsustain
      obtain ⟨rfl, hsi, hsc⟩ := h
      rw [if_neg hsustain, if_pos ⟨hsi, hsc⟩]

/-- Settles O29: one equivalence for each record of the settings, and the readers of CUE. -/
theorem settingFields : Obligations.SettingFields := by
  unfold Obligations.SettingFields
  exact ⟨fun _ _ _ => clickSettings_iff, fun _ _ _ => portSettings_iff, fun _ _ _ _ _ _ => inputSettings_iff,
    fun _ _ _ _ _ _ _ _ _ => footSettings_iff, fun _ _ _ => cueForm_iff, fun _ _ => cueTiming_iff⟩

end Sys2Proof.Proofs.Records
end

section
/-! The library's requests (chapter 6): each owner by what it finds, one lemma a branch, and the table of each request. -/

namespace Sys2Proof.Proofs.LibraryTables

open Sys2Proof.Machine Sys2Proof.Laws Sys2Proof.Proofs.SetlistEdit

/-! ### A request that its owner answers -/

/-- A request that is taken at once has the outcome of its owner (R182). -/
theorem exec_of_serve {c : Instr} {l : Link} {k : ReqKind} {tag : Byte} {fields : List Byte} {s u : State} {a : Answer}
    (hc : requestOf c = some (l, k, tag, fields)) (hk : k.fits (lenByte fields) = true) (ht : Takes l s)
    (h : serve l k fields (found l s) = (u, a)) : exec c s = answered l k tag a u := by
  rw [served s hc hk ht, h]

/-- A request whose owner refuses it and changes nothing. -/
theorem exec_of_refusal {c : Instr} {l : Link} {k : ReqKind} {tag : Byte} {fields : List Byte} {s : State} {r : Result}
    (hc : requestOf c = some (l, k, tag, fields)) (hk : k.fits (lenByte fields) = true) (ht : Takes l s)
    (h : serve l k fields (found l s) = (found l s, .refuse r [])) : exec c s = refusedWith l k tag r s :=
  exec_of_serve hc hk ht h

/-! ### SONG_OPEN (R107) -/

section
variable {l : Link} {f : List Byte} {s : State} {n : SlotNo} {g : Song}

theorem songOpen_of_bad_header (h : songHeader f = none) : songOpen l f s = (s, .refuse .badField []) := by
  simp only [songOpen, h]

theorem songOpen_of_owned {m : SlotNo} (h : songHeader f = some (n, g)) (hown : s.ownedSlot l = some m) :
    songOpen l f s = (s, .refuse .wrongState []) := by
  simp only [songOpen, h, hown, Option.isSome_some, if_true]

theorem songOpen_of_open {o : Link} {x : Song} {k : Option Nat} (h : songHeader f = some (n, g)) (hown : s.ownedSlot l = none)
    (hslot : s.slot n = .building o x k) : songOpen l f s = (s, .refuse .inUse []) := by
  simp [songOpen, h, hown, hslot]

theorem songOpen_of_inUse {x : Song} (h : songHeader f = some (n, g)) (hown : s.ownedSlot l = none)
    (hslot : s.slot n = .ready x) (huse : s.inUse n = true) : songOpen l f s = (s, .refuse .inUse []) := by
  simp [songOpen, h, hown, hslot, huse]

theorem songOpen_of_free (h : songHeader f = some (n, g)) (hown : s.ownedSlot l = none)
    (hslot : s.slot n = .empty ∨ (∃ x, s.slot n = .ready x) ∧ s.inUse n = false) :
    songOpen l f s = (changeSlot l n (.building l g none) s, .ok []) := by
  rcases hslot with hempty | ⟨⟨x, hready⟩, hidle⟩
  · simp [songOpen, h, hown, hempty]
  · simp [songOpen, h, hown, hready, hidle]

/-- A header that is read has a name of 1 to 16 characters (R102). -/
theorem fits_songOpen {slot countIn mode phrase : Byte} {stopBar : Word} {name : List Byte} (h : name.length + 6 ≤ 58) :
    ReqKind.songOpen.fits (lenByte ([slot, countIn, mode, phrase] ++ stopBar.bytes ++ name)) =
      decide (1 ≤ name.length ∧ name.length ≤ 16) := by
  have hfields : ([slot, countIn, mode, phrase] ++ stopBar.bytes ++ name).length = name.length + 6 := by
    simp only [List.length_append, Word.bytes, List.length_cons, List.length_nil]
    omega
  have hlen := lenByte_toNat (fields := [slot, countIn, mode, phrase] ++ stopBar.bytes ++ name) (hfields ▸ h)
  rw [hfields] at hlen
  simp only [ReqKind.fits, ReqKind.lens, hlen, decide_eq_decide]
  omega

end

/-- Settles O30: the refusals of R107 in its order, and the slot that becomes OPEN. -/
theorem songOpenTable : Obligations.SongOpenTable := by
  unfold Obligations.SongOpenTable
  rintro l tag slot countIn mode phrase stopBar name s ht hname c rfl
  have hfits := fits_songOpen (slot := slot) (countIn := countIn) (mode := mode) (phrase := phrase) (stopBar := stopBar) hname
  refine ⟨fun hbad => ?_, fun n g hheader => ?_⟩
  · by_cases hlen : 1 ≤ name.length ∧ name.length ≤ 16
    · exact exec_of_refusal rfl (by rw [hfits]; exact decide_eq_true hlen) ht (songOpen_of_bad_header hbad)
    · exact served_unfit s rfl (by rw [hfits]; exact decide_eq_false hlen) ht
  · have htext : IsText 1 16 name := by
      obtain ⟨-, -, -, -, -, h, -⟩ := Records.songHeader_iff.mp hheader
      exact h
    have hfit := hfits.trans (decide_eq_true ⟨htext.1, htext.2.1⟩)
    have hown : ∀ {x}, s.ownedSlot l = x → (found l s).ownedSlot l = x := fun h => (found_ownedSlot l s l).trans h
    have hslot : ∀ {x}, s.slot n = x → (found l s).slot n = x := fun h => (found_slot l s n).trans h
    have huse : ∀ {x}, s.inUse n = x → (found l s).inUse n = x := fun h => (found_inUse l s n).trans h
    refine ⟨fun m h => ?_, fun h o x k hs => ?_, fun h x hs hu => ?_, fun h hs => ⟨?_, ?_⟩⟩
    · exact exec_of_refusal rfl hfit ht (songOpen_of_owned hheader (hown h))
    · exact exec_of_refusal rfl hfit ht (songOpen_of_open hheader (hown h) (hslot hs))
    · exact exec_of_refusal rfl hfit ht (songOpen_of_inUse hheader (hown h) (hslot hs) (huse hu))
    · refine exec_of_serve rfl hfit ht ((songOpen_of_free hheader (hown h) ?_).trans ?_)
      · exact hs.imp hslot (fun ⟨⟨x, hx⟩, hu⟩ => ⟨⟨x, hslot hx⟩, huse hu⟩)
      · rw [changeSlot, found_slot]
        rfl
    · obtain ⟨hz, hp⟩ := held_setSlot s n (.building l g none)
      obtain ⟨-, hscenes⟩ := songHeader_new hheader
      simp only [Slot.zoneItems, Slot.programItems, hscenes, List.map_nil, List.sum_nil, Nat.add_zero] at hz hp
      exact ⟨hz, hp⟩

/-! ### SONG_SEGMENT (R108) -/

section
variable {l : Link} {f : List Byte} {s : State} {n : SlotNo} {g : Song} {k : Option Nat} {x : Segment}

theorem songSegment_of_no_song (h : s.ownedSong l = none) : songSegment l f s = (s, .refuse .wrongState []) := by
  simp only [songSegment, h]

theorem songSegment_of_bad_fields (h : s.ownedSong l = some (n, g, k)) (hf : segmentRecord f = none) :
    songSegment l f s = (s, .refuse .badField []) := by
  simp only [songSegment, h, hf]

theorem songSegment_of_full (h : s.ownedSong l = some (n, g, k)) (hf : segmentRecord f = some x) (hfull : 8 ≤ g.segments.length) :
    songSegment l f s = (s, .refuse .full [1#8]) := by
  simp only [songSegment, h, hf]
  exact if_pos hfull

theorem songSegment_of_disorder (h : s.ownedSong l = some (n, g, k)) (hf : segmentRecord f = some x)
    (hroom : g.segments.length < 8) (horder : g.inOrder x = false) : songSegment l f s = (s, .refuse .badField []) := by
  simp only [songSegment, h, hf, horder]
  exact if_neg hroom.not_ge

theorem songSegment_of_room (h : s.ownedSong l = some (n, g, k)) (hf : segmentRecord f = some x)
    (hroom : g.segments.length < 8) (horder : g.inOrder x = true) :
    songSegment l f s =
      (s.setSlot n (.building l { g with segments := g.segments ++ [x] } k), .ok [b1 g.segments.length]) := by
  simp only [songSegment, h, hf, horder, if_true]
  exact if_neg hroom.not_ge

/-- The first segment starts at bar 1, every later one after the one before it (R108). -/
theorem inOrder_nil (h : g.segments = []) : g.inOrder x = decide (x.startBar = 1) := by
  simp only [Song.inOrder, h, List.getLast?_nil]

theorem inOrder_last {ys : List Segment} {y : Segment} (h : g.segments = ys ++ [y]) :
    g.inOrder x = decide (y.startBar < x.startBar) := by
  simp only [Song.inOrder, h, List.getLast?_append, List.getLast?_singleton, Option.some_or]

end

/-- Settles O31: the checks of R106, and the order of start bars. -/
theorem songSegmentTable : Obligations.SongSegmentTable := by
  unfold Obligations.SongSegmentTable
  intro l tag f s ht
  refine ⟨fun hnone => ?_, fun n g k hown hslot => ?_⟩
  · exact exec_of_refusal rfl rfl ht (songSegment_of_no_song (by simp [ownedSong_none hnone]))
  · have hsong : (found l s).ownedSong l = some (n, g, k) := by simp [ownedSong_eq hown hslot]
    refine ⟨fun hbad => ?_, fun x hx => ⟨fun hfull => ?_, fun hroom horder => ?_, fun hroom horder => ?_⟩⟩
    · exact exec_of_refusal rfl rfl ht (songSegment_of_bad_fields hsong hbad)
    · exact exec_of_serve rfl rfl ht (songSegment_of_full hsong hx hfull)
    · refine exec_of_refusal rfl rfl ht (songSegment_of_disorder hsong hx hroom ?_)
      rcases horder with ⟨hnil, hbar⟩ | ⟨ys, y, hlast, hbar⟩
      · exact (inOrder_nil hnil).trans (decide_eq_false hbar)
      · exact (inOrder_last hlast).trans (decide_eq_false hbar.not_gt)
    · refine exec_of_serve rfl rfl ht (songSegment_of_room hsong hx hroom ?_)
      rcases horder with ⟨hnil, hbar⟩ | ⟨ys, y, hlast, hbar⟩
      · exact (inOrder_nil hnil).trans (decide_eq_true hbar)
      · exact (inOrder_last hlast).trans (decide_eq_true hbar)

/-! ### SONG_ERASE and SONG_QUERY (R113, R114) -/

section
variable {l : Link} {b : Byte} {s : State} {n : SlotNo}

theorem songErase_of_bad_field (h : 48 ≤ b.toNat) : songErase l [b] s = (s, .refuse .badField []) := by
  simp only [songErase, below_eq_none h]

theorem songErase_of_empty (hn : below 48 b = some n) (hslot : s.slot n = .empty) : songErase l [b] s = (s, .ok []) := by
  simp only [songErase, hn, hslot]

theorem songErase_of_other {o : Link} {g : Song} {k : Option Nat} (hn : below 48 b = some n) (hslot : s.slot n = .building o g k)
    (ho : o ≠ l) : songErase l [b] s = (s, .refuse .inUse []) := by
  simp only [songErase, hn, hslot, if_neg ho]

theorem songErase_of_inUse {g : Song} (hn : below 48 b = some n) (hslot : s.slot n = .ready g) (huse : s.inUse n = true) :
    songErase l [b] s = (s, .refuse .inUse []) := by
  simp only [songErase, hn, hslot, huse, if_true]

theorem songErase_of_free (hn : below 48 b = some n)
    (hslot : (∃ g k, s.slot n = .building l g k) ∨ (∃ g, s.slot n = .ready g) ∧ s.inUse n = false) :
    songErase l [b] s = (changeSlot l n .empty s, .ok []) := by
  rcases hslot with ⟨g, k, hopen⟩ | ⟨⟨g, hready⟩, hidle⟩
  · simp only [songErase, hn, hopen, if_true]
  · simp [songErase, hn, hready, hidle]

theorem songQuery_of_bad_field (h : 48 ≤ b.toNat) : songQuery [b] s = (s, .refuse .badField []) := by
  simp only [songQuery, below_eq_none h]

theorem songQuery_of_slot (hn : below 48 b = some n) : songQuery [b] s = (s, .ok (songData n s)) := by
  simp only [songQuery, hn]

/-- A link whose only OPEN slot is emptied owns none. -/
theorem ownedSlot_erased {g : Song} {k : Option Nat} (h : OwnersOk s) (hslot : s.slot n = .building l g k) :
    (s.setSlot n .empty).ownedSlot l = none := by
  refine List.find?_eq_none.mpr fun m _ hm => ?_
  by_cases e : m = n
  · subst e
    rw [slot_setSlot] at hm
    exact absurd hm nofun
  · rw [slot_setSlot_ne _ _ _ _ e] at hm
    exact e (h l m n hm (by rw [hslot]; exact decide_eq_true rfl))

end

theorem link_other_ne (l : Link) : l.other ≠ l := by cases l <;> decide

/-- Settles O35: the slot's states, and the items and the owner that go with an emptied slot. -/
theorem songEraseTable : Obligations.SongEraseTable := by
  unfold Obligations.SongEraseTable
  intro l tag b s ht
  refine ⟨fun hbad => exec_of_refusal rfl rfl ht (songErase_of_bad_field hbad), fun n hn => ?_⟩
  have hbelow : below 48 b = some n := below_iff.mpr hn
  have hslot : ∀ {x}, s.slot n = x → (found l s).slot n = x := fun h => (found_slot l s n).trans h
  have huse : ∀ {x}, s.inUse n = x → (found l s).inUse n = x := fun h => (found_inUse l s n).trans h
  refine ⟨fun h => ?_, fun g k h => ?_, fun g h hu => ?_, fun h => ?_⟩
  · exact exec_of_serve rfl rfl ht (songErase_of_empty hbelow (hslot h))
  · exact exec_of_refusal rfl rfl ht (songErase_of_other hbelow (hslot h) (link_other_ne l))
  · exact exec_of_refusal rfl rfl ht (songErase_of_inUse hbelow (hslot h) (huse hu))
  · have hfree := songErase_of_free (l := l) hbelow (s := found l s)
      (h.imp (fun ⟨g, k, hg⟩ => ⟨g, k, hslot hg⟩) (fun ⟨⟨g, hg⟩, hu⟩ => ⟨⟨g, hslot hg⟩, huse hu⟩))
    obtain ⟨hz, hp⟩ := held_setSlot (found l s) n .empty
    rw [found_slot] at hz hp
    refine ⟨_, (exec_of_serve (k := .songErase) (fields := [b]) rfl rfl ht hfree).trans ?_, rfl, hz.trans (found_zoneHeld l s), hp.trans (found_programHeld l s),
      found_setlist l s, fun hok g k hg => ?_⟩
    · rw [changeSlot, found_slot]
      rfl
    · refine ownedSlot_erased (s := found l s) (fun m i j hi hj => ?_) (hslot hg)
      rw [found_slot] at hi hj
      exact hok m i j hi hj

theorem freeCounts (s : State) : b2 s.zoneFree ++ b2 s.programFree = b2 (768 - s.zoneHeld) ++ b2 (512 - s.programHeld) := rfl

/-- Settles O39: the reply by the slot's state. -/
theorem songQueryTable : Obligations.SongQueryTable := by
  unfold Obligations.SongQueryTable
  intro l tag b s ht
  refine ⟨fun hbad => exec_of_refusal rfl rfl ht (songQuery_of_bad_field hbad), fun n hn free hfree => ?_⟩
  subst hfree
  have hdata : ∀ d, songData n (found l s) = d → exec (.songQuery l tag b) s = answered l .songQuery tag (.ok d) (found l s) :=
    fun d hd => exec_of_serve rfl rfl ht (hd ▸ songQuery_of_slot (below_iff.mpr hn))
  have hsongs : ∀ x g, songFields x g (found l s) = [b1 g.countIn, g.startMode.code, b1 g.phrase] ++ b2 (g.stopBar.getD 0) ++
      [b1 g.segments.length, b1 g.scenes.length, b1 x.zoneItems, b1 x.programItems] ++
      (b2 (768 - s.zoneHeld) ++ b2 (512 - s.programHeld)) ++ g.sceneCounts ++ g.name := by
    intro x g
    rw [songFields, found_zoneFree, found_programFree, ← freeCounts]
    simp only [List.append_assoc]
  refine ⟨fun h => hdata _ ?_, fun g body hbody => ⟨fun o k h => hdata _ ?_, fun h => hdata _ ?_⟩⟩
  · rw [songData, found_slot, h]
    dsimp only
    rw [found_zoneFree, found_programFree, List.append_assoc, freeCounts]
    rfl
  · rw [songData, found_slot, h]
    dsimp only
    rw [hsongs, hbody]
    rfl
  · rw [songData, found_slot, h]
    dsimp only
    rw [hsongs, hbody, found_inUse]
    rfl

/-! ### SONG_CLOSE (R112) -/

/-- A ramp ends by the start of the segment after it (R112). -/
def rampFits (x y : Segment) : Prop := 0 < x.rampBars → x.startBar + x.rampBars ≤ y.startBar

theorem rampOverlap_first : ∀ (xs : List Segment) (i k : Nat) (x y : Segment), xs[i]? = some x → xs[i + 1]? = some y →
    0 < x.rampBars → y.startBar < x.startBar + x.rampBars →
    (∀ j x' y', j < i → xs[j]? = some x' → xs[j + 1]? = some y' → rampFits x' y') → rampOverlap k xs = some (k + i)
  | [], _, _, _, _, h, _, _, _, _ => absurd h nofun
  | [_], 0, _, _, _, _, h, _, _, _ => absurd h nofun
  | [_], _ + 1, _, _, _, h, _, _, _, _ => absurd h nofun
  | a :: b :: rest, 0, k, x, y, hx, hy, hramp, hover, _ => by
    obtain rfl : a = x := Option.some.inj hx
    obtain rfl : b = y := Option.some.inj hy
    rw [rampOverlap, if_pos ⟨hramp, hover⟩, Nat.add_zero]
  | a :: b :: rest, i + 1, k, x, y, hx, hy, hramp, hover, hbefore => by
    have hfits : rampFits a b := hbefore 0 a b (Nat.succ_pos i) rfl rfl
    have hrest := rampOverlap_first (b :: rest) i (k + 1) x y hx hy hramp hover
      (fun j x' y' hj => hbefore (j + 1) x' y' (Nat.succ_lt_succ hj))
    rw [rampOverlap, if_neg (fun h => absurd (hfits h.1) h.2.not_ge), hrest]
    exact congrArg some (by omega)

theorem rampOverlap_none : ∀ (xs : List Segment) (k : Nat),
    (∀ j x y, xs[j]? = some x → xs[j + 1]? = some y → rampFits x y) → rampOverlap k xs = none
  | [], _, _ => rfl
  | [_], _, _ => rfl
  | a :: b :: rest, k, h => by
    rw [rampOverlap, if_neg (fun hover => absurd (h 0 a b rfl rfl hover.1) hover.2.not_ge)]
    exact rampOverlap_none (b :: rest) (k + 1) (fun j x y => h (j + 1) x y)

section
variable {l : Link} {s : State} {n : SlotNo} {g : Song} {k : Option Nat}

theorem songClose_of_no_song (h : s.ownedSong l = none) : songClose l s = (s, .refuse .wrongState []) := by
  simp only [songClose, h]

theorem songClose_of_fault {why : SongFault} {i : Option Nat} (h : s.ownedSong l = some (n, g, k))
    (hfault : g.closeFault = some (why, i)) : songClose l s = (s, .refuse .badSong [why.code, bOpt b1 i]) := by
  simp only [songClose, h, hfault]

theorem songClose_of_good (h : s.ownedSong l = some (n, g, k)) (hgood : g.closeFault = none) :
    songClose l s = (changeSlot l n (.ready g) s,
      .ok [b1 g.segments.length, b1 g.scenes.length, b1 (g.scenes.map (fun sc => sc.zones.length)).sum,
        b1 (g.scenes.map (fun sc => sc.assignments.length)).sum]) := by
  simp only [songClose, h, hgood]
  rfl

theorem closeFault_noSegment (h : g.segments = []) : g.closeFault = some (.noSegment, none) := by
  simp [Song.closeFault, h]

theorem closeFault_noScene (h : g.segments ≠ []) (hs : g.scenes = []) : g.closeFault = some (.noScene, none) := by
  simp [Song.closeFault, h, hs]

theorem closeFault_ramps (h : g.segments ≠ []) (hs : g.scenes ≠ []) :
    g.closeFault = (rampOverlap 0 g.segments).map (fun i => (.rampOverlap, some i)) := by
  simp [Song.closeFault, h, hs]

end

/-- Settles O34: the close checks of R112 in their order. -/
theorem songCloseTable : Obligations.SongCloseTable := by
  unfold Obligations.SongCloseTable
  intro l tag s ht
  refine ⟨fun hnone => ?_, fun n g k hown hslot => ?_⟩
  · exact exec_of_refusal rfl rfl ht (songClose_of_no_song (by simp [ownedSong_none hnone]))
  · have hsong : (found l s).ownedSong l = some (n, g, k) := by simp [ownedSong_eq hown hslot]
    refine ⟨fun h => ?_, fun h hs => ?_, fun i x y hx hy hramp hover hs hbefore => ?_, fun h hs hfit => ?_⟩
    · exact exec_of_serve rfl rfl ht (songClose_of_fault hsong (closeFault_noSegment h))
    · exact exec_of_serve rfl rfl ht (songClose_of_fault hsong (closeFault_noScene h hs))
    · have h : g.segments ≠ [] := fun e => absurd (e ▸ hx) nofun
      have hfault := rampOverlap_first g.segments i 0 x y hx hy hramp hover hbefore
      rw [Nat.zero_add] at hfault
      exact exec_of_serve rfl rfl ht (songClose_of_fault (why := .rampOverlap) (i := some i) hsong
        (by rw [closeFault_ramps h hs, hfault]; rfl))
    · have hgood : g.closeFault = none := by
        rw [closeFault_ramps h hs, rampOverlap_none g.segments 0 hfit]
        rfl
      refine (exec_of_serve (k := .songClose) (fields := []) rfl rfl ht (songClose_of_good hsong hgood)).trans ?_
      rw [changeSlot, found_slot, hslot]
      rfl

/-! ### SCENE_ZONE and SCENE_PROGRAM (R110, R111) -/

theorem ownedScene_eq {l : Link} {s : State} {n : SlotNo} {g : Song} {k : Nat} {sc : Scene} (hown : s.ownedSlot l = some n)
    (hslot : s.slot n = .building l g (some k)) (hsc : g.scenes[k]? = some sc) : s.ownedScene l = some (n, g, k, sc) := by
  simp only [State.ownedScene, ownedSong_eq hown hslot, hsc, Option.map_some]

theorem ownedScene_of_no_song {l : Link} {s : State} (h : s.ownedSlot l = none) : s.ownedScene l = none := by
  simp only [State.ownedScene, ownedSong_none h]

theorem ownedScene_of_no_cursor {l : Link} {s : State} {n : SlotNo} {g : Song} (hown : s.ownedSlot l = some n)
    (hslot : s.slot n = .building l g none) : s.ownedScene l = none := by
  simp only [State.ownedScene, ownedSong_eq hown hslot]

theorem zoneFree_eq_zero {s : State} : s.zoneFree = 0 ↔ 768 ≤ s.zoneHeld := Nat.sub_eq_zero_iff_le

theorem programFree_eq_zero {s : State} : s.programFree = 0 ↔ 512 ≤ s.programHeld := Nat.sub_eq_zero_iff_le

/-- The pools after a scene of an OPEN song is replaced (R104). -/
theorem held_putScene {l : Link} {s : State} {n : SlotNo} {g : Song} {k : Nat} {sc x : Scene}
    (hslot : s.slot n = .building l g (some k)) (hsc : g.scenes[k]? = some sc) :
    (putScene l n g k x s).zoneHeld + sc.zones.length = s.zoneHeld + x.zones.length ∧
      (putScene l n g k x s).programHeld + sc.assignments.length = s.programHeld + x.assignments.length := by
  obtain ⟨hz, hp⟩ := held_setSlot s n (.building l { g with scenes := g.scenes.set k x } (some k))
  have hzones := sum_map_set (fun sc : Scene => sc.zones.length) x g.scenes k sc hsc
  have hprograms := sum_map_set (fun sc : Scene => sc.assignments.length) x g.scenes k sc hsc
  rw [hslot] at hz hp
  simp only [Slot.zoneItems, Slot.programItems] at hz hp
  constructor
  · show (s.setSlot n _).zoneHeld + _ = _
    omega
  · show (s.setSlot n _).programHeld + _ = _
    omega

section
variable {l : Link} {f : List Byte} {s : State} {n : SlotNo} {g : Song} {k : Nat} {sc : Scene} {z : Zone} {a : Assignment}

theorem sceneZone_of_no_scene (h : s.ownedScene l = none) : sceneZone l f s = (s, .refuse .wrongState []) := by
  simp only [sceneZone, h]

theorem sceneZone_of_bad_fields (h : s.ownedScene l = some (n, g, k, sc)) (hf : zoneRecord f = none) :
    sceneZone l f s = (s, .refuse .badField []) := by
  simp only [sceneZone, h, hf]

theorem sceneZone_of_full (h : s.ownedScene l = some (n, g, k, sc)) (hf : zoneRecord f = some z) (hfull : 16 ≤ sc.zones.length) :
    sceneZone l f s = (s, .refuse .full [3#8]) := by
  simp only [sceneZone, h, hf]
  exact if_pos hfull

theorem sceneZone_of_empty_pool (h : s.ownedScene l = some (n, g, k, sc)) (hf : zoneRecord f = some z)
    (hroom : sc.zones.length < 16) (hpool : 768 ≤ s.zoneHeld) : sceneZone l f s = (s, .refuse .full [4#8]) := by
  simp only [sceneZone, h, hf, zoneFree_eq_zero.mpr hpool, if_true]
  exact if_neg hroom.not_ge

theorem sceneZone_of_room (h : s.ownedScene l = some (n, g, k, sc)) (hf : zoneRecord f = some z)
    (hroom : sc.zones.length < 16) (hpool : s.zoneHeld < 768) :
    sceneZone l f s = (putScene l n g k { sc with zones := sc.zones ++ [z] } s,
      .ok (b1 sc.zones.length :: b2 (768 - (putScene l n g k { sc with zones := sc.zones ++ [z] } s).zoneHeld))) := by
  simp only [sceneZone, h, hf, if_neg (fun e => hpool.not_ge (zoneFree_eq_zero.mp e))]
  exact if_neg hroom.not_ge

theorem sceneProgram_of_no_scene (h : s.ownedScene l = none) : sceneProgram l f s = (s, .refuse .wrongState []) := by
  simp only [sceneProgram, h]

theorem sceneProgram_of_bad_fields (h : s.ownedScene l = some (n, g, k, sc)) (hf : assignmentRecord f = none) :
    sceneProgram l f s = (s, .refuse .badField []) := by
  simp only [sceneProgram, h, hf]

theorem sceneProgram_of_place {i : Nat} (h : s.ownedScene l = some (n, g, k, sc)) (hf : assignmentRecord f = some a)
    (hplace : sc.placeOf a = some i) :
    sceneProgram l f s = (putScene l n g k { sc with assignments := sc.assignments.set i a } s,
      .ok (1#8 :: b1 i :: b2 (512 - s.programHeld))) := by
  simp only [sceneProgram, h, hf, hplace]
  rfl

theorem sceneProgram_of_full (h : s.ownedScene l = some (n, g, k, sc)) (hf : assignmentRecord f = some a)
    (hnew : sc.placeOf a = none) (hfull : 16 ≤ sc.assignments.length) : sceneProgram l f s = (s, .refuse .full [3#8]) := by
  simp only [sceneProgram, h, hf, hnew]
  exact if_pos hfull

theorem sceneProgram_of_empty_pool (h : s.ownedScene l = some (n, g, k, sc)) (hf : assignmentRecord f = some a)
    (hnew : sc.placeOf a = none) (hroom : sc.assignments.length < 16) (hpool : 512 ≤ s.programHeld) :
    sceneProgram l f s = (s, .refuse .full [4#8]) := by
  simp only [sceneProgram, h, hf, hnew, programFree_eq_zero.mpr hpool, if_true]
  exact if_neg hroom.not_ge

theorem sceneProgram_of_room (h : s.ownedScene l = some (n, g, k, sc)) (hf : assignmentRecord f = some a)
    (hnew : sc.placeOf a = none) (hroom : sc.assignments.length < 16) (hpool : s.programHeld < 512) :
    sceneProgram l f s = (putScene l n g k { sc with assignments := sc.assignments ++ [a] } s,
      .ok (0#8 :: b1 sc.assignments.length ::
        b2 (512 - (putScene l n g k { sc with assignments := sc.assignments ++ [a] } s).programHeld))) := by
  simp only [sceneProgram, h, hf, hnew, if_neg (fun e => hpool.not_ge (programFree_eq_zero.mp e))]
  exact if_neg hroom.not_ge

/-- The place of an assignment is the first of its port and channel (R111). -/
theorem placeOf_split {xs ys : List Assignment} {y : Assignment} (h : sc.assignments = xs ++ y :: ys) (hp : y.port = a.port)
    (hc : y.chan = a.chan) (hxs : ∀ x ∈ xs, ¬ (x.port = a.port ∧ x.chan = a.chan)) : sc.placeOf a = some xs.length := by
  unfold Scene.placeOf
  rw [h, List.findIdx?_append, List.findIdx?_eq_none_iff.mpr (fun x hx => decide_eq_false (hxs x hx)), List.findIdx?_cons,
    if_pos (decide_eq_true ⟨hp, hc⟩)]
  simp

/-- An assignment for a port and channel that the scene has is replaced in its place (R111). -/
theorem sceneProgram_of_split {xs ys : List Assignment} {y : Assignment} (h : s.ownedScene l = some (n, g, k, sc))
    (hf : assignmentRecord f = some a) (hlist : sc.assignments = xs ++ y :: ys) (hp : y.port = a.port) (hc : y.chan = a.chan)
    (hxs : ∀ x ∈ xs, ¬ (x.port = a.port ∧ x.chan = a.chan)) :
    sceneProgram l f s = (putScene l n g k { sc with assignments := xs ++ a :: ys } s,
      .ok (1#8 :: b1 xs.length :: b2 (512 - s.programHeld))) := by
  have hset : sc.assignments.set xs.length a = xs ++ a :: ys := by
    rw [hlist, List.set_append_right _ _ (Nat.le_refl _), Nat.sub_self]
    rfl
  rw [sceneProgram_of_place h hf (placeOf_split hlist hp hc hxs), hset]

theorem placeOf_none (h : ∀ x ∈ sc.assignments, ¬ (x.port = a.port ∧ x.chan = a.chan)) : sc.placeOf a = none :=
  List.findIdx?_eq_none_iff.mpr fun x hx => decide_eq_false (h x hx)

end

/-- Settles O33: both requests find the scene under the cursor, read their fields, and look at the list and the pool. -/
theorem sceneItemsTable : Obligations.SceneItemsTable := by
  unfold Obligations.SceneItemsTable
  refine ⟨fun l tag f s ht => ⟨fun h => ?_, fun n g hown hslot => ?_, fun n g k sc hown hslot hsc => ?_⟩,
    fun l tag p c m b n' s ht => ⟨fun h => ?_, fun n g hown hslot => ?_, fun n g k sc hown hslot hsc => ?_⟩⟩
  · exact exec_of_refusal rfl rfl ht (sceneZone_of_no_scene (by rw [found_ownedScene, ownedScene_of_no_song h]))
  · exact exec_of_refusal rfl rfl ht (sceneZone_of_no_scene (by rw [found_ownedScene, ownedScene_of_no_cursor hown hslot]))
  · have hscene : (found l s).ownedScene l = some (n, g, k, sc) := by rw [found_ownedScene, ownedScene_eq hown hslot hsc]
    have hheld := found_zoneHeld l s
    refine ⟨fun hbad => ?_, fun z hz => ⟨fun hfull => ?_, fun hroom hpool => ?_, fun hroom hpool => ?_⟩⟩
    · exact exec_of_refusal rfl rfl ht (sceneZone_of_bad_fields hscene hbad)
    · exact exec_of_serve rfl rfl ht (sceneZone_of_full hscene hz hfull)
    · exact exec_of_serve rfl rfl ht (sceneZone_of_empty_pool hscene hz hroom (hheld ▸ hpool))
    · refine ⟨_, exec_of_serve rfl rfl ht (sceneZone_of_room hscene hz hroom (hheld ▸ hpool)), rfl, ?_⟩
      obtain ⟨hzones, hprograms⟩ := held_putScene (x := { sc with zones := sc.zones ++ [z] }) ((found_slot l s n).trans hslot) hsc
      rw [found_zoneHeld, List.length_append, List.length_singleton] at hzones
      rw [found_programHeld] at hprograms
      exact ⟨by omega, Nat.add_right_cancel hprograms⟩
  · exact exec_of_refusal rfl rfl ht (sceneProgram_of_no_scene (by rw [found_ownedScene, ownedScene_of_no_song h]))
  · exact exec_of_refusal rfl rfl ht (sceneProgram_of_no_scene (by rw [found_ownedScene, ownedScene_of_no_cursor hown hslot]))
  · have hscene : (found l s).ownedScene l = some (n, g, k, sc) := by rw [found_ownedScene, ownedScene_eq hown hslot hsc]
    have hheld := found_programHeld l s
    have hpools := fun x => held_putScene (x := x) ((found_slot l s n).trans hslot) hsc
    rw [found_zoneHeld, found_programHeld] at hpools
    refine ⟨fun hbad => ?_, fun a ha => ⟨fun xs y ys hlist hp hc hxs => ?_, fun habsent => ?_⟩⟩
    · exact exec_of_refusal rfl rfl ht (sceneProgram_of_bad_fields hscene hbad)
    · have hserve := sceneProgram_of_split hscene ha hlist hp hc hxs
      rw [hheld] at hserve
      refine ⟨_, exec_of_serve (k := .sceneProgram) (fields := [p, c, m, b, n']) rfl rfl ht hserve, ?_, ?_⟩
      · rfl
      · obtain ⟨hzones, hprograms⟩ := hpools { sc with assignments := xs ++ a :: ys }
        rw [hlist, List.length_append, List.length_append, List.length_cons, List.length_cons] at hprograms
        exact ⟨Nat.add_right_cancel hzones, Nat.add_right_cancel hprograms⟩
    · have hnew := placeOf_none habsent
      refine ⟨fun hfull => ?_, fun hroom hpool => ?_, fun hroom hpool => ?_⟩
      · exact exec_of_serve rfl rfl ht (sceneProgram_of_full hscene ha hnew hfull)
      · exact exec_of_serve rfl rfl ht (sceneProgram_of_empty_pool hscene ha hnew hroom (hheld ▸ hpool))
      · refine ⟨_, exec_of_serve rfl rfl ht (sceneProgram_of_room hscene ha hnew hroom (hheld ▸ hpool)), rfl, ?_⟩
        obtain ⟨hzones, hprograms⟩ := hpools { sc with assignments := sc.assignments ++ [a] }
        rw [List.length_append, List.length_singleton] at hprograms
        exact ⟨Nat.add_right_cancel hzones, by omega⟩

end Sys2Proof.Proofs.LibraryTables
end

section
/-! SET_CLEAR and SET_QUERY (R120, R198): the six-bit codes and the READY set of the reply. -/

namespace Sys2Proof.Proofs.SetQuery

open Sys2Proof.Machine Sys2Proof.Laws Sys2Proof.Proofs.LibraryTables

/-! ### Six-bit codes (R198) -/

section
variable (x y z : Byte) (d : List Byte)

theorem sixBits_zero : sixBits (x :: d) 0 = x.toNat / 4 := by
  have hy := (d.getD 0 0xFF#8).isLt
  have hx := x.isLt
  show (x.toNat * 256 + (d.getD 0 0xFF#8).toNat) / 2 ^ 10 % 64 = _
  omega

theorem sixBits_one : sixBits (x :: y :: d) 1 = x.toNat % 4 * 16 + y.toNat / 16 := by
  have hy := y.isLt
  show (x.toNat * 256 + y.toNat) / 2 ^ 4 % 64 = _
  omega

theorem sixBits_two : sixBits (x :: y :: z :: d) 2 = y.toNat % 16 * 4 + z.toNat / 64 := by
  have hz := z.isLt
  show (y.toNat * 256 + z.toNat) / 2 ^ 6 % 64 = _
  omega

theorem sixBits_three : sixBits (x :: y :: z :: d) 3 = z.toNat % 64 := by
  have hd := (d.getD 0 0xFF#8).isLt
  show (z.toNat * 256 + (d.getD 0 0xFF#8).toNat) / 2 ^ 8 % 64 = _
  omega

/-- Four codes fill three bytes. -/
theorem sixBits_cons (k : Nat) : sixBits (x :: y :: z :: d) (k + 4) = sixBits d k := by
  have hdiv : 6 * (k + 4) / 8 = 6 * k / 8 + 3 := by omega
  have hmod : 6 * (k + 4) % 8 = 6 * k % 8 := by omega
  unfold sixBits
  rw [hdiv, hmod]
  rfl

end

theorem byte_toNat {n : Nat} (h : n < 256) : (b1 n).toNat = n := by
  rw [b1, BitVec.toNat_ofNat, Nat.mod_eq_of_lt h]

/-- Every code is found at its place. -/
theorem sixBits_packCodes : ∀ (cs : List Nat), (∀ c ∈ cs, c < 64) → ∀ k (hk : k < cs.length), sixBits (packCodes cs) k = cs[k]
  | [], _, _, h => absurd h (Nat.not_lt_zero _)
  | [a], h, 0, _ => by
    have ha := h a (by simp)
    rw [packCodes, sixBits_zero, byte_toNat (by omega), List.getElem_cons_zero]
    omega
  | [a, b], h, 0, _ => by
    have ha := h a (by simp)
    have hb := h b (by simp)
    rw [packCodes, sixBits_zero, byte_toNat (by omega), List.getElem_cons_zero]
    omega
  | [a, b], h, 1, _ => by
    have ha := h a (by simp)
    have hb := h b (by simp)
    rw [packCodes, sixBits_one, byte_toNat (by omega), byte_toNat (by omega)]
    show _ = b
    omega
  | [a, b, c], h, 0, _ => by
    have ha := h a (by simp)
    have hb := h b (by simp)
    rw [packCodes, sixBits_zero, byte_toNat (by omega), List.getElem_cons_zero]
    omega
  | [a, b, c], h, 1, _ => by
    have ha := h a (by simp)
    have hb := h b (by simp)
    have hc := h c (by simp)
    rw [packCodes, sixBits_one, byte_toNat (by omega), byte_toNat (by omega)]
    show _ = b
    omega
  | [a, b, c], h, 2, _ => by
    have hb := h b (by simp)
    have hc := h c (by simp)
    rw [packCodes, sixBits_two, byte_toNat (by omega), byte_toNat (by omega)]
    show _ = c
    omega
  | a :: b :: c :: d :: rest, h, 0, _ => by
    have ha := h a (by simp)
    have hb := h b (by simp)
    rw [packCodes, List.cons_append, sixBits_zero, byte_toNat (by omega), List.getElem_cons_zero]
    omega
  | a :: b :: c :: d :: rest, h, 1, _ => by
    have ha := h a (by simp)
    have hb := h b (by simp)
    have hc := h c (by simp)
    rw [packCodes, List.cons_append, List.cons_append, sixBits_one, byte_toNat (by omega), byte_toNat (by omega)]
    show _ = b
    omega
  | a :: b :: c :: d :: rest, h, 2, _ => by
    have hb := h b (by simp)
    have hc := h c (by simp)
    have hd := h d (by simp)
    rw [packCodes, List.cons_append, List.cons_append, List.cons_append, sixBits_two, byte_toNat (by omega), byte_toNat (by omega)]
    show _ = c
    omega
  | a :: b :: c :: d :: rest, h, 3, _ => by
    have hd := h d (by simp)
    rw [packCodes, List.cons_append, List.cons_append, List.cons_append, sixBits_three, byte_toNat (by omega)]
    show _ = d
    omega
  | a :: b :: c :: d :: rest, h, k + 4, hk => by
    rw [packCodes, List.cons_append, List.cons_append, List.cons_append, List.nil_append, sixBits_cons]
    exact sixBits_packCodes rest (fun x hx => h x (by simp [hx])) k (by simp only [List.length_cons] at hk; omega)

theorem packCodes_length : ∀ cs : List Nat, (packCodes cs).length = (6 * cs.length + 7) / 8
  | [] => rfl
  | [_] => by simp [packCodes]
  | [_, _] => by simp [packCodes]
  | [_, _, _] => by simp [packCodes]
  | a :: b :: c :: d :: rest => by
    rw [packCodes, List.length_append, packCodes_length rest]
    simp only [List.length_cons, List.length_nil]
    omega

/-- A byte's low bits that are all set. -/
theorem getLsbD_of_ones {n m i : Nat} (hm : m ≤ 8) (h : n % 2 ^ m = 2 ^ m - 1) (hi : i < m) : (b1 n).getLsbD i = true := by
  have hbit : (n % 2 ^ m).testBit i = true := by
    rw [h, Nat.testBit_two_pow_sub_one]
    exact decide_eq_true hi
  rw [Nat.testBit_mod_two_pow, decide_eq_true hi, Bool.true_and] at hbit
  rw [b1, BitVec.getLsbD_ofNat, hbit, decide_eq_true (show i < 8 by omega)]
  rfl

/-- The bits left over in the last byte are set. -/
theorem packCodes_last : ∀ cs : List Nat, ∀ b, (packCodes cs).getLast? = some b →
    ∀ i, i < 8 * (packCodes cs).length - 6 * cs.length → b.getLsbD i = true
  | [], _, h, _, _ => absurd h nofun
  | [a], _, h, i, hi => by
    obtain rfl := Option.some.inj h
    exact getLsbD_of_ones (m := 2) (by decide) (by omega) hi
  | [a, c], _, h, i, hi => by
    obtain rfl := Option.some.inj h
    exact getLsbD_of_ones (m := 4) (by decide) (by omega) hi
  | [a, c, d], _, h, i, hi => by
    obtain rfl := Option.some.inj h
    exact getLsbD_of_ones (m := 6) (by decide) (by omega) hi
  | a :: c :: d :: e :: rest, b, h, i, hi => by
    have hlen := packCodes_length rest
    rw [packCodes] at h hi
    simp only [List.length_append, List.length_cons, List.length_nil] at hi
    by_cases hrest : packCodes rest = []
    · have hzero : (packCodes rest).length = 0 := List.length_eq_zero_iff.mpr hrest
      omega
    · rw [List.getLast?_append_of_ne_nil _ hrest] at h
      exact packCodes_last rest b h i (by omega)

/-! ### The codes of the positions -/

theorem positionCodes_lt (setlist : List SlotNo) : ∀ c ∈ positionCodes setlist, c < 64 := by
  intro c hc
  rcases List.mem_append.mp hc with hc | hc
  · obtain ⟨n, -, rfl⟩ := List.mem_map.mp hc
    exact n.isLt.trans (by decide)
  · split at hc
    · obtain rfl := List.mem_singleton.mp hc
      decide
    · exact absurd hc List.not_mem_nil

theorem positionCodes_length (setlist : List SlotNo) :
    (positionCodes setlist).length = setlist.length + (if setlist.length < 64 then 1 else 0) := by
  unfold positionCodes
  rw [List.length_append, List.length_map]
  show _ + (if setlist.length < 64 then [63] else []).length = _
  split <;> rfl

theorem sixBits_position {setlist : List SlotNo} {k : Nat} {n : SlotNo} (h : setlist[k]? = some n) :
    sixBits (packCodes (positionCodes setlist)) k = n.val := by
  obtain ⟨hk, hn⟩ := List.getElem?_eq_some_iff.mp h
  have hlen := positionCodes_length setlist
  rw [sixBits_packCodes _ (positionCodes_lt setlist) k (by omega)]
  unfold positionCodes
  rw [List.getElem_append_left (by rw [List.length_map]; exact hk), List.getElem_map, hn]

theorem sixBits_end {setlist : List SlotNo} (h : setlist.length < 64) :
    sixBits (packCodes (positionCodes setlist)) setlist.length = 63 := by
  have hlen := positionCodes_length setlist
  rw [if_pos h] at hlen
  rw [sixBits_packCodes _ (positionCodes_lt setlist) _ (by omega)]
  have hcodes : positionCodes setlist = setlist.map (fun n => n.val) ++ [63] := by
    unfold positionCodes
    exact congrArg _ (if_pos h)
  simp only [hcodes]
  rw [List.getElem_append_right (by rw [List.length_map])]
  simp

/-! ### The READY set (R198) -/

/-- The byte of a set of eight bits, member by member. -/
theorem setByte_bit (p : Nat → Bool) (i : Nat) (hi : i < 8) :
    (b1 (([0, 1, 2, 3, 4, 5, 6, 7].map (fun b => if p b then 2 ^ b else 0)).sum)).getLsbD i = p i := by
  have hall : ∀ (p0 p1 p2 p3 p4 p5 p6 p7 : Bool) (j : Fin 8),
      (b1 ([if p0 then 2 ^ 0 else 0, if p1 then 2 ^ 1 else 0, if p2 then 2 ^ 2 else 0, if p3 then 2 ^ 3 else 0,
        if p4 then 2 ^ 4 else 0, if p5 then 2 ^ 5 else 0, if p6 then 2 ^ 6 else 0, if p7 then 2 ^ 7 else 0].sum)).getLsbD j =
      [p0, p1, p2, p3, p4, p5, p6, p7][j] := by decide
  refine (hall (p 0) (p 1) (p 2) (p 3) (p 4) (p 5) (p 6) (p 7) ⟨i, hi⟩).trans ?_
  have hlist : [p 0, p 1, p 2, p 3, p 4, p 5, p 6, p 7] = (List.range 8).map p := rfl
  simp [hlist]

theorem readyAt_iff (s : State) (n : SlotNo) : s.readyAt n.val = true ↔ s.IsReady n := by
  unfold State.readyAt State.IsReady State.slot
  rw [Vector.getElem?_eq_getElem n.isLt]
  show _ ↔ ∃ g, s.library[n.val] = _
  cases s.library[n.val] <;> simp

theorem readyByte_bit (s : State) (n : SlotNo) : (s.readyByte (5 - n.val / 8)).getLsbD (n.val % 8) = true ↔ s.IsReady n := by
  have hn := n.isLt
  unfold State.readyByte
  rw [setByte_bit (fun b => s.readyAt (8 * (5 - (5 - n.val / 8)) + b)) _ (Nat.mod_lt _ (by decide)), ← readyAt_iff]
  have hnumber : 8 * (5 - (5 - n.val / 8)) + n.val % 8 = n.val := by omega
  simp only [hnumber]

/-! ### The requests -/

theorem setClear_of_inUse {s : State} (h : s.curPos ≠ none ∨ s.cue ≠ none) : setClear s = (s, .refuse .inUse []) := by
  unfold setClear
  refine if_pos ?_
  rw [Bool.or_eq_true, Option.isSome_iff_ne_none, Option.isSome_iff_ne_none]
  exact h

theorem setClear_of_idle {s : State} (hp : s.curPos = none) (hc : s.cue = none) :
    setClear s = ({ s with setlist := [] }, .ok []) := by
  simp [setClear, hp, hc]

/-- Settles O38: SET_CLEAR by what is current or cued, and the parts of the reply of SET_QUERY. -/
theorem setClearAndQuery : Obligations.SetClearAndQuery := by
  unfold Obligations.SetClearAndQuery
  intro l tag s ht
  refine ⟨fun h => exec_of_refusal rfl rfl ht (setClear_of_inUse (by simpa using h)),
    fun hp hc => exec_of_serve rfl rfl ht (setClear_of_idle (by simpa using hp) (by simpa using hc)),
    [0, 1, 2, 3, 4, 5].map (found l s).readyByte, packCodes (positionCodes s.setlist), ?_, rfl, ?_, fun k n h => sixBits_position h,
    sixBits_end, ?_⟩
  · refine (exec_of_serve (k := .setQuery) (fields := []) rfl rfl ht (u := found l s) (a := .ok (setData (found l s))) rfl).trans ?_
    rw [setData]
    simp only [found_curPos, found_curScene, found_ownedSlot, found_setlist]
  · intro n b hb
    have hn := n.isLt
    have hindex : ([0, 1, 2, 3, 4, 5] : List Nat)[5 - n.val / 8]? = some (5 - n.val / 8) := by
      have : ∀ j : Fin 6, ([0, 1, 2, 3, 4, 5] : List Nat)[j.val]? = some j.val := by decide
      exact this ⟨5 - n.val / 8, by omega⟩
    rw [List.getElem?_map, hindex] at hb
    obtain rfl := Option.some.inj hb
    rw [readyByte_bit]
    unfold State.IsReady
    rw [found_slot]
  · rintro m rfl
    rw [← positionCodes_length]
    exact ⟨packCodes_length _, packCodes_last _⟩

end Sys2Proof.Proofs.SetQuery
end

section
/-! The reporting and settings requests (chapters 5, 8 and 10): STATUS_GET, CUE_CANCEL, the settings of ports, click channels, inputs
and lines, masks, notes and counters. -/

namespace Sys2Proof.Proofs.ReportTables

open Sys2Proof.Machine Sys2Proof.Laws Sys2Proof.Proofs.LibraryTables Sys2Proof.Proofs.SetlistEdit

/-! ### STATUS_GET (R189) -/

section
variable {b : Byte} {s : State}

theorem statusGet_of_bad_field (h : 1 < b.toNat) : statusGet [b] s = (s, .refuse .badField []) := by
  have h0 : b ≠ 0#8 := fun e => absurd (e ▸ h) (by decide)
  have h1 : b ≠ 1#8 := fun e => absurd (e ▸ h) (by decide)
  simp only [statusGet, if_neg h0, if_neg h1]

theorem statusGet_show : statusGet [0#8] s = (s, .ok (showData s)) := rfl

theorem statusGet_change : statusGet [1#8] s = (s, .ok (changeData s)) := rfl

end

theorem showData_found (l : Link) (s : State) : showData (found l s) = showData s := by cases l <;> rfl

theorem changeData_found (l : Link) (s : State) : changeData (found l s) = changeData s := by cases l <;> rfl

/-- An entry counts as waiting while its count is above 0 (R137). -/
theorem entryState_code (e : PortEntry) :
    e.state.code = if 0 < e.outstanding then 0#8 else if e.settling then 1#8 else 2#8 := by
  unfold PortEntry.state
  split
  · rfl
  · split <;> rfl

/-- The record is SENDING while an entry's count is above 0, else SETTLING (R136). -/
theorem recordState_code {s : State} {r : Changeover} (h : s.changeover = some r) [Decidable (∃ e ∈ r.ports, 0 < e.outstanding)] :
    s.recordState.code = if ∃ e ∈ r.ports, 0 < e.outstanding then 1#8 else 2#8 := by
  have hqueued : ∀ e : PortEntry, decide (e.state = .queued) = decide (0 < e.outstanding) := by
    intro e
    unfold PortEntry.state
    split
    · rename_i hout
      simp [hout]
    · rename_i hout
      split <;> simp [hout]
  have hany : r.ports.any (fun e => decide (e.state = .queued)) = true ↔ ∃ e ∈ r.ports, 0 < e.outstanding := by
    simp only [hqueued, List.any_eq_true, decide_eq_true_eq]
  unfold State.recordState
  rw [h]
  dsimp only
  by_cases hout : ∃ e ∈ r.ports, 0 < e.outstanding
  · rw [if_pos hout, if_pos (hany.mpr hout)]
    rfl
  · rw [if_neg hout, if_neg (fun k => hout (hany.mp k))]
    rfl

theorem changeData_idle {s : State} (h : s.changeover = none) :
    changeData s = 1#8 :: (0#8 :: List.replicate 9 0xFF#8) ++ [bFlag s.audition.isSome, bOpt b1 s.audition] ++ [0#8] := by
  have hstate : s.recordState = .idle := by rw [State.recordState, h]
  have hentries : s.entries = [] := by rw [State.entries, h]; rfl
  rw [changeData, hstate, hentries, h]
  rfl

/-- Settles O40: the two sections part by part. -/
theorem statusGetTable : Obligations.StatusGetTable := by
  unfold Obligations.StatusGetTable
  intro l tag b s ht
  refine ⟨fun h => exec_of_refusal rfl rfl ht (statusGet_of_bad_field h), ?_, ?_⟩
  · rintro rfl t rfl cue hnone hsome
    have hcue : cueStatus s.cue = cue := by
      rcases Option.eq_none_or_eq_some s.cue with h | ⟨c, h⟩
      · rw [h, hnone h]
        rfl
      · rw [h, hsome c h]
        rfl
    refine (exec_of_serve (k := .statusGet) (fields := [0#8]) rfl rfl ht statusGet_show).trans ?_
    rw [showData_found, showData, hcue]
    simp only [transportStatus, List.append_assoc]
    rfl
  · rintro rfl entries record hnone hsome
    refine (exec_of_serve (k := .statusGet) (fields := [1#8]) rfl rfl ht statusGet_change).trans ?_
    rw [changeData_found]
    rcases Option.eq_none_or_eq_some s.changeover with h | ⟨r, h⟩
    · obtain ⟨rfl, rfl⟩ := hnone h
      rw [changeData_idle h]
    · obtain ⟨rfl, rfl⟩ := hsome r h
      have hentries : s.entries = r.ports := by rw [State.entries, h]; rfl
      rw [changeData, recordState_code h, hentries, h]
      simp only [entryState_code, recordStatus, List.append_assoc]
      rfl

/-! ### CUE_CANCEL (R132) -/

section
variable {l : Link} {s : State} {c : Change}

theorem cueCancel_of_cued (h : s.cue = some c) (hrank : c.claimant.rank ≤ (claimantOf l).rank) :
    cueCancel l s = (raise (.cue .cancelled c (some l) none (s.sceneName c.slot c.scene)) { s with cue := none, departure := none },
      .ok []) := by
  simp only [cueCancel, h, if_pos hrank]
  rfl

theorem cueCancel_of_held (h : s.cue = some c) (hrank : ¬ c.claimant.rank ≤ (claimantOf l).rank) :
    cueCancel l s = (s, .refuse .cueHeld []) := by
  simp only [cueCancel, h, if_neg hrank]

theorem cueCancel_of_departed (h : s.cue = none) (hd : s.departure = some c) :
    cueCancel l s = (s, .refuse .tooLate [b1 c.position, b1 c.slot.val, b1 c.scene, c.claimant.code]) := by
  simp only [cueCancel, h, hd]

theorem cueCancel_of_empty (h : s.cue = none) (hd : s.departure = none) : cueCancel l s = (s, .refuse .notFound []) := by
  simp only [cueCancel, h, hd]

end

theorem found_sceneName (l : Link) (s : State) (n : SlotNo) (k : Nat) : (found l s).sceneName n k = s.sceneName n k := by
  cases l <;> rfl

/-- Settles O44: ranks say whose change a link may withdraw. -/
theorem cueCancelTable : Obligations.CueCancelTable := by
  unfold Obligations.CueCancelTable
  intro l tag s ht
  have hcue : ∀ {x}, s.cue = x → (found l s).cue = x := fun h => (found_cue l s).trans h
  have hdep : ∀ {x}, s.departure = x → (found l s).departure = x := fun h => (found_departure l s).trans h
  refine ⟨fun c h hclaim => ?_, fun c h hclaim => ?_, fun c h hd => ?_, fun h hd => ?_⟩
  · have hrank : c.claimant.rank ≤ (claimantOf l).rank := by
      rcases hclaim with hc | ⟨rfl, hc⟩
      · rw [hc]
      · rw [hc]
        decide
    refine (exec_of_serve (k := .cueCancel) (fields := []) rfl rfl ht (cueCancel_of_cued (hcue h) hrank)).trans ?_
    rw [found_sceneName]
  · have hrank : ¬ c.claimant.rank ≤ (claimantOf l).rank := by
      rcases hclaim with hc | ⟨rfl, hc⟩
      · rw [hc]
        cases l <;> decide
      · rw [hc]
        decide
    exact exec_of_refusal rfl rfl ht (cueCancel_of_held (hcue h) hrank)
  · exact exec_of_serve rfl rfl ht (cueCancel_of_departed (hcue h) (hdep hd))
  · exact exec_of_refusal rfl rfl ht (cueCancel_of_empty (hcue h) (hdep hd))

/-! ### Settings (R157, R94, R50, R56) -/

theorem setInput_setInput (s : State) (i : Input) (x y : InputState) : (s.setInput i x).setInput i y = s.setInput i y := by
  unfold State.setInput
  simp

theorem found_input (l : Link) (s : State) (i : Input) : (found l s).input i = s.input i := by cases l <;> rfl

theorem found_foot (l : Link) (s : State) (n : FootLine) : (found l s).foot n = s.foot n := by cases l <;> rfl

section
variable {f : List Byte} {s : State}

theorem outputSet_of_bad_fields (h : portSettings f = none) : outputSetRequest f s = (s, .refuse .badField []) := by
  simp only [outputSetRequest, h]

theorem outputSet_of_fields {p : Port} {x : PortSettings} (h : portSettings f = some (p, x)) :
    outputSetRequest f s = (s.setPort p ((s.port p).configure s.now x), .ok []) := by
  simp only [outputSetRequest, h]

theorem clickSet_of_bad_fields (h : clickSettings f = none) : clickSetRequest f s = (s, .refuse .badField []) := by
  simp only [clickSetRequest, h]

theorem clickSet_of_fields {n : ClickNo} {c : ClickChannel} (h : clickSettings f = some (n, c)) :
    clickSetRequest f s = (s.setClickChannel n c, .ok []) := by
  simp only [clickSetRequest, h]

theorem inputSet_of_bad_fields (h : inputSettings f = none) : inputSetRequest f s = (s, .refuse .badField []) := by
  simp only [inputSetRequest, h]

theorem inputSet_of_watch_kept {n : Input} {c : Option Chan} {on : Bool} (h : inputSettings f = some (n, c, on))
    (hwatch : on = (s.input n).watchOn ∨ on = true ∨ (s.input n).watch = .unwatched) :
    inputSetRequest f s = (s.setInput n { s.input n with cueChannel := c, watchOn := on }, .ok []) := by
  simp only [inputSetRequest, h, setWatchOn, input_setInput]
  split
  · rename_i hsame
    rw [← hsame]
  · rename_i hchanged
    rw [if_neg, setInput_setInput]
    rintro ⟨hoff, hon⟩
    rcases hwatch with e | e | e
    · exact hchanged e.symm
    · exact absurd (hoff.symm.trans e) nofun
    · exact hon e

theorem inputSet_of_watch_stopped {n : Input} {c : Option Chan} (h : inputSettings f = some (n, c, false))
    (hon : (s.input n).watchOn = true) (hwatch : (s.input n).watch ≠ .unwatched) :
    inputSetRequest f s = (raise (.input n .unwatched) (s.setInput n { s.input n with
      cueChannel := c, watchOn := false, watch := .unwatched, watchDue := none }), .ok []) := by
  simp only [inputSetRequest, h, setWatchOn, input_setInput, setInput_setInput]
  rw [if_neg (by rw [hon]; exact nofun), if_pos ⟨trivial, hwatch⟩]

theorem footSet_of_bad_fields (h : footSettings f = none) : footswitchSet f s = (s, .refuse .badField []) := by
  simp only [footswitchSet, h]

theorem footSet_of_fields {n : FootLine} {fn : FootFunction} {pol : Polarity} {src : Option (Input × Chan)}
    (h : footSettings f = some (n, fn, pol, src)) :
    footswitchSet f s = ((letGo n s).setFoot n { (letGo n s).foot n with function := fn, polarity := pol, sustain := src },
      .ok []) := by
  simp only [footswitchSet, h]

end

/-- The keep-alive timer that new settings leave (R157). -/
theorem configure_due {q : PortState} {now : Nat} {x : PortSettings} {due : Option Nat} (hoff : x.keepAlive = false → due = none)
    (hstart : x.keepAlive = true → q.keepAliveDue = none → q.wire = none → due = some (now + 250000))
    (hkeep : x.keepAlive = true → (q.keepAliveDue ≠ none ∨ q.wire ≠ none) → due = q.keepAliveDue) :
    q.configure now x = { q with
      settings := x
      lastStatus := if x.runningStatus = q.settings.runningStatus then q.lastStatus else none
      keepAliveDue := due } := by
  have hdue : (q.configure now x).keepAliveDue = due := by
    unfold PortState.configure
    dsimp only
    cases hx : x.keepAlive
    · rw [hoff hx]
      rfl
    · by_cases hidle : q.keepAliveDue = none ∧ q.wire = none
      · rw [hstart hx hidle.1 hidle.2, hidle.1, hidle.2]
        rfl
      · rw [hkeep hx (by rwa [← not_and_or]), if_neg nofun, if_neg]
        simpa [Option.isNone_iff_eq_none] using hidle
  rw [← hdue]
  rfl

/-- A line that is no SUSTAIN held down is not let go (R56). -/
theorem letGo_of_up {n : FootLine} {s : State} (h : (s.foot n).function ≠ .sustain ∨ (s.foot n).pressed = false) : letGo n s = s := by
  unfold letGo
  split
  · rename_i i c hf hs
    rcases h with h | h
    · exact absurd hf h
    · rw [if_neg (by rw [h]; exact nofun)]
  · rfl

theorem letGo_of_down {n : FootLine} {s : State} {i : Input} {c : Chan} (hf : (s.foot n).function = .sustain)
    (hp : (s.foot n).pressed = true) (hs : (s.foot n).sustain = some (i, c)) : letGo n s = askPedal i c false s := by
  unfold letGo
  rw [hf, hs]
  exact if_pos hp

/-- The note table does not reach the lines. -/
theorem askPedal_foots (i : Input) (c : Chan) (down : Bool) (s : State) : (askPedal i c down s).foots = s.foots :=
  askPedal_closed (P := fun u => u.foots = s.foots) (NoteFree.ofHeld
    { offered := raiseOn_free (fun u l x h => by cases l <;> exact h)
      port := fun _ _ _ _ h => h
      held := fun _ _ _ h => h
      fault := fun _ _ h => h }
    (fun _ _ h => h) (fun _ _ h => h) (fun _ _ h => h) (fun _ _ h => h)) i c down rfl

/-- Settles O46: each request reads its fields and replaces one thing's settings. -/
theorem settingsTable : Obligations.SettingsTable := by
  unfold Obligations.SettingsTable
  intro l tag s ht
  refine ⟨fun f h => exec_of_refusal rfl rfl ht (outputSet_of_bad_fields h), ?_,
    fun f h => exec_of_refusal rfl rfl ht (clickSet_of_bad_fields h), fun f n c h => exec_of_serve rfl rfl ht (clickSet_of_fields h),
    fun i c w h => exec_of_refusal rfl rfl ht (inputSet_of_bad_fields h), ?_,
    fun b f p si sc h => exec_of_refusal rfl rfl ht (footSet_of_bad_fields h), ?_⟩
  · rintro f p x h q rfl due hoff hstart hkeep
    have hserve := outputSet_of_fields (s := found l s) h
    rw [found_port, found_now, configure_due hoff hstart hkeep] at hserve
    exact exec_of_serve rfl rfl ht hserve
  · rintro i c w n chan on h x rfl
    refine ⟨fun hwatch => ?_, fun hoff hon hwatch => ?_⟩
    · have hserve := inputSet_of_watch_kept (s := found l s) h (by rw [found_input]; exact hwatch)
      rw [found_input] at hserve
      exact exec_of_serve rfl rfl ht hserve
    · subst hoff
      have hserve := inputSet_of_watch_stopped (s := found l s) h (by rw [found_input]; exact hon) (by rw [found_input]; exact hwatch)
      rw [found_input] at hserve
      exact exec_of_serve rfl rfl ht hserve
  · rintro b f p si sc n fn pol src h x rfl
    refine ⟨fun hup => ?_, fun i c hf hp hs => ?_⟩
    · have hserve := footSet_of_fields (s := found l s) h
      rw [letGo_of_up (by rw [found_foot]; exact hup), found_foot] at hserve
      exact exec_of_serve rfl rfl ht hserve
    · have hserve := footSet_of_fields (s := found l s) h
      have hfoot : (askPedal i c false (found l s)).foot n = s.foot n := by
        unfold State.foot
        rw [askPedal_foots, found_foots]
      rw [letGo_of_down (by rw [found_foot]; exact hf) (by rw [found_foot]; exact hp) (by rw [found_foot]; exact hs), hfoot] at hserve
      exact exec_of_serve rfl rfl ht hserve

/-! ### NOTICE_MASK, LINK_NOTE and COUNTERS_GET (R187, R188, R190) -/

theorem b2_word (w : Word) : b2 w.toNat = w.bytes := by
  have hlow : b1 w.toNat = w.extractLsb' 0 8 := by
    apply BitVec.eq_of_toNat_eq
    simp [b1, BitVec.extractLsb'_toNat]
  have hhigh : b1 (w.toNat / 256) = w.extractLsb' 8 8 := by
    apply BitVec.eq_of_toNat_eq
    simp [b1, BitVec.extractLsb'_toNat, Nat.shiftRight_eq_div_pow]
  rw [b2, hlow, hhigh]
  rfl

section
variable {l : Link} {s : State} {w : Word}

theorem noticeMask_of_bad_field (h : 8192 ≤ w.toNat) : noticeMask l w.bytes s = (s, .refuse .badField []) := by
  simp only [noticeMask, Word.bytes, maskOf, word_bytes, if_neg h.not_gt]

theorem noticeMask_of_mask (h : w.toNat < 8192) {m : BitVec 13} (hm : m.toNat = w.toNat) :
    noticeMask l w.bytes s = (s.setLink l { s.link l with
      mask := m, notices := (s.link l).notices.filter (fun e => m.getLsbD e.notice.kind.bit) }, .ok w.bytes) := by
  have hmask : BitVec.ofNat 13 w.toNat = m := by
    rw [← hm, BitVec.ofNat_toNat]
    exact BitVec.setWidth_eq m
  rw [← b2_word w, ← hm]
  simp only [noticeMask, b2_word, Word.bytes, maskOf, word_bytes, if_pos h, hmask, hm]

theorem linkNote_of_bad_text {t : List Byte} (h : ¬ IsText 0 32 t) : linkNote l t s = (s, .refuse .badField []) := by
  have htext : text 0 32 t = none :=
    Option.eq_none_iff_forall_ne_some.mpr fun u hu => h (text_iff.mp hu).1
  simp only [linkNote, htext]

theorem linkNote_of_text {t : List Byte} (h : IsText 0 32 t) :
    linkNote l t s = (raiseOn l.other (.linkNote l t) s, .ok [if (s.link l.other).mask.getLsbD 11 then 0#8 else 1#8]) := by
  have htext : text 0 32 t = some t := text_iff.mpr ⟨h, rfl⟩
  simp only [linkNote, htext, NoticeKind.bit]
  cases (s.link l.other).mask.getLsbD 11 <;> rfl

end

/-- LEN fits LINK_NOTE exactly when the note has at most 32 characters (R188, R197). -/
theorem fits_linkNote {t : List Byte} (h : t.length ≤ 58) : ReqKind.linkNote.fits (lenByte t) = decide (t.length ≤ 32) := by
  simp only [ReqKind.fits, ReqKind.lens, lenByte_toNat h, decide_eq_decide]
  omega

theorem counterGroup_eq_none {g n : Byte} (h : 2 < g.toNat ∨ g = 0#8 ∧ 5 < n.toNat ∨ g = 1#8 ∧ 7 < n.toNat ∨ g = 2#8 ∧ n ≠ 0#8) :
    counterGroup g n = none := by
  rcases h with h | ⟨rfl, h⟩ | ⟨rfl, h⟩ | ⟨rfl, h⟩
  · unfold counterGroup
    split
    · omega
    · omega
    · omega
    · rfl
  · exact Option.map_eq_none_iff.mpr (below_eq_none h)
  · exact Option.map_eq_none_iff.mpr (below_eq_none h)
  · exact if_neg h

theorem flag_eq_none {c : Byte} (h : 1 < c.toNat) : flag c = none := by
  refine Option.eq_none_iff_forall_ne_some.mpr fun x hx => ?_
  rw [flag_iff.mp hx] at h
  cases x <;> exact absurd h (by decide)

section
variable {g n c : Byte} {s : State}

theorem countersGet_of_bad_field (h : counterGroup g n = none ∨ flag c = none) :
    countersGet [g, n, c] s = (s, .refuse .badField []) := by
  rcases h with h | h
  · simp only [countersGet, h]
  · simp only [countersGet, h]
    cases counterGroup g n <;> rfl

theorem countersGet_of_group {k : CounterGroup} {clear : Bool} (hk : counterGroup g n = some k) :
    countersGet [g, n, bFlag clear] s = (if clear then clearGroup k s else s, .ok ([g, n] ++ (s.counters k).flatMap b2)) := by
  simp only [countersGet, hk, flag_iff.mpr (rfl : bFlag clear = bFlag clear)]

end

/-- Settles O47: a mask that names kinds alone, a note that is a text, and the three groups of counters. -/
theorem maskNoteAndCounters : Obligations.MaskNoteAndCounters := by
  unfold Obligations.MaskNoteAndCounters
  intro l tag s ht
  have hcounters : ∀ (g n : Byte) (k : CounterGroup) (c : Bool), counterGroup g n = some k →
      exec (.countersGet l tag g n (bFlag c)) s = answered l .countersGet tag
        (.ok ([g, n] ++ ((found l s).counters k).flatMap b2)) (if c then clearGroup k (found l s) else found l s) :=
    fun g n k c hk => exec_of_serve rfl rfl ht (countersGet_of_group hk)
  refine ⟨fun w h => exec_of_refusal rfl rfl ht (noticeMask_of_bad_field h), fun w h m hm => ?_, fun t hfits h => ?_, fun t h => ?_,
    fun g n c h => exec_of_refusal rfl rfl ht (countersGet_of_bad_field ?_), fun c => ⟨fun n i hi x hx => ?_, fun n p hp x hx => ?_,
    fun x y hx hy => ?_⟩⟩
  · have hserve := noticeMask_of_mask (l := l) (s := found l s) h hm
    have hnotices : ((found l s).link l).notices = (s.link l).notices := by cases l <;> rfl
    rw [hnotices] at hserve
    exact exec_of_serve rfl rfl ht hserve
  · by_cases hlen : t.length ≤ 32
    · exact exec_of_refusal rfl ((fits_linkNote hfits).trans (decide_eq_true hlen)) ht (linkNote_of_bad_text h)
    · exact served_unfit s rfl ((fits_linkNote hfits).trans (decide_eq_false hlen)) ht
  · have hmask : ((found l s).link l.other).mask = (s.link l.other).mask := by cases l <;> rfl
    have hserve := linkNote_of_text (l := l) (s := found l s) h
    rw [hmask] at hserve
    obtain ⟨-, hlen, -⟩ := h
    exact exec_of_serve rfl ((fits_linkNote (hlen.trans (by decide))).trans (decide_eq_true hlen)) ht hserve
  · rcases h with h | h | h | h | h
    · exact .inl (counterGroup_eq_none (.inl h))
    · exact .inl (counterGroup_eq_none (.inr (.inl h)))
    · exact .inl (counterGroup_eq_none (.inr (.inr (.inl h))))
    · exact .inl (counterGroup_eq_none (.inr (.inr (.inr h))))
    · exact .inr (flag_eq_none h)
  · rw [hcounters 0#8 n (.input i) c (congrArg (Option.map _) (below_iff.mpr hi)), State.counters, clearGroup, found_input, ← hx]
    simp only [List.flatMap_cons, List.flatMap_nil, List.append_assoc, List.append_nil]
  · rw [hcounters 1#8 n (.output p) c (congrArg (Option.map _) (below_iff.mpr hp)), State.counters, clearGroup, found_port, ← hx]
    simp only [List.flatMap_cons, List.flatMap_nil, List.append_assoc, List.append_nil]
  · have hsteals : (found l s).stealCount = s.stealCount := by cases l <;> rfl
    have hpanics : (found l s).panicCount = s.panicCount := by cases l <;> rfl
    rw [hcounters 2#8 0#8 .global c rfl, State.counters, clearGroup, hsteals, hpanics, ← hx, ← hy]
    simp only [LinkState.counters, LinkState.clearCounters, List.flatMap_cons, List.flatMap_nil, List.append_assoc, List.append_nil,
      List.cons_append, List.nil_append]

end Sys2Proof.Proofs.ReportTables
end

section
/-! The tempo unit's requests and the exact step durations (chapter 4). -/

namespace Sys2Proof.Proofs.Tempo

open Sys2Proof.Machine Sys2Proof.Laws Sys2Proof.Proofs.LibraryTables

/-! ### Taking a tempo (R61, R69) -/

/-- T takes the value, and the accumulator is cleared by a different one (R61). -/
theorem take_eq (t : TempoState) (v : Nat) : t.take v = { t with current := v, acc := if v = t.current then t.acc else 0 } := by
  unfold TempoState.take
  split
  · rename_i h
    subst h
    rfl
  · rfl

/-- An override is what the precedence chooses (R66). -/
theorem chosenTempo_of_override {s : State} {v : Nat} (h : s.tempo.override = some v) : s.chosenTempo = v := by
  rw [State.chosenTempo, h]

theorem chosenTempo_of_map {s : State} {v : Nat} (h : s.tempo.override = none)
    (hnone : s.segmentInUse = none → v = s.firstSegment.tempo)
    (hsome : ∀ g, s.segmentInUse = some g → v = (match s.tempo.ramp with
        | .ramping k => g.rampValue k
        | .arrived => g.rampTarget.getD g.tempo
        | _ => g.tempo)) : s.chosenTempo = v := by
  rw [State.chosenTempo, h]
  rcases Option.eq_none_or_eq_some s.segmentInUse with hs | ⟨g, hs⟩
  · rw [hs, hnone hs]
  · rw [hs, hsome g hs]
    rfl

/-- A value that another mode stages (R70, R71). -/
theorem takeTempo_of_moving {s : State} (v : StagedValue) (due : StagedDue) (h : s.transport.mode ≠ .stopped) :
    ∃ u, takeTempo v due s = raise u.tempoNotice u ∧ u = { s with tempo := { s.tempo with staged := some { value := v, due } } } :=
  ⟨_, if_neg h, rfl⟩

/-- While STOPPED a tempo becomes the override and T (R71). -/
theorem takeTempo_of_stopped {s : State} (v : Nat) (due : StagedDue) (h : s.transport.mode = .stopped) :
    ∃ u, takeTempo (.tempo v) due s = raise u.tempoNotice u ∧ u = { s with tempo := (s.tempo.setOverride v).take v } := by
  refine ⟨_, ?_, rfl⟩
  have hchosen : State.chosenTempo { s with tempo := s.tempo.setOverride v } = v := chosenTempo_of_override rfl
  unfold takeTempo
  rw [if_pos h]
  dsimp only
  rw [hchosen]
  rfl

/-- While STOPPED a CLEAR removes the override (R71). -/
theorem takeTempo_clear {s : State} {v : Nat} (due : StagedDue) (h : s.transport.mode = .stopped)
    (hv : State.chosenTempo { s with tempo := { s.tempo with override := none } } = v) :
    ∃ u, takeTempo .clear due s = (if s.tempo.override.isSome then raise u.tempoNotice u else u) ∧
      u = { s with tempo := { s.tempo with
        override := none, current := v, acc := if v = s.tempo.current then s.tempo.acc else 0 } } := by
  refine ⟨_, ?_, rfl⟩
  unfold takeTempo
  rw [if_pos h]
  dsimp only
  rw [hv, take_eq]
  rfl

/-! ### TEMPO_SET (R71) -/

theorem tempoSet_of_bad_field {w : Word} {s : State} (hne : w ≠ 0#16) (h : w.toNat < 2000 ∨ 30000 < w.toNat) :
    tempoSet w.bytes s = (s, .refuse .badField []) := by
  have hzero : w.toNat ≠ 0 := fun e => hne (BitVec.eq_of_toNat_eq e)
  have hrange : tempoIn w.toNat = none := by
    refine Option.eq_none_iff_forall_ne_some.mpr fun x hx => ?_
    obtain ⟨hlo, hhi, -⟩ := tempoIn_iff.mp hx
    omega
  simp only [tempoSet, Word.bytes, word_bytes, if_neg hzero, hrange]

theorem tempoSet_of_tempo {w : Word} {s : State} (hlo : 2000 ≤ w.toNat) (hhi : w.toNat ≤ 30000) :
    tempoSet w.bytes s = (takeTempo (.tempo w.toNat) .downbeat s, .ok []) := by
  have hrange : tempoIn w.toNat = some w.toNat := tempoIn_iff.mpr ⟨hlo, hhi, rfl⟩
  simp only [tempoSet, Word.bytes, word_bytes, if_neg (show w.toNat ≠ 0 by omega), hrange]

theorem tempoSet_of_clear {w : Word} {s : State} (h : w = 0#16) : tempoSet w.bytes s = (takeTempo .clear .downbeat s, .ok []) := by
  have hzero : w.toNat = 0 := congrArg BitVec.toNat h
  simp only [tempoSet, Word.bytes, word_bytes, if_pos hzero]

/-- Settles O25: what TEMPO_SET takes, by the transport's mode. -/
theorem tempoSetTable : Obligations.TempoSetTable := by
  unfold Obligations.TempoSetTable
  intro l tag w s ht
  have hmode : ∀ {m}, s.transport.mode = m → (found l s).transport.mode = m := fun h => by rw [found_transport]; exact h
  refine ⟨fun hne h => exec_of_refusal rfl rfl ht (tempoSet_of_bad_field hne h), fun hlo hhi hstop => ?_, fun hlo hhi hmove => ?_,
    fun hw hstop t hnone hsome => ?_, fun hw hmove => ?_⟩
  · obtain ⟨u, hu, hstate⟩ := takeTempo_of_stopped (s := found l s) w.toNat .downbeat (hmode hstop)
    rw [found_tempo] at hstate
    have hserve := tempoSet_of_tempo (s := found l s) hlo hhi
    rw [hu] at hserve
    refine ⟨u, exec_of_serve rfl rfl ht hserve, hstate, ?_, ?_⟩
    · rw [hstate]
      exact take_override _ _
    · rw [hstate, take_eq]
  · obtain ⟨u, hu, hstate⟩ := takeTempo_of_moving (s := found l s) (.tempo w.toNat) .downbeat (by rw [found_transport]; exact hmove)
    rw [found_tempo] at hstate
    have hserve := tempoSet_of_tempo (s := found l s) hlo hhi
    rw [hu] at hserve
    exact ⟨u, exec_of_serve rfl rfl ht hserve, hstate⟩
  · have hchosen : State.chosenTempo { found l s with tempo := { (found l s).tempo with override := none } } = t := by
      refine chosenTempo_of_map rfl (fun h => ?_) (fun g h => ?_)
      · exact (hnone (by cases l <;> exact h)).trans (by cases l <;> rfl)
      · exact (hsome g (by cases l <;> exact h)).trans (by cases l <;> rfl)
    obtain ⟨u, hu, hstate⟩ := takeTempo_clear .downbeat (hmode hstop) hchosen
    have hserve := tempoSet_of_clear (s := found l s) hw
    rw [hu, found_tempo] at hserve
    rw [found_tempo] at hstate
    exact ⟨u, exec_of_serve rfl rfl ht hserve, hstate⟩
  · obtain ⟨u, hu, hstate⟩ := takeTempo_of_moving (s := found l s) .clear .downbeat (by rw [found_transport]; exact hmove)
    rw [found_tempo] at hstate
    have hserve := tempoSet_of_clear (s := found l s) hw
    rw [hu] at hserve
    exact ⟨u, exec_of_serve rfl rfl ht hserve, hstate⟩

/-! ### TAP (R73, R74) -/

section
variable {s : State} {last : Nat}

theorem takeTap_first (h : s.tempo.lastTap = none) :
    takeTap s = { s with tempo := { s.tempo with lastTap := some s.now, taps := [] } } := by
  simp only [takeTap, h]

theorem takeTap_bounce (h : s.tempo.lastTap = some last) (hd : s.now - last < 200000) : takeTap s = s := by
  simp only [takeTap, h]
  exact if_pos hd

theorem takeTap_late (h : s.tempo.lastTap = some last) (hd : 3000000 < s.now - last) :
    takeTap s = { s with tempo := { s.tempo with lastTap := some s.now, taps := [] } } := by
  simp only [takeTap, h]
  rw [if_neg (show ¬ s.now - last < Config.tapMin by have : Config.tapMin = 200000 := rfl; omega),
    if_neg (show ¬ s.now - last ≤ Config.tapMax by have : Config.tapMax = 3000000 := rfl; omega)]

theorem takeTap_interval (h : s.tempo.lastTap = some last) (hlo : 200000 ≤ s.now - last) (hhi : s.now - last ≤ 3000000) :
    takeTap s = takeTempo (.tempo (tapTempo (joinTap s.tempo.taps (s.now - last)))) .beat
      { s with tempo := { s.tempo with lastTap := some s.now, taps := joinTap s.tempo.taps (s.now - last) } } := by
  simp only [takeTap, h]
  rw [if_neg (show ¬ s.now - last < Config.tapMin from hlo.not_gt)]
  exact if_pos hhi

end

/-- Settles O26: the intervals of R73 and what a tempo of taps does. -/
theorem tapTable : Obligations.TapTable := by
  unfold Obligations.TapTable
  refine ⟨fun l tag s ht => exec_of_serve rfl rfl ht rfl, fun s => ⟨takeTap_first, fun last hlast => ⟨takeTap_bounce hlast,
    takeTap_late hlast, fun hlo hhi taps htaps v hv => ?_⟩⟩⟩
  obtain rfl : taps = joinTap s.tempo.taps (s.now - last) := htaps
  obtain rfl : v = tapTempo (joinTap s.tempo.taps (s.now - last)) := hv
  rw [takeTap_interval hlast hlo hhi]
  exact ⟨fun h => takeTempo_of_stopped (s := { s with tempo := _ }) _ _ h, fun h => takeTempo_of_moving (s := { s with tempo := _ }) _ _ h⟩

/-! ### Step durations (R60) -/

/-- A step's duration and the accumulator after it are quotient and remainder of the base and the accumulator. -/
theorem stepDuration_eq {t a : Nat} (ht : 0 < t) (ha : a < t) :
    stepDuration t a = ((62500000 + a) / t, (62500000 + a) % t) := by
  have hrem : stepRemainder t = 62500000 % t := by
    have hmod := Nat.div_add_mod 62500000 t
    have hcomm := Nat.mul_comm t (62500000 / t)
    unfold stepRemainder stepBase
    show 62500000 - 62500000 / t * t = _
    omega
  have hlt := Nat.mod_lt 62500000 ht
  have hsplit : 62500000 + a = (62500000 % t + a) + t * (62500000 / t) := by
    have hmod := Nat.div_add_mod 62500000 t
    omega
  have hdiv : (62500000 + a) / t = (62500000 % t + a) / t + 62500000 / t := by
    rw [hsplit, Nat.add_mul_div_left _ _ ht]
  have hmod : (62500000 + a) % t = (62500000 % t + a) % t := by
    rw [hsplit, Nat.add_mul_mod_self_left]
  unfold stepDuration
  rw [hrem, hdiv, hmod]
  show (if t ≤ a + 62500000 % t then (62500000 / t + 1, a + 62500000 % t - t) else (62500000 / t, a + 62500000 % t)) = _
  split
  · rename_i hover
    have hquot : (62500000 % t + a) / t = 1 := Nat.div_eq_of_lt_le (by omega) (by omega)
    have hrest : (62500000 % t + a) % t = a + 62500000 % t - t := by
      rw [Nat.mod_eq_sub_mod (by omega), Nat.mod_eq_of_lt (by omega)]
      omega
    rw [hquot, hrest, Nat.add_comm 1]
  · rename_i hunder
    have hquot : (62500000 % t + a) / t = 0 := Nat.div_eq_of_lt (by omega)
    have hrest : (62500000 % t + a) % t = 62500000 % t + a := Nat.mod_eq_of_lt (by omega)
    rw [hquot, hrest, Nat.zero_add, Nat.add_comm a]

/-- Some steps at one tempo: their total and the accumulator make up that many bases. -/
theorem stepDuration_iterate {t a : Nat} (ht : 0 < t) (ha : a < t) : ∀ n : Nat,
    (fun x : Nat × Nat => (x.1 + (stepDuration t x.2).1, (stepDuration t x.2).2))^[n] (0, a) =
      ((62500000 * n + a) / t, (62500000 * n + a) % t)
  | 0 => by
    rw [Function.iterate_zero, id, Nat.mul_zero, Nat.zero_add, Nat.div_eq_of_lt ha, Nat.mod_eq_of_lt ha]
  | n + 1 => by
    rw [Function.iterate_succ_apply', stepDuration_iterate ht ha n]
    dsimp only
    rw [stepDuration_eq ht (Nat.mod_lt _ ht)]
    have hnext : 62500000 * (n + 1) + a = (62500000 + (62500000 * n + a) % t) + t * ((62500000 * n + a) / t) := by
      have hmod := Nat.div_add_mod (62500000 * n + a) t
      omega
    rw [hnext, Nat.add_mul_div_left _ _ ht, Nat.add_mul_mod_self_left, Nat.add_comm]

/-- The first half of O27: as many steps as the tempo counts last the base exactly. -/
theorem stepDurations_exact (t : Nat) (ht : 0 < t) :
    (∀ a, a < t → (stepDuration t a).2 < t ∧
      ((stepDuration t a).1 = 62500000 / t ∨ (stepDuration t a).1 = 62500000 / t + 1)) ∧
    ∀ a, a < t →
      (Nat.iterate (fun x : Nat × Nat => (x.1 + (stepDuration t x.2).1, (stepDuration t x.2).2)) t (0, a)) = (62500000, a) := by
  refine ⟨fun a ha => ⟨?_, ?_⟩, fun a ha => ?_⟩
  · rw [stepDuration_eq ht ha]
    exact Nat.mod_lt _ ht
  · unfold stepDuration
    split
    · exact .inr rfl
    · exact .inl rfl
  · rw [stepDuration_iterate ht ha, Nat.mul_comm, Nat.add_comm, Nat.add_mul_div_left _ _ ht, Nat.add_mul_mod_self_left,
      Nat.div_eq_of_lt ha, Nat.mod_eq_of_lt ha, Nat.zero_add]

end Sys2Proof.Proofs.Tempo
end

section
/-! What reaches every unit at one instant (chapter 10): PANIC, SOFT_RESET, the pin reset and the end of initialisation. -/

namespace Sys2Proof.Proofs.Resets

open Sys2Proof.Machine Sys2Proof.Laws Sys2Proof.Proofs.LibraryTables Sys2Proof.Proofs.Effects

/-! ### PANIC (R193, R176) -/

theorem mem_allPorts (p : Port) : p ∈ allPorts := List.mem_finRange p

/-- Every port reports its settle end. -/
theorem clr_allPorts (timer : Port → Bool) (r : Changeover) : clr timer allPorts r =
    { r with ports := r.ports.map (fun e => if timer e.port then { e with settling := false } else e) } := by
  unfold clr
  simp only [mem_allPorts, true_and]

/-- No entry is QUEUED, and the settle end of each one that settles is reported: all are DONE (R144, R145). -/
theorem clr_allDone {timer : Port → Bool} {r : Changeover}
    (h : ∀ e ∈ r.ports, e.outstanding = 0 ∧ (e.settling = true → timer e.port = true)) :
    (clr timer allPorts r).allDone = true := by
  rw [clr_allPorts]
  unfold Changeover.allDone
  simp only [List.all_eq_true, List.mem_map, decide_eq_true_eq]
  rintro x ⟨e, he, rfl⟩
  obtain ⟨hout, hset⟩ := h e he
  unfold PortEntry.state
  split
  · rename_i ht
    simp [hout]
  · rename_i ht
    have : e.settling = false := by simpa using fun k => ht (hset k)
    simp [hout, this]

theorem panicFacts_queued {s w : State} {r : Changeover} (f : PanicFacts s w) (hr : s.changeover = some r)
    (h : ∃ e ∈ r.ports, 0 < e.outstanding) : w.changeover = some (clr (fun p => (s.port p).settleDue.isSome) allPorts r) := by
  rcases f.some r hr with ⟨-, hout⟩ | ⟨hrec, -⟩
  · obtain ⟨e, he, hpos⟩ := h
    exact absurd (hout e he) (Nat.ne_of_gt hpos)
  · exact hrec

theorem panicFacts_settled {s w : State} {r : Changeover} (f : PanicFacts s w) (hr : s.changeover = some r)
    (hran : ∃ e ∈ r.ports, (s.port e.port).settleDue.isSome = true)
    (h : ∀ e ∈ r.ports, e.outstanding = 0 ∧ (e.settling = true → (s.port e.port).settleDue.isSome = true)) :
    w.changeover = none := by
  rcases f.some r hr with ⟨hnone, -⟩ | ⟨-, hopen⟩
  · exact hnone
  · obtain ⟨e, he, ht⟩ := hran
    exact absurd (clr_allDone h) (by rw [hopen ⟨e, he, mem_allPorts _, ht⟩]; exact nofun)

/-- Settles O49 from what the walk over the ports leaves (`PanicFacts`). -/
theorem panicTable : Obligations.PanicTable := by
  unfold Obligations.PanicTable
  refine ⟨fun l tag s ht => exec_of_serve (k := .panic) (fields := []) rfl rfl ht rfl, fun o s => ?_⟩
  obtain ⟨w, hw, f⟩ := panicAll_facts o s
  have hrest := f.rest
  simp only [Prod.mk.injEq] at hrest
  obtain ⟨htempo, htransport, hlibrary, hsetlist, hpos, hscene, hcue, hdep, hinputs, hfoots, hinit, hclkin, hpending, hlive, hid,
    hsteal, hmem, haud, hfault, hnow⟩ := hrest
  refine ⟨w, hw, f.held, f.pedals, f.port, f.click, f.count, f.none, fun r hr hq => ?_, fun r hr => panicFacts_settled f hr,
    ⟨htempo, htransport⟩, ⟨hlibrary, hsetlist⟩, ⟨hpos, hscene⟩, ⟨hcue, hdep⟩, ⟨hinputs, hfoots⟩, ⟨hinit, hclkin, hpending⟩, hlive,
    hid, hsteal, hmem, haud, hfault, hnow, f.links⟩
  rw [panicFacts_queued f hr hq, clr_allPorts]

/-! ### SOFT_RESET (R194) -/

theorem mapInputs_eq (f : InputState → InputState) (s : State) : mapInputs f s = { s with inputs := (mapInputs f s).inputs } := by
  unfold mapInputs
  generalize allInputs = xs
  induction xs using List.reverseRecOn with
  | nil => rfl
  | append_singleton xs i ih =>
    rw [List.foldl_append]
    simp only [List.foldl_cons, List.foldl_nil]
    generalize xs.foldl (fun s i => s.setInput i (f (s.input i))) s = t at ih ⊢
    rw [ih]
    rfl

theorem reloadLive_eq (s : State) : reloadLive s = { s with live := (reloadLive s).live, liveId := (reloadLive s).liveId } := by
  unfold reloadLive
  split <;> rfl

theorem reloadLive_of_scene {s : State} {n : SlotNo} {k : Nat} (hn : s.currentSlot = some n) (hk : s.curScene = some k) :
    (reloadLive s).liveId = some (n, k) ∧ (reloadLive s).live = (s.sceneAt n k).elim [] (fun sc => sc.zones) := by
  unfold reloadLive
  rw [hn, hk]
  exact ⟨rfl, rfl⟩

theorem reloadLive_of_none {s : State} (h : s.currentSlot = none ∨ s.curScene = none) :
    (reloadLive s).liveId = none ∧ (reloadLive s).live = [] := by
  unfold reloadLive
  split
  · rename_i hn hk
    rcases h with h | h
    · exact absurd (hn.symm.trans h) nofun
    · exact absurd (hk.symm.trans h) nofun
  · exact ⟨rfl, rfl⟩

/-- What SOFT_RESET writes before the walks over ports and inputs. -/
def cleared (s : State) : State :=
  { s with
    live := (reloadLive s).live, liveId := (reloadLive s).liveId, held := [], pedals := Vector.replicate 6 (Vector.replicate 16 .up)
    tempo := { TempoState.reset with current := s.firstSegment.tempo }, transport := .atStart .stopped s.firstSegment
    click := { s.click with offs := [] }, cue := none, departure := none, changeover := none, audition := none
    progMem := Vector.replicate 8 (Vector.replicate 16 none) }

theorem softResetAll_eq (s : State) :
    softResetAll s = mapInputs InputState.softReset (mapPorts PortState.softReset (cleared s)) := by
  have h := reloadLive_eq s
  unfold softResetAll
  rw [h]
  rfl

/-- SOFT_RESET writes the cleared state, and ports and inputs of its own. -/
theorem softResetAll_walked (s : State) :
    ∃ ps is, softResetAll s = { cleared s with ports := ps, inputs := is } := by
  have hports := mapPorts_eq PortState.softReset (cleared s)
  rw [softResetAll_eq, mapInputs_eq]
  generalize (mapInputs InputState.softReset (mapPorts PortState.softReset (cleared s))).inputs = is
  generalize mapPorts PortState.softReset (cleared s) = t at hports ⊢
  generalize t.ports = ps at hports
  rw [hports]
  exact ⟨ps, is, rfl⟩

theorem mapInputs_port (f : InputState → InputState) (s : State) (p : Port) : (mapInputs f s).port p = s.port p := by
  rw [mapInputs_eq]
  rfl

theorem mapPorts_input (f : PortState → PortState) (s : State) (i : Input) : (mapPorts f s).input i = s.input i := by
  unfold mapPorts
  refine read_foldl (fun u : State => u.input i) (f := fun u p => u.setPort p (f (u.port p))) (fun u p => ?_) allPorts s
  exact congrArg (fun v => v[i]) (setPort_inputs u p (f (u.port p)))

theorem softResetAll_port (s : State) (p : Port) : (softResetAll s).port p = (s.port p).softReset := by
  rw [softResetAll_eq, mapInputs_port, mapPorts_port]
  rfl

theorem softResetAll_input (s : State) (i : Input) : (softResetAll s).input i = (s.input i).softReset := by
  rw [softResetAll_eq, mapInputs_input, mapPorts_input]
  rfl

theorem pedal_replicate (u : State) (h : u.pedals = Vector.replicate 6 (Vector.replicate 16 .up)) (i : Input) (c : Chan) :
    u.pedal i c = { down := false, pairs := [] } := by
  unfold State.pedal
  rw [h]
  simp [PedalRecord.up]

theorem program_replicate (u : State) (h : u.progMem = Vector.replicate 8 (Vector.replicate 16 none)) (p : Port) (c : Chan) :
    u.program p c = none := by
  unfold State.program
  rw [h]
  simp

theorem softReset_eq (q : PortState) : q.softReset = { q with
    realtime := [], clickLane := [], noteLane := allChans.map NoteEntry.sweep, slots := [], lastGrant := none,
    grantCount := 0, settleDue := none, lastStatus := none, sweepPending := [],
    entry := q.entry.map (fun e => { e with ofRecord := false, emptyStatus := true }) } := rfl

/-- Settles O50: what the units write, and the walks over ports and inputs. -/
theorem softResetTable : Obligations.SoftResetTable := by
  unfold Obligations.SoftResetTable
  intro l tag s ht
  have hserve : serve l .softReset [] (found l s) = (softResetAll (found l s), .ok []) := rfl
  refine ⟨softResetAll (found l s), exec_of_serve rfl rfl ht hserve, ?_⟩
  have hport := softResetAll_port (found l s)
  have hinput := softResetAll_input (found l s)
  obtain ⟨ps, is, hu⟩ := softResetAll_walked (found l s)
  generalize softResetAll (found l s) = u at *
  have hfirst : (found l s).firstSegment = s.firstSegment := found_firstSegment l s
  have hscene : ∀ n k, (found l s).sceneAt n k = s.sceneAt n k := found_sceneAt l s
  have hinputs : ∀ i, (found l s).input i = s.input i := fun i => by cases l <;> rfl
  refine ⟨fun n k hn hk => ?_, fun hno => ?_, by rw [hu]; rfl, pedal_replicate u (by rw [hu]; rfl), ?_, ?_, ?_, ?_, by rw [hu]; rfl,
    by rw [hu]; rfl, by rw [hu]; rfl, by rw [hu]; rfl, program_replicate u (by rw [hu]; rfl), fun p => ?_, fun i => ?_, ?_, ?_, ?_,
    ?_, ?_, ?_, by rw [hu]; rfl, by rw [hu]; rfl⟩
  · rw [hu]
    obtain ⟨hid, hlive⟩ := reloadLive_of_scene (s := found l s) ((found_currentSlot l s).trans hn) ((found_curScene l s).trans hk)
    exact ⟨hid, hlive.trans (by rw [hscene])⟩
  · rw [hu]
    exact reloadLive_of_none (s := found l s) (hno.imp (found_currentSlot l s).trans (found_curScene l s).trans)
  · rw [hu]
    cases l <;> rfl
  · rw [hu, ← hfirst]
    rfl
  · rw [hu, ← hfirst]
    rfl
  · rw [hu, ← found_click l s]
    rfl
  · rw [hport, found_port, softReset_eq]
  · rw [hinput, hinputs]
    rfl
  · rw [hu, ← found_foots l s]
    rfl
  · rw [hu]
    exact ⟨found_library l s, found_setlist l s⟩
  · rw [hu]
    exact ⟨found_curPos l s, found_curScene l s⟩
  · rw [hu]
    cases l <;> exact ⟨rfl, rfl⟩
  · rw [hu]
    cases l <;> exact ⟨rfl, rfl, rfl⟩
  · rw [hu]
    exact found_now l s

/-! ### Pin reset and the end of initialisation (R185) -/

theorem pinResetAll_eq (c1 c0 : Bool) (s : State) : ∃ fs, pinResetAll c1 c0 s = { State.reset with
    now := s.now, init := some (s.now + 50000), clkin := clkinOf c1 c0, foots := fs, pending := s.pending } :=
  ⟨_, mapFoots_eq FootState.pinReset _⟩

theorem pinResetAll_foot (c1 c0 : Bool) (s : State) (n : FootLine) :
    (pinResetAll c1 c0 s).foot n = { FootState.reset with level := (s.foot n).level } :=
  mapFoots_foot FootState.pinReset _ n

/-- The straps name the frequency by their two levels (R58). -/
theorem clkinOf_eq (c1 c0 : Bool) :
    clkinOf c1 c0 = if c1 then (if c0 then .mhz24 else .mhz16) else if c0 then .mhz12 else .mhz8 := by
  cases c1 <;> cases c0 <;> rfl

theorem exec_pinReset (c1 c0 : Bool) (s : State) : exec (.pinReset c1 c0) s = .next (pinResetAll c1 c0 s) := by
  rw [exec_of_undue rfl]
  obtain ⟨fs, h⟩ := pinResetAll_eq c1 c0 s
  exact congrArg Host.Outcome.next (finish_fresh (pinResetAll c1 c0 s) (by rw [h]; rfl) (by rw [h]; rfl) (by rw [h]; rfl))

theorem endInitialisation_of_none {s : State} (h : s.init = none) : endInitialisation s = s := by
  rw [endInitialisation, h]

theorem endInitialisation_of_some {s : State} {d : Nat} (h : s.init = some d) :
    endInitialisation s = mapPorts PortState.sweepAll (mapFoots FootState.settle { s.reach d with init := none }) := by
  rw [endInitialisation, h]

theorem mapPorts_foot (f : PortState → PortState) (s : State) (n : FootLine) : (mapPorts f s).foot n = s.foot n := by
  unfold mapPorts
  refine read_foldl (fun u : State => u.foot n) (f := fun u p => u.setPort p (f (u.port p))) (fun u p => ?_) allPorts s
  exact congrArg (fun v => v[n]) (setPort_foots u p (f (u.port p)))

theorem mapFoots_port (f : FootState → FootState) (s : State) (p : Port) : (mapFoots f s).port p = s.port p := by
  unfold mapFoots
  refine read_foldl (fun u : State => u.port p) (f := fun u n => u.setFoot n (f (u.foot n))) (fun u n => ?_) allFoots s
  exact congrArg (fun v => v[p]) (setFoot_ports u n (f (u.foot n)))

theorem walked_eq (f : PortState → PortState) (g : FootState → FootState) (s : State) :
    ∃ fs ps, mapPorts f (mapFoots g s) = { s with foots := fs, ports := ps } := by
  have hports := mapPorts_eq f (mapFoots g s)
  have hfoots := mapFoots_eq g s
  generalize mapPorts f (mapFoots g s) = t at hports ⊢
  generalize mapFoots g s = v at hports hfoots
  generalize t.ports = ps at hports
  generalize v.foots = fs at hfoots
  subst hports hfoots
  exact ⟨fs, ps, rfl⟩

/-- Settles O51: the reset state with the part's own levels, and the two walks that end the initialisation. -/
theorem resetAndInitialisation : Obligations.ResetAndInitialisation := by
  unfold Obligations.ResetAndInitialisation
  refine fun s => ⟨fun c1 c0 => ?_, fun h => ?_, fun d hd hat => ?_⟩
  · refine ⟨pinResetAll c1 c0 s, exec_pinReset c1 c0 s, ?_, pinResetAll_foot c1 c0 s⟩
    obtain ⟨fs, h⟩ := pinResetAll_eq c1 c0 s
    rw [h, clkinOf_eq]
  · rw [exec_of_undue (c := .initialisationEnd) (s := s) h]
    exact congrArg (fun u => Host.Outcome.next (finish u)) (endInitialisation_of_none h)
  · refine ⟨endInitialisation s, exec_of_at (c := .initialisationEnd) hd hat, ?_, fun n => ?_, fun p => ?_⟩
    · rw [endInitialisation_of_some hd]
      obtain ⟨fs, ps, h⟩ := walked_eq PortState.sweepAll FootState.settle { s.reach d with init := none }
      rw [h]
      rfl
    · rw [endInitialisation_of_some hd, mapPorts_foot, mapFoots_foot]
      rfl
    · rw [endInitialisation_of_some hd, mapPorts_port, mapFoots_port]
      rfl

end Sys2Proof.Proofs.Resets
end

section
/-! The performance inputs and the contact lines (chapter 3): a byte, the message it completes, the watch, debounce and functions. -/

namespace Sys2Proof.Proofs.Players

open Sys2Proof.Machine Sys2Proof.Laws Sys2Proof.Proofs.LibraryTables Sys2Proof.Proofs.Effects Sys2Proof.Proofs.ReportTables

/-! ### Completed messages (R47, R48) -/

theorem chanOf_eq {st : Byte} {c : Chan} (h : st.toNat % 16 = c.val) : chanOf st = c := Fin.ext h

section
variable {i : Input} {c : Chan} {st x y : Byte} {s : State}

theorem handOver_two (h : st.toNat % 16 = c.val) {k : Nat} (hk : st.toNat / 16 = k) :
    handOver i { status := st, data := [x, y] } s = handTwo i c k x.toNat y.toNat s := by
  rw [handOver, chanOf_eq h, hk]

theorem handOver_one (h : st.toNat % 16 = c.val) {k : Nat} (hk : st.toNat / 16 = k) :
    handOver i { status := st, data := [x] } s = handOne i c k x.toNat s := by
  rw [handOver, chanOf_eq h, hk]

theorem onCueChannel_iff : s.onCueChannel i c = true ↔ (s.input i).cueChannel = some c := by
  rw [State.onCueChannel, decide_eq_true_eq]

end

/-! #### Control changes by number -/

section
variable {i : Input} {c : Chan} {n v : Nat} {s : State}

theorem handController_of_none (h : n = 0 ∨ n = 32 ∨ 120 ≤ n) : handController i c n v s = s := by
  have h64 : n ≠ 64 := by omega
  rw [handController, if_neg h64, if_pos h]

theorem handController_of_next (h : (s.input i).cueChannel = some c) :
    handController i c 20 v s = if v < 64 then s else stageCue .nextScene (.input i) s := by
  have hon : s.onCueChannel i c = true := onCueChannel_iff.mpr h
  rw [handController, if_neg (by decide), if_neg (by decide), if_pos ⟨rfl, hon⟩]
  by_cases hv : v < 64
  · rw [if_pos hv, if_neg (Nat.not_le.mpr hv)]
  · rw [if_neg hv, if_pos (Nat.not_lt.mp hv)]

theorem handController_of_prev (h : (s.input i).cueChannel = some c) :
    handController i c 21 v s = if v < 64 then s else stageCue .prevScene (.input i) s := by
  have hon : s.onCueChannel i c = true := onCueChannel_iff.mpr h
  rw [handController, if_neg (by decide), if_neg (by decide), if_neg (by simp), if_pos ⟨rfl, hon⟩]
  by_cases hv : v < 64
  · rw [if_pos hv, if_neg (Nat.not_le.mpr hv)]
  · rw [if_neg hv, if_pos (Nat.not_lt.mp hv)]

theorem handController_of_routed (h120 : n < 120) (h64 : n ≠ 64) (h0 : n ≠ 0) (h32 : n ≠ 32)
    (hcue : (s.input i).cueChannel = some c → n ≠ 20 ∧ n ≠ 21) :
    handController i c n v s = routeControl i c (.controller n) v s := by
  rw [handController, if_neg h64, if_neg (by omega), if_neg fun h => (hcue (onCueChannel_iff.mp h.2)).1 h.1,
    if_neg fun h => (hcue (onCueChannel_iff.mp h.2)).2 h.1]

end

/-- A byte is a value exactly when its number is. -/
theorem byte_eq_iff {x y : Byte} : x = y ↔ x.toNat = y.toNat := BitVec.toNat_inj.symm

/-- Settles O53: the kind nibble names the owner. -/
theorem messageTable : Obligations.MessageTable := by
  unfold Obligations.MessageTable
  rintro i c st x y s hc one two rfl rfl
  refine ⟨fun h => handOver_two hc h, fun h => ?_, fun h => handOver_two hc h, fun h => ?_, fun h => ?_, fun h => handOver_one hc h,
    fun h => handOver_two hc h⟩
  · rw [handOver_two hc h]
    exact if_congr (byte_eq_iff (x := y) (y := 0#8)).symm rfl rfl
  · rw [handOver_two hc h]
    refine ⟨?_, fun hx => ?_, fun hx hcue => ?_, fun h120 h64 h0 h32 hcue => ?_⟩
    · rintro rfl
      rfl
    · simp only [byte_eq_iff] at hx
      exact handController_of_none hx
    · rcases hx with rfl | rfl
      · exact handController_of_next hcue
      · exact handController_of_prev hcue
    · simp only [ne_eq, byte_eq_iff] at h64 h0 h32 hcue
      exact handController_of_routed h120 h64 h0 h32 hcue
  · rw [handOver_one hc h]
    refine ⟨fun hcue hx => if_pos ⟨onCueChannel_iff.mpr hcue, hx⟩, fun hno => if_neg fun ⟨hon, hx⟩ => ?_⟩
    rcases hno with hno | hno
    · exact hno (onCueChannel_iff.mp hon)
    · exact Nat.not_le.mpr hx hno

/-! ### The watch (R51) -/

section
variable {i : Input} {b : Byte} {s : State}

/-- The parser's own fields outlive a write that changes the watch alone. -/
theorem parser_setInput (s : State) (i : Input) (x : InputState) :
    ((s.setInput i x).input i).parse = x.parse ∧ ((s.setInput i x).input i).running = x.running := by
  rw [input_setInput]
  exact ⟨rfl, rfl⟩

theorem raise_input (n : Notice) (s : State) (i : Input) : (raise n s).input i = s.input i :=
  read_raise (fun u => u.input i) (fun u l x => congrArg (fun v => v[i]) (setLink_inputs u l x)) n s

theorem feedWatch_of_off (h : (s.input i).watchOn = false) : feedWatch i b s = s := by
  simp only [feedWatch, h]
  rfl

theorem feedWatch_of_silent (h : (s.input i).watch = .unwatched) (hb : b ≠ 0xFE#8) : feedWatch i b s = s := by
  simp only [feedWatch, h, if_neg hb, ite_self]

theorem feedWatch_of_watched (hon : (s.input i).watchOn = true) (h : (s.input i).watch = .watched) :
    feedWatch i b s = s.setInput i { s.input i with watch := .watched, watchDue := some (s.now + 300000) } := by
  simp only [feedWatch, hon, h]
  exact congrArg (s.setInput i) (by rw [← h]; rfl)

theorem feedWatch_of_sensing (hon : (s.input i).watchOn = true) (h : (s.input i).watch ≠ .watched) :
    feedWatch i 0xFE#8 s = raise (.input i .watched)
      (s.setInput i { s.input i with watch := .watched, watchDue := some (s.now + 300000) }) := by
  unfold feedWatch
  rw [if_pos hon]
  split
  · rfl
  · rename_i hw
    exact absurd hw h
  · rfl

theorem feedWatch_of_lost (hon : (s.input i).watchOn = true) (h : (s.input i).watch = .lost) (hb : b ≠ 0xFE#8) :
    feedWatch i b s = raise (.input i .unwatched) (s.setInput i { s.input i with watch := .unwatched, watchDue := none }) := by
  unfold feedWatch
  rw [if_pos hon, h]
  exact if_neg hb

/-- The four answers of the watch to a byte (R51). -/
theorem feedWatch_cases {v : State} (hoff : (s.input i).watchOn = false ∨ (s.input i).watch = .unwatched ∧ b ≠ 0xFE#8 → v = s)
    (hwatched : (s.input i).watchOn = true → (s.input i).watch = .watched →
      v = s.setInput i { s.input i with watch := .watched, watchDue := some (s.now + 300000) })
    (hsensing : (s.input i).watchOn = true → (s.input i).watch ≠ .watched → b = 0xFE#8 →
      v = raise (.input i .watched) (s.setInput i { s.input i with watch := .watched, watchDue := some (s.now + 300000) }))
    (hlost : (s.input i).watchOn = true → (s.input i).watch = .lost → b ≠ 0xFE#8 →
      v = raise (.input i .unwatched) (s.setInput i { s.input i with watch := .unwatched, watchDue := none })) :
    v = feedWatch i b s := by
  by_cases hon : (s.input i).watchOn = true
  · by_cases hw : (s.input i).watch = .watched
    · rw [hwatched hon hw, feedWatch_of_watched hon hw]
    · by_cases hb : b = 0xFE#8
      · rw [hsensing hon hw hb, hb, feedWatch_of_sensing hon hw]
      · cases hl : (s.input i).watch with
        | unwatched => rw [hoff (.inr ⟨hl, hb⟩), feedWatch_of_silent hl hb]
        | watched => exact absurd hl hw
        | lost => rw [hlost hon hl hb, feedWatch_of_lost hon hl hb]
  · have hon : (s.input i).watchOn = false := by simpa using hon
    rw [hoff (.inl hon), feedWatch_of_off hon]

/-- The watch leaves the parse state and the running status (R51). -/
theorem feedWatch_parser (i : Input) (b : Byte) (s : State) :
    ((feedWatch i b s).input i).parse = (s.input i).parse ∧ ((feedWatch i b s).input i).running = (s.input i).running := by
  have hset : ∀ w due, ((setWatch i w due s).input i).parse = (s.input i).parse ∧
      ((setWatch i w due s).input i).running = (s.input i).running := by
    intro w due
    rw [setWatch, raise_input]
    exact parser_setInput s i _
  unfold feedWatch
  split
  · split
    · split
      · exact hset _ _
      · exact ⟨rfl, rfl⟩
    · exact parser_setInput s i _
    · split
      · exact hset _ _
      · exact hset _ _
  · exact ⟨rfl, rfl⟩

end

/-! ### The parser by class of byte (R41 to R44) -/

section
variable {i : Input} {b : Byte} {s : State}

theorem setInput_input (s : State) (i : Input) : s.setInput i (s.input i) = s := by
  unfold State.setInput State.input
  simp

theorem byteClass_of_data (h : b.toNat < 0x80) : byteClass b = .data := if_pos h

theorem byteClass_of_status (h : 0x80 ≤ b.toNat) (h' : b.toNat < 0xF0) : byteClass b = .status := by
  rw [byteClass, if_neg (Nat.not_lt.mpr h), if_pos h']

theorem byteClass_of_system (h : 0xF0 ≤ b.toNat) (h' : b.toNat < 0xF8) : byteClass b = .system := by
  rw [byteClass, if_neg (by omega), if_neg (by omega), if_pos h']

theorem byteClass_of_realTime (h : 0xF8 ≤ b.toNat) : byteClass b = .realTime := by
  rw [byteClass, if_neg (by omega), if_neg (by omega), if_neg (by omega)]

/-- A byte that completes no message moves the parser alone. -/
theorem parseByte_of_silent {x : InputState} (h : (s.input i).takeByte b = { parser := x, message := none }) :
    parseByte i b s = s.setInput i x := by
  simp only [parseByte, h]

theorem parseByte_of_idle (h : (s.input i).takeByte b = { parser := s.input i, message := none }) : parseByte i b s = s :=
  (parseByte_of_silent h).trans (setInput_input s i)

theorem parseByte_of_message {x : InputState} {m : Message} (h : (s.input i).takeByte b = { parser := x, message := some m }) :
    parseByte i b s = handOver i m (s.setInput i x) := by
  simp only [parseByte, h]

end

section
variable {x : InputState} {b : Byte}

theorem takeByte_of_data (h : b.toNat < 0x80) : x.takeByte b = x.takeData b := by
  rw [InputState.takeByte, byteClass_of_data h]

theorem takeByte_of_status (h : 0x80 ≤ b.toNat) (h' : b.toNat < 0xF0) :
    x.takeByte b = { parser := { x.abandon with parse := .collecting b [], running := some b }, message := none } := by
  rw [InputState.takeByte, byteClass_of_status h h']
  rfl

theorem takeByte_of_system (h : 0xF0 ≤ b.toNat) (h' : b.toNat < 0xF8) :
    x.takeByte b = { parser := { x.abandon with running := none, parse := systemState b }, message := none } := by
  rw [InputState.takeByte, byteClass_of_system h h']
  rfl

theorem takeByte_of_realTime (h : 0xF8 ≤ b.toNat) : x.takeByte b = { parser := x, message := none } := by
  rw [InputState.takeByte, byteClass_of_realTime h]

theorem takeData_of_exclusive (h : x.parse = .exclusive) : x.takeData b = { parser := x, message := none } := by
  rw [InputState.takeData, h]

theorem takeData_of_common {n : Nat} (h : x.parse = .common n) :
    x.takeData b = { parser := { x with parse := if n ≤ 1 then .ready else .common (n - 1) }, message := none } := by
  rw [InputState.takeData, h]

theorem takeData_of_discard (h : x.parse = .ready) (hr : x.running = none) :
    x.takeData b = { parser := { x with discard := min (x.discard + 1) 65535 }, message := none } := by
  rw [InputState.takeData, h, hr]
  rfl

/-- A data byte of a message: its status is the one that is collected, or the running status (R42, R43). -/
theorem takeData_of_collecting {st : Byte} {data : List Byte}
    (h : x.parse = .collecting st data ∨ x.parse = .ready ∧ x.running = some st ∧ data = []) :
    x.takeData b = x.collect st data b := by
  rcases h with h | ⟨h, hr, rfl⟩
  · rw [InputState.takeData, h]
  · rw [InputState.takeData, h, hr]

theorem collect_of_short {st : Byte} {data : List Byte} (h : data.length + 1 < messageLength st) :
    x.collect st data b = { parser := { x with parse := .collecting st (data ++ [b]) }, message := none } := by
  rw [InputState.collect, if_neg (Nat.not_le.mpr h)]

theorem collect_of_full {st : Byte} {data : List Byte} (h : messageLength st ≤ data.length + 1) :
    x.collect st data b = { parser := { x with parse := .ready }, message := some { status := st, data := data ++ [b] } } := by
  rw [InputState.collect, if_pos h]

end

/-! ### The loss of an input (R36) -/

/-- The pedals of a lost input are asked up, channel 1 first. -/
theorem loseInput_asks (i : Input) (s : State) : loseInput i s =
    (List.finRange 16).foldl (fun x c => askPedal i c false x)
      (((s.held.filter (fun e => decide (e.source.input = i))).map (fun e => e.source)).foldl
        (fun x src => releaseEntry src 64 x) s) := by
  have hask : (fun (u : State) (c : Chan) => if (u.pedal i c).down then pedalUp i c u else u) =
      fun u c => askPedal i c false u := by
    funext u c
    unfold askPedal
    cases (u.pedal i c).down <;> rfl
  unfold loseInput
  rw [hask]
  rfl

/-- Settles O52: the watch and then the parser for a byte, the expiry of the watch, and what a loss releases. -/
theorem inputByteTable : Obligations.InputByteTable := by
  unfold Obligations.InputByteTable
  refine fun i b s => ⟨fun ok hi => ?_, fun hi => ?_, ?_, fun h => ?_, fun d hd hat u hu => ?_, ?_⟩
  · rw [exec_of_undue rfl]
    exact congrArg (fun u => Host.Outcome.next (finish u)) (if_pos (Option.isSome_iff_ne_none.mpr hi))
  · rw [exec_of_undue rfl]
    exact congrArg (fun u => Host.Outcome.next (finish u)) (if_neg (by rw [hi]; exact nofun))
  · rintro hi w x rfl rfl v hoff hwatched hsensing hlost y rfl
    have hv : v = feedWatch i b s := feedWatch_cases hoff hwatched hsensing hlost
    have hexec : exec (.inputByteReceived i b true) s = .next (finish (parseByte i b v)) := by
      rw [exec_of_undue rfl, hv]
      exact congrArg (fun u => Host.Outcome.next (finish u)) (if_neg (by rw [hi]; exact nofun))
    have hparser := feedWatch_parser i b s
    rw [← hv] at hparser
    refine ⟨hparser.1, hparser.2, ?_⟩
    intro z hz
    have hz : z = (v.input i).abandon := hz
    have hmsg : ∀ st : Byte, messageLength st = if st.toNat / 16 = 12 ∨ st.toNat / 16 = 13 then 1 else 2 := fun st => rfl
    rw [hexec, hz]
    refine ⟨fun h => ?_, fun h h' => ?_, fun h h' => ?_, fun h => ⟨fun hp => ?_, fun hp => ?_, fun hp => ?_, fun hp hr => ?_, ?_⟩⟩
    · rw [parseByte_of_idle (takeByte_of_realTime h)]
    · rw [parseByte_of_silent (takeByte_of_status h h')]
    · rw [parseByte_of_silent (takeByte_of_system h h')]
      rfl
    · rw [parseByte_of_idle ((takeByte_of_data h).trans (takeData_of_exclusive hp))]
    · rw [parseByte_of_silent ((takeByte_of_data h).trans (takeData_of_common hp))]
      rfl
    · rw [parseByte_of_silent ((takeByte_of_data h).trans (takeData_of_common hp))]
      rfl
    · rw [parseByte_of_silent ((takeByte_of_data h).trans (takeData_of_discard hp hr))]
    · intro st data hcol n hn
      rw [← hmsg] at hn
      rw [hn]
      exact ⟨fun hshort => by
          rw [parseByte_of_silent ((takeByte_of_data h).trans ((takeData_of_collecting hcol).trans (collect_of_short hshort)))],
        fun hfull => by
          rw [parseByte_of_message ((takeByte_of_data h).trans ((takeData_of_collecting hcol).trans (collect_of_full hfull)))]⟩
  · rw [exec_of_undue (c := .inputWatchExpiry i) h]
    exact congrArg (fun u => Host.Outcome.next (finish u)) (by rw [effect, watchExpiry, h])
  · rw [exec_of_at (c := .inputWatchExpiry i) hd hat, hu]
    exact congrArg (fun u => Host.Outcome.next (finish u)) (by rw [effect, watchExpiry, hd]; rfl)
  · intro u hu
    rw [hu]
    obtain ⟨hinputs, hheld, hpedal⟩ := loseInput_facts i s
    refine ⟨loseInput_asks i s, congrArg (fun v => v[i]) hinputs, hheld, fun c hc => ?_, fun j c hc => ?_⟩
    · rw [hpedal, if_pos ⟨rfl, hc⟩]
      rfl
    · rw [hpedal, if_neg]
      rintro ⟨rfl, hdown⟩
      rcases hc with hc | hc
      · exact hc rfl
      · exact absurd (hdown.symm.trans hc) nofun

/-! ### Contact lines (R53 to R55) -/

section
variable {n : FootLine} {v : Level} {s : State}

theorem lineChange_of_same (h : v = (s.foot n).level) : lineChange n v s = s := if_pos h.symm

theorem lineChange_of_init (h : v ≠ (s.foot n).level) (hi : s.init ≠ none) :
    lineChange n v s = s.setFoot n { s.foot n with level := v } := by
  simp only [lineChange]
  rw [if_neg (Ne.symm h), if_pos (Option.isSome_iff_ne_none.mpr hi)]

theorem lineChange_of_watched (h : v ≠ (s.foot n).level) (hi : s.init = none) : lineChange n v s = s.setFoot n
    { s.foot n with level := v, debounceDue := if v = (s.foot n).debounced then none else some (s.now + 12000) } := by
  simp only [lineChange]
  rw [if_neg (Ne.symm h), if_neg (by rw [hi]; exact nofun)]
  rfl

/-- A settled line is pressed as its polarity reads its level (R54). -/
theorem settle_pressed (f : FootState) : f.settle.pressed = true ↔
    f.polarity = .make ∧ f.level = .closed ∨ f.polarity = .break ∧ f.level = .opened := by
  unfold FootState.settle FootState.pressed
  cases f.polarity <;> simp

/-- The state in which the function of a line that has settled finds the part. -/
def settled (n : FootLine) (d : Nat) (s : State) : State := (s.reach d).setFoot n (s.foot n).settle

theorem settled_foot (n : FootLine) (d : Nat) (s : State) : (settled n d s).foot n = (s.foot n).settle := foot_setFoot _ n _

theorem debounceExpiry_of_press {d : Nat} (hd : (s.foot n).debounceDue = some d)
    (h : (s.foot n).polarity = .make ∧ (s.foot n).level = .closed ∨ (s.foot n).polarity = .break ∧ (s.foot n).level = .opened) :
    debounceExpiry n s = press n (settled n d s) := by
  simp only [debounceExpiry, hd]
  exact if_pos (by rw [foot_setFoot, settle_pressed]; exact h)

theorem debounceExpiry_of_release {d : Nat} (hd : (s.foot n).debounceDue = some d)
    (h : (s.foot n).polarity = .make ∧ (s.foot n).level = .opened ∨ (s.foot n).polarity = .break ∧ (s.foot n).level = .closed) :
    debounceExpiry n s = release n (settled n d s) := by
  simp only [debounceExpiry, hd]
  refine if_neg ?_
  rw [foot_setFoot, settle_pressed]
  rcases h with ⟨hp, hl⟩ | ⟨hp, hl⟩ <;> simp [hp, hl]

theorem release_of_other (h : (s.foot n).function ≠ .sustain) : release n s = s := by
  unfold release
  split
  · rename_i hf _
    exact absurd hf h
  · rfl

theorem release_of_sustain {i : Input} {c : Chan} (h : (s.foot n).function = .sustain) (hs : (s.foot n).sustain = some (i, c)) :
    release n s = askPedal i c false s := by
  simp only [release, h, hs]

end

/-- Settles O56: level, debounce and polarity say press or release, and the function says who hears of it. -/
theorem footswitchTable : Obligations.FootswitchTable := by
  unfold Obligations.FootswitchTable
  rintro n s x rfl
  refine ⟨fun v hv => ?_, fun v hv hi => ?_, fun v hv hi => ?_, fun h => ?_, fun d hd hat t ht c hc => ?_⟩
  · rw [exec_of_undue rfl]
    exact congrArg (fun u => Host.Outcome.next (finish u)) (lineChange_of_same hv)
  · rw [exec_of_undue rfl]
    exact congrArg (fun u => Host.Outcome.next (finish u)) (lineChange_of_init hv hi)
  · rw [exec_of_undue rfl]
    exact congrArg (fun u => Host.Outcome.next (finish u)) (lineChange_of_watched hv hi)
  · rw [exec_of_undue (c := .footswitchDebounceExpiry n) h]
    exact congrArg (fun u => Host.Outcome.next (finish u)) (by rw [effect, debounceExpiry, h])
  · have ht : t = settled n d s := ht
    have hmode : t.transport.mode = s.transport.mode := by rw [ht]; rfl
    have hfoot : t.foot n = (s.foot n).settle := by rw [ht, settled_foot]
    have hfunction : (t.foot n).function = (s.foot n).function := by rw [hfoot]; rfl
    have hsustain : (t.foot n).sustain = (s.foot n).sustain := by rw [hfoot]; rfl
    rw [exec_of_at (c := .footswitchDebounceExpiry n) hd hat] at hc
    refine ⟨fun h => ?_, fun h => ?_⟩
    · rw [effect, debounceExpiry_of_release hd h, ← ht] at hc
      exact ⟨fun hf => by rw [hc, release_of_other (hfunction ▸ hf)],
        fun i ch hf hs => by rw [hc, release_of_sustain (hfunction.trans hf) (hsustain.trans hs)]⟩
    · rw [effect, debounceExpiry_of_press hd h, ← ht] at hc
      refine ⟨fun hf => ?_, fun hf => ?_, fun hf => ?_, fun hf => ?_, fun hf => ?_, fun hf => ⟨fun hm => ?_, fun hm => ?_⟩,
        fun hf => ⟨fun hm => ?_, fun hm => ?_, fun hm => ?_⟩, fun hf => ?_, fun i ch hf hs => ?_⟩
      all_goals rw [hc, press, hfunction, hf]
      · exact congrArg (fun u => Host.Outcome.next (finish u)) (if_pos (hmode.trans hm))
      · exact congrArg (fun u => Host.Outcome.next (finish u)) (if_neg fun k => hm (hmode.symm.trans k))
      · simp only [hmode, hm]
      · simp only [hmode, hm]
      · rcases hm with hm | hm <;> simp only [hmode, hm]
      · simp only [hsustain, hs]

end Sys2Proof.Proofs.Players
end

section
/-! What the note table, the pedals and a trigger's sending do to lanes and entries, more closely than by field: a NOTE lane alone moves, its
PROGRAM entries apart from those a trigger sends, and a held-note entry keeps its targets until it leaves the table. A property
that survives such steps survives the operation (R24 to R36, R141, R142, R171 to R174). -/

namespace Sys2Proof.Proofs.Lanes

open Sys2Proof.Machine Sys2Proof.Laws Sys2Proof.Proofs

/-! ### Steps of a port and of the table -/

/-- Of the port nothing but the NOTE lane, its pending sweeps and its counters has moved. -/
def LaneOnly (q x : PortState) : Prop := x = { q with
  noteLane := x.noteLane, sweepPending := x.sweepPending, settleDrop := x.settleDrop, noteDiscard := x.noteDiscard,
  overflow := x.overflow }

/-- The NOTE lane alone has moved, and its PROGRAM entries are those it held. -/
structure NoteStep (q x : PortState) : Prop where
  frame : LaneOnly q x
  programs : (x.noteLane.filter NoteEntry.isProgram).Perm (q.noteLane.filter NoteEntry.isProgram)
  ok : PortOk q → PortOk x

/-- What a held-note entry is apart from its state and its sent flags. -/
abbrev outline (e : HeldEntry) : Source × List Triple := (e.source, e.targets.map (fun x => x.triple))

/-- Entries keep their sources and targets, in their order. -/
def FlagStep (held x : List HeldEntry) : Prop := x.map outline = held.map outline

theorem laneOnly_refl (q : PortState) : LaneOnly q q := rfl

theorem laneOnly_lose (q : PortState) : LaneOnly q q.lose := by
  unfold PortState.lose
  split
  · rfl
  · split <;> rfl

theorem laneOnly_trans {q x y : PortState} (h : LaneOnly q x) (k : LaneOnly x y) : LaneOnly q y := by
  unfold LaneOnly at h k ⊢
  rw [k, h]

/-- A lost entry gives its place to a SWEEP at most (R173). -/
theorem lose_programs (q : PortState) : q.lose.noteLane.filter NoteEntry.isProgram = q.noteLane.filter NoteEntry.isProgram := by
  unfold PortState.lose
  split
  · rfl
  · split
    · rfl
    · simp [NoteEntry.isProgram]

/-! ### An entry offered -/

theorem laneOnly_offerFull (q : PortState) (e : NoteEntry) : LaneOnly q (q.offerFull e).port := by
  unfold PortState.offerFull
  split <;> rfl

theorem laneOnly_offer (q : PortState) (now : Nat) (e : NoteEntry) : LaneOnly q (q.offer now e).port := by
  unfold PortState.offer
  split
  · rfl
  · split
    · rename_i lane _
      exact laneOnly_trans (x := { q with noteLane := lane }) rfl (laneOnly_lose _)
    · split
      · rfl
      · exact laneOnly_offerFull q e

/-- An accepted entry adds itself to the lane's PROGRAM entries, if it is one, and nothing else changes them (R171, R172). -/
theorem offerFull_programs (q : PortState) (e : NoteEntry) :
    ((q.offerFull e).port.noteLane.filter NoteEntry.isProgram).Perm
      ((if (q.offerFull e).accepted then q.noteLane ++ [e] else q.noteLane).filter NoteEntry.isProgram) := by
  unfold PortState.offerFull
  split
  · rename_i c k lane hl
    have hlane := (removeNewestOn_lane hl).2
    have hperm := (metLane_perm lane q.waiting e).symm.filter NoteEntry.isProgram
    refine hperm.trans (List.Perm.of_eq ?_)
    show (lane ++ q.waiting ++ [e]).filter _ = (q.noteLane ++ [e]).filter _
    rw [List.filter_append, List.filter_append, hlane, ← List.filter_append, ← List.filter_append, places_waiting]
  · exact List.Perm.refl _

theorem offer_programs (q : PortState) (now : Nat) (e : NoteEntry) :
    ((q.offer now e).port.noteLane.filter NoteEntry.isProgram).Perm
      ((if (q.offer now e).accepted then q.noteLane ++ [e] else q.noteLane).filter NoteEntry.isProgram) := by
  unfold PortState.offer
  split
  · exact List.Perm.refl _
  · split
    · rename_i c k lane hl
      refine List.Perm.of_eq ?_
      show ({ q with noteLane := lane } : PortState).lose.noteLane.filter _ = q.noteLane.filter _
      rw [lose_programs]
      exact (annihilate_lane (annihilation_lane hl)).2
    · split
      · exact List.Perm.refl _
      · exact offerFull_programs q e

theorem noteStep_offer (q : PortState) (now : Nat) {e : NoteEntry} (he : e.isProgram = false) : NoteStep q (q.offer now e).port := by
  refine ⟨laneOnly_offer q now e, ?_, offer_ok now (joins_of he _)⟩
  refine (offer_programs q now e).trans (List.Perm.of_eq ?_)
  split
  · rw [List.filter_append, List.filter_cons_of_neg (by rw [he]; exact nofun), List.filter_nil, List.append_nil]
  · rfl

/-- A lane with a NOTE_ON has a newest one. -/
theorem removeNewestOn_ne_none : ∀ {xs : List NoteEntry}, xs.any NoteEntry.isNoteOn = true → removeNewestOn xs ≠ none
  | [], h => nomatch h
  | x :: xs, h => by
    unfold removeNewestOn
    split
    · exact nofun
    · rename_i hnone
      have hx : x.isNoteOn = true := by
        rw [List.any_cons, Bool.or_eq_true] at h
        exact h.resolve_right fun hxs => removeNewestOn_ne_none hxs hnone
      split
      · exact nofun
      · rename_i hother
        cases x with
        | noteOn c k v => exact absurd rfl (hother c k v)
        | noteOff | polyPressure | pedal | program | sweep => exact absurd hx nofun

/-- The places stand full before an entry that waits. -/
theorem places_of_waits {q : PortState} {e : NoteEntry} (he : q.unplaced = some e) (xs : List NoteEntry) :
    ({ q with noteLane := q.places ++ xs } : PortState).places = q.places := by
  have hlong : Config.noteLaneMax ≤ q.noteLane.length := by
    by_contra hshort
    rw [unplaced_of_le (by omega)] at he
    exact nomatch he
  have hlen : q.places.length = Config.noteLaneMax := by
    unfold PortState.places
    rw [List.length_take, Nat.min_eq_left hlong]
  show (q.places ++ xs).take Config.noteLaneMax = q.places
  rw [← hlen, List.take_left']
  rfl

/-- A PROGRAM entry that waits takes the place of a NOTE_ON (R178, log 37). -/
theorem metFull_accepts {q : PortState} {e : NoteEntry} (he : q.unplaced = some e) (hp : e.isProgram = true) :
    (({ q with noteLane := q.places ++ q.waiting.erase e } : PortState).offerFull e).accepted = true := by
  have hon : q.places.any NoteEntry.isNoteOn = true := by
    have h := List.find?_some he
    rw [hp] at h
    simpa using h
  unfold PortState.offerFull
  split
  · rfl
  · rename_i hnone
    rw [places_of_waits he] at hnone
    exact absurd hnone (removeNewestOn_ne_none hon)

/-- An entry that meets the full lane keeps the lane's PROGRAM entries (R172). -/
theorem noteStep_metFull {q : PortState} {e : NoteEntry} (he : q.unplaced = some e) :
    NoteStep q (({ q with noteLane := q.places ++ q.waiting.erase e } : PortState).offerFull e).port := by
  have hlane := (unplaced_perm he).filter NoteEntry.isProgram
  refine ⟨laneOnly_trans (x := { q with noteLane := q.places ++ q.waiting.erase e }) rfl (laneOnly_offerFull _ e), ?_, metFull_ok he⟩
  refine (offerFull_programs _ e).trans ?_
  split
  · exact hlane.symm
  · rename_i hno
    have hp : e.isProgram = false := by simpa using fun h => hno (metFull_accepts he h)
    rw [List.filter_append, List.filter_cons_of_neg (by rw [hp]; exact nofun), List.filter_nil, List.append_nil] at hlane
    exact hlane.symm

/-! ### Flags -/

theorem outline_setSent (e : HeldEntry) (t : Triple) (b : Bool) : outline (e.setSent t b) = outline e := by
  unfold outline HeldEntry.setSent
  simp only [List.map_map, Prod.mk.injEq, true_and]
  exact List.map_congr_left fun x _ => by dsimp only [Function.comp]; split <;> rfl

theorem flagStep_map {f : HeldEntry → HeldEntry} (hf : ∀ e, outline (f e) = outline e) (xs : List HeldEntry) :
    FlagStep xs (xs.map f) := by
  unfold FlagStep
  rw [List.map_map]
  exact List.map_congr_left fun e _ => hf e

theorem flagStep_modifyLast (q : HeldEntry → Bool) {f : HeldEntry → HeldEntry} (hf : ∀ e, outline (f e) = outline e) :
    ∀ xs, FlagStep xs (modifyLast q f xs)
  | [] => rfl
  | x :: xs => by
    unfold modifyLast
    split
    · exact congrArg (outline x :: ·) (flagStep_modifyLast q hf xs)
    · split
      · exact congrArg (· :: xs.map outline) (hf x)
      · rfl

/-! ### Properties that lane entries and their reports do not disturb -/

/-- Lane entries other than PROGRAM entries, the reports they cause and the notices do not disturb a property (R171 to R174, R186,
R191). -/
structure LaneFree (P : State → Prop) : Prop where
  offered : ∀ l n s, P s → P (raiseOn l n s)
  lane : ∀ s p x, NoteStep (s.port p) x → P s → P (s.setPort p x)
  flags : ∀ s x, FlagStep s.held x → P s → P { s with held := x }
  fault : ∀ s x, P s → P { s with faultRecord := x }

/-- Nor do the whole actions of the note table (R24, R25, R28) and the fields it writes besides. -/
structure TableFree (P : State → Prop) : Prop extends LaneFree P where
  release : ∀ src v s, P s → P (releaseEntry src v s)
  sustain : ∀ src v s e, s.entryOf src = some e → P s → P (noteOffPedalled src v e s)
  record : ∀ src n ts s, 1 ≤ ts.length → ts.length ≤ 4 → (ts.map (fun x => x.triple)).Nodup → P s → P (recordNoteOn src n ts s)
  emptied : ∀ s, P s → P { s with held := [] }
  pedals : ∀ s x, P s → P { s with pedals := x }
  inputs : ∀ s x, P s → P { s with inputs := x }

section
variable {P : State → Prop}

theorem withdraw_kept (h : LaneFree P) (t : Triple) {s : State} (hs : P s) : P (withdraw t s) :=
  h.flags _ _ (flagStep_modifyLast _ (fun e => outline_setSent e t false) _) hs

theorem takeFault_kept (h : LaneFree P) (c : FaultClass) (x : FaultSource) {s : State} (hs : P s) : P (takeFault c x s) :=
  raise_closed h.offered _ (h.fault _ _ hs)

theorem reportOffer_kept (h : LaneFree P) (p : Port) (o : Offered) {s : State} (hs : P (s.setPort p o.port)) :
    P (reportOffer p o s) := by
  have hw : P (withdrawOn p o.withdrawn (s.setPort p o.port)) := by
    unfold withdrawOn
    split
    · exact hs
    · exact withdraw_kept h _ hs
  unfold reportOffer overflowFault
  split
  · exact takeFault_kept h _ _ hw
  · exact hw

theorem offerNote_kept (h : LaneFree P) (p : Port) (e : NoteEntry) (he : e.isProgram = false) {s : State} (hs : P s) :
    P (offerNote p e s) := reportOffer_kept h p _ (h.lane _ _ _ (noteStep_offer _ s.now he) hs)

theorem meetFull_kept (h : LaneFree P) (p : Port) {s : State} (hs : P s) : P (meetFull p s) := by
  unfold meetFull
  split
  · exact hs
  · rename_i e he
    have hmet := reportOffer_kept h p _ (h.lane _ _ _ (noteStep_metFull he) hs)
    dsimp only
    split
    · exact hmet
    · unfold dropReport
      split
      · exact withdraw_kept h _ hmet
      · exact hmet

theorem meetFulls_kept (h : LaneFree P) (p : Port) {s : State} (hs : P s) : P (meetFulls p s) :=
  iterate_closed (fun _ hs => meetFull_kept h p hs) _ hs

/-! ### Releases -/

/-- A release keeps what the leaving of its target keeps (R24). -/
theorem releaseTarget_of (h : LaneFree P) (src : Source) (v : Nat) (t : Triple)
    (hd : ∀ s, P s → P { s with held := s.held.map (fun e => if e.source = src then e.drop t else e) }) {s : State} (hs : P s) :
    P (releaseTarget src v t s) := by
  have hdropped := hd s hs
  unfold releaseTarget
  dsimp only
  split
  · split
    · exact offerNote_kept h _ _ rfl hdropped
    · exact hdropped
  · split
    · exact h.flags _ _ (flagStep_modifyLast _ (fun e => outline_setSent e t true) _) hdropped
    · exact hdropped

theorem releaseTargets_of (h : LaneFree P) (src : Source) (v : Nat)
    (hd : ∀ t s, P s → P { s with held := s.held.map (fun e => if e.source = src then e.drop t else e) }) (ts : List Triple)
    {s : State} (hs : P s) : P (releaseTargets src v ts s) :=
  foldl_closed (fun _ t hs => releaseTarget_of h src v t (hd t) hs) ts s hs

/-- A claim moves lanes and flags alone (R25). -/
theorem claim_kept (h : LaneFree P) (src : Source) (x : HeldTarget) {s : State} (hs : P s) : P (claim src x s) := by
  have hretriggered : P (if soundingIn (s.held.filter (fun e => decide (e.source ≠ src))) x.triple then
      offerNote x.triple.port (.noteOff x.triple.chan x.triple.key Config.offVelocity) s else s) := by
    split
    · exact offerNote_kept h _ _ rfl hs
    · exact hs
  unfold claim
  dsimp only
  generalize (if soundingIn (s.held.filter (fun e => decide (e.source ≠ src))) x.triple then
      offerNote x.triple.port (.noteOff x.triple.chan x.triple.key Config.offVelocity) s else s) = u at hretriggered ⊢
  have hon := offerNote_kept h x.triple.port (.noteOn x.triple.chan x.triple.key x.velocity) rfl hretriggered
  split
  · refine h.flags _ _ (flagStep_map (fun e => ?_) _) hon
    split
    · exact outline_setSent e _ _
    · rfl
  · exact hon

theorem claims_kept (h : LaneFree P) (src : Source) (ts : List HeldTarget) {s : State} (hs : P s) :
    P (ts.foldl (fun s x => claim src x s) s) := foldl_closed (fun _ x hs => claim_kept h src x hs) ts s hs

/-- A property that no write to the held-note table disturbs. -/
theorem TableFree.ofHeld (h : LaneFree P) (hh : ∀ s x, P s → P { s with held := x }) (hp : ∀ s x, P s → P { s with pedals := x })
    (hc : ∀ s x, P s → P { s with stealCount := x }) (hi : ∀ s x, P s → P { s with inputs := x }) : TableFree P := by
  have htargets : ∀ src v ts s, P s → P (releaseTargets src v ts s) := fun src v ts s hs =>
    releaseTargets_of h src v (fun t u hu => hh u _ hu) ts hs
  have hrelease : ∀ src v s, P s → P (releaseEntry src v s) := by
    intro src v s hs
    unfold releaseEntry
    split
    · exact hs
    · exact hh _ _ (htargets _ _ _ _ hs)
  have hroom : ∀ i s, P s → P (makeRoom i s) := by
    intro i s hs
    unfold makeRoom steal
    split
    · split
      · exact hs
      · exact takeFault_kept h _ _ (raise_closed h.offered _ (hc _ _ (hrelease _ _ _ hs)))
    · exact hs
  refine { toLaneFree := h, release := hrelease, sustain := fun src v s e _ hs => ?_, record := fun src n ts s _ _ _ hs => ?_,
           emptied := fun s hs => hh s _ hs, pedals := hp, inputs := hi }
  · unfold noteOffPedalled
    dsimp only
    split
    · exact hh _ _ (htargets _ _ _ _ hs)
    · exact hh _ _ (htargets _ _ _ _ hs)
  · exact claims_kept h src ts (hh _ _ (hroom _ _ (hrelease _ _ _ hs)))

/-! ### Notes, pedals and the loss of an input -/

theorem releaseEntries_kept (h : TableFree P) (srcs : List Source) {s : State} (hs : P s) : P (releaseEntries srcs s) :=
  foldl_closed (fun s src hs => h.release src _ s hs) srcs s hs

theorem noteOn_kept (h : TableFree P) (i : Input) (c : Chan) (k v : Nat) {s : State} (hs : P s) : P (noteOn i c k v s) := by
  have hlayers := Router.layersOk_layers s.live i c k v
  unfold noteOn countSkips
  dsimp only
  split
  · exact h.inputs _ _ hs
  · rename_i hsome
    refine h.record _ _ _ _ ?_ hlayers.atMostFour hlayers.distinct (h.inputs _ _ hs)
    exact List.length_pos_iff.mpr (by simpa using hsome)

theorem noteOff_kept (h : TableFree P) (i : Input) (c : Chan) (k v : Nat) {s : State} (hs : P s) : P (noteOff i c k v s) := by
  unfold noteOff countOrphan
  dsimp only
  split
  · exact h.inputs _ _ hs
  · rename_i e he
    split
    · exact hs
    · split
      · exact h.sustain _ _ _ _ he hs
      · exact h.release _ _ _ hs

theorem polyPressure_kept (h : LaneFree P) (i : Input) (c : Chan) (k v : Nat) {s : State} (hs : P s) :
    P (polyPressure i c k v s) := by
  unfold polyPressure
  split
  · exact hs
  · refine foldl_closed (fun s t hs => ?_) _ _ hs
    unfold pressTarget
    split
    · exact offerNote_kept h _ _ rfl hs
    · exact hs

theorem sendPedals_kept (h : LaneFree P) (d : Bool) (ds : List (Port × Chan)) {s : State} (hs : P s) : P (sendPedals d ds s) :=
  foldl_closed (fun _ _ hs => offerNote_kept h _ _ rfl hs) ds s hs

theorem pedalUp_kept (h : TableFree P) (i : Input) (c : Chan) {s : State} (hs : P s) : P (pedalUp i c s) :=
  h.pedals _ _ (releaseEntries_kept h _ (h.pedals _ _ (sendPedals_kept h.toLaneFree _ _ hs)))

theorem askPedal_kept (h : TableFree P) (i : Input) (c : Chan) (d : Bool) {s : State} (hs : P s) : P (askPedal i c d s) := by
  unfold askPedal pedalDown
  split
  · exact hs
  · split
    · exact sendPedals_kept h.toLaneFree _ _ (h.pedals _ _ hs)
    · exact pedalUp_kept h _ _ hs

theorem loseInput_kept (h : TableFree P) (i : Input) {s : State} (hs : P s) : P (loseInput i s) := by
  refine foldl_closed (fun s c hs => ?_) _ _ (releaseEntries_kept h _ hs)
  split
  · exact pedalUp_kept h _ _ hs
  · exact hs

theorem emptyNoteTable_kept (h : TableFree P) {s : State} (hs : P s) : P (emptyNoteTable s) := h.pedals _ _ (h.emptied _ hs)

theorem pedalCarry_kept (h : LaneFree P) (hp : ∀ s x, P s → P { s with pedals := x }) {s : State} (hs : P s) : P (pedalCarry s) := by
  refine foldl_closed (fun s x hs => ?_) _ _ hs
  unfold carryPedal
  dsimp only
  split
  · exact sendPedals_kept h _ _ (hp _ _ hs)
  · exact hs

end

/-! ### Triggers -/

/-- Nor does the record that a trigger makes, its sending, and its end disturb the property (R139 to R145). -/
structure SendKept (P : State → Prop) : Prop extends LaneFree P where
  pedals : ∀ s x, P s → P { s with pedals := x }
  live : ∀ s x y, P s → P { s with live := x, liveId := y }
  assign : ∀ (w : Sending) a, P w.state → P (w.assign a).state
  started : ∀ t s, P s → P { s with changeover := some (s.newRecord t) }
  complete : ∀ s, P s → P (completeIfDone s)

theorem raise_newRecord (n : Notice) (t : Trigger) (s : State) : (raise n s).newRecord t = s.newRecord t :=
  read_raise (fun u => u.newRecord t) (fun _ l _ => by cases l <;> rfl) n s

section
variable {P : State → Prop}

/-- The state with the new record, SUPERSEDED raised before it (R139, R146). -/
theorem newRecord_kept (h : SendKept P) (t : Trigger) {s : State} (hs : P s) :
    P { raiseSuperseded s with changeover := some (s.newRecord t) } := by
  unfold raiseSuperseded
  split
  · exact h.started t s hs
  · rw [← raise_newRecord]
    exact h.started t _ (raise_closed h.offered _ hs)

theorem assignAll_kept (h : SendKept P) (n : SlotNo) (k : Nat) {s : State} (hs : P s) : P (assignAll n k s).state := by
  unfold assignAll
  generalize (s.sceneAt n k).elim [] (fun sc => sc.assignments) = xs
  suffices ∀ w : Sending, P w.state → P (xs.foldl Sending.assign w).state from this _ hs
  induction xs with
  | nil => exact fun _ hw => hw
  | cons x xs ih => exact fun w hw => ih _ (h.assign w x hw)

/-- The whole trigger, the selection moved by what moves it (R139 to R145). -/
theorem takeTrigger_kept (h : SendKept P) (t : Trigger) (hm : ∀ s, P s → P (moveSelection t s).1) {s : State} (hs : P s) :
    P (takeTrigger t s).1 := by
  rw [takeTrigger_eq]
  refine h.complete _ (assignAll_kept h _ _ (pedalCarry_kept h.toLaneFree h.pedals (h.live _ _ _ (hm _ ?_))))
  exact raiseStarted_closed h.offered t (newRecord_kept h t hs)

end

/-! ### A sending whose PROGRAM entries do not matter -/

/-- A property of anything but the NOTE lanes, the held-note table's flags, the record and program memory. -/
structure QuietFree (P : State → Prop) : Prop where
  offered : ∀ l n s, P s → P (raiseOn l n s)
  quiet : ∀ s p x, LaneOnly (s.port p) x → P s → P (s.setPort p x)
  flags : ∀ s x, FlagStep s.held x → P s → P { s with held := x }
  fault : ∀ s x, P s → P { s with faultRecord := x }
  changeover : ∀ s x, P s → P { s with changeover := x }
  progMem : ∀ s x, P s → P { s with progMem := x }
  pedals : ∀ s x, P s → P { s with pedals := x }
  live : ∀ s x y, P s → P { s with live := x, liveId := y }

section
variable {P : State → Prop}

theorem QuietFree.toLaneFree (h : QuietFree P) : LaneFree P :=
  { offered := h.offered, lane := fun s p x hx hs => h.quiet s p x hx.frame hs, flags := h.flags, fault := h.fault }

theorem withdrawProgram_quiet (h : QuietFree P) (p : Port) (c : Chan) {s : State} (hs : P s) : P (withdrawProgram p c s) := by
  unfold withdrawProgram lowerOutstanding
  dsimp only
  split
  · have hlane : P (s.setPort p
        ({ s.port p with noteLane := (s.port p).noteLane.filter (fun e => !e.isProgramOn c) } : PortState).lose) :=
      h.quiet _ _ _ (laneOnly_trans (x := { s.port p with
        noteLane := (s.port p).noteLane.filter (fun e => !e.isProgramOn c) }) rfl (laneOnly_lose _)) hs
    split
    · exact hlane
    · exact h.changeover _ _ hlane
  · exact hs

theorem joinPort_quiet (h : QuietFree P) (p : Port) {s : State} (hs : P s) : P (joinPort p s) := by
  unfold joinPort
  split
  · exact hs
  · split <;> exact h.changeover _ _ hs

theorem assign_quiet (h : QuietFree P) (w : Sending) (a : Assignment) (hs : P w.state) : P (w.assign a).state := by
  unfold Sending.assign
  split
  · exact hs
  · have hwithdrawn := withdrawProgram_quiet h a.port a.chan hs
    have hoffered := reportOffer_kept h.toLaneFree a.port _ (h.quiet _ a.port _
      (laneOnly_offer _ (withdrawProgram a.port a.chan w.state).now a.entry) hwithdrawn)
    dsimp only
    split
    · exact joinPort_quiet h _ (h.progMem _ _ hoffered)
    · exact h.progMem _ _ hoffered

theorem completeIfDone_quiet (h : QuietFree P) {s : State} (hs : P s) : P (completeIfDone s) := by
  unfold completeIfDone
  split
  · exact hs
  · split
    · exact h.changeover _ _ (raise_closed h.offered _ hs)
    · exact hs

theorem QuietFree.send (h : QuietFree P) : SendKept P :=
  { toLaneFree := h.toLaneFree, pedals := h.pedals, live := h.live, assign := assign_quiet h
    started := fun _ _ hs => h.changeover _ _ hs, complete := fun _ hs => completeIfDone_quiet h hs }

end

end Sys2Proof.Proofs.Lanes
end

section
/-! The starts of beats and downbeats (R65, R88 to R90, R93): which tempo a beat takes, what its click and its clock bytes leave, and that the
tempo of a beat depends on mode, bar, map and tempo unit alone. -/

namespace Sys2Proof.Proofs.Beats

open Sys2Proof.Machine Sys2Proof.Laws Sys2Proof.Proofs.Tempo

/-! ### The tempo of a beat (R65) -/

/-- The tempo unit once the staged value of a beat is dealt with (R65 steps 1 and 2). -/
def stagedTempo (d : Bool) (s : State) : TempoState :=
  (if s.transport.mode = .countIn then s.tempo else s.segmentStep d).applyStaged d

/-- The tempo unit that a beat leaves. -/
def beatTempo (d : Bool) (s : State) : TempoState :=
  (stagedTempo d s).take ({ s with tempo := stagedTempo d s } : State).chosenTempo

theorem evaluateBeat_tempo (d : Bool) (s : State) : (evaluateBeat d s).tempo = beatTempo d s :=
  read_raiseTempo (fun u => u.tempo) (fun _ l _ => by cases l <;> rfl) _ _

theorem segmentStep_congr {s u : State} (ht : u.tempo = s.tempo) (hb : u.transport.bar = s.transport.bar)
    (hmap : u.mapInUse = s.mapInUse) (d : Bool) : u.segmentStep d = s.segmentStep d := by
  unfold State.segmentStep State.segmentInUse
  rw [ht, hb, hmap]

theorem chosenTempo_congr {s u : State} (ht : u.tempo = s.tempo) (hmap : u.mapInUse = s.mapInUse) :
    u.chosenTempo = s.chosenTempo := by
  unfold State.chosenTempo State.segmentInUse State.firstSegment
  rw [ht, hmap]

/-- The tempo of a beat is the evaluation's for any state with this mode, bar, map and tempo unit. -/
theorem beatTempo_congr {s u : State} (ht : u.tempo = s.tempo) (hm : u.transport.mode = s.transport.mode)
    (hb : u.transport.bar = s.transport.bar) (hmap : u.mapInUse = s.mapInUse) (d : Bool) : beatTempo d u = beatTempo d s := by
  have hstaged : stagedTempo d u = stagedTempo d s := by
    unfold stagedTempo
    rw [ht, hm, segmentStep_congr ht hb hmap]
  unfold beatTempo
  rw [hstaged, chosenTempo_congr (s := { s with tempo := stagedTempo d s }) (u := { u with tempo := stagedTempo d s }) rfl hmap]

theorem raise_mapInUse (n : Notice) (s : State) : (raise n s).mapInUse = s.mapInUse :=
  read_raise (fun u => u.mapInUse) (fun _ l _ => by cases l <;> rfl) n s

theorem raiseTransport_mapInUse (c : Cause) (o : Option Origin) (s : State) : (raiseTransport c o s).mapInUse = s.mapInUse :=
  raise_mapInUse _ s

/-- The TRANSPORT notice before a beat does not move its tempo. -/
theorem beatTempo_raiseTransport (d : Bool) (c : Cause) (o : Option Origin) (s : State) :
    beatTempo d (raiseTransport c o s) = beatTempo d s :=
  beatTempo_congr (raiseTransport_tempo c o s) (by rw [raiseTransport_transport]) (by rw [raiseTransport_transport])
    (raiseTransport_mapInUse c o s) d

/-! ### Click and clock at a beat -/

/-- The segment whose meter the present bar takes (R89 step 4). -/
def meterOf (s : State) : Segment := (s.mapInUse[segmentAt s.mapInUse s.transport.bar]?).getD defaultSegment

/-- The transport in the meter of the present bar. -/
def metered (s : State) : TransportState :=
  { s.transport with numerator := (meterOf s).numerator, denominator := (meterOf s).denominator }

theorem evaluateBeat_mapInUse (d : Bool) (s : State) : (evaluateBeat d s).mapInUse = s.mapInUse :=
  read_evaluateBeat (fun u => u.mapInUse) (fun _ _ => rfl) (fun _ l _ => by cases l <;> rfl) d s

theorem takeMeter_evaluateBeat (d : Bool) (s : State) :
    takeMeter (evaluateBeat d s) = { evaluateBeat d s with transport := metered s } := by
  unfold takeMeter metered meterOf
  dsimp only
  rw [evaluateBeat_mapInUse, evaluateBeat_transport]

theorem clickStep_link (s : State) (l : Link) : (clickStep s).link l = s.link l :=
  read_clickStep (fun u => u.link l) (fun _ _ _ => by cases l <;> rfl) (fun _ _ => by cases l <;> rfl) s

theorem sendClock_eq (bs : List RealTime) (s : State) : sendClock bs s = { s with ports := (sendClock bs s).ports } := by
  unfold sendClock
  generalize allPorts = ps
  induction ps generalizing s with
  | nil => rfl
  | cons p ps ih =>
    rw [List.foldl_cons, ih]
    unfold clockPort
    split <;> rfl

/-- What the click leaves of a beat that has been evaluated. -/
structure Struck (d : Bool) (s : State) (x : TransportState) (k : State) : Prop where
  transport : k.transport = x
  tempo : k.tempo = (evaluateBeat d s).tempo
  links : ∀ l, k.link l = (evaluateBeat d s).link l
  realtime : ∀ p, (k.port p).realtime = (s.port p).realtime
  settings : ∀ p, (k.port p).settings = (s.port p).settings
  now : k.now = s.now
  band : BandOnly s k

theorem struck (d : Bool) (s : State) (x : TransportState) : Struck d s x (clickStep { evaluateBeat d s with transport := x }) := by
  have hport : ∀ p, ({ evaluateBeat d s with transport := x } : State).port p = s.port p := evaluateBeat_port d s
  exact {
    transport := clickStep_transport _
    tempo := clickStep_tempo _
    links := fun l => (clickStep_link _ l).trans (by cases l <;> rfl)
    realtime := fun p => (clickStep_realtime _ p).1.trans (congrArg _ (hport p))
    settings := fun p => (clickStep_realtime _ p).2.trans (congrArg _ (hport p))
    now := (clickStep_now _).trans (evaluateBeat_now d s)
    band := bandOnly_trans (bandOnly_evaluateBeat d s) (bandOnly_trans (bandOnly_transport _ x) (bandOnly_clickStep _)) }

/-- A beat that is no downbeat keeps the transport. -/
theorem struck_beat (s : State) : Struck false s s.transport (clickStep (evaluateBeat false s)) := by
  have h := struck false s s.transport
  rwa [show ({ evaluateBeat false s with transport := s.transport } : State) = evaluateBeat false s by
    conv_lhs => rw [← evaluateBeat_transport false s]] at h

/-- What clock bytes leave after the click. -/
structure Clocked (bs : List RealTime) (d : Bool) (s : State) (x : TransportState) (k v : State) : Prop where
  frame : v = { k with ports := v.ports }
  port : ∀ p, v.port p = if (s.port p).settings.clockFlag then bs.foldl PortState.offerRealtime (k.port p) else k.port p
  transport : v.transport = x
  tempo : v.tempo = (evaluateBeat d s).tempo
  realtime : ∀ p, (v.port p).realtime = if (s.port p).settings.clockFlag then
    (bs.foldl PortState.offerRealtime (s.port p)).realtime else (s.port p).realtime
  now : v.now = s.now
  band : BandOnly s v

theorem clocked {d : Bool} {s : State} {x : TransportState} {k : State} (h : Struck d s x k) (bs : List RealTime) :
    Clocked bs d s x k (sendClock bs k) := by
  have hport : ∀ p, (sendClock bs k).port p =
      if (s.port p).settings.clockFlag then bs.foldl PortState.offerRealtime (k.port p) else k.port p := by
    intro p
    rw [sendClock_port, h.settings]
  exact {
    frame := sendClock_eq bs k
    port := hport
    transport := (sendClock_transport bs k).trans h.transport
    tempo := (sendClock_tempo bs k).trans h.tempo
    realtime := fun p => by
      rw [hport]
      split
      · exact offerAll_realtime bs _ _ (h.realtime p)
      · exact h.realtime p
    now := (sendClock_now bs k).trans h.now
    band := bandOnly_trans h.band (bandOnly_sendClock bs k) }

/-! ### The four kinds of beat -/

/-- The state of a downbeat once its click has sounded. -/
def struckDownbeat (s : State) : State := clickStep { evaluateBeat true s with transport := metered s }

/-- The notices of a beat read position and tempo (R97). -/
theorem beatNotice_eq {v : State} {x : TransportState} (h : v.transport = x) :
    v.beatNotice = .beat x.bar x.beat v.tempo.current := by
  rw [State.beatNotice, h]

theorem barNotice_eq {v : State} {x : TransportState} (h : v.transport = x) :
    v.barNotice = .bar x.bar x.beat v.tempo.current := by
  rw [State.barNotice, h]

theorem metered_bar (s : State) : (metered s).bar = s.transport.bar := rfl

theorem metered_beat (s : State) : (metered s).beat = s.transport.beat := rfl

/-- A downbeat of RUNNING from its click on. -/
def playDownbeat (bs : List RealTime) (k : State) : State :=
  let v := sendClock bs k
  beginStep (raise v.beatNotice (raise v.barNotice v))

theorem runningDownbeat_play (lead : Option RealTime) (s : State) :
    runningDownbeat lead s = playDownbeat (lead.toList ++ [.clock]) (struckDownbeat s) := by
  unfold runningDownbeat playDownbeat struckDownbeat
  rw [takeMeter_evaluateBeat]

theorem runningDownbeat_eq (lead : Option RealTime) (s : State) : ∃ v, runningDownbeat lead s =
      beginStep (raise (.beat s.transport.bar s.transport.beat v.tempo.current)
        (raise (.bar s.transport.bar s.transport.beat v.tempo.current) v)) ∧
    Clocked (lead.toList ++ [.clock]) true s (metered s) (struckDownbeat s) v := by
  have hs : Struck true s (metered s) (struckDownbeat s) := struck true s (metered s)
  have h := clocked hs (lead.toList ++ [.clock])
  refine Exists.intro _ (And.intro ?_ h)
  rw [runningDownbeat_play, playDownbeat, beatNotice_eq h.transport, barNotice_eq h.transport, metered_bar, metered_beat]

theorem countInDownbeat_eq (s : State) : countInDownbeat s = beginStep (struckDownbeat s) :=
  congrArg (fun u => beginStep (clickStep u)) (takeMeter_evaluateBeat true s)

theorem runningBeat_eq (s : State) : ∃ v, runningBeat s =
      beginStep (raise (.beat s.transport.bar s.transport.beat v.tempo.current) v) ∧
    Clocked [.clock] false s s.transport (clickStep (evaluateBeat false s)) v := by
  have h := clocked (struck_beat s) [.clock]
  refine ⟨sendClock [.clock] (clickStep (evaluateBeat false s)), ?_, h⟩
  rw [runningBeat, beatNotice_eq h.transport]

/-! ### The step that a beat begins (R60, R81) -/

/-- A state that has begun a step with the tempo unit `e`, in the transport `x`, from the state `s`. -/
structure Begun (e : TempoState) (x : TransportState) (s u : State) : Prop where
  transport : u.transport = { x with stepEnd := some (s.now + (stepDuration e.current e.acc).1) }
  tempo : u.tempo = { e with acc := (stepDuration e.current e.acc).2 }
  now : u.now = s.now
  band : BandOnly s u

theorem begun {e : TempoState} {x : TransportState} {s v : State} (ht : v.tempo = e) (hx : v.transport = x) (hn : v.now = s.now)
    (hb : BandOnly s v) : Begun e x s (beginStep v) := by
  subst ht hx
  exact { transport := by rw [← hn]; rfl, tempo := rfl, now := hn, band := bandOnly_trans hb (bandOnly_beginStep v) }

theorem runningDownbeat_begun (lead : Option RealTime) (s : State) :
    Begun (evaluateBeat true s).tempo (metered s) s (runningDownbeat lead s) := by
  obtain ⟨v, hv, h⟩ := runningDownbeat_eq lead s
  rw [hv]
  refine begun ?_ ?_ ?_ ?_
  · rw [raise_tempo, raise_tempo, h.tempo]
  · rw [raise_transport, raise_transport, h.transport]
  · rw [raise_now, raise_now, h.now]
  · exact bandOnly_trans h.band (bandOnly_trans (bandOnly_raise _ _) (bandOnly_raise _ _))

theorem countInDownbeat_begun (s : State) : Begun (evaluateBeat true s).tempo (metered s) s (countInDownbeat s) := by
  have h := struck true s (metered s)
  rw [countInDownbeat_eq]
  exact begun h.tempo h.transport h.now h.band

/-- A tempo unit whose accumulator is clear begins a run (R61). -/
theorem Begun.ofClear {e : TempoState} {x : TransportState} {s u : State} (h : Begun e x s u) (he : e.acc = 0) :
    u.tempo = { e with acc := (stepDuration e.current 0).2 } ∧
      u.transport.stepEnd = some (s.now + (stepDuration e.current 0).1) := by
  rw [h.tempo, h.transport, he]
  exact ⟨rfl, rfl⟩

end Sys2Proof.Proofs.Beats
end

section
/-! START, STOP, HOLD and GO (chapter 5), from a link or a footswitch. -/

namespace Sys2Proof.Proofs.TransportTables

open Sys2Proof.Machine Sys2Proof.Laws Sys2Proof.Proofs.LibraryTables Sys2Proof.Proofs.Beats Sys2Proof.Proofs.Lanes

/-! ### START (R83) -/

section
variable {l : Link} {b : Byte} {s : State}

theorem startRequest_of_bad_field (h : flag b = none) : startRequest l [b] s = (s, .refuse .badField []) := by
  simp only [startRequest, h]

theorem startRequest_of_flag {k : Bool} (h : flag b = some k) : startRequest l [b] s = startTransport k (.link l) s := by
  simp only [startRequest, h]

end

section
variable {k : Bool} {o : Origin} {s : State}

theorem startTransport_of_moving (h : s.transport.mode ≠ .stopped) : startTransport k o s = (s, .refuse .wrongState []) :=
  if_pos h

/-- The state a start begins from, the transport in its first record and the accumulator clear (R61, R83). -/
def fromStart (x : TransportState) (s : State) : State := { s with tempo := { s.tempo with acc := 0 }, transport := x }

/-- The record of a first count-in bar (R83, R88). -/
abbrev firstCount (s : State) : TransportState :=
  { TransportState.atStart .countIn s.firstSegment with countIn := s.countInBars }

theorem startTransport_of_countIn (h : s.transport.mode = .stopped) (hbars : 0 < s.countInBars) :
    startTransport false o s = (countInDownbeat (raiseTransport .start (some o)
      (fromStart (firstCount s) s)), .ok []) := by
  rw [startTransport, if_neg (not_not.mpr h), if_pos ⟨hbars, rfl⟩]
  rfl

theorem startTransport_of_run (h : s.transport.mode = .stopped) (hskip : s.countInBars = 0 ∨ k = true) :
    startTransport k o s = (downbeat (some .start) (raiseTransport .start (some o)
      (fromStart (.atStart .running s.firstSegment) s)), .ok []) := by
  rw [startTransport, if_neg (not_not.mpr h), if_neg]
  · rfl
  · rintro ⟨hbars, hk⟩
    rcases hskip with h0 | h1
    · omega
    · exact absurd (h1.symm.trans hk) nofun

end

theorem raiseTransport_beyond (c : Cause) (o : Option Origin) (s : State) :
    (raiseTransport c o s).beyondStopBar = s.beyondStopBar :=
  read_raise (fun u => u.beyondStopBar) (fun _ l _ => by cases l <;> rfl) _ s

theorem raiseTransport_cue (c : Cause) (o : Option Origin) (s : State) : (raiseTransport c o s).cue = s.cue := raise_cue _ s

/-- Bar 1 lies beyond no song's stop bar (R102). -/
theorem beyondStopBar_of_first {s : State} (h : LibraryOk s) (hb : s.transport.bar = 1) : s.beyondStopBar = false := by
  unfold State.beyondStopBar
  split
  · rename_i g hg
    split
    · rename_i b hb'
      obtain ⟨n, -, hn⟩ := Option.bind_eq_some_iff.mp hg
      have hslot := h n
      cases hs : s.slot n with
      | empty => rw [hs] at hn; exact nomatch hn
      | building o g' c => rw [hs] at hn; exact nomatch hn
      | ready g' =>
        rw [hs] at hn hslot
        obtain rfl : g' = g := Option.some.inj hn
        have := (hslot.1.stopBar b hb').1
        rw [hb, decide_eq_false_iff_not]
        omega
    · rfl
  · rfl

/-- A downbeat with nothing pending at it is played (R89). -/
theorem downbeat_of_plain {s : State} {lead : Option RealTime} (hh : s.transport.holdPending = false) (hb : s.beyondStopBar = false)
    (hc : s.cue = none) : downbeat lead s = runningDownbeat lead s := by
  rw [downbeat, if_neg (by rw [hh]; exact nofun), if_neg (by rw [hb]; exact nofun), downbeatFromChange_none lead s hc]

/-- The TRANSPORT notice and a first record move nothing but the band. -/
theorem bandOnly_fromStart (c : Cause) (o : Option Origin) (x : TransportState) (s : State) :
    BandOnly s (raiseTransport c o (fromStart x s)) :=
  have h : BandOnly s (fromStart x s) := bandOnly_trans (bandOnly_tempo s { s.tempo with acc := 0 }) (bandOnly_transport _ x)
  bandOnly_trans h (bandOnly_raiseTransport c o _)

/-- The tempo of the beat that follows a TRANSPORT notice. -/
theorem evaluateBeat_raiseTransport (c : Cause) (o : Option Origin) (s : State) :
    (evaluateBeat true (raiseTransport c o s)).tempo = (evaluateBeat true s).tempo := by
  rw [evaluateBeat_tempo, evaluateBeat_tempo, beatTempo_raiseTransport]

/-- A run begins in the record it was given (R61, R83). -/
structure StartsRun (x : TransportState) (e : TempoState) (s u : State) : Prop where
  mode : u.transport.mode = x.mode
  bar : u.transport.bar = x.bar
  beat : u.transport.beat = x.beat
  step : u.transport.step = x.step
  countIn : u.transport.countIn = x.countIn
  tempo : u.tempo = { e with acc := (stepDuration e.current 0).2 }
  stepEnd : u.transport.stepEnd = some (s.now + (stepDuration e.current 0).1)
  now : u.now = s.now
  band : BandOnly s u

theorem startsRun {c : Cause} {o : Option Origin} {x : TransportState} {s u : State}
    (h : Begun (evaluateBeat true (raiseTransport c o (fromStart x s))).tempo (metered (raiseTransport c o (fromStart x s)))
      (raiseTransport c o (fromStart x s)) u) : StartsRun x (evaluateBeat true (fromStart x s)).tempo s u := by
  rw [evaluateBeat_raiseTransport] at h
  obtain ⟨htempo, hend⟩ := h.ofClear (evaluateBeat_acc true (fromStart x s) rfl)
  have hnow : (raiseTransport c o (fromStart x s)).now = s.now := raiseTransport_now c o _
  have hx : (raiseTransport c o (fromStart x s)).transport = x := raiseTransport_transport c o _
  have hread : ∀ {β} (f : TransportState → β), (∀ t n, f { t with stepEnd := n } = f t) →
      (∀ t n d, f { t with numerator := n, denominator := d } = f t) → f u.transport = f x := by
    intro β f hend hmeter
    rw [h.transport, hend, metered, hmeter, hx]
  exact {
    mode := hread (fun t => t.mode) (fun _ _ => rfl) (fun _ _ _ => rfl)
    bar := hread (fun t => t.bar) (fun _ _ => rfl) (fun _ _ _ => rfl)
    beat := hread (fun t => t.beat) (fun _ _ => rfl) (fun _ _ _ => rfl)
    step := hread (fun t => t.step) (fun _ _ => rfl) (fun _ _ _ => rfl)
    countIn := hread (fun t => t.countIn) (fun _ _ => rfl) (fun _ _ _ => rfl)
    tempo := htempo
    stepEnd := hend.trans (by rw [hnow])
    now := h.now.trans hnow
    band := bandOnly_trans (bandOnly_fromStart c o x s) h.band }

/-- Settles O21: the first downbeat is that of a state with a clear accumulator. -/
theorem startTable : Obligations.StartTable := by
  unfold Obligations.StartTable
  refine ⟨fun l tag skip s ht => ⟨fun h => exec_of_refusal rfl rfl ht (startRequest_of_bad_field h),
    fun k h => (exec_of_serve (k := .start) (fields := [skip]) rfl rfl ht (startRequest_of_flag h))⟩, fun k o s => ⟨startTransport_of_moving, ?_, ?_⟩⟩
  · rintro hm hbars rfl w hw e rfl
    have hw : w = fromStart (firstCount s) s := hw
    subst hw
    have hstart := startTransport_of_countIn (o := o) hm hbars
    have hrun := countInDownbeat_begun (raiseTransport .start (some o) (fromStart (firstCount s) s))
    have hrealtime := fun p => countInDownbeat_realtime (raiseTransport .start (some o) (fromStart (firstCount s) s)) p
    refine Exists.intro (countInDownbeat (raiseTransport .start (some o) (fromStart (firstCount s) s))) (And.intro hstart
      (And.intro rfl ?_))
    generalize countInDownbeat (raiseTransport .start (some o) (fromStart (firstCount s) s)) = u at hrun hrealtime ⊢
    have h := startsRun hrun
    refine ⟨h.mode, h.bar, h.beat, h.step, h.countIn, h.tempo, h.stepEnd, fun p => ?_, h.now, h.band⟩
    rw [hrealtime, raiseTransport_port]
    rfl
  · rintro hm hskip hlib hcue w hw e rfl
    have hw : w = fromStart (.atStart .running s.firstSegment) s := hw
    subst hw
    have hplayed : downbeat (some .start) (raiseTransport .start (some o) (fromStart (.atStart .running s.firstSegment) s)) =
        runningDownbeat (some .start) (raiseTransport .start (some o) (fromStart (.atStart .running s.firstSegment) s)) := by
      refine downbeat_of_plain ?_ ?_ ?_
      · rw [raiseTransport_transport]
        rfl
      · rw [raiseTransport_beyond]
        exact beyondStopBar_of_first (s := fromStart (.atStart .running s.firstSegment) s) hlib rfl
      · rw [raiseTransport_cue]
        exact hcue hm
    have h := startsRun (runningDownbeat_begun (some .start) (raiseTransport .start (some o)
      (fromStart (.atStart .running s.firstSegment) s)))
    refine ⟨_, (startTransport_of_run hm hskip).trans (by rw [hplayed]), rfl, h.mode, h.bar, h.beat, h.step, h.tempo, h.stepEnd,
      fun p => ?_, h.now, h.band⟩
    rw [runningDownbeat_realtime, raiseTransport_port]
    rfl

/-! ### The tempo unit's part of a stop (R76) -/

/-- The tempo unit as a stop and a song change leave it (R76, R77). -/
def clearedTempo (s : State) : TempoState :=
  ({ s.tempo with segment := none, ramp := .none, override := none, staged := none } : TempoState).take s.firstSegment.tempo

/-- One TEMPO notice for what the tempo unit clears (log 11). -/
theorem clearTempo_eq {s y : State} (hy : y = { s with tempo := clearedTempo s }) : clearTempo s =
    if y.tempo.current ≠ s.tempo.current ∨ s.tempo.override ≠ none ∨ s.tempo.staged ≠ none then raise y.tempoNotice y else y := by
  subst hy
  show raiseTempo (decide ((clearedTempo s).current ≠ s.tempo.current) || s.tempo.override.isSome || s.tempo.staged.isSome)
    { s with tempo := clearedTempo s } = _
  unfold raiseTempo
  refine if_congr ?_ rfl rfl
  simp only [Bool.or_eq_true, decide_eq_true_eq, Option.isSome_iff_ne_none, or_assoc]

theorem clearedTempo_current (s : State) : (clearedTempo s).current = s.firstSegment.tempo := take_current _ _

theorem clearedTempo_fields (s : State) : (clearedTempo s).override = none ∧ (clearedTempo s).staged = none ∧
    (clearedTempo s).segment = none ∧ (clearedTempo s).ramp = .none := by
  rw [clearedTempo, Tempo.take_eq]
  exact ⟨rfl, rfl, rfl, rfl⟩

/-! ### A trigger while STOPPED (R129, R131, R92) -/

/-- Map and first segment follow from the selection, the setlist and the library. -/
theorem firstSegment_congr {s u : State} (hp : u.curPos = s.curPos) (hl : u.library = s.library) (hs : u.setlist = s.setlist) :
    u.firstSegment = s.firstSegment := by
  unfold State.firstSegment State.mapInUse State.currentSong State.currentSlot State.slot
  rw [hp, hl, hs]

theorem sceneAt_congr {s u : State} (h : u.library = s.library) (n : SlotNo) (k : Nat) : u.sceneAt n k = s.sceneAt n k := by
  unfold State.sceneAt State.slot
  rw [h]

/-- The REALTIME lanes and the click unit, while the transport is STOPPED. -/
def Silent (lanes : Port → List RealTime) (k : ClickState) (u : State) : Prop :=
  (∀ p, (u.port p).realtime = lanes p) ∧ u.click = k ∧ u.transport.mode = .stopped

theorem silent_setPort {lanes : Port → List RealTime} {k : ClickState} {u : State} {p : Port} {x : PortState}
    (hx : x.realtime = (u.port p).realtime) (h : Silent lanes k u) : Silent lanes k (u.setPort p x) := by
  obtain ⟨hlanes, hclick, hmode⟩ := h
  refine ⟨fun q => ?_, hclick, hmode⟩
  rw [port_setPort_ite]
  split
  · rename_i hq
    subst hq
    exact hx.trans (hlanes q)
  · exact hlanes q

theorem silent_quiet (lanes : Port → List RealTime) (k : ClickState) : QuietFree (Silent lanes k) :=
  { offered := fun l n s h => ⟨fun p => (congrArg _ (by unfold raiseOn; split <;> cases l <;> rfl)).trans (h.1 p),
      (by unfold raiseOn; split <;> cases l <;> rfl : (raiseOn l n s).click = s.click).trans h.2.1,
      (congrArg _ (raiseOn_transport l n s)).trans h.2.2⟩
    quiet := fun s p x hx h => silent_setPort (by rw [hx]) h
    flags := fun _ _ _ h => h, fault := fun _ _ h => h, changeover := fun _ _ h => h, progMem := fun _ _ h => h
    pedals := fun _ _ h => h, live := fun _ _ _ h => h }

theorem reposition_of_stopped {s : State} (h : s.transport.mode = .stopped) : reposition s = (restTransport s, .goOn) := if_pos h

/-- The selection moves with no byte and no click while STOPPED (R92). -/
theorem moveSelection_silent {lanes : Port → List RealTime} {k : ClickState} (t : Trigger) {s : State} (h : Silent lanes k s) :
    Silent lanes k (moveSelection t s).1 := by
  unfold moveSelection
  split
  · exact h
  · obtain ⟨hlanes, hclick, hmode⟩ := h
    rw [reposition_of_stopped (by rw [clearTempo_transport]; exact hmode)]
    exact ⟨fun p => (congrArg _ (clearTempo_port _ p)).trans (hlanes p), (clearTempo_click _).trans hclick, rfl⟩

theorem takeTrigger_silent {lanes : Port → List RealTime} {k : ClickState} (t : Trigger) {s : State} (h : Silent lanes k s) :
    Silent lanes k (takeTrigger t s).1 :=
  takeTrigger_kept (silent_quiet lanes k).send t (fun _ hs => moveSelection_silent t hs) h

/-- After the selection has moved a trigger leaves the tempo unit. -/
theorem takeTrigger_tempo (t : Trigger) (s : State) : (takeTrigger t s).1.tempo = (selected t s).tempo := by
  have hquiet : QuietFree (fun u => u.tempo = (selected t s).tempo) :=
    { offered := fun l n u h => (by unfold raiseOn; split <;> cases l <;> rfl : (raiseOn l n u).tempo = u.tempo).trans h
      quiet := fun _ _ _ _ h => h, flags := fun _ _ _ h => h, fault := fun _ _ h => h, changeover := fun _ _ h => h
      progMem := fun _ _ h => h, pedals := fun _ _ h => h, live := fun _ _ _ h => h }
  have h := hquiet.send
  rw [takeTrigger_eq]
  exact h.complete _ (assignAll_kept h _ _ (pedalCarry_kept h.toLaneFree h.pedals (h.live _ _ _ rfl)))

/-- A trigger finds the state it was given behind its notices and its record. -/
theorem selected_eq (t : Trigger) (s : State) : ∃ v, selected t s = (moveSelection t v).1 ∧ v.transport = s.transport ∧
    v.tempo = s.tempo ∧ v.firstSegment = s.firstSegment :=
  ⟨_, rfl, started_read (fun u => u.transport) (fun _ l _ => by cases l <;> rfl) (fun _ _ => rfl) t s,
    started_read (fun u => u.tempo) (fun _ l _ => by cases l <;> rfl) (fun _ _ => rfl) t s,
    started_read (fun u => u.firstSegment) (fun _ l _ => by cases l <;> rfl) (fun _ _ => rfl) t s⟩

/-- Transport and tempo unit at rest in the map in use. -/
structure Rests (u : State) : Prop where
  transport : u.transport = .atStart .stopped u.firstSegment
  current : u.tempo.current = u.firstSegment.tempo
  override : u.tempo.override = none
  staged : u.tempo.staged = none
  segment : u.tempo.segment = none
  ramp : u.tempo.ramp = .none

theorem rests_congr {s u : State} (h : Rests s) (ht : u.transport = s.transport) (htempo : u.tempo = s.tempo)
    (hf : u.firstSegment = s.firstSegment) : Rests u := by
  obtain ⟨h1, h2, h3, h4, h5, h6⟩ := h
  rw [← hf] at h1 h2
  exact ⟨ht.trans h1, by rw [htempo, h2], by rw [htempo, h3], by rw [htempo, h4], by rw [htempo, h5], by rw [htempo, h6]⟩

theorem rests_cleared {v : State} (hx : v.transport = .atStart .stopped v.firstSegment) (ht : v.tempo = clearedTempo u)
    (hu : u.firstSegment = v.firstSegment) : Rests v := by
  obtain ⟨h1, h2, h3, h4⟩ := clearedTempo_fields u
  exact ⟨hx, by rw [ht, clearedTempo_current, hu], by rw [ht, h1], by rw [ht, h2], by rw [ht, h3], by rw [ht, h4]⟩

theorem moveSelection_rests (t : Trigger) {v : State} (h : Rests v) : Rests (moveSelection t v).1 := by
  unfold moveSelection
  split
  · exact rests_congr h rfl rfl rfl
  · have hmode : ∀ w : State, w.transport = v.transport → (clearTempo w).transport.mode = .stopped := by
      intro w hw
      rw [clearTempo_transport, hw, h.transport]
      rfl
    rw [reposition_of_stopped (hmode { v with curPos := some t.position, curScene := some t.scene } rfl)]
    have hfirst : ∀ w : State, (clearTempo w).firstSegment = w.firstSegment :=
      read_clearTempo (fun u => u.firstSegment) (fun _ _ => rfl) (fun _ l _ => by cases l <;> rfl)
    exact rests_cleared (u := { v with curPos := some t.position, curScene := some t.scene }) rfl (clearTempo_tempo _)
      (hfirst _).symm

theorem selected_rests (t : Trigger) {s : State} (h : Rests s) : Rests (selected t s) := by
  obtain ⟨v, hv, hx, ht, hf⟩ := selected_eq t s
  rw [hv]
  exact moveSelection_rests t (rests_congr h hx ht hf)

/-- A trigger keeps a transport that rests, and the tempo unit with it (R77, R92). -/
theorem takeTrigger_rests (t : Trigger) {s : State} (h : Rests s) : Rests (takeTrigger t s).1 := by
  obtain ⟨-, -, -, hpos, htransport⟩ := takeTrigger_reads t s
  have hcore := (takeTrigger_core t s).trans (selected_core t s).symm
  simp only [coreOf, Prod.mk.injEq] at hcore
  refine rests_congr (selected_rests t h) htransport (takeTrigger_tempo t s) (firstSegment_congr ?_ hcore.2.2.1 hcore.2.2.2.1)
  rw [hpos, (selected_selection t s).2]

theorem triggerCue_rests (c : Change) {s : State} (h : Rests s) : Rests (triggerCue c s).1 := by
  have hfirst : ∀ n (u : State), (raise n u).firstSegment = u.firstSegment :=
    read_raise (fun u => u.firstSegment) (fun _ l _ => by cases l <;> rfl)
  refine takeTrigger_rests _ (rests_congr h (raise_transport _ _) (raise_tempo _ _) (hfirst _ _))

theorem triggerCue_silent {lanes : Port → List RealTime} {k : ClickState} (c : Change) {s : State} (h : Silent lanes k s) :
    Silent lanes k (triggerCue c s).1 :=
  takeTrigger_silent _ (raise_closed (silent_quiet lanes k).offered _ h)

/-! ### Stops (R84, R91) -/

/-- The transport at rest and the STOP byte sent, before the tempo unit has its part (R84). -/
def halted (s : State) : State := stopByteFrom s.transport.mode (restTransport s)

theorem stopByteFrom_port (m : TransportMode) (s : State) (p : Port) : (stopByteFrom m s).port p =
    if (s.port p).settings.clockFlag = true ∧ m = .running then (s.port p).offerRealtime .stop else s.port p := by
  unfold stopByteFrom
  by_cases hm : m = .running
  · rw [if_pos hm, sendClock_port]
    simp only [hm, and_true]
    rfl
  · rw [if_neg hm, if_neg fun h => hm h.2]

theorem halted_eq (s : State) : halted s = { s with
    transport := .atStart .stopped s.firstSegment, ports := (halted s).ports } := stopByteFrom_ports _ _

theorem halted_firstSegment (s : State) : (halted s).firstSegment = s.firstSegment := stopByteFrom_firstSegment _ _

theorem halted_clearedTempo (s : State) : clearedTempo (halted s) = clearedTempo s := by
  have h : (halted s).tempo = s.tempo := stopByteFrom_tempo _ _
  unfold clearedTempo
  rw [h, halted_firstSegment]

theorem stopBy_eq (cause : Cause) (o : Option Origin) (s : State) :
    stopBy cause o s = raiseTransport cause o (cueOnStop (clearTempo (halted s))) := rfl

theorem halted_rests (s : State) : Rests (clearTempo (halted s)) := by
  have hfirst : (clearTempo (halted s)).firstSegment = s.firstSegment :=
    (read_clearTempo (fun u => u.firstSegment) (fun _ _ => rfl) (fun _ l _ => by cases l <;> rfl) (halted s)).trans
      (halted_firstSegment s)
  refine rests_cleared (u := s) ?_ ?_ hfirst.symm
  · rw [clearTempo_transport, hfirst, halted_eq]
  · rw [clearTempo_tempo]
    exact halted_clearedTempo s

theorem bandOnly_halted (s : State) : BandOnly s (clearTempo (halted s)) :=
  bandOnly_trans (bandOnly_trans (bandOnly_restTransport s) (bandOnly_stopByteFrom _ _)) (bandOnly_clearTempo _)

theorem cueOnStop_of_none {s : State} (h : s.cue = none) : cueOnStop s = s := by rw [cueOnStop, h]

theorem cueOnStop_of_some {s : State} {c : Change} (h : s.cue = some c) : cueOnStop s = (triggerCue c s).1 := by rw [cueOnStop, h]

theorem halted_cue (s : State) : (clearTempo (halted s)).cue = s.cue :=
  (clearTempo_cue _).trans (stopByteFrom_cue _ _)

theorem halted_silent (s : State) :
    Silent (fun p => ((halted s).port p).realtime) s.click (clearTempo (halted s)) :=
  ⟨fun p => congrArg _ (clearTempo_port _ p), (clearTempo_click _).trans (stopByteFrom_click _ _), by
    rw [(halted_rests s).transport]
    rfl⟩

/-- A stop sends STOP to the clock ports, if it leaves RUNNING, and no other byte, a change that it triggers included (R84, R93). -/
theorem stopBy_realtime (cause : Cause) (o : Option Origin) (s : State) (p : Port) :
    ((stopBy cause o s).port p).realtime = ((halted s).port p).realtime := by
  rw [stopBy_eq, raiseTransport_port]
  rcases Option.eq_none_or_eq_some s.cue with h | ⟨c, h⟩
  · rw [cueOnStop_of_none ((halted_cue s).trans h)]
    exact (halted_silent s).1 p
  · rw [cueOnStop_of_some ((halted_cue s).trans h)]
    exact (triggerCue_silent c (halted_silent s)).1 p

/-- Settles O22: the stop clears tempo unit and transport, and the change in the slot is triggered while they rest. -/
theorem stopTable : Obligations.StopTable := by
  unfold Obligations.StopTable
  refine ⟨fun l tag s ht => exec_of_serve (k := .stop) (fields := []) rfl rfl ht rfl, fun o s => ⟨fun h => if_neg h, ?_⟩, ?_⟩
  · intro hm y hy
    rw [stopTransport, if_pos hm, clearTempo_eq hy]
  · intro cause o s
    have hy : ({ halted s with tempo := clearedTempo s } : State) = { halted s with tempo := clearedTempo (halted s) } := by
      rw [halted_clearedTempo]
    refine ⟨{ halted s with tempo := clearedTempo s }, clearTempo (halted s), ?_, fun p => stopByteFrom_port _ _ p, ?_, fun h => ?_,
      fun c h => ?_⟩
    · rw [halted_eq]
      rfl
    · have htempo : (halted s).tempo = s.tempo := stopByteFrom_tempo _ _
      rw [clearTempo_eq hy, htempo]
    · rw [stopBy_eq, cueOnStop_of_none ((halted_cue s).trans h)]
      exact ⟨rfl, bandOnly_trans (bandOnly_halted s) (bandOnly_raiseTransport _ _ _)⟩
    · have hrests := triggerCue_rests c (halted_rests s)
      obtain ⟨hlanes, hclick, -⟩ := triggerCue_silent c (halted_silent s)
      have ht := triggerCue_triggered c (clearTempo (halted s))
      have hband := bandOnly_halted s
      refine ⟨(triggerCue c (clearTempo (halted s))).1, ?_, rfl, hrests.transport, ht.cue, ht.departure, ht.scene, ?_, ht.liveId, ?_,
        ht.audition, hrests.current, hrests.override, hrests.staged, hrests.segment, hrests.ramp, hlanes, hclick, ?_, ?_⟩
      · rw [stopBy_eq, cueOnStop_of_some ((halted_cue s).trans h)]
      · rw [ht.position, hband.selection.1]
      · rw [ht.live, sceneAt_congr hband.showData.1]
      · exact ht.now.trans ((clearTempo_now _).trans (stopByteFrom_now _ _))
      · exact ⟨ht.shows.1.trans hband.showData.1, ht.shows.2.trans hband.showData.2⟩

/-! ### HOLD and GO (R85, R86) -/

section
variable {o : Origin} {s : State}

theorem holdTransport_of_running (h : s.transport.mode = .running) (hp : s.transport.holdPending = false) :
    holdTransport o s = (raiseTransport .hold (some o) { s with transport := { s.transport with holdPending := true } }, .ok []) := by
  rw [holdTransport, if_pos h, if_neg (by rw [hp]; exact nofun)]

theorem holdTransport_of_pending (h : s.transport.mode = .running) (hp : s.transport.holdPending = true) :
    holdTransport o s = (s, .ok []) := by
  rw [holdTransport, if_pos h, if_pos hp]

theorem holdTransport_of_other (h : s.transport.mode ≠ .running) : holdTransport o s = (s, .refuse .wrongState []) := if_neg h

theorem goTransport_of_other (h : s.transport.mode ≠ .held) : goTransport o s = (s, .refuse .wrongState []) := if_neg h

theorem goTransport_of_beyond (h : s.transport.mode = .held) (hb : s.beyondStopBar = true) :
    goTransport o s = (stopBy .stopBar none s, .ok []) := by
  rw [goTransport, if_pos h, if_pos hb]

/-- The state in which GO runs on, its notice raised (R86, log 35). -/
abbrev goesOn (o : Origin) (s : State) : State :=
  raiseTransport .go (some o) (fromStart { s.transport with mode := .running } s)

theorem goTransport_of_within (h : s.transport.mode = .held) (hb : s.beyondStopBar = false) :
    goTransport o s = (downbeatFromChange (some .continue) (goesOn o s), .ok []) := by
  rw [goTransport, if_pos h, if_neg (by rw [hb]; exact nofun)]
  rfl

end

/-! #### Changes at a downbeat (R128) -/

section
variable {s : State} {x : Change} {lead : Option RealTime}

/-- A PHRASE change waits at a bar that begins no phrase. -/
theorem handEvent_of_waiting {g : Song} (h : s.cue = some x) (ht : x.timing = .phrase) (hg : s.currentSong = some g)
    (hb : (s.transport.bar - 1) % g.phrase ≠ 0) : handEvent true s = (s, .goOn) := by
  have hq : s.qualifies x.timing true = false := by
    rw [ht, State.qualifies, State.phraseStart, hg]
    exact (Bool.true_and _).trans (decide_eq_false hb)
  rw [handEvent, h]
  exact if_neg (by rw [hq]; exact nofun)

/-- Each other timing is due at a downbeat, PHRASE at the start of a phrase. -/
theorem handEvent_of_due (h : s.cue = some x) (ht : x.timing = .beat ∨ x.timing = .bar ∨
    x.timing = .phrase ∧ ∀ g, s.currentSong = some g → (s.transport.bar - 1) % g.phrase = 0) :
    handEvent true s = triggerCue x s := by
  have hq : s.qualifies x.timing true = true := by
    rcases ht with ht | ht | ⟨ht, hg⟩
    · rw [ht, State.qualifies]
    · rw [ht, State.qualifies]
    · rw [ht, State.qualifies, State.phraseStart]
      split
      · rfl
      · rename_i g hsong
        rw [decide_eq_true (hg g hsong)]
        rfl
  rw [handEvent, h]
  exact if_pos hq

/-- With no change due, the downbeat is played (R89). -/
theorem downbeatFromChange_of_goOn (h : handEvent true s = (s, .goOn)) : downbeatFromChange lead s = runningDownbeat lead s := by
  rw [downbeatFromChange, h]

/-- What a downbeat with a change due at it does, by how the trigger says that the transport goes on (R92). -/
theorem downbeatFromChange_of_trigger {r : State} {k : Cont} (h : handEvent true s = (r, k)) :
    (k = .goOn → downbeatFromChange lead s = runningDownbeat lead r) ∧
    (k = .restart → downbeatFromChange lead s = runningDownbeat (some .start) r) ∧
    (k = .countIn → downbeatFromChange lead s = countInDownbeat r) ∧ (k = .halt → downbeatFromChange lead s = r) := by
  rw [downbeatFromChange, h]
  refine ⟨?_, ?_, ?_, ?_⟩ <;> rintro rfl <;> rfl

end

theorem raiseTransport_currentSong (c : Cause) (o : Option Origin) (s : State) :
    (raiseTransport c o s).currentSong = s.currentSong :=
  read_raise (fun u => u.currentSong) (fun _ l _ => by cases l <;> rfl) _ s

/-- A stop that is not of a RUNNING transport sends no byte (R93). -/
theorem halted_of_held {s : State} (h : s.transport.mode ≠ .running) (p : Port) : (halted s).port p = s.port p := by
  rw [halted, stopByteFrom_port, if_neg fun k => h k.2]
  rfl

/-- Settles O23: HOLD marks the bar, GO runs on from it or stops. -/
theorem holdAndGoTable : Obligations.HoldAndGoTable := by
  unfold Obligations.HoldAndGoTable
  refine ⟨fun l tag s ht => ⟨exec_of_serve (k := .hold) (fields := []) rfl rfl ht rfl,
      exec_of_serve (k := .go) (fields := []) rfl rfl ht rfl⟩,
    fun o s => ⟨holdTransport_of_running, holdTransport_of_pending, holdTransport_of_other⟩,
    fun o s => ⟨goTransport_of_other, fun hm hb => ⟨goTransport_of_beyond hm hb, fun p => ?_⟩, fun hm hb y hy => ?_⟩⟩
  · rw [stopBy_realtime, halted_of_held (by rw [hm]; exact nofun)]
  · have hy : y = goesOn o s := hy
    subst hy
    have hgo := goTransport_of_within (o := o) hm hb
    have hcue : (goesOn o s).cue = s.cue := raiseTransport_cue _ _ _
    have hsong : (goesOn o s).currentSong = s.currentSong := raiseTransport_currentSong _ _ _
    have hbar : (goesOn o s).transport.bar = s.transport.bar := by rw [goesOn, raiseTransport_transport]; rfl
    refine ⟨fun hwait => ?_, fun x hx hdue => ?_⟩
    · have hnone : handEvent true (goesOn o s) = (goesOn o s, .goOn) := by
        rcases hwait with h | ⟨x, g, hx, ht, hg, hb⟩
        · exact handEvent_none true _ (hcue.trans h)
        · exact handEvent_of_waiting (hcue.trans hx) ht (hsong.trans hg) (by rw [hbar]; exact hb)
      rw [hgo, downbeatFromChange_of_goOn hnone]
      have hrun := runningDownbeat_begun (some .continue) (goesOn o s)
      have hrealtime := runningDownbeat_realtime (some .continue) (goesOn o s)
      refine Exists.intro (runningDownbeat (some .continue) (goesOn o s)) (And.intro rfl (And.intro rfl ?_))
      generalize runningDownbeat (some .continue) (goesOn o s) = u at hrun hrealtime ⊢
      have h := startsRun hrun
      refine ⟨h.mode, h.bar, h.beat, h.step, ?_, fun p => ?_, h.now, h.band⟩
      · rw [h.stepEnd, h.tempo]
      · rw [hrealtime, raiseTransport_port]
        rfl
    · rw [hgo]
      have hevent := handEvent_of_due (s := goesOn o s) (hcue.trans hx) (by rwa [hsong, hbar])
      obtain ⟨r, k, hr⟩ : ∃ r k, triggerCue x (goesOn o s) = (r, k) := ⟨_, _, rfl⟩
      obtain ⟨hgoOn, hrestart, hcount, hhalt⟩ := downbeatFromChange_of_trigger (lead := some .continue) (hevent.trans hr)
      exact ⟨r, k, hr, fun hk => by rw [hgoOn hk], fun hk => by rw [hrestart hk], fun hk => by rw [hcount hk],
        fun hk => by rw [hhalt hk]⟩

end Sys2Proof.Proofs.TransportTables
end

section
/-! The grid (R60 to R67, R81, R88 to R90): the segment in force, ramps, the evaluation of a beat, and the end of a step in every case. -/

namespace Sys2Proof.Proofs.Grid

open Sys2Proof.Machine Sys2Proof.Laws Sys2Proof.Proofs.Effects Sys2Proof.Proofs.Beats Sys2Proof.Proofs.TransportTables

/-! ### The segment in force (R64) -/

theorem segmentFrom_eq_none {bar : Nat} : ∀ {xs : List Segment} {n : Nat}, (∀ x ∈ xs, bar < x.startBar) → segmentFrom bar n xs = none
  | [], _, _ => rfl
  | x :: xs, n, h => by
    rw [segmentFrom, segmentFrom_eq_none fun y hy => h y (List.mem_cons_of_mem _ hy)]
    exact if_neg (Nat.not_le.mpr (h x List.mem_cons_self))

theorem segmentFrom_eq_some {bar : Nat} {g : Segment} {bs : List Segment} (hg : g.startBar ≤ bar) (hb : ∀ x ∈ bs, bar < x.startBar) :
    ∀ (as : List Segment) (n : Nat), segmentFrom bar n (as ++ g :: bs) = some (n + as.length)
  | [], n => by
    rw [List.nil_append, segmentFrom, segmentFrom_eq_none hb]
    exact if_pos hg
  | a :: as, n => by
    rw [List.cons_append, segmentFrom, segmentFrom_eq_some hg hb as (n + 1), List.length_cons]
    exact congrArg some (by omega)

theorem segmentAt_of_last {bar : Nat} {g : Segment} {as bs : List Segment} (hg : g.startBar ≤ bar) (hb : ∀ x ∈ bs, bar < x.startBar) :
    segmentAt (as ++ g :: bs) bar = as.length := by
  rw [segmentAt, segmentFrom_eq_some hg hb, Nat.zero_add]
  rfl

theorem segmentAt_of_none {bar : Nat} {map : List Segment} (h : ∀ x ∈ map, bar < x.startBar) : segmentAt map bar = 0 := by
  rw [segmentAt, segmentFrom_eq_none h]
  rfl

/-! ### Ramps (R67) -/

/-- A ramp that rises adds its rounded share. -/
theorem rampValue_of_le {g : Segment} {k : Nat} (h : g.tempo ≤ g.rampEnd) :
    g.rampValue k = g.tempo + (2 * (g.rampEnd - g.tempo) * k + g.rampBeats) / (2 * g.rampBeats) := by
  have hd : (0 : Int) ≤ (g.rampEnd : Int) - g.tempo := by omega
  have habs : ((g.rampEnd : Int) - g.tempo).natAbs = g.rampEnd - g.tempo := by omega
  rw [Segment.rampValue, roundedShare, if_pos hd, habs]
  generalize (2 * (g.rampEnd - g.tempo) * k + g.rampBeats) / (2 * g.rampBeats) = q
  omega

/-- A ramp that falls takes it off. -/
theorem rampValue_of_lt {g : Segment} {k : Nat} (h : g.rampEnd < g.tempo) :
    g.rampValue k = g.tempo - (2 * (g.tempo - g.rampEnd) * k + g.rampBeats) / (2 * g.rampBeats) := by
  have hd : ¬ (0 : Int) ≤ (g.rampEnd : Int) - g.tempo := by omega
  have habs : ((g.rampEnd : Int) - g.tempo).natAbs = g.tempo - g.rampEnd := by omega
  rw [Segment.rampValue, roundedShare, if_neg hd, habs]
  generalize (2 * (g.tempo - g.rampEnd) * k + g.rampBeats) / (2 * g.rampBeats) = q
  omega

/-! ### The evaluation of a beat (R65, R66, R70) -/

/-- The tempo unit after the first part of a beat (R65 step 1). -/
def steppedTempo (d : Bool) (s : State) : TempoState := if s.transport.mode = .countIn then s.tempo else s.segmentStep d

section
variable {d : Bool} {s : State}

theorem steppedTempo_of_countIn (h : s.transport.mode = .countIn) : steppedTempo d s = s.tempo := if_pos h

/-- A segment begins at a downbeat; one after the first removes the override (R65, R67, R69). -/
theorem steppedTempo_of_boundary {g : Segment} (hm : s.transport.mode ≠ .countIn)
    (hn : s.tempo.segment ≠ some (segmentAt s.mapInUse s.transport.bar))
    (hg : g = (s.mapInUse[segmentAt s.mapInUse s.transport.bar]?).getD defaultSegment) :
    steppedTempo true s = { s.tempo with
      segment := some (segmentAt s.mapInUse s.transport.bar)
      override := if segmentAt s.mapInUse s.transport.bar = 0 then s.tempo.override else none
      ramp := if g.rampBars = 0 then .none else
        if segmentAt s.mapInUse s.transport.bar = 0 ∧ s.tempo.override.isSome = true then .ended else .ramping 0 } := by
  rw [steppedTempo, if_neg hm, State.segmentStep, if_pos (by rw [decide_eq_true hn]; rfl), ← hg, TempoState.beginSegment]
  by_cases h0 : segmentAt s.mapInUse s.transport.bar = 0
  · simp only [h0, true_and, if_true]
  · simp only [h0, false_and, if_false]
    rfl

/-- A beat within the segment in use begins no segment. -/
theorem segmentStep_inside (h : d = false ∨ s.tempo.segment = some (segmentAt s.mapInUse s.transport.bar)) :
    ¬ (d && decide (s.tempo.segment ≠ some (segmentAt s.mapInUse s.transport.bar))) = true := by
  rcases h with rfl | h
  · exact nofun
  · rw [decide_eq_false (not_not.mpr h), Bool.and_false]
    exact nofun

theorem steppedTempo_of_unused (hm : s.transport.mode ≠ .countIn)
    (h : d = false ∨ s.tempo.segment = some (segmentAt s.mapInUse s.transport.bar)) (hs : s.segmentInUse = none) :
    steppedTempo d s = s.tempo := by
  rw [steppedTempo, if_neg hm, State.segmentStep, if_neg (segmentStep_inside h), hs]

/-- Such a beat advances the ramp (R67). -/
theorem steppedTempo_of_used {g : Segment} (hm : s.transport.mode ≠ .countIn)
    (h : d = false ∨ s.tempo.segment = some (segmentAt s.mapInUse s.transport.bar)) (hs : s.segmentInUse = some g) :
    steppedTempo d s = { s.tempo with ramp := advanceRamp g s.tempo.ramp } := by
  rw [steppedTempo, if_neg hm, State.segmentStep, if_neg (segmentStep_inside h), hs]

/-- The first part of a beat leaves the staged value. -/
theorem steppedTempo_staged (d : Bool) (s : State) : (steppedTempo d s).staged = s.tempo.staged := by
  unfold steppedTempo State.segmentStep TempoState.beginSegment
  split
  · rfl
  · dsimp only
    split
    · rfl
    · split <;> rfl

end

section
variable {t : TempoState} {d : Bool} {y : Staged}

theorem applyStaged_of_none (h : t.staged = none) : t.applyStaged d = t := by
  rw [TempoState.applyStaged, h]

/-- A due tempo becomes the override (R69, R70). -/
theorem applyStaged_of_tempo {z : Nat} (h : t.staged = some y) (hd : d = true ∨ y.due = .beat) (hy : y.value = .tempo z) :
    t.applyStaged d = { t.setOverride z with staged := none } := by
  have hdue : (d || decide (y.due = .beat)) = true := by simpa using hd
  rw [TempoState.applyStaged, h]
  dsimp only
  rw [if_pos hdue, hy]

/-- A due CLEAR removes it. -/
theorem applyStaged_of_clear (h : t.staged = some y) (hd : d = true ∨ y.due = .beat) (hy : y.value = .clear) :
    t.applyStaged d = { t with override := none, staged := none } := by
  have hdue : (d || decide (y.due = .beat)) = true := by simpa using hd
  rw [TempoState.applyStaged, h]
  dsimp only
  rw [if_pos hdue, hy]

theorem applyStaged_of_waiting (h : t.staged = some y) (hd : d = false) (hy : y.due ≠ .beat) : t.applyStaged d = t := by
  rw [TempoState.applyStaged, h]
  dsimp only
  rw [if_neg (by simp [hd, hy])]

end

/-- The whole evaluation: the tempo unit it leaves and when it raises TEMPO (R65, R78). -/
theorem evaluateBeat_eq {d : Bool} {s : State} {w : TempoState} {x : Nat}
    (hx : ({ s with tempo := stagedTempo d s } : State).chosenTempo = x) (hw : w = (stagedTempo d s).take x) : evaluateBeat d s =
      if x ≠ s.tempo.current ∨ (steppedTempo d s).override ≠ s.tempo.override ∨ (stagedTempo d s).override ≠ s.tempo.override ∨
        (stagedTempo d s).staged ≠ s.tempo.staged
      then raise (State.tempoNotice { s with tempo := w }) { s with tempo := w } else { s with tempo := w } := by
  subst hx hw
  generalize hx : ({ s with tempo := stagedTempo d s } : State).chosenTempo = x
  have h : evaluateBeat d s = raiseTempo (decide (((stagedTempo d s).take x).current ≠ s.tempo.current ∨
      ((stagedTempo d s).take x).override ≠ s.tempo.override ∨ ((stagedTempo d s).take x).staged ≠ s.tempo.staged ∨
      (steppedTempo d s).override ≠ s.tempo.override ∨ (stagedTempo d s).staged ≠ (steppedTempo d s).staged))
      { s with tempo := (stagedTempo d s).take x } := by
    rw [← hx]
    rfl
  rw [h, take_current, Laws.take_override, take_staged, steppedTempo_staged, raiseTempo]
  refine if_congr ?_ rfl rfl
  rw [decide_eq_true_eq]
  tauto

theorem take_eq_ite (t : TempoState) (x : Nat) : t.take x = if x = t.current then t else { t with current := x, acc := 0 } := rfl

/-! ### Plain steps (R90, R93) -/

/-- The CLOCK of a step field that is a multiple of 4. -/
theorem plainStep_clock (s : State) : ∃ v, plainStep s = beginStep v ∧ v = { clickStep s with ports := v.ports } ∧
    ∀ p, v.port p = if s.transport.mode = .running ∧ s.transport.step % 4 = 0 ∧ (s.port p).settings.clockFlag = true then
      ((clickStep s).port p).offerRealtime .clock else (clickStep s).port p := by
  have hx : (clickStep s).transport = s.transport := clickStep_transport s
  have hset := fun p => (clickStep_realtime s p).2
  have hplain : plainStep s = beginStep (if s.transport.mode = .running ∧ s.transport.step % 4 = 0 then
      sendClock [.clock] (clickStep s) else clickStep s) := by
    rw [plainStep, hx]
  rw [hplain]
  generalize clickStep s = k at hx hset ⊢
  by_cases h : s.transport.mode = .running ∧ s.transport.step % 4 = 0
  · rw [if_pos h]
    refine Exists.intro (sendClock [.clock] k) (And.intro rfl (And.intro (sendClock_eq [.clock] k) fun p => ?_))
    rw [sendClock_port, hset]
    by_cases hf : (s.port p).settings.clockFlag = true
    · rw [if_pos hf, if_pos ⟨h.1, h.2, hf⟩]
      rfl
    · rw [if_neg hf, if_neg fun k => hf k.2.2]
  · rw [if_neg h]
    exact Exists.intro k (And.intro rfl (And.intro rfl fun p => (if_neg fun hp => h ⟨hp.1, hp.2.1⟩).symm))

/-! ### The end of a step (R81) -/

/-- A state that has moved in time and on the grid alone. -/
abbrev moved (n : Nat) (x : TransportState) (s : State) : State := { s with now := n, transport := x }

theorem bandOnly_moved (n : Nat) (x : TransportState) (s : State) : BandOnly s (moved n x s) := { bandOnly_refl s with }

section
variable {s : State} {d : Nat}

theorem exec_gridStepEnd (hd : s.transport.stepEnd = some d) (hat : At d s)
    (hm : s.transport.mode = .running ∨ s.transport.mode = .countIn) :
    exec .gridStepEnd s = .next (finish (nextStep (s.reach d))) := by
  have hruns : s.transport.mode.runsGrid = true := by rcases hm with hm | hm <;> rw [hm] <;> rfl
  rw [exec_of_at (c := .gridStepEnd) hd hat]
  refine congrArg (fun u => Host.Outcome.next (finish u)) ?_
  rw [effect, stepEnds, hd]
  exact if_pos hruns

theorem nextStep_of_plain (h : s.transport.step + 1 < s.transport.barLength)
    (hb : (s.transport.step + 1) % s.transport.beatLength ≠ 0) :
    nextStep s = plainStep { s with transport := { s.transport with step := s.transport.step + 1 } } := by
  rw [nextStep, if_neg (Nat.not_le.mpr h), beginStepInBar]
  exact if_neg hb

/-- A step that begins a beat of the bar. -/
abbrev onBeat (t : TransportState) : TransportState := { t with step := t.step + 1, beat := (t.step + 1) / t.beatLength + 1 }

theorem nextStep_of_beat (h : s.transport.step + 1 < s.transport.barLength)
    (hb : (s.transport.step + 1) % s.transport.beatLength = 0) : nextStep s =
      if s.transport.mode = .running then beat { s with transport := onBeat s.transport }
      else countInBeat { s with transport := onBeat s.transport } := by
  rw [nextStep, if_neg (Nat.not_le.mpr h), beginStepInBar]
  exact if_pos hb

theorem nextStep_of_bar (h : s.transport.barLength ≤ s.transport.step + 1) : nextStep s = beginBar s := by
  rw [nextStep, if_pos h]

theorem beginBar_of_running (h : s.transport.mode = .running) :
    beginBar s = downbeat none { s with transport := s.transport.nextBar } := by
  rw [beginBar, if_pos h]

theorem beginBar_of_last (h : s.transport.mode = .countIn) (hc : s.transport.countIn ≤ 1) : beginBar s = endCountIn s := by
  rw [beginBar, if_neg (by rw [h]; exact nofun), if_pos hc]

theorem beginBar_of_further (h : s.transport.mode = .countIn) (hc : 1 < s.transport.countIn) : beginBar s = nextCountInBar s := by
  rw [beginBar, if_neg (by rw [h]; exact nofun), if_neg (Nat.not_le.mpr hc)]

end

/-! ### Changes at a beat (R128) -/

section
variable {s : State} {x : Change}

theorem handEvent_of_beat (h : s.cue = some x) (ht : x.timing = .beat) : handEvent false s = triggerCue x s := by
  rw [handEvent, h]
  exact if_pos (by rw [ht, State.qualifies])

theorem handEvent_of_later (h : ∀ x, s.cue = some x → x.timing ≠ .beat) : handEvent false s = (s, .goOn) := by
  rcases Option.eq_none_or_eq_some s.cue with hc | ⟨x, hc⟩
  · exact handEvent_none false s hc
  · rw [handEvent, hc]
    refine if_neg ?_
    have hx := h x hc
    cases ht : x.timing with
    | beat => exact absurd ht hx
    | now | bar | phrase => exact nofun

theorem beat_of_goOn (h : handEvent false s = (s, .goOn)) : beat s = runningBeat s := by
  rw [beat, h]

/-- How a beat or downbeat goes on from its trigger, by the transport's part (R92). -/
structure GoesOn (go : (State → State) → State × Cont → State) : Prop where
  goOn : ∀ f r, go f (r, .goOn) = f r
  restart : ∀ f r, go f (r, .restart) = runningDownbeat (some .start) r
  countIn : ∀ f r, go f (r, .countIn) = countInDownbeat r
  halt : ∀ f r, go f (r, .halt) = r

theorem beat_of_trigger {go : (State → State) → State × Cont → State} (h : GoesOn go) {r : State × Cont}
    (he : handEvent false s = r) : beat s = go runningBeat r := by
  obtain ⟨r, k⟩ := r
  rw [beat, he]
  cases k with
  | goOn => exact (h.goOn runningBeat r).symm
  | restart => exact (h.restart runningBeat r).symm
  | countIn => exact (h.countIn runningBeat r).symm
  | halt => exact (h.halt runningBeat r).symm

theorem downbeat_of_trigger {go : (State → State) → State × Cont → State} (h : GoesOn go) {r : State × Cont} (lead : Option RealTime)
    (he : handEvent true s = r) : downbeatFromChange lead s = go (runningDownbeat lead) r := by
  obtain ⟨r, k⟩ := r
  rw [downbeatFromChange, he]
  cases k with
  | goOn => exact (h.goOn (runningDownbeat lead) r).symm
  | restart => exact (h.restart (runningDownbeat lead) r).symm
  | countIn => exact (h.countIn (runningDownbeat lead) r).symm
  | halt => exact (h.halt (runningDownbeat lead) r).symm

end

/-! ### Downbeats by what is pending (R89) -/

section
variable {s : State} {lead : Option RealTime}

theorem downbeat_of_hold (h : s.transport.holdPending = true) : downbeat lead s = enterHeld s := if_pos h

theorem beyondStopBar_of {g : Song} {b : Nat} (hg : s.currentSong = some g) (hb : g.stopBar = some b) (h : b < s.transport.bar) :
    s.beyondStopBar = true := by
  rw [State.beyondStopBar, hg]
  dsimp only
  rw [hb]
  exact decide_eq_true h

theorem beyondStopBar_of_within (h : ∀ g b, s.currentSong = some g → g.stopBar = some b → s.transport.bar ≤ b) :
    s.beyondStopBar = false := by
  unfold State.beyondStopBar
  split
  · rename_i g hg
    split
    · rename_i b hb
      exact decide_eq_false (Nat.not_lt.mpr (h g b hg hb))
    · rfl
  · rfl

theorem downbeat_of_stopBar (h : s.transport.holdPending = false) (hb : s.beyondStopBar = true) :
    downbeat lead s = stopBy .stopBar none s := by
  rw [downbeat, if_neg (by rw [h]; exact nofun), if_pos hb]

theorem downbeat_of_within (h : s.transport.holdPending = false) (hb : s.beyondStopBar = false) :
    downbeat lead s = downbeatFromChange lead s := by
  rw [downbeat, if_neg (by rw [h]; exact nofun), if_neg (by rw [hb]; exact nofun)]

end

/-! ### What a beat leaves of the state before it -/

/-- A beat found and played: its transport, its tempo and its REALTIME bytes, read from the state before the step ended. -/
structure Played (bs : List RealTime) (d : Bool) (s : State) (x : TransportState) (n : Nat) (v : State) : Prop where
  transport : v.transport = x
  tempo : v.tempo = (evaluateBeat d { s with transport := v.transport }).tempo
  realtime : ∀ p, (v.port p).realtime = if (s.port p).settings.clockFlag then
    (bs.foldl PortState.offerRealtime (s.port p)).realtime else (s.port p).realtime
  now : v.now = n
  band : BandOnly s v

theorem played {bs : List RealTime} {d : Bool} {s : State} {t x : TransportState} {n : Nat} {k v : State}
    (h : Clocked bs d (moved n t s) x k v) (hm : x.mode = t.mode) (hb : x.bar = t.bar) : Played bs d s x n v :=
  { transport := h.transport
    tempo := by
      rw [h.tempo, evaluateBeat_tempo, evaluateBeat_tempo, h.transport]
      exact beatTempo_congr (s := { s with transport := x }) (u := moved n t s) rfl hm.symm hb.symm rfl d
    realtime := h.realtime
    now := h.now
    band := bandOnly_trans (bandOnly_moved n t s) h.band }

/-- The same for a beat of COUNT_IN, which sends no byte (R88). -/
theorem struck_tempo {d : Bool} {s : State} {t x : TransportState} {n : Nat} {v : State} (h : Struck d (moved n t s) x v)
    (hm : x.mode = t.mode) (hb : x.bar = t.bar) : v.tempo = (evaluateBeat d { s with transport := v.transport }).tempo := by
  rw [h.tempo, evaluateBeat_tempo, evaluateBeat_tempo, h.transport]
  exact beatTempo_congr (s := { s with transport := x }) (u := moved n t s) rfl hm.symm hb.symm rfl d

/-! ### The cases of a step's end, from the state before it -/

section
variable {s : State} {d : Nat} {c : Host.Outcome State Fault Refusal}

/-- A plain step (R81, R93). -/
theorem gridStep_plain (hc : c = .next (finish (nextStep (s.reach d)))) (hlen : s.transport.step + 1 < s.transport.barLength)
    (hb : (s.transport.step + 1) % s.transport.beatLength ≠ 0) :
    c = .next (finish (plainStep (moved (max s.now d) { s.transport with step := s.transport.step + 1 } s))) := by
  rw [hc, nextStep_of_plain (s := s.reach d) hlen hb]
  rfl

/-- The record of a further count-in bar, and that of the bar which ends the count-in (R88). -/
abbrev nextCount (t : TransportState) : TransportState := { t with countIn := t.countIn - 1, beat := 1, step := 0, extension := 0 }

abbrev countedIn (t : TransportState) : TransportState :=
  { t with mode := .running, countIn := 0, countInFromSong := false, beat := 1, step := 0, extension := 0 }

theorem plainStep_link (s : State) (l : Link) : (plainStep s).link l = s.link l := by
  obtain ⟨v, hv, hports, -⟩ := plainStep_clock s
  have h : (beginStep v).link l = v.link l := by cases l <;> rfl
  have hframe : ∀ (k : State) (ps : Vector PortState 8), ({ k with ports := ps } : State).link l = k.link l :=
    fun _ _ => by cases l <;> rfl
  have hk : v.link l = (clickStep s).link l := (congrArg (fun u => u.link l) hports).trans (hframe _ _)
  rw [hv, h, hk, clickStep_link]

/-- A beat within the bar (R81, R90). -/
theorem gridStep_beat (hc : c = .next (finish (nextStep (s.reach d)))) (hlen : s.transport.step + 1 < s.transport.barLength)
    (hb : (s.transport.step + 1) % s.transport.beatLength = 0) :
    (s.transport.mode = .running → c = .next (finish (beat (moved (max s.now d) (onBeat s.transport) s)))) ∧
    (s.transport.mode = .countIn → c = .next (finish (countInBeat (moved (max s.now d) (onBeat s.transport) s)))) := by
  rw [hc, nextStep_of_beat (s := s.reach d) hlen hb]
  refine ⟨fun h => ?_, fun h => ?_⟩
  · rw [if_pos (show (s.reach d).transport.mode = _ from h)]
    rfl
  · rw [if_neg (show (s.reach d).transport.mode ≠ _ by rw [reach_transport, h]; exact nofun)]
    rfl

/-- The downbeat of the next bar (R81, R89). -/
theorem gridStep_bar (hc : c = .next (finish (nextStep (s.reach d)))) (hlen : s.transport.barLength ≤ s.transport.step + 1) :
    (s.transport.mode = .running → c = .next (finish (downbeat none (moved (max s.now d) s.transport.nextBar s)))) ∧
    (s.transport.mode = .countIn → 1 < s.transport.countIn → c = .next (finish (countInDownbeat (moved (max s.now d)
      { s.transport with countIn := s.transport.countIn - 1, beat := 1, step := 0, extension := 0 } s)))) ∧
    (s.transport.mode = .countIn → s.transport.countIn ≤ 1 → c = .next (finish (downbeat (some .start)
      (raiseTransport (if s.transport.countInFromSong then .songChange else .start) none (moved (max s.now d)
        { s.transport with mode := .running, countIn := 0, countInFromSong := false, beat := 1, step := 0, extension := 0 } s))))) := by
  rw [hc, nextStep_of_bar (s := s.reach d) hlen]
  refine ⟨fun h => ?_, fun h hn => ?_, fun h hn => ?_⟩
  · rw [beginBar_of_running (s := s.reach d) h]
    rfl
  · rw [beginBar_of_further (s := s.reach d) h hn]
    rfl
  · rw [beginBar_of_last (s := s.reach d) h hn]
    rfl

end

/-- A pending hold at a downbeat: STOP to the clock ports and the TRANSPORT notice (R89). -/
theorem enterHeld_eq (s : State) : ∃ v, enterHeld s = raiseTransport .hold none v ∧
    v.transport = { s.transport with mode := .held, holdPending := false, stepEnd := none } ∧ v.tempo = s.tempo ∧
    v.click = s.click ∧ (∀ p, (v.port p).realtime = if (s.port p).settings.clockFlag then
      ((s.port p).offerRealtime .stop).realtime else (s.port p).realtime) ∧ v.now = s.now ∧ BandOnly s v := by
  obtain ⟨w, hw⟩ : ∃ w : State, w = { s with
    transport := { s.transport with mode := .held, holdPending := false, stepEnd := none } } := ⟨_, rfl⟩
  have heq : enterHeld s = raiseTransport .hold none (sendClock [.stop] w) := by
    rw [hw]
    rfl
  have hport : ∀ p, (sendClock [.stop] w).port p = if (s.port p).settings.clockFlag then
      (s.port p).offerRealtime .stop else s.port p := by
    intro p
    rw [sendClock_port, hw]
    rfl
  have hclick : (sendClock [.stop] w).click = w.click := by rw [sendClock_eq]
  refine Exists.intro (sendClock [.stop] w) (And.intro heq ⟨?_, ?_, ?_, fun p => ?_, ?_, ?_⟩)
  · rw [sendClock_transport, hw]
  · rw [sendClock_tempo, hw]
  · rw [hclick, hw]
  · rw [hport]
    split <;> rfl
  · rw [sendClock_now, hw]
  · exact bandOnly_trans (hw ▸ bandOnly_transport s _) (bandOnly_sendClock _ w)

/-- A stop by the stop bar of a RUNNING transport sends STOP to the clock ports, whatever change it triggers (R91, R93). -/
theorem stopBar_realtime {s : State} (h : s.transport.mode = .running) (p : Port) :
    ((stopBy .stopBar none s).port p).realtime = if (s.port p).settings.clockFlag then
      ((s.port p).offerRealtime .stop).realtime else (s.port p).realtime := by
  rw [stopBy_realtime, halted, stopByteFrom_port, h]
  simp only [and_true]
  change (if (s.port p).settings.clockFlag = true then (s.port p).offerRealtime .stop else s.port p).realtime = _
  split <;> rfl

/-- The transport after such a stop, the cue slot empty. -/
theorem stopBy_plain {s : State} (h : s.cue = none) (c : Cause) (o : Option Origin) :
    (stopBy c o s).transport = .atStart .stopped s.firstSegment ∧ (stopBy c o s).now = s.now ∧ BandOnly s (stopBy c o s) := by
  have hrests := (halted_rests s).transport
  have hfirst : (clearTempo (halted s)).firstSegment = s.firstSegment :=
    (read_clearTempo (fun u => u.firstSegment) (fun _ _ => rfl) (fun _ l _ => by cases l <;> rfl) (halted s)).trans
      (halted_firstSegment s)
  rw [stopBy_eq, cueOnStop_of_none ((halted_cue s).trans h)]
  refine ⟨?_, ?_, bandOnly_trans (bandOnly_halted s) (bandOnly_raiseTransport _ _ _)⟩
  · rw [raiseTransport_transport, hrests, hfirst]
  · rw [raiseTransport_now]
    exact (clearTempo_now _).trans (stopByteFrom_now _ _)

/-- What a stop leaves when it triggers the change in the slot (R129). -/
structure StoppedBy (x : Change) (s u : State) : Prop where
  transport : u.transport = TransportState.atStart .stopped u.firstSegment
  cue : u.cue = none
  departure : u.departure = some x
  scene : u.curScene = some x.scene
  position : u.curPos = if x.kind = .song then some x.position else s.curPos
  liveId : u.liveId = some (x.slot, x.scene)
  live : u.live = (s.sceneAt x.slot x.scene).elim [] (fun sc => sc.zones)
  now : u.now = s.now
  shows : SameShow s u

theorem stopBy_triggering {s : State} {x : Change} (h : s.cue = some x) (c : Cause) (o : Option Origin) :
    StoppedBy x s (stopBy c o s) := by
  obtain ⟨-, -, hstop⟩ := stopTable
  obtain ⟨y, w, -, -, -, -, hsome⟩ := hstop c o s
  obtain ⟨u, hu, -, htransport, hcue, hdep, hscene, hpos, hid, hlive, -, -, -, -, -, -, -, -, hnow, hshow⟩ := hsome x h
  have hfirst : ∀ u : State, (raiseTransport c o u).firstSegment = u.firstSegment :=
    fun u => read_raise (fun u => u.firstSegment) (fun _ l _ => by cases l <;> rfl) _ u
  have hband := bandOnly_raiseTransport c o u
  rw [hu]
  exact {
    transport := by rw [raiseTransport_transport, hfirst, htransport]
    cue := hband.cue.1.trans hcue, departure := hband.cue.2.trans hdep, scene := hband.selection.2.trans hscene
    position := hband.selection.1.trans hpos, liveId := hband.notes.2.1.trans hid, live := hband.notes.1.trans hlive
    now := (raiseTransport_now c o u).trans hnow
    shows := ⟨hband.showData.1.trans hshow.1, hband.showData.2.trans hshow.2⟩ }

/-- A scene change at a downbeat leaves the transport to play it (R92). -/
theorem triggered_downbeat {s : State} {x : Change} (hk : x.kind = .scene) (lead : Option RealTime) :
    ∃ u, runningDownbeat lead (triggerCue x s).1 = u ∧ u.cue = none ∧ u.departure = some x ∧ u.curScene = some x.scene ∧
      u.curPos = s.curPos ∧ u.liveId = some (x.slot, x.scene) ∧
      u.live = (s.sceneAt x.slot x.scene).elim [] (fun sc => sc.zones) ∧ u.transport.mode = s.transport.mode ∧
      u.transport.bar = s.transport.bar ∧ u.transport.beat = s.transport.beat ∧ u.transport.step = s.transport.step ∧
      SameShow s u := by
  have ht := triggerCue_triggered x s
  have hx := (triggerCue_scene x s hk).2
  generalize (triggerCue x s).1 = r at ht hx ⊢
  have hrun := runningDownbeat_begun lead r
  refine Exists.intro (runningDownbeat lead r) (And.intro rfl ?_)
  generalize runningDownbeat lead r = u at hrun ⊢
  have hband := hrun.band
  have htransport := hrun.transport
  refine ⟨hband.cue.1.trans ht.cue, hband.cue.2.trans ht.departure, hband.selection.2.trans ht.scene, ?_,
    hband.notes.2.1.trans ht.liveId, hband.notes.1.trans ht.live, ?_, ?_, ?_, ?_,
    ⟨hband.showData.1.trans ht.shows.1, hband.showData.2.trans ht.shows.2⟩⟩
  · rw [hband.selection.1, ht.position, if_neg (by rw [hk]; exact nofun)]
  · rw [htransport, ← hx]
    rfl
  · rw [htransport, ← hx]
    rfl
  · rw [htransport, ← hx]
    rfl
  · rw [htransport, ← hx]
    rfl

/-! ### The statement part by part -/

/-- What the end of a count-in leaves before its downbeat: bar 1 of a run, within the song. -/
structure CountedIn (n : Nat) (s y : State) : Prop where
  transport : y.transport = countedIn s.transport
  tempo : y.tempo = s.tempo
  map : y.mapInUse = s.mapInUse
  cue : y.cue = s.cue
  port : ∀ p, y.port p = s.port p
  now : y.now = n
  within : y.beyondStopBar = false
  band : BandOnly s y

theorem countedIn_raised (n : Nat) (cause : Cause) {s : State} (hbar : s.transport.bar = 1)
    (hin : ∀ g b, s.currentSong = some g → g.stopBar = some b → 1 ≤ b) :
    CountedIn n s (raiseTransport cause none (moved n (countedIn s.transport) s)) where
  transport := raiseTransport_transport _ _ _
  tempo := raiseTransport_tempo _ _ _
  map := (raiseTransport_mapInUse _ _ _).trans rfl
  cue := raiseTransport_cue _ _ _
  port := fun _ => (raiseTransport_port _ _ _ _).trans rfl
  now := raiseTransport_now _ _ _
  within := by
    rw [raiseTransport_beyond]
    exact beyondStopBar_of_within fun g b hg hgb => by
      show s.transport.bar ≤ b
      rw [hbar]
      exact hin g b hg hgb
  band := bandOnly_trans (bandOnly_moved _ _ s) (bandOnly_raiseTransport _ _ _)

/-- Every change that waits is due at the downbeat of bar 1. -/
theorem due_at_barOne {y : State} {x : Change} (hone : y.transport.bar = 1) (h : x.timing ≠ .now) : x.timing = .beat ∨ x.timing = .bar ∨
    x.timing = .phrase ∧ ∀ g, y.currentSong = some g → (y.transport.bar - 1) % g.phrase = 0 := by
  cases ht : x.timing with
  | now => exact absurd ht h
  | beat => exact .inl rfl
  | bar => exact .inr (.inl rfl)
  | phrase => exact .inr (.inr ⟨rfl, fun g _ => by rw [hone, Nat.sub_self, Nat.zero_mod]⟩)

/-- The tempo of a beat in COUNT_IN, at a downbeat where a segment begins, or at another beat of the segment in use (R65 step 1). -/
theorem beat_cases (down : Bool) (s : State) : s.transport.mode = .countIn ∨
    s.transport.mode ≠ .countIn ∧ down = true ∧ s.tempo.segment ≠ some (segmentAt s.mapInUse s.transport.bar) ∨
    s.transport.mode ≠ .countIn ∧ (down = false ∨ s.tempo.segment = some (segmentAt s.mapInUse s.transport.bar)) := by
  by_cases hm : s.transport.mode = .countIn
  · exact .inl hm
  · cases down with
    | false => exact .inr (.inr ⟨hm, .inl rfl⟩)
    | true =>
      by_cases hb : s.tempo.segment = some (segmentAt s.mapInUse s.transport.bar)
      · exact .inr (.inr ⟨hm, .inr hb⟩)
      · exact .inr (.inl ⟨hm, rfl, hb⟩)

/-- Settles O57: the pure parts of a beat, the four kinds of beat, and the end of a step in each case. -/
theorem gridTable : Obligations.GridTable := by
  unfold Obligations.GridTable
  refine ⟨fun map bar => ⟨?_, segmentAt_of_none⟩, ?_, ?_, fun s => ⟨rfl, ?_, ?_, ?_⟩, ?_⟩
  · rintro as g bs rfl hg hb
    exact segmentAt_of_last hg hb
  · rintro g k n rfl a b rfl rfl
    exact ⟨rampValue_of_le, fun h _ => rampValue_of_lt h⟩
  · intro down s t v w n x hn hcount hbound hinside hnone hdue hwait hover hmap hseg hw
    subst hn
    have ht : steppedTempo down s = t := by
      obtain hm | ⟨hm, rfl, hb⟩ | ⟨hm, hb⟩ := beat_cases down s
      · rw [steppedTempo_of_countIn hm, hcount hm]
      · rw [steppedTempo_of_boundary hm hb rfl, hbound hm rfl hb _ rfl]
      · obtain ⟨hno, hin⟩ := hinside hm hb
        rcases Option.eq_none_or_eq_some s.segmentInUse with hs | ⟨g, hs⟩
        · rw [steppedTempo_of_unused hm hb hs, hno hs]
        · rw [steppedTempo_of_used hm hb hs]
          refine Eq.trans ?_ (hin g hs).symm
          unfold advanceRamp
          cases s.tempo.ramp <;> rfl
    have hstaged : t.staged = s.tempo.staged := ht ▸ steppedTempo_staged down s
    have hv : stagedTempo down s = v := by
      have happly : stagedTempo down s = t.applyStaged down := congrArg (fun u => TempoState.applyStaged u down) ht
      rw [happly]
      rcases Option.eq_none_or_eq_some s.tempo.staged with hs | ⟨y, hs⟩
      · rw [applyStaged_of_none (hstaged.trans hs), hnone hs]
      · by_cases hd : down = true ∨ y.due = .beat
        · refine Eq.trans ?_ (hdue y hs hd).symm
          cases hy : y.value with
          | tempo z =>
            rw [applyStaged_of_tempo (hstaged.trans hs) hd hy]
            unfold TempoState.setOverride
            cases t.ramp <;> rfl
          | clear => exact applyStaged_of_clear (hstaged.trans hs) hd hy
        · obtain ⟨hd, hy⟩ := not_or.mp hd
          rw [applyStaged_of_waiting (hstaged.trans hs) (by simpa using hd) hy, hwait y hs (by simpa using hd) hy]
    have hx : ({ s with tempo := stagedTempo down s } : State).chosenTempo = x := by
      rw [hv]
      rcases Option.eq_none_or_eq_some v.override with ho | ⟨y, ho⟩
      · exact Tempo.chosenTempo_of_map (s := { s with tempo := v }) ho (hmap ho) fun g hg =>
          (hseg g ho hg).trans (by cases v.ramp <;> rfl)
      · rw [Tempo.chosenTempo_of_override (s := { s with tempo := v }) ho, hover y ho]
    rw [evaluateBeat_eq hx (w := w) (by rw [hw, hv, take_eq_ite]), ht, hv]
  · rintro k rfl
    obtain ⟨v, hv, hports, hport⟩ := plainStep_clock s
    exact ⟨v, hv, hports, hport, clickStep_transport s, clickStep_tempo s, clickStep_link s .a, clickStep_link s .b, clickStep_now s,
      bandOnly_clickStep s⟩
  · intro k hk
    have h := struck_beat s
    obtain ⟨v, hv, hc⟩ := runningBeat_eq s
    have hcount : countInBeat s = beginStep k := by rw [hk]; rfl
    rw [← hk] at h hc
    clear hk
    refine ⟨hcount, h.transport, h.tempo, h.links, h.realtime, h.now, h.band, Exists.intro v (And.intro hv ?_)⟩
    exact ⟨hc.frame, hc.port, hc.transport, hc.tempo, hc.realtime, hc.now, hc.band⟩
  · rintro x rfl k rfl
    have h : Struck true s (metered s) (struckDownbeat s) := struck true s (metered s)
    refine ⟨h.links, fun lead => ?_, struckDownbeat s, countInDownbeat_eq s, rfl, h.transport, h.tempo, h.realtime, h.now, h.band⟩
    obtain ⟨v, hv, hc⟩ := runningDownbeat_eq lead s
    exact Exists.intro v (And.intro hv ⟨hc.frame, hc.port, hc.transport, hc.tempo, hc.realtime, hc.now, hc.band⟩)
  · intro s t ht c hc
    refine ⟨fun h => ?_, ?_⟩
    · rw [hc, exec_of_undue (c := .gridStepEnd) (ht ▸ h : s.transport.stepEnd = none), effect, stepEnds, ← ht, h]
    · intro d hat go h1 h2 h3 h4
      have hgo : GoesOn go := ⟨h1, h2, h3, h4⟩
      have hstep : t.stepEnd = some d → (t.mode = .running ∨ t.mode = .countIn) → c = .next (finish (nextStep (s.reach d))) :=
        fun hd hm => hc.trans (exec_gridStepEnd (ht ▸ hd) hat (ht ▸ hm))
      subst ht
      clear hc h1 h2 h3 h4
      refine ⟨fun hd hm hlen hb => ?_, fun hd hlen hb m hmb y hy => ⟨fun hm hlater => ?_, fun hm x hx htime => ?_, fun hm => ?_⟩,
        fun hd hm hlen n hn => ⟨fun hh => ?_, fun hh g b hg hgb hlt => ?_, fun hh hin => ⟨fun hwait => ?_, fun x hx hdue => ?_⟩⟩,
        fun hd hm hlen => ⟨fun hn y hy => ?_, fun hn hbar1 hh hin y hy => ⟨fun hcue => ?_, fun x hx htime => ?_⟩⟩⟩
      · obtain ⟨hx, htempo, hport, hnow⟩ := plainStep_reads (moved (max s.now d) { s.transport with step := s.transport.step + 1 } s)
        have hlink := plainStep_link (moved (max s.now d) { s.transport with step := s.transport.step + 1 } s)
        exact Exists.intro _ (And.intro (gridStep_plain (hstep hd hm) hlen hb) (And.intro rfl ⟨hx, htempo, hport, hlink .a, hlink .b,
          hnow, bandOnly_trans (bandOnly_moved _ _ s) (bandOnly_plainStep _)⟩))
      · subst hmb
        have hy : y = moved (max s.now d) (onBeat s.transport) s := hy
        subst hy
        have hplay := (gridStep_beat (hstep hd (.inl hm)) hlen hb).1 hm
        rw [beat_of_goOn (s := moved (max s.now d) (onBeat s.transport) s) (handEvent_of_later hlater)] at hplay
        obtain ⟨v, hv, hclocked⟩ := runningBeat_eq (moved (max s.now d) (onBeat s.transport) s)
        have hp := played hclocked rfl rfl
        exact And.intro hplay (Exists.intro v (And.intro (hplay.trans (by rw [hv])) ⟨hp.transport, hp.tempo, hp.realtime, hp.now,
          hp.band⟩))
      · subst hmb
        have hy : y = moved (max s.now d) (onBeat s.transport) s := hy
        subst hy
        rw [(gridStep_beat (hstep hd (.inl hm)) hlen hb).1 hm,
          beat_of_trigger (s := moved (max s.now d) (onBeat s.transport) s) hgo (handEvent_of_beat hx htime)]
      · subst hmb
        have hy : y = moved (max s.now d) (onBeat s.transport) s := hy
        subst hy
        have hplay := (gridStep_beat (hstep hd (.inr hm)) hlen hb).2 hm
        have h := struck_beat (moved (max s.now d) (onBeat s.transport) s)
        have hv : countInBeat (moved (max s.now d) (onBeat s.transport) s) =
            beginStep (clickStep (evaluateBeat false (moved (max s.now d) (onBeat s.transport) s))) := rfl
        refine And.intro hplay (Exists.intro _ (And.intro (hplay.trans (by rw [hv])) ?_))
        exact ⟨h.transport, struck_tempo h rfl rfl, h.links, h.realtime, h.now, bandOnly_trans (bandOnly_moved _ _ s) h.band⟩
      · have hn : n = s.transport.nextBar := hn
        subst hn
        obtain ⟨v, hv, htransport, htempo, hclick, hrealtime, hnow, hband⟩ := enterHeld_eq (moved (max s.now d) s.transport.nextBar s)
        have hbar := (gridStep_bar (hstep hd (.inl hm)) hlen).1 hm
        rw [downbeat_of_hold (s := moved (max s.now d) s.transport.nextBar s) hh, hv] at hbar
        exact Exists.intro v (And.intro hbar ⟨htransport, htempo, hclick, hrealtime, hnow,
          bandOnly_trans (bandOnly_moved _ _ s) hband⟩)
      · have hn : n = s.transport.nextBar := hn
        subst hn
        have hbar := (gridStep_bar (hstep hd (.inl hm)) hlen).1 hm
        rw [downbeat_of_stopBar (s := moved (max s.now d) s.transport.nextBar s) hh (beyondStopBar_of hg hgb hlt)] at hbar
        have hrealtime := stopBar_realtime (s := moved (max s.now d) s.transport.nextBar s) hm
        refine And.intro hbar (And.intro (fun hcue => ?_) fun x hx => ?_)
        · obtain ⟨htransport, hnow, hband⟩ := stopBy_plain (s := moved (max s.now d) s.transport.nextBar s) hcue .stopBar none
          exact Exists.intro _ (And.intro hbar ⟨htransport, hrealtime, hnow, bandOnly_trans (bandOnly_moved _ _ s) hband⟩)
        · have h := stopBy_triggering (s := moved (max s.now d) s.transport.nextBar s) hx .stopBar none
          exact Exists.intro _ (And.intro hbar ⟨h.transport, h.cue, h.departure, h.scene, h.position, h.liveId, h.live, hrealtime,
            h.now, h.shows⟩)
      · have hn : n = s.transport.nextBar := hn
        subst hn
        have hbar := (gridStep_bar (hstep hd (.inl hm)) hlen).1 hm
        have hnone : handEvent true (moved (max s.now d) s.transport.nextBar s) = (moved (max s.now d) s.transport.nextBar s, .goOn) := by
          rcases hwait with h | ⟨x, g, hx, ht, hg, hb⟩
          · exact handEvent_none true _ h
          · exact handEvent_of_waiting (s := moved (max s.now d) s.transport.nextBar s) hx ht hg hb
        rw [downbeat_of_within (s := moved (max s.now d) s.transport.nextBar s) hh (beyondStopBar_of_within hin),
          downbeatFromChange_of_goOn hnone] at hbar
        obtain ⟨v, hv, hclocked⟩ := runningDownbeat_eq none (moved (max s.now d) s.transport.nextBar s)
        have hp := played hclocked rfl rfl
        refine And.intro hbar (Exists.intro v (Exists.intro _ (And.intro
          (hbar.trans (congrArg (fun u => Host.Outcome.next (finish u)) hv)) (And.intro rfl ?_))))
        exact ⟨hp.transport, hp.tempo, hp.realtime, hp.now, hp.band⟩
      · have hn : n = s.transport.nextBar := hn
        subst hn
        have hbar := (gridStep_bar (hstep hd (.inl hm)) hlen).1 hm
        rw [downbeat_of_within (s := moved (max s.now d) s.transport.nextBar s) hh (beyondStopBar_of_within hin),
          downbeat_of_trigger (s := moved (max s.now d) s.transport.nextBar s) hgo none (handEvent_of_due hx hdue)] at hbar
        refine And.intro hbar fun hk => ?_
        obtain ⟨u, hu, hcue, hdep, hscene, hpos, hid, hlive, hmode, hb, hbeat, hst, hshow⟩ :=
          triggered_downbeat (s := moved (max s.now d) s.transport.nextBar s) hk none
        have hscn := (triggerCue_scene x (moved (max s.now d) s.transport.nextBar s) hk).1
        have hplay : go (runningDownbeat none) (triggerCue x (moved (max s.now d) s.transport.nextBar s)) = u := by
          rw [← hu, ← hgo.goOn (runningDownbeat none), ← hscn]
        exact Exists.intro u (And.intro (hbar.trans (by rw [hplay])) ⟨hcue, hdep, hscene, hpos, hid, hlive, hmode.trans hm, hb, hbeat,
          hst, hshow⟩)
      · have hy : y = moved (max s.now d) (nextCount s.transport) s := hy
        subst hy
        have hbar := (gridStep_bar (hstep hd (.inr hm)) hlen).2.1 hm hn
        have h : Struck true (moved (max s.now d) (nextCount s.transport) s) _ (struckDownbeat _) := struck true _ _
        refine And.intro hbar (Exists.intro (struckDownbeat (moved (max s.now d) (nextCount s.transport) s))
          (Exists.intro (meterOf (moved (max s.now d) (nextCount s.transport) s))
            (And.intro (hbar.trans (congrArg (fun u => Host.Outcome.next (finish u)) (countInDownbeat_eq _))) ?_)))
        exact ⟨h.links, rfl, h.transport, struck_tempo h rfl rfl, h.realtime, h.now, bandOnly_trans (bandOnly_moved _ _ s) h.band⟩
      · have hcounted : CountedIn (max s.now d) s y := hy ▸ countedIn_raised _ _ hbar1 hin
        have hbar := (gridStep_bar (hstep hd (.inr hm)) hlen).2.2 hm hn
        replace hbar : c = .next (finish (downbeat (some .start) y)) := hbar.trans (by rw [hy])
        clear hy
        have hplay : downbeat (some .start) y = runningDownbeat (some .start) y :=
          downbeat_of_plain (by rw [hcounted.transport]; exact hh) hcounted.within (hcounted.cue.trans hcue)
        rw [hplay] at hbar
        have hrun := runningDownbeat_begun (some .start) y
        have hrealtime := runningDownbeat_realtime (some .start) y
        refine Exists.intro (runningDownbeat (some .start) y) (And.intro hbar (And.intro rfl ?_))
        generalize runningDownbeat (some .start) y = u at hrun hrealtime ⊢
        have htempo : (evaluateBeat true { s with transport := u.transport }).tempo = (evaluateBeat true y).tempo := by
          rw [evaluateBeat_tempo, evaluateBeat_tempo, hrun.transport]
          refine beatTempo_congr (s := y) (u := { s with transport := _ }) ?_ rfl rfl ?_ true
          · exact hcounted.tempo.symm
          · exact hcounted.map.symm
        have htr : u.transport = { countedIn s.transport with
            numerator := u.transport.numerator, denominator := u.transport.denominator, stepEnd := u.transport.stepEnd } := by
          rw [hrun.transport, metered, hcounted.transport]
        refine ⟨by rw [htr], by rw [htr]; exact hbar1, by rw [htr], by rw [htr], by rw [htr], by rw [htr], ?_, fun p => ?_,
          hrun.now.trans hcounted.now, bandOnly_trans hcounted.band hrun.band⟩
        · rintro e rfl
          rw [htempo, hrun.now, hrun.tempo, hrun.transport]
          exact ⟨rfl, rfl⟩
        · rw [hrealtime, hcounted.port]
          rfl
      · have hcounted : CountedIn (max s.now d) s y := hy ▸ countedIn_raised _ _ hbar1 hin
        have hbar := (gridStep_bar (hstep hd (.inr hm)) hlen).2.2 hm hn
        replace hbar : c = .next (finish (downbeat (some .start) y)) := hbar.trans (by rw [hy])
        have hone : y.transport.bar = 1 := by rw [hcounted.transport]; exact hbar1
        rw [hbar, downbeat_of_within (by rw [hcounted.transport]; exact hh) hcounted.within,
          downbeat_of_trigger hgo (some .start) (handEvent_of_due (hcounted.cue.trans hx) (due_at_barOne hone htime))]

end Sys2Proof.Proofs.Grid
end

section
/-! The cue arbiter (chapter 7): resolution, taking, the trigger, requests from STAGE, and auditions (chapter 8). -/

namespace Sys2Proof.Proofs.Cues

open Sys2Proof.Machine Sys2Proof.Laws Sys2Proof.Proofs.LibraryTables Sys2Proof.Proofs.SetlistEdit Sys2Proof.Proofs.TransportTables

/-! ### Resolution (R124, R125) -/

section
variable {s : State} {c : Claimant} {f : CueForm}

theorem reference_of_own {x : Change} (h : s.cue = some x) (hr : x.relative = true) (hc : x.claimant = c) :
    s.reference c = (some x.position, some x.scene) := by
  rw [State.reference, h]
  exact if_pos ⟨hr, hc⟩

theorem reference_of_other (h : ∀ x, s.cue = some x → x.relative = true → x.claimant ≠ c) :
    s.reference c = (s.curPos, s.curScene) := by
  unfold State.reference
  split
  · rename_i x hx
    exact if_neg fun k => h x hx k.1 k.2
  · rfl

theorem resolve_of_error {r : Result} (h : s.targetOf c f = .error r) : s.resolve c f = .error r := by
  rw [State.resolve, h]

theorem resolve_of_ready {q n : Nat} {k : SlotNo} {g : Song} (h : s.targetOf c f = .ok (q, n)) (hk : s.setlist[q]? = some k)
    (hg : s.slot k = .ready g) :
    s.resolve c f = .ok { position := q, slot := k, scene := n, kind := if s.curPos = some q then .scene else .song } := by
  rw [State.resolve, h]
  dsimp only
  rw [hk]
  dsimp only
  rw [hg]
  rfl

theorem resolve_of_unready {q n : Nat} {k : SlotNo} (h : s.targetOf c f = .ok (q, n)) (hk : s.setlist[q]? = some k)
    (hg : ¬ s.IsReady k) : s.resolve c f = .error .notReady := by
  rw [State.resolve, h]
  dsimp only
  rw [hk]
  dsimp only
  split
  · rename_i g hs
    exact absurd ⟨g, hs⟩ hg
  · rfl

theorem scenesAt_of_ready {q : Nat} {k : SlotNo} {g : Song} (hk : s.setlist[q]? = some k) (hg : s.slot k = .ready g) :
    s.scenesAt q = g.scenes.length := by
  rw [State.scenesAt, hk]
  show s.sceneCount k = _
  rw [State.sceneCount, hg]
  rfl

end

/-! #### The target of each form (R125) -/

section
variable {s : State} {c : Claimant} {p m : Option Nat}

theorem targetOf_nextScene_none (h : s.reference c = (none, m)) : s.targetOf c .nextScene = .error .notFound := by
  rw [State.targetOf, h]

theorem targetOf_nextScene_some {q : Nat} (h : s.reference c = (some q, m)) : s.targetOf c .nextScene =
    if m.getD 0 + 1 < s.scenesAt q then .ok (q, m.getD 0 + 1) else .error .endOfList := by
  rw [State.targetOf, h]

theorem targetOf_prevScene_none (h : s.reference c = (none, m)) : s.targetOf c .prevScene = .error .notFound := by
  rw [State.targetOf, h]

theorem targetOf_prevScene_some {q : Nat} (h : s.reference c = (some q, m)) : s.targetOf c .prevScene =
    if m.getD 0 = 0 then .error .endOfList else .ok (q, m.getD 0 - 1) := by
  rw [State.targetOf, h]

theorem targetOf_scene_none (h : s.curPos = none) (n : Nat) : s.targetOf c (.scene n) = .error .notFound := by
  rw [State.targetOf, h]

theorem targetOf_scene_some {q : Nat} (h : s.curPos = some q) (n : Nat) : s.targetOf c (.scene n) =
    if n < s.scenesAt q then .ok (q, n) else .error .notFound := by
  rw [State.targetOf, h]

theorem targetOf_nextSong (h : s.reference c = (p, m)) : s.targetOf c .nextSong =
    if p.elim 0 (· + 1) < s.setlist.length then .ok (p.elim 0 (· + 1), 0) else .error .endOfList := by
  rw [State.targetOf, h]
  cases p <;> rfl

theorem targetOf_prevSong_first (h : s.reference c = (p, m)) (hp : p = none ∨ p = some 0) :
    s.targetOf c .prevSong = .error .endOfList := by
  rw [State.targetOf, h]
  rcases hp with rfl | rfl <;> rfl

theorem targetOf_prevSong_later {q : Nat} (h : s.reference c = (some (q + 1), m)) : s.targetOf c .prevSong = .ok (q, 0) := by
  rw [State.targetOf, h]
  rfl

theorem targetOf_position (n : Nat) : s.targetOf c (.position n) =
    if n < s.setlist.length then .ok (n, 0) else .error .notFound := rfl

end

/-! ### The change a request makes (R126, R127) -/

section
variable {s : State} {q : CueRequest} {t : Target}

theorem defaultTiming_of_song (h : t.kind = .song) : s.defaultTiming t = .bar := by rw [State.defaultTiming, h]

theorem defaultTiming_of_scene {sc : Scene} (h : t.kind = .scene) (hs : s.sceneAt t.slot t.scene = some sc) :
    s.defaultTiming t = sc.timing := by
  rw [State.defaultTiming, h]
  dsimp only
  rw [hs]

theorem changeOf_timing : (s.changeOf q t).timing = q.timing.getD (s.defaultTiming t) := rfl

theorem relative_iff (f : CueForm) :
    f.relative = true ↔ f = .nextScene ∨ f = .prevScene ∨ f = .nextSong ∨ f = .prevSong := by
  cases f <;> simp [CueForm.relative]

theorem displacedBy_of_own {x : Change} {c : Claimant} (h : x.claimant = c) : displacedBy (some x) c = none := if_pos h

theorem displacedBy_of_other {x : Change} {c : Claimant} (h : x.claimant ≠ c) : displacedBy (some x) c = some x.claimant := if_neg h

end

/-- Settles O41: the forms one by one from their targets. -/
theorem resolutionTable : Obligations.ResolutionTable := by
  unfold Obligations.ResolutionTable
  refine ⟨fun c s => ⟨fun x => reference_of_own, reference_of_other⟩, fun c s p m hr => ?_, fun s q t => ?_⟩
  · have hlast : s.setlist.length ≤ p.elim 0 (· + 1) → s.resolve c .nextSong = .error .endOfList := fun h =>
      resolve_of_error ((targetOf_nextSong hr).trans (if_neg (Nat.not_lt.mpr h)))
    refine ⟨?_, fun hp => resolve_of_error (targetOf_prevSong_first hr (.inr hp)), fun hm hp => ?_,
      fun h n => resolve_of_error (targetOf_scene_none h n), fun q hq h => hlast (hq ▸ h),
      fun n h => resolve_of_error ((targetOf_position n).trans (if_neg (Nat.not_lt.mpr h))), ?_, fun q k hk hn => ⟨?_, ?_, ?_⟩⟩
    · rintro rfl
      exact ⟨resolve_of_error (targetOf_nextScene_none hr), resolve_of_error (targetOf_prevScene_none hr),
        resolve_of_error (targetOf_prevSong_first hr (.inl rfl))⟩
    · obtain ⟨q, rfl⟩ := Option.ne_none_iff_exists'.mp hp
      exact resolve_of_error ((targetOf_prevScene_some hr).trans (if_pos (by rw [hm]; rfl)))
    · rintro q k g kind hk hg rfl
      have hlen : q < s.setlist.length := (List.getElem?_eq_some_iff.mp hk).1
      have hcount := scenesAt_of_ready hk hg
      refine ⟨?_, ?_, fun n hq => ⟨fun h => ?_, fun h => ?_⟩, ?_, ?_, ?_⟩
      · rintro n rfl rfl
        have htarget := targetOf_nextScene_some hr
        rw [hcount] at htarget
        exact ⟨fun h => resolve_of_ready (htarget.trans (if_pos h)) hk hg,
          fun h => resolve_of_error (htarget.trans (if_neg (Nat.not_lt.mpr h)))⟩
      · rintro n rfl rfl
        exact resolve_of_ready ((targetOf_prevScene_some hr).trans (if_neg (Nat.succ_ne_zero n))) hk hg
      · exact resolve_of_ready ((targetOf_scene_some hq n).trans (if_pos (hcount ▸ h))) hk hg
      · exact resolve_of_error ((targetOf_scene_some hq n).trans (if_neg (hcount ▸ Nat.not_lt.mpr h)))
      · rintro rfl
        exact resolve_of_ready ((targetOf_nextSong hr).trans (if_pos hlen)) hk hg
      · rintro rfl
        exact resolve_of_ready (targetOf_prevSong_later hr) hk hg
      · exact resolve_of_ready ((targetOf_position q).trans (if_pos hlen)) hk hg
    · rintro rfl
      exact resolve_of_unready ((targetOf_nextSong hr).trans (if_pos (List.getElem?_eq_some_iff.mp hk).1)) hk hn
    · rintro rfl
      exact resolve_of_unready (targetOf_prevSong_later hr) hk hn
    · exact resolve_of_unready ((targetOf_position q).trans (if_pos (List.getElem?_eq_some_iff.mp hk).1)) hk hn
  · refine ⟨fun w hw => ?_, fun hq hk => ?_, fun hq hk sc hs => ?_, relative_iff q.form, fun h => ?_, fun x h hx => ?_, fun x h hx => ?_,
      rfl⟩
    · rw [changeOf_timing, hw]
      rfl
    · rw [changeOf_timing, hq, ← defaultTiming_of_song (s := s) hk]
      rfl
    · rw [changeOf_timing, hq, ← defaultTiming_of_scene hk hs]
      rfl
    · show displacedBy s.cue q.claimant = none
      rw [h]
      rfl
    · show displacedBy s.cue q.claimant = none
      rw [h, displacedBy_of_own hx]
    · show displacedBy s.cue q.claimant = some x.claimant
      rw [h, displacedBy_of_other hx]

/-! ### Taking (R127, R129) -/

/-- What a trigger at the taking of a request leaves, the transport having gone on from it (R92, R129). -/
structure TriggeredAtOnce (c : Change) (s u : State) : Prop where
  cue : u.cue = none
  departure : u.departure = some c
  shows : SameShow s u
  scene : u.curScene = some c.scene
  position : u.curPos = if c.kind = .song then some c.position else s.curPos
  liveId : u.liveId = some (c.slot, c.scene)
  live : u.live = (s.sceneAt c.slot c.scene).elim [] (fun sc => sc.zones)
  audition : u.audition = none
  goesOn : ∃ r k, triggerCue c s = (r, k) ∧ (k = .goOn ∨ k = .halt → u = r) ∧
    (k = .restart → u = runningDownbeat (some .start) r) ∧ (k = .countIn → u = countInDownbeat r)

theorem bandOnly_continueAfter (k : Cont) (r : State) : BandOnly r (continueAfter k r) := by
  cases k with
  | goOn | halt => exact bandOnly_refl r
  | restart => exact bandOnly_runningDownbeat _ r
  | countIn => exact bandOnly_countInDownbeat r

theorem triggeredAtOnce (c : Change) (s : State) :
    TriggeredAtOnce c s (continueAfter (triggerCue c s).2 (triggerCue c s).1) := by
  have ht := triggerCue_triggered c s
  obtain ⟨r, k, hr⟩ : ∃ r k, triggerCue c s = (r, k) := ⟨_, _, rfl⟩
  have hband := bandOnly_continueAfter k r
  rw [hr] at ht ⊢
  exact {
    cue := hband.cue.1.trans ht.cue, departure := hband.cue.2.trans ht.departure
    shows := ⟨hband.showData.1.trans ht.shows.1, hband.showData.2.trans ht.shows.2⟩
    scene := hband.selection.2.trans ht.scene, position := hband.selection.1.trans ht.position
    liveId := hband.notes.2.1.trans ht.liveId, live := hband.notes.1.trans ht.live
    audition := hband.change.2.2.trans ht.audition
    goesOn := by
      refine ⟨r, k, hr, ?_, ?_, ?_⟩
      · rintro (rfl | rfl) <;> rfl
      · rintro rfl
        rfl
      · rintro rfl
        rfl }

section
variable {q : CueRequest} {s : State} {g : Target} {c : Change}

theorem takeCue_of_held (h : s.cueHeldAgainst q.claimant = true) : takeCue q s = (s, .refused .cueHeld) := by
  rw [takeCue, if_pos h]

theorem takeCue_of_error {r : Result} (h : s.cueHeldAgainst q.claimant = false) (hr : s.resolve q.claimant q.form = .error r) :
    takeCue q s = (s, .refused r) := by
  rw [takeCue, if_neg (by rw [h]; exact nofun), hr]

theorem takeCue_of_ok (h : s.cueHeldAgainst q.claimant = false) (hg : s.resolve q.claimant q.form = .ok g) :
    takeCue q s = ((enterCue (s.changeOf q g) s).1, .taken (enterCue (s.changeOf q g) s).2 (s.changeOf q g)) := by
  rw [takeCue, if_neg (by rw [h]; exact nofun), hg]

theorem enterCue_of_now (h : c.timing = .now ∨ s.transport.mode = .stopped) :
    enterCue c s = (continueAfter (triggerCue c s).2 (triggerCue c s).1, .triggered) := by
  rw [enterCue, if_pos h]

theorem enterCue_of_later (ht : c.timing ≠ .now) (hm : s.transport.mode ≠ .stopped) : enterCue c s =
    (raise (.cue (takingDetail s.cue c.claimant) c none c.displaced (s.sceneName c.slot c.scene)) { s with cue := some c },
      takingDetail s.cue c.claimant) := by
  rw [enterCue, if_neg (not_or.mpr ⟨ht, hm⟩)]
  rfl

/-- Outcome and displaced claimant as the notice and the answer name them (R133). -/
theorem taking_of {d : CueDetail} {other : Option Claimant} {cl : Claimant} (hnone : s.cue = none → d = .taken ∧ other = none)
    (hsome : ∀ x, s.cue = some x → if x.claimant = cl then d = .replaced ∧ other = none
      else d = .displaced ∧ other = some x.claimant) : takingDetail s.cue cl = d ∧ displacedBy s.cue cl = other := by
  rcases Option.eq_none_or_eq_some s.cue with h | ⟨x, h⟩
  · obtain ⟨rfl, rfl⟩ := hnone h
    rw [h]
    exact ⟨rfl, rfl⟩
  · have hx := hsome x h
    rw [h]
    by_cases hc : x.claimant = cl
    · rw [if_pos hc] at hx
      exact ⟨hx.1 ▸ if_pos hc, hx.2 ▸ if_pos hc⟩
    · rw [if_neg hc] at hx
      exact ⟨hx.1 ▸ if_neg hc, hx.2 ▸ if_neg hc⟩

end

/-! ### CUE (R123) -/

section
variable {l : Link} {f n t : Byte} {s : State} {form : CueForm} {w : Option Timing}

theorem cueRequest_of_bad_field (h : cueForm f n = none ∨ cueTiming t = none) :
    cueRequest l [f, n, t] s = (s, .refuse .badField []) := by
  unfold cueRequest
  dsimp only
  split
  · rename_i hf ht
    rcases h with h | h
    · exact absurd (h.symm.trans hf) nofun
    · exact absurd (h.symm.trans ht) nofun
  · rfl

theorem cueRequest_of_refused {r : Result} {u : State} (hf : cueForm f n = some form) (ht : cueTiming t = some w)
    (h : takeCue { claimant := claimantOf l, form, timing := w, source := .link l } s = (u, .refused r)) :
    cueRequest l [f, n, t] s = (u, .refuse r []) := by
  simp only [cueRequest, hf, ht, h]

theorem cueRequest_of_taken {d : CueDetail} {c : Change} {u : State} (hf : cueForm f n = some form) (ht : cueTiming t = some w)
    (h : takeCue { claimant := claimantOf l, form, timing := w, source := .link l } s = (u, .taken d c)) :
    cueRequest l [f, n, t] s = (u, .ok (cueData d c)) := by
  simp only [cueRequest, hf, ht, h]

theorem cueHeldAgainst_of_higher {x : Change} (h : s.cue = some x) (hx : x.claimant = .stage ∨ x.claimant = .linkA ∧ l = .b) :
    s.cueHeldAgainst (claimantOf l) = true := by
  rw [State.cueHeldAgainst, h]
  refine decide_eq_true ?_
  rcases hx with hx | ⟨hx, rfl⟩
  · rw [hx]
    cases l <;> decide
  · rw [hx]
    decide

theorem cueHeldAgainst_of_lower (h : ∀ x, s.cue = some x → x.claimant ≠ .stage ∧ (x.claimant = .linkA → l = .a)) :
    s.cueHeldAgainst (claimantOf l) = false := by
  unfold State.cueHeldAgainst
  split
  · rename_i x hx
    obtain ⟨hstage, hlink⟩ := h x hx
    refine decide_eq_false ?_
    cases hc : x.claimant with
    | stage => exact absurd hc hstage
    | linkA =>
      rw [hlink hc]
      decide
    | linkB => cases l <;> decide
  · rfl

theorem found_changeOf (l : Link) (s : State) (q : CueRequest) (g : Target) : (found l s).changeOf q g = s.changeOf q g := by
  cases l <;> rfl

theorem found_cueHeldAgainst (l : Link) (s : State) (c : Claimant) : (found l s).cueHeldAgainst c = s.cueHeldAgainst c := by
  cases l <;> rfl

end

/-! ### STAGE (R122, R134) -/

section
variable {f : CueForm} {o : Origin} {s : State}

theorem cueHeldAgainst_stage (s : State) : s.cueHeldAgainst .stage = false := by
  unfold State.cueHeldAgainst
  split
  · rename_i x _
    exact decide_eq_false (by cases x.claimant <;> decide)
  · rfl

theorem stageCue_of_error {r : Result} (h : s.resolve .stage f = .error r) :
    stageCue f o s = raise (.cueRefused r f o s.curPos s.curScene) s := by
  rw [stageCue, takeCue_of_error (q := { claimant := .stage, form := f, timing := none, source := o }) (cueHeldAgainst_stage s) h]

theorem stageCue_of_ok {g : Target} (h : s.resolve .stage f = .ok g) : stageCue f o s =
    (enterCue (s.changeOf { claimant := .stage, form := f, timing := none, source := o } g) s).1 := by
  rw [stageCue, takeCue_of_ok (q := { claimant := .stage, form := f, timing := none, source := o }) (cueHeldAgainst_stage s) h]

end

/-- Settles O43: a request from STAGE is never held. -/
theorem stageTable : Obligations.StageTable := by
  unfold Obligations.StageTable
  refine fun f o s => ⟨fun r => stageCue_of_error, fun g hg c hc => ⟨fun ht hm d other hnone hsome => ?_, fun h => ?_⟩⟩
  · obtain ⟨hd, hother⟩ := taking_of hnone hsome
    have hclaim : c.claimant = .stage := by rw [hc]; rfl
    have hdisp : c.displaced = other := by rw [hc, ← hother]; rfl
    rw [stageCue_of_ok hg, ← hc, enterCue_of_later ht hm, hclaim, hd, hdisp]
  · have h1 := triggeredAtOnce c s
    rw [stageCue_of_ok hg, ← hc, enterCue_of_now h]
    exact ⟨h1.cue, h1.departure, h1.scene, h1.position, h1.goesOn⟩

/-! ### Auditions (R151, R152) -/

section
variable {l : Link} {b : Byte} {s : State}

theorem auditionRequest_of_bad_field (h : 11 < b.toNat) : auditionRequest l [b] s = (s, .refuse .badField []) := by
  have hb : numIn 0 11 b = none := numIn_eq_none h
  simp only [auditionRequest, hb]

theorem numIn_of_le {hi : Nat} (h : b.toNat ≤ hi) : numIn 0 hi b = some b.toNat := if_pos ⟨Nat.zero_le _, h⟩

theorem auditionRequest_of_moving (h : b.toNat ≤ 11) (hm : s.transport.mode ≠ .stopped) :
    auditionRequest l [b] s = (s, .refuse .wrongState []) := by
  simp only [auditionRequest, numIn_of_le h]
  exact if_pos hm

theorem auditionRequest_of_missing (h : b.toNat ≤ 11) (hm : s.transport.mode = .stopped)
    (hno : s.currentSlot = none ∨ ∃ k, s.currentSlot = some k ∧ s.sceneCount k ≤ b.toNat) :
    auditionRequest l [b] s = (s, .refuse .notFound []) := by
  simp only [auditionRequest, numIn_of_le h]
  rw [if_neg (not_not.mpr hm)]
  split
  · rename_i p k hp hk
    refine if_neg fun hlt => ?_
    rcases hno with h0 | ⟨k', hk', hle⟩
    · exact absurd (hk.symm.trans h0) nofun
    · obtain rfl := Option.some.inj (hk.symm.trans hk')
      exact Nat.not_lt.mpr hle hlt
  · rfl

theorem auditionRequest_of_scene {p : Nat} {k : SlotNo} {m : Nat} (h : b.toNat ≤ 11) (hm : s.transport.mode = .stopped)
    (hp : s.curPos = some p) (hk : s.currentSlot = some k) (hn : b.toNat < s.sceneCount k) (hc : s.curScene = some m) :
    auditionRequest l [b] s = ((takeTrigger (auditionTrigger l .audition p k b.toNat)
      { s with audition := some (s.audition.getD m) }).1, .ok []) := by
  simp only [auditionRequest, numIn_of_le h]
  rw [if_neg (not_not.mpr hm), hp, hk]
  dsimp only
  rw [if_pos hn, hc]
  rfl

theorem auditionEnd_of_none (h : s.audition = none) : auditionEnd l s = (s, .refuse .wrongState []) := by
  rw [auditionEnd, h]

theorem auditionEnd_of_scene {n p : Nat} {k : SlotNo} (h : s.audition = some n) (hp : s.curPos = some p)
    (hk : s.currentSlot = some k) :
    auditionEnd l s = ((takeTrigger (auditionTrigger l .ret p k n) { s with audition := none }).1, .ok []) := by
  rw [auditionEnd, h]
  dsimp only
  rw [hp, hk]

end

/-- What a trigger of the current song leaves (R139, R140). -/
structure GoesLive (t : Trigger) (s u : State) : Prop where
  audition : u.audition = s.audition
  scene : u.curScene = some t.scene
  position : u.curPos = s.curPos
  liveId : u.liveId = some (t.slot, t.scene)
  live : u.live = (s.sceneAt t.slot t.scene).elim [] (fun sc => sc.zones)
  cue : SameCue s u
  shows : SameShow s u
  record : ∀ r, u.changeover = some r → r.kind = t.kind ∧ r.claimant = t.claimant ∧ r.mark = t.mark ∧ r.source = s.selection ∧
    r.position = t.position ∧ r.slot = t.slot ∧ r.scene = t.scene

theorem takeTrigger_goesLive {t : Trigger} (s : State) (hk : t.kind = .scene) : GoesLive t s (takeTrigger t s).1 := by
  obtain ⟨hlive, hid, hscene, hpos, -⟩ := takeTrigger_reads t s
  have hcore := takeTrigger_core t s
  simp only [coreOf, Prod.mk.injEq] at hcore
  obtain ⟨hcue, hdep, hlib, hset, -⟩ := hcore
  exact {
    audition := takeTrigger_audition t s, scene := hscene, position := hpos.trans (if_neg (by rw [hk]; exact nofun))
    liveId := hid, live := hlive, cue := ⟨hcue, hdep⟩, shows := ⟨hlib, hset⟩, record := takeTrigger_record t s hk }

theorem audited_selection (l : Link) (s : State) (x : Option Nat) :
    ({ found l s with audition := x } : State).selection = s.selection := by
  cases l <;> rfl

/-- Settles O45: the checks in order, and the trigger of the current song. -/
theorem auditionTable : Obligations.AuditionTable := by
  unfold Obligations.AuditionTable
  intro l tag s ht
  refine ⟨fun b => ⟨fun h => exec_of_refusal rfl rfl ht (auditionRequest_of_bad_field h),
      fun h hm => exec_of_refusal rfl rfl ht (auditionRequest_of_moving h (by rwa [found_transport])),
      fun h hm hno => exec_of_refusal rfl rfl ht (auditionRequest_of_missing h (by rwa [found_transport])
        (by simpa only [found_currentSlot, found_sceneCount] using hno)), fun h hm p k hp hk hn m hc => ?_⟩,
    fun h => exec_of_refusal rfl rfl ht (auditionEnd_of_none ((found_audition l s).trans h)), fun n p k h hp hk => ?_⟩
  · have hserve := auditionRequest_of_scene (l := l) (s := found l s) h (by rwa [found_transport]) ((found_curPos l s).trans hp)
      ((found_currentSlot l s).trans hk) (by rwa [found_sceneCount]) ((found_curScene l s).trans hc)
    rw [found_audition] at hserve
    have hlive := takeTrigger_goesLive (t := auditionTrigger l .audition p k b.toNat)
      { found l s with audition := some (s.audition.getD m) } rfl
    refine Exists.intro _ (And.intro (exec_of_serve (k := .audition) (fields := [b]) rfl rfl ht hserve) ?_)
    refine ⟨fun r hr => hlive.audition.trans (by rw [hr]; rfl), fun hr => hlive.audition.trans (by rw [hr]; rfl), hlive.scene,
      hlive.position.trans (found_curPos l s), hlive.liveId, hlive.live.trans ?_, ⟨hlive.cue.1.trans (found_cue l s),
        hlive.cue.2.trans (found_departure l s)⟩, ⟨hlive.shows.1.trans (found_library l s), hlive.shows.2.trans (found_setlist l s)⟩,
      rfl, fun r hr => ?_⟩
    · exact congrArg (fun o => Option.elim o [] (fun sc => sc.zones)) (found_sceneAt l s k b.toNat)
    · have h := hlive.record r hr
      rwa [audited_selection] at h
  · have hserve := auditionEnd_of_scene (l := l) (s := found l s) ((found_audition l s).trans h) ((found_curPos l s).trans hp)
      ((found_currentSlot l s).trans hk)
    have hlive := takeTrigger_goesLive (t := auditionTrigger l .ret p k n) { found l s with audition := none } rfl
    refine Exists.intro _ (And.intro (exec_of_serve (k := .auditionEnd) (fields := []) rfl rfl ht hserve) ?_)
    refine ⟨hlive.audition, hlive.scene, hlive.position.trans (found_curPos l s), hlive.liveId, hlive.live.trans ?_,
      ⟨hlive.cue.1.trans (found_cue l s), hlive.cue.2.trans (found_departure l s)⟩,
      ⟨hlive.shows.1.trans (found_library l s), hlive.shows.2.trans (found_setlist l s)⟩, rfl, fun r hr => ?_⟩
    · exact congrArg (fun o => Option.elim o [] (fun sc => sc.zones)) (found_sceneAt l s k n)
    · have h := hlive.record r hr
      rwa [audited_selection] at h

end Sys2Proof.Proofs.Cues
end

section
/-! CUE and the trigger of a change (chapters 7 and 8): selection, live table, programs and the record. -/

namespace Sys2Proof.Proofs.ChangeTables

open Sys2Proof.Machine Sys2Proof.Laws Sys2Proof.Proofs Sys2Proof.Proofs.LibraryTables Sys2Proof.Proofs.Lanes
open Sys2Proof.Proofs.TransportTables Sys2Proof.Proofs.Cues

/-! ### CUE (R123, R127, R129) -/

section
variable {l : Link} {tag f n t : Byte} {s : State} {form : CueForm} {w : Option Timing}

/-- The request a CUE of a link makes (R123). -/
abbrev linkCue (l : Link) (form : CueForm) (w : Option Timing) : CueRequest :=
  { claimant := claimantOf l, form, timing := w, source := .link l }

/-- A CUE that resolves: triggered at its taking, or waiting (R127, R129). -/
theorem cue_of_resolved (ht : Takes l s) (hf : cueForm f n = some form) (hw : cueTiming t = some w)
    (hfree : s.cueHeldAgainst (claimantOf l) = false) {g : Target} (hg : s.resolve (claimantOf l) form = .ok g) :
    exec (.cue l tag f n t) s = answered l .cue tag
      (.ok (cueData (enterCue (s.changeOf (linkCue l form w) g) (found l s)).2 (s.changeOf (linkCue l form w) g)))
      (enterCue (s.changeOf (linkCue l form w) g) (found l s)).1 := by
  have htake := takeCue_of_ok (q := linkCue l form w) ((found_cueHeldAgainst l s _).trans hfree)
    ((found_resolve (l := l) (s := s) (claimantOf l) form).trans hg)
  rw [found_changeOf] at htake
  exact exec_of_serve (k := .cue) (fields := [f, n, t]) rfl rfl ht (cueRequest_of_taken hf hw htake)

end

/-! ### The record of a trigger (R139, R145, R146) -/

theorem undone_iff (e : PortEntry) : decide (e.state ≠ .done) = (decide (0 < e.outstanding) || e.settling) := by
  unfold PortEntry.state
  split
  · rename_i h
    simp [h]
  · rename_i h
    cases hs : e.settling <;> simp [h]

theorem newRecord_eq (t : Trigger) (s : State) : s.newRecord t =
    { kind := t.kind, claimant := t.claimant, mark := t.mark
      source := { position := s.curPos, slot := s.currentSlot, scene := s.curScene }
      position := t.position, slot := t.slot, scene := t.scene
      ports := (s.changeover.elim [] (fun x => x.ports)).filter (fun e => decide (0 < e.outstanding) || e.settling) } := by
  have hports : s.carriedPorts = (s.changeover.elim [] (fun x => x.ports)).filter
      (fun e => decide (0 < e.outstanding) || e.settling) := by
    unfold State.carriedPorts
    cases s.changeover with
    | none => rfl
    | some r => exact List.filter_congr fun e _ => undone_iff e
  rw [← hports]
  rfl

theorem allDone_iff (r : Changeover) : r.allDone = true ↔ ∀ e ∈ r.ports, e.outstanding = 0 ∧ e.settling = false := by
  unfold Changeover.allDone
  rw [List.all_eq_true]
  refine forall₂_congr fun e _ => ?_
  have h := undone_iff e
  rw [decide_not, Bool.not_eq_eq_eq_not, Bool.not_or] at h
  rw [h, Bool.and_eq_true, Bool.not_eq_true', Bool.not_eq_true', decide_eq_false_iff_not, Nat.not_lt, Nat.le_zero]

theorem completeIfDone_of_none {s : State} (h : s.changeover = none) : completeIfDone s = s := by
  rw [completeIfDone, h]

theorem completeIfDone_of_done {s : State} {r : Changeover} (h : s.changeover = some r)
    (hd : ∀ e ∈ r.ports, e.outstanding = 0 ∧ e.settling = false) : completeIfDone s =
    { raise (.change .done r 0 0 (s.sceneName r.slot r.scene)) s with changeover := none } := by
  rw [completeIfDone, h]
  exact if_pos ((allDone_iff r).mpr hd)

theorem completeIfDone_of_left {s : State} {r : Changeover} (h : s.changeover = some r)
    (hd : ∃ e ∈ r.ports, 0 < e.outstanding ∨ e.settling = true) : completeIfDone s = s := by
  obtain ⟨e, he, hleft⟩ := hd
  rw [completeIfDone, h]
  refine if_neg fun hall => ?_
  obtain ⟨h0, h1⟩ := (allDone_iff r).mp hall e he
  rcases hleft with hlt | hs
  · omega
  · exact absurd (hs.symm.trans h1) nofun

/-- A record that has kept all but its port list (R139). -/
def SameTarget (r : Changeover) (u : State) : Prop := ∃ f, u.changeover = some f ∧ { f with ports := r.ports } = r

theorem recordFree (x : Option Changeover) : LaneFree (fun u => u.changeover = x) :=
  { offered := raiseOn_free (fun u l _ h => by cases l <;> exact h), lane := fun _ _ _ _ h => h, flags := fun _ _ _ h => h
    fault := fun _ _ h => h }

theorem offerNote_changeover (p : Port) (e : NoteEntry) (s : State) : (offerNote p e s).changeover = s.changeover :=
  reportOffer_kept (recordFree s.changeover) p _ rfl

section
variable {r : Changeover}

theorem withdrawProgram_sameTarget (p : Port) (c : Chan) {s : State} (h : SameTarget r s) :
    SameTarget r (withdrawProgram p c s) := by
  obtain ⟨f, hf, hr⟩ := h
  unfold withdrawProgram
  dsimp only
  split
  · refine ⟨f.mapEntry p (fun e => { e with outstanding := e.outstanding - 1 }), ?_, hr⟩
    unfold lowerOutstanding
    rw [show (s.setPort p _).changeover = some f from hf]
  · exact ⟨f, hf, hr⟩

theorem joinPort_sameTarget (p : Port) {s : State} (h : SameTarget r s) : SameTarget r (joinPort p s) := by
  obtain ⟨f, hf, hr⟩ := h
  unfold joinPort
  rw [hf]
  dsimp only
  split
  · exact ⟨_, rfl, hr⟩
  · exact ⟨_, rfl, hr⟩

theorem assign_sameTarget (w : Sending) (a : Assignment) (h : SameTarget r w.state) : SameTarget r (w.assign a).state := by
  have hoffer : SameTarget r (offerNote a.port a.entry (withdrawProgram a.port a.chan w.state)) := by
    obtain ⟨f, hf, hr⟩ := withdrawProgram_sameTarget a.port a.chan h
    exact ⟨f, (offerNote_changeover _ _ _).trans hf, hr⟩
  unfold Sending.assign
  split
  · exact h
  · dsimp only
    split
    · exact joinPort_sameTarget _ hoffer
    · exact hoffer

theorem assigns_sameTarget (xs : List Assignment) : ∀ w : Sending, SameTarget r w.state →
    SameTarget r (xs.foldl Sending.assign w).state := by
  induction xs with
  | nil => exact fun _ h => h
  | cons x xs ih => exact fun w h => ih _ (assign_sameTarget w x h)

theorem assignAll_sameTarget (n : SlotNo) (k : Nat) {s : State} (h : SameTarget r s) : SameTarget r (assignAll n k s).state :=
  assigns_sameTarget _ _ h

theorem moveSelection_changeover (t : Trigger) (s : State) : (moveSelection t s).1.changeover = s.changeover := by
  unfold moveSelection
  split
  · rfl
  · exact (reposition_read (fun u => u.changeover) (fun _ l _ => by cases l <;> rfl) (fun _ _ _ => rfl) (fun _ _ => rfl)
      (fun _ _ => rfl) _).trans (clearTempo_read (fun u => u.changeover) (fun _ l _ => by cases l <;> rfl) (fun _ _ => rfl) _)

theorem replaceLive_changeover (n : SlotNo) (k : Nat) (s : State) : (replaceLive n k s).changeover = s.changeover :=
  pedalCarry_kept (recordFree s.changeover) (fun _ _ h => h) rfl

theorem carryOut_sameTarget (t : Trigger) {s : State} (h : SameTarget r s) : SameTarget r (carryOut t s).1.state := by
  obtain ⟨f, hf, hr⟩ := h
  have hlive : SameTarget r (replaceLive t.slot t.scene (moveSelection t s).1) :=
    ⟨f, (replaceLive_changeover _ _ _).trans ((moveSelection_changeover t s).trans hf), hr⟩
  exact assignAll_sameTarget _ _ hlive

end

/-! ### What a trigger carries out (R140 to R142) -/

theorem moveSelection_library (t : Trigger) (s : State) : (moveSelection t s).1.library = s.library :=
  congrArg (fun c => c.2.2.1) (moveSelection_closed (trigger_core s) t (rfl : coreOf s = coreOf s))

theorem libraryFree (x : Vector Slot 48) : LaneFree (fun u => u.library = x) :=
  { offered := raiseOn_free (fun u l _ h => by cases l <;> exact h), lane := fun _ _ _ _ h => h, flags := fun _ _ _ h => h
    fault := fun _ _ h => h }

theorem replaceLive_library (n : SlotNo) (k : Nat) (s : State) : (replaceLive n k s).library = s.library :=
  pedalCarry_kept (libraryFree s.library) (fun _ _ h => h) rfl

theorem assignAll_eq {n : SlotNo} {k : Nat} {s : State} {o : Option Scene} (h : s.sceneAt n k = o) : assignAll n k s =
    (o.elim [] (fun sc => sc.assignments)).foldl Sending.assign { state := s, enqueued := 0, dropped := 0 } := by
  rw [assignAll, h]

theorem replaceLive_eq {n : SlotNo} {k : Nat} {s : State} {o : Option Scene} (h : s.sceneAt n k = o) : replaceLive n k s =
    pedalCarry { s with live := o.elim [] (fun sc => sc.zones), liveId := some (n, k) } := by
  rw [replaceLive, h]

theorem carryOut_eq (t : Trigger) (s : State) {o : Option Scene} (h : o = s.sceneAt t.slot t.scene) : carryOut t s =
    ((o.elim [] (fun sc => sc.assignments)).foldl Sending.assign
      { state := pedalCarry { (moveSelection t s).1 with
          live := o.elim [] (fun sc => sc.zones)
          liveId := some (t.slot, t.scene) }
        enqueued := 0, dropped := 0 }, (moveSelection t s).2) := by
  have hmoved : (moveSelection t s).1.sceneAt t.slot t.scene = o := (sceneAt_congr (moveSelection_library t s) _ _).trans h.symm
  have hlive : (replaceLive t.slot t.scene (moveSelection t s).1).sceneAt t.slot t.scene = o :=
    (sceneAt_congr (replaceLive_library _ _ _) _ _).trans hmoved
  rw [← replaceLive_eq hmoved, ← assignAll_eq hlive]
  rfl

theorem raiseStarted_of {t : Trigger} {s : State} {f : Changeover} (h : (carryOut t s).1.state.changeover = some f) :
    raiseStarted t s =
      raise (.change .started f (carryOut t s).1.enqueued (carryOut t s).1.dropped (s.sceneName t.slot t.scene)) s := by
  unfold raiseStarted
  dsimp only
  rw [h]

theorem superseded_of_none {s : State} (h : s.changeover = none) : raiseSuperseded s = s := by
  rw [raiseSuperseded, h]

theorem superseded_of_some {s : State} {x : Changeover} (h : s.changeover = some x) :
    raiseSuperseded s = raise (.change .superseded x 0 0 (s.sceneName x.slot x.scene)) s := by
  rw [raiseSuperseded, h]
  rfl

theorem superseded_sceneName (s : State) (n : SlotNo) (k : Nat) : (raiseSuperseded s).sceneName n k = s.sceneName n k :=
  raiseSuperseded_closed (P := fun u => u.sceneName n k = s.sceneName n k)
    (raiseOn_free (fun u l _ h => by cases l <;> exact h)) rfl

/-! ### The move of the selection (R92, R140) -/

/-- The transport in the record of its repositioning, its STOP byte sent and the accumulator cleared (R61, R92, R93). -/
def repositioned (s : State) : State :=
  clearFor (songCont s.currentSong) (stopByteFor (songCont s.currentSong) s.transport.mode
    { s with transport := repositionRecord (songCont s.currentSong) s })

theorem reposition_of_moving {s : State} (h : s.transport.mode ≠ .stopped) :
    reposition s = (raiseTransport .songChange none (repositioned s), songCont s.currentSong) := if_neg h

theorem clearFor_reads (k : Cont) (s : State) : (clearFor k s).transport = s.transport ∧ (∀ p, (clearFor k s).port p = s.port p) ∧
    (clearFor k s).click = s.click ∧ (clearFor k s).now = s.now ∧ BandOnly s (clearFor k s) := by
  cases k with
  | goOn | halt => exact ⟨rfl, fun _ => rfl, rfl, rfl, bandOnly_refl s⟩
  | restart | countIn => exact ⟨rfl, fun _ => rfl, rfl, rfl, bandOnly_tempo s _⟩

theorem stopByteFor_reads (k : Cont) (m : TransportMode) (s : State) : (stopByteFor k m s).transport = s.transport ∧
    (stopByteFor k m s).tempo = s.tempo ∧ (stopByteFor k m s).click = s.click ∧ (stopByteFor k m s).now = s.now ∧
    BandOnly s (stopByteFor k m s) := by
  unfold stopByteFor
  split
  · exact ⟨rfl, rfl, rfl, rfl, bandOnly_refl s⟩
  · exact ⟨stopByteFrom_transport _ _, stopByteFrom_tempo _ _, stopByteFrom_click _ _, stopByteFrom_now _ _,
      bandOnly_stopByteFrom _ _⟩

theorem stopByteFor_realtime (k : Cont) (m : TransportMode) (s : State) (p : Port) : ((stopByteFor k m s).port p).realtime =
    if (s.port p).settings.clockFlag = true ∧ m = .running ∧ k ≠ .restart then ((s.port p).offerRealtime .stop).realtime
    else (s.port p).realtime := by
  unfold stopByteFor
  split
  · rename_i hk
    rw [if_neg fun h => h.2.2 hk]
  · rename_i hk
    rw [stopByteFrom_realtime]
    exact if_congr (by simp [hk]) rfl rfl

/-- What a repositioning leaves (R92). -/
structure Repositioned (k : Cont) (s x : State) : Prop where
  transport : x.transport = repositionRecord k s
  tempo : x.tempo = (clearFor k s).tempo
  click : x.click = s.click
  now : x.now = s.now
  band : BandOnly s x
  realtime : ∀ p, (x.port p).realtime = if (s.port p).settings.clockFlag = true ∧ s.transport.mode = .running ∧ k ≠ .restart then
    ((s.port p).offerRealtime .stop).realtime else (s.port p).realtime

theorem repositioned_reads (s : State) : Repositioned (songCont s.currentSong) s (repositioned s) := by
  obtain ⟨hx, ht, hk, hn, hb⟩ := stopByteFor_reads (songCont s.currentSong) s.transport.mode
    { s with transport := repositionRecord (songCont s.currentSong) s }
  have hrt := stopByteFor_realtime (songCont s.currentSong) s.transport.mode
    { s with transport := repositionRecord (songCont s.currentSong) s }
  unfold repositioned
  generalize stopByteFor (songCont s.currentSong) s.transport.mode
    { s with transport := repositionRecord (songCont s.currentSong) s } = u at hx ht hk hn hb hrt ⊢
  obtain ⟨cx, cp, ck, cn, cb⟩ := clearFor_reads (songCont s.currentSong) u
  exact {
    transport := cx.trans hx
    tempo := by
      cases songCont s.currentSong with
      | goOn | halt => exact ht
      | restart | countIn => exact congrArg (fun t : TempoState => { t with acc := 0 }) ht
    click := ck.trans hk, now := cn.trans hn
    band := bandOnly_trans (bandOnly_trans (bandOnly_transport s _) hb) cb
    realtime := fun p => (congrArg (fun x : PortState => x.realtime) (cp p)).trans (hrt p) }

/-- The state a song change repositions: the selection moved, the tempo unit cleared (R77, R140). -/
theorem moveSelection_of_song {t : Trigger} {s u : State} (hk : t.kind = .song)
    (hu : u = { s with curPos := some t.position, curScene := some t.scene }) : moveSelection t s = reposition (clearTempo u) := by
  rw [hu, moveSelection, hk]

theorem songCont_of_halt {o : Option Song} (h : o = none ∨ ∃ g, o = some g ∧ g.startMode = .wait) : songCont o = .halt := by
  rcases h with rfl | ⟨g, rfl, hw⟩
  · rfl
  · simp only [songCont, hw]

theorem songCont_of_follow {g : Song} (h : g.startMode = .follow) :
    songCont (some g) = if g.countIn = 0 then .restart else .countIn := by
  simp only [songCont, h]

/-- What the whole move of a song change leaves while the transport is not STOPPED (R92). -/
theorem moveSelection_of_moving {t : Trigger} {s u v : State} (hk : t.kind = .song)
    (hu : u = { s with curPos := some t.position, curScene := some t.scene }) (hv : v = clearTempo u)
    (hm : s.transport.mode ≠ .stopped) : moveSelection t s =
      (raiseTransport .songChange none (repositioned v), songCont u.currentSong) ∧
    Repositioned (songCont u.currentSong) v (repositioned v) := by
  have hsong : v.currentSong = u.currentSong := by
    rw [hv]
    exact clearTempo_read (fun u => u.currentSong) (fun _ l _ => by cases l <;> rfl) (fun _ _ => rfl) u
  have hmode : v.transport.mode ≠ .stopped := by
    rw [hv, clearTempo_transport, hu]
    exact hm
  rw [moveSelection_of_song hk hu, ← hv, reposition_of_moving hmode, hsong, ← hsong]
  exact ⟨rfl, repositioned_reads v⟩

/-! ### One assignment (R142) -/

section
variable {w : Sending} {a : Assignment} {s : State}

theorem withdrawProgram_of_none {p : Port} {c : Chan} (h : (s.port p).noteLane.any (NoteEntry.isProgramOn c) = false) :
    withdrawProgram p c s = s := by
  unfold withdrawProgram
  exact if_neg (by rw [h]; exact nofun)

theorem lowerOutstanding_eq (p : Port) (s : State) : lowerOutstanding p s = { s with
    changeover := s.changeover.map (fun r => { r with ports := r.ports.map (fun x =>
      if x.port = p then { x with outstanding := x.outstanding - 1 } else x) }) } := by
  unfold lowerOutstanding
  split
  · rename_i h
    rw [h]
    rw [Option.map_none, ← h]
  · rename_i r h
    rw [h]
    rfl

theorem withdrawProgram_of_some {p : Port} {c : Chan} (h : (s.port p).noteLane.any (NoteEntry.isProgramOn c) = true) :
    withdrawProgram p c s = lowerOutstanding p (s.setPort p
      ({ s.port p with noteLane := (s.port p).noteLane.filter (fun e => !e.isProgramOn c) } : PortState).lose) := if_pos h

theorem joinPort_eq (p : Port) (s : State) : joinPort p s = { s with
    changeover := s.changeover.map (fun r => { r with
      ports := if ∃ x ∈ r.ports, x.port = p then
          r.ports.map (fun x => if x.port = p then { x with outstanding := x.outstanding + 1 } else x)
        else r.ports ++ [{ port := p, outstanding := 1, settling := false }] }) } := by
  unfold joinPort
  split
  · rename_i h
    rw [h]
    rw [Option.map_none, ← h]
  · rename_i r h
    have hiff : r.ports.any (fun e => decide (e.port = p)) = true ↔ ∃ x ∈ r.ports, x.port = p := by simp
    rw [h, Option.map_some]
    by_cases hp : ∃ x ∈ r.ports, x.port = p
    · rw [if_pos (hiff.mpr hp), if_pos hp]
      rfl
    · rw [if_neg (mt hiff.mp hp), if_neg hp]

theorem assign_of_told (h : w.state.program a.port a.chan = some a.setting) : w.assign a = w := if_pos h

theorem assign_of_refused {y : State} (h : w.state.program a.port a.chan ≠ some a.setting) (hy : withdrawProgram a.port a.chan w.state = y)
    (ho : acceptsNote a.port a.entry y = false) : w.assign a =
      { w with state := (offerNote a.port a.entry y).setProgram a.port a.chan none, dropped := w.dropped + 1 } := by
  subst hy
  rw [Sending.assign, if_neg h]
  exact if_neg (by rw [ho]; exact nofun)

theorem assign_of_accepted {y : State} (h : w.state.program a.port a.chan ≠ some a.setting) (hy : withdrawProgram a.port a.chan w.state = y)
    (ho : acceptsNote a.port a.entry y = true) : w.assign a =
      { w with state := joinPort a.port ((offerNote a.port a.entry y).setProgram a.port a.chan (some a.setting))
               enqueued := w.enqueued + 1 } := by
  subst hy
  rw [Sending.assign, if_neg h]
  exact if_pos ho

theorem isProgramOn_iff (c : Chan) (x : NoteEntry) : x.isProgramOn c = true ↔ ∃ b l p, x = .program c b l p := by
  cases x with
  | program c' b l p =>
    simp only [NoteEntry.isProgramOn, decide_eq_true_eq]
    exact ⟨fun h => ⟨b, l, p, by rw [h]⟩, fun ⟨_, _, _, h⟩ => by injection h⟩
  | noteOn | noteOff | polyPressure | pedal | sweep => exact ⟨nofun, nofun⟩

end

/-- The record a trigger finds at the end of what it carries out, and the CHANGE STARTED it raised for it (R139). -/
theorem takeTrigger_started (t : Trigger) {s y : State} {r : Changeover} (hr : r = s.newRecord t)
    (hy : y = { raiseSuperseded s with changeover := some r }) :
    ∃ f z, { f with ports := r.ports } = r ∧ (carryOut t y).1.state.changeover = some f ∧
      z = raise (.change .started f (carryOut t y).1.enqueued (carryOut t y).1.dropped (s.sceneName t.slot t.scene)) y ∧
      takeTrigger t s = (completeIfDone (carryOut t z).1.state, (carryOut t z).2) := by
  have hrecord : SameTarget r y := ⟨r, by rw [hy], rfl⟩
  obtain ⟨f, hf, hsame⟩ := carryOut_sameTarget t hrecord
  have hname : y.sceneName t.slot t.scene = s.sceneName t.slot t.scene := by
    rw [hy]
    exact superseded_sceneName s _ _
  have hz := raiseStarted_of hf
  rw [hname] at hz
  refine ⟨f, _, hsame, hf, rfl, ?_⟩
  rw [← hz, hy, hr]
  rfl

/-- Settles O42: a trigger by its parts, in their order. -/
theorem cueTable : Obligations.CueTable := by
  unfold Obligations.CueTable
  refine ⟨fun l tag f n t s ht => ⟨fun h => exec_of_refusal rfl rfl ht (cueRequest_of_bad_field h), fun form w hf hw =>
    ⟨fun ⟨x, hx, hrank⟩ => ?_, fun hfree => ⟨fun r hr => ?_, fun g hg c hc => ?_⟩⟩⟩, fun c s => rfl, fun t s y r hr hnone hsome => ?_,
    fun t s o => carryOut_eq t s, fun t s => ⟨fun hk => by rw [moveSelection, hk], fun hk u hu e he v hv => ?_⟩,
    fun w a s hs m hm e he => ⟨fun h => ?_, fun h q hq hold keep hhold hkeep y hno hyes => ?_⟩, fun s =>
    ⟨completeIfDone_of_none, fun r hr => ⟨completeIfDone_of_done hr, completeIfDone_of_left hr⟩⟩⟩
  · exact exec_of_refusal (k := .cue) (fields := [f, n, t]) rfl rfl ht (cueRequest_of_refused hf hw
      (takeCue_of_held ((found_cueHeldAgainst l s _).trans (cueHeldAgainst_of_higher hx hrank))))
  · exact exec_of_refusal (k := .cue) (fields := [f, n, t]) rfl rfl ht (cueRequest_of_refused hf hw (takeCue_of_error
      ((found_cueHeldAgainst l s _).trans (cueHeldAgainst_of_lower hfree)) ((found_resolve (l := l) (s := s) _ _).trans hr)))
  · have hexec := cue_of_resolved (tag := tag) ht hf hw (cueHeldAgainst_of_lower hfree) hg
    rw [← hc] at hexec
    refine ⟨by rw [hc]; rfl, by rw [hc]; rfl, by rw [hc]; rfl, by rw [hc]; rfl, by rw [hc]; rfl, by rw [hc]; rfl, fun h => ?_,
      fun hnow hm d other hnone hsome => ?_⟩
    · have h1 := triggeredAtOnce c (found l s)
      rw [enterCue_of_now (by rwa [found_transport])] at hexec
      refine Exists.intro _ (And.intro hexec ?_)
      exact ⟨h1.cue, h1.departure, ⟨h1.shows.1.trans (found_library l s), h1.shows.2.trans (found_setlist l s)⟩, h1.scene,
        h1.position.trans (by rw [found_curPos]), h1.liveId, h1.live.trans (by rw [found_sceneAt]), h1.audition, h1.goesOn⟩
    · obtain ⟨hd, hother⟩ := taking_of hnone hsome
      have hclaim : c.claimant = claimantOf l := by rw [hc]; rfl
      have hdisp : c.displaced = other := by rw [hc, ← hother]; rfl
      rw [enterCue_of_later hnow (by rwa [found_transport]), found_cue, hclaim, hd, hdisp, ReportTables.found_sceneName] at hexec
      exact hexec
  · rw [← newRecord_eq] at hr
    refine takeTrigger_started t hr ?_
    rcases Option.eq_none_or_eq_some s.changeover with h | ⟨x, h⟩
    · rw [superseded_of_none h]
      exact hnone h
    · rw [superseded_of_some h]
      exact hsome x h
  · have htempo : e = clearedTempo u := by rw [he, hu]; rfl
    have hcleared : v = clearTempo u := by
      rw [clearTempo_eq (y := { u with tempo := e }) (by rw [htempo]), hv, hu]
    have hfirst : v.firstSegment = u.firstSegment := by
      rw [hcleared]
      exact clearTempo_read (fun u => u.firstSegment) (fun _ l _ => by cases l <;> rfl) (fun _ _ => rfl) u
    have hvt : v.tempo = e := by rw [hcleared, htempo]; exact clearTempo_tempo u
    have hmode : v.transport = s.transport := by rw [hcleared, clearTempo_transport, hu]
    refine ⟨fun hm => ?_, fun hm => ?_⟩
    · rw [moveSelection_of_song hk hu, ← hcleared, reposition_of_stopped (by rwa [hmode]), ← hfirst]
      rfl
    · obtain ⟨hmove, hx⟩ := moveSelection_of_moving hk hu hcleared hm
      have hport : ∀ p, v.port p = s.port p := fun p => by rw [hcleared, clearTempo_port, hu]; rfl
      refine ⟨_, _, hmove, fun hno => ?_, fun g hg hfollow hzero => ?_, fun g hg hfollow hbars => ?_, fun p => ?_, ?_, ?_, hx.band⟩
      · have hcont := songCont_of_halt hno
        rw [hcont] at hx ⊢
        exact ⟨rfl, hx.transport.trans (by rw [← hfirst]; rfl), hx.tempo.trans hvt⟩
      · have hcont : songCont u.currentSong = .restart := by rw [hg, songCont_of_follow hfollow, if_pos hzero]
        rw [hcont] at hx ⊢
        exact ⟨rfl, hx.transport.trans (by rw [← hfirst]; rfl), hx.tempo.trans (by rw [← hvt]; rfl)⟩
      · have hcont : songCont u.currentSong = .countIn := by rw [hg, songCont_of_follow hfollow, if_neg hbars]
        have hcount : v.countInBars = g.countIn := by
          have hsong : v.currentSong = some g := by
            rw [hcleared, ← hg]
            exact clearTempo_read (fun u => u.currentSong) (fun _ l _ => by cases l <;> rfl) (fun _ _ => rfl) u
          rw [State.countInBars, hsong]
        rw [hcont] at hx ⊢
        refine ⟨rfl, hx.transport.trans ?_, hx.tempo.trans (by rw [← hvt]; rfl)⟩
        rw [← hfirst, ← hcount]
        rfl
      · rw [hx.realtime, hport, hmode]
      · rw [hx.click, hcleared, clearTempo_click, hu]
      · rw [hx.now, hcleared, clearTempo_now, hu]
  · subst hs hm
    exact assign_of_told h
  · subst hs hm he hq
    have hholdOn : hold = NoteEntry.isProgramOn a.chan := funext fun x => Bool.eq_iff_iff.mpr ((hhold x).trans (isProgramOn_iff _ x).symm)
    have hkeepRest : keep = fun x => !x.isProgramOn a.chan := funext fun x => by rw [hkeep, hholdOn]
    subst hholdOn
    subst hkeepRest
    have hy : withdrawProgram a.port a.chan w.state = y := by
      cases hany : (w.state.port a.port).noteLane.any (NoteEntry.isProgramOn a.chan) with
      | false => exact (withdrawProgram_of_none hany).trans (hno hany).symm
      | true => exact (withdrawProgram_of_some hany).trans ((lowerOutstanding_eq _ _).trans (hyes hany).symm)
    refine ⟨fun ho => ?_, fun ho z hz => ?_⟩
    · have hassign := assign_of_refused h hy ho
      exact ⟨hassign, by rw [hassign]; exact offerNote_changeover _ _ _⟩
    · rw [assign_of_accepted h hy ho, joinPort_eq, hz]
      rfl

end Sys2Proof.Proofs.ChangeTables
end

section
/-! The click unit (chapter 5): when a channel sounds, what it enqueues, its gates, and the note-offs that wait for room. -/

namespace Sys2Proof.Proofs.Clicks

open Sys2Proof.Machine Sys2Proof.Laws Sys2Proof.Proofs.Effects

/-! ### When a channel sounds (R95) -/

theorem admits_iff (m : ClickMode) (t : TransportMode) : m.admits t = true ↔
    m = .always ∧ (t = .countIn ∨ t = .running) ∨ m = .countInOnly ∧ t = .countIn ∨ m = .runningOnly ∧ t = .running := by
  cases m <;> cases t <;> decide

section
variable {step len : Nat} {sub : Subdivision}

theorem clickPosition_accent : clickPosition step len sub = some .accent ↔ step = 0 := by
  unfold clickPosition
  split
  · rename_i h
    exact ⟨fun _ => h, fun _ => rfl⟩
  · rename_i h
    refine ⟨fun hsome => ?_, fun h0 => absurd h0 h⟩
    split at hsome
    · exact nomatch hsome
    · split at hsome
      · exact nomatch hsome
      · split at hsome <;> exact nomatch hsome

theorem clickPosition_beat : clickPosition step len sub = some .beat ↔ step ≠ 0 ∧ step % len = 0 := by
  unfold clickPosition
  split
  · rename_i h
    exact ⟨nofun, fun hbeat => absurd h hbeat.1⟩
  · rename_i hstep
    split
    · rename_i h
      exact ⟨fun _ => ⟨hstep, h⟩, fun _ => rfl⟩
    · rename_i h
      refine ⟨fun hsome => ?_, fun hbeat => absurd hbeat.2 h⟩
      split at hsome
      · exact nomatch hsome
      · split at hsome <;> exact nomatch hsome

theorem interval_iff (n : Nat) : sub.interval = some n ↔
    sub = .eighth ∧ n = 48 ∨ sub = .sixteenth ∧ n = 24 ∨ sub = .triplet ∧ n = 32 := by
  cases sub <;> simp [Subdivision.interval, eq_comm]

theorem clickPosition_sub : clickPosition step len sub = some .sub ↔
    step % len ≠ 0 ∧ ∃ n, sub.interval = some n ∧ step % len % n = 0 := by
  unfold clickPosition
  split
  · rename_i h
    exact ⟨nofun, fun hsub => absurd (by rw [h, Nat.zero_mod]) hsub.1⟩
  · split
    · rename_i h
      exact ⟨nofun, fun hsub => absurd h hsub.1⟩
    · rename_i h
      split
      · rename_i hnone
        rw [hnone]
        exact ⟨nofun, fun ⟨_, _, hsome, _⟩ => nomatch hsome⟩
      · rename_i n hn
        rw [hn]
        split
        · rename_i hz
          exact ⟨fun _ => ⟨h, n, rfl, hz⟩, fun _ => rfl⟩
        · rename_i hz
          exact ⟨nofun, fun ⟨_, _, hsome, hz'⟩ => absurd (Option.some.inj hsome ▸ hz') hz⟩

end

/-- A channel sounds where its mode, the step and its level say so (R95). -/
theorem soundsAt_iff (x : ClickChannel) (t : TransportState) (k : ClickPosition) : x.soundsAt t = some k ↔
    x.mode.admits t.mode = true ∧ clickPosition t.step t.beatLength x.subdivision = some k ∧ 0 < x.level k := by
  unfold ClickChannel.soundsAt
  split
  · rename_i hmode
    split
    · rename_i k' hk
      split
      · rename_i hlevel
        refine ⟨fun h => ⟨hmode, h ▸ hk, Option.some.inj h ▸ hlevel⟩, fun ⟨_, h, _⟩ => hk.symm.trans h⟩
      · rename_i hlevel
        exact ⟨nofun, fun ⟨_, h, hl⟩ => absurd (Option.some.inj (hk.symm.trans h) ▸ hl) hlevel⟩
    · rename_i hk
      exact ⟨nofun, fun ⟨_, h, _⟩ => nomatch hk.symm.trans h⟩
  · rename_i hmode
    exact ⟨nofun, fun h => absurd h.1 hmode⟩

/-! ### What a click enqueues (R96) -/

section
variable {p : Port} {c : Chan} {n : Nat} {s : State}

theorem isFor_iff (r : ClickOff) : r.isFor p c n = true ↔ r.port = p ∧ r.chan = c ∧ r.note = n := decide_eq_true_iff

theorem offFor_some {r : ClickOff} (h : s.offFor p c n = some r) : r.port = p ∧ r.chan = c ∧ r.note = n :=
  (isFor_iff r).mp (by simpa using List.find?_some h)

theorem cutShort_of_none (h : s.offFor p c n = none) : cutShort p c n s = s := by rw [cutShort, h]

theorem cutShort_of_some {r : ClickOff} (h : s.offFor p c n = some r) : cutShort p c n s = offerOff r s := by rw [cutShort, h]

theorem clickRoom_iff {q : PortState} : q.clickRoom = true ↔ q.clickLane.length < 8 := decide_eq_true_iff

theorem enqueueClick_last {q : PortState} {e : ClickEntry} (h : ∀ x ∈ q.clickLane, x.due ≤ e.due) :
    q.enqueueClick e = { q with clickLane := q.clickLane ++ [e] } := by
  rw [PortState.enqueueClick, insert_last e _ h]

/-- The NOTE_OFF of a pending record, as a lane with room takes it. -/
abbrev offEntry (c : Chan) (n : Nat) (now : Nat) : ClickEntry := { on := false, chan := c, note := n, velocity := 64, due := now }

/-- The records of other notes. -/
abbrev otherOffs (p : Port) (c : Chan) (n : Nat) (xs : List ClickOff) : List ClickOff :=
  xs.filter (fun r => decide (¬ (r.port = p ∧ r.chan = c ∧ r.note = n)))

theorem offerOff_of_room {r : ClickOff} (h : s.offFor p c n = some r) (hroom : (s.port p).clickLane.length < 8)
    (hdue : ∀ e ∈ (s.port p).clickLane, e.due ≤ s.now) : offerOff r s =
      (s.setPort p { s.port p with clickLane := (s.port p).clickLane ++ [offEntry c n s.now] }).setOffs
        (otherOffs p c n s.click.offs) := by
  obtain ⟨rfl, rfl, rfl⟩ := offFor_some h
  rw [offerOff, if_pos (clickRoom_iff.mpr hroom), enqueueClick_last hdue]
  refine congrArg _ (List.filter_congr fun x _ => ?_)
  rw [ClickOff.isFor, decide_not]

theorem offerOff_of_full {r : ClickOff} (h : s.offFor p c n = some r) (hfull : 8 ≤ (s.port p).clickLane.length) : offerOff r s =
    s.setOffs (s.click.offs.map (fun x => if x.port = p ∧ x.chan = c ∧ x.note = n then { x with waiting := true } else x)) := by
  obtain ⟨rfl, rfl, rfl⟩ := offFor_some h
  rw [offerOff, if_neg (mt clickRoom_iff.mp (Nat.not_lt.mpr hfull))]
  exact congrArg _ (List.map_congr_left fun x _ => if_congr (isFor_iff x) rfl rfl)

theorem enqueueOn_of_room {v g : Nat} (hroom : (s.port p).clickLane.length < 8)
    (hdue : ∀ e ∈ (s.port p).clickLane, e.due ≤ s.now) : enqueueOn p c n v g s =
      (s.setPort p { s.port p with clickLane := (s.port p).clickLane ++
        [{ on := true, chan := c, note := n, velocity := v, due := s.now }] }).setOffs
        (s.click.offs ++ [{ port := p, chan := c, note := n, due := s.now + g * 1000, waiting := false }]) := by
  rw [enqueueOn, if_pos (clickRoom_iff.mpr hroom), enqueueClick_last hdue]

theorem enqueueOn_of_full {v g : Nat} (hfull : 8 ≤ (s.port p).clickLane.length) : enqueueOn p c n v g s =
    s.setPort p { s.port p with clickDrop := min ((s.port p).clickDrop + 1) 65535 } :=
  if_neg (mt clickRoom_iff.mp (Nat.not_lt.mpr hfull))

end

theorem port_setOffs (s : State) (xs : List ClickOff) (p : Port) : (s.setOffs xs).port p = s.port p := rfl

theorem setPort_setOffs (s : State) (xs : List ClickOff) (p : Port) (x : PortState) :
    (s.setOffs xs).setPort p x = (s.setPort p x).setOffs xs := rfl

theorem setOffs_setOffs (s : State) (xs ys : List ClickOff) : (s.setOffs xs).setOffs ys = s.setOffs ys := rfl

/-! ### Note-offs that wait for room (R161) -/

/-- The records of a port that wait, in the order of their due times. -/
def Waits (p : Port) (xs : List ClickOff) (ws : List ClickOff) : Prop :=
  (∀ r, r ∈ ws ↔ r ∈ xs ∧ r.port = p ∧ r.waiting = true) ∧ ws.Pairwise (fun a b => a.due < b.due)

/-- The earliest record that waits. -/
abbrev nextOff (p : Port) (s : State) : Option ClickOff :=
  earliest (fun r => r.due) (s.click.offs.filter (fun r => decide (r.port = p) && r.waiting))

section
variable {p : Port} {s : State} {ws : List ClickOff}

theorem mem_waiting (r : ClickOff) : r ∈ s.click.offs.filter (fun r => decide (r.port = p) && r.waiting) ↔
    r ∈ s.click.offs ∧ r.port = p ∧ r.waiting = true := by
  rw [List.mem_filter, Bool.and_eq_true, decide_eq_true_iff]

theorem nextOff_of_nil (h : Waits p s.click.offs []) : nextOff p s = none := by
  refine (earliest_none _ _).mpr (List.eq_nil_iff_forall_not_mem.mpr fun r hr => ?_)
  exact absurd ((h.1 r).mpr ((mem_waiting r).mp hr)) List.not_mem_nil

theorem nextOff_of_cons {w : ClickOff} (h : Waits p s.click.offs (w :: ws)) : nextOff p s = some w := by
  obtain ⟨hmem, hsorted⟩ := h
  have hin : ∀ r, r ∈ s.click.offs.filter (fun r => decide (r.port = p) && r.waiting) ↔ r ∈ w :: ws := fun r =>
    (mem_waiting r).trans (hmem r).symm
  rcases hy : nextOff p s with _ | y
  · rw [earliest_none] at hy
    exact absurd ((hin w).mpr List.mem_cons_self) (by rw [hy]; exact List.not_mem_nil)
  · obtain ⟨hy1, hleast⟩ := earliest_some _ _ _ hy
    rcases List.mem_cons.mp ((hin y).mp hy1) with rfl | htail
    · rfl
    · have hle := hleast w ((hin w).mpr List.mem_cons_self)
      have hlt := List.rel_of_pairwise_cons hsorted htail
      exact absurd hle (Nat.not_le.mpr hlt)

theorem placeWaiting_of_none {n : Nat} (h : nextOff p s = none) : placeWaiting p n s = s := by
  unfold nextOff at h
  cases n with
  | zero => rfl
  | succ n => rw [placeWaiting, h]

theorem placeWaiting_of_full {n : Nat} (h : 8 ≤ (s.port p).clickLane.length) : placeWaiting p n s = s := by
  cases n with
  | zero => rfl
  | succ n =>
    unfold placeWaiting
    split
    · rfl
    · exact if_neg (mt clickRoom_iff.mp (Nat.not_lt.mpr h))

theorem placeWaiting_of_room {n : Nat} {w : ClickOff} (h : nextOff p s = some w) (hroom : (s.port p).clickLane.length < 8)
    (hdue : ∀ e ∈ (s.port p).clickLane, e.due ≤ s.now) : placeWaiting p (n + 1) s = placeWaiting p n ((s.setPort p
      { s.port p with clickLane := (s.port p).clickLane ++ [offEntry w.chan w.note s.now] }).setOffs
      (s.click.offs.filter (fun x => decide (x ≠ w)))) := by
  have hlast : ∀ x ∈ (s.port p).clickLane, x.due ≤ (offEntry w.chan w.note s.now).due := hdue
  unfold nextOff at h
  rw [placeWaiting, h, ← enqueueClick_last hlast]
  exact if_pos (clickRoom_iff.mpr hroom)

theorem waits_tail {w : ClickOff} {xs : List ClickOff} (h : Waits p xs (w :: ws)) :
    Waits p (xs.filter (fun x => decide (x ≠ w))) ws := by
  obtain ⟨hmem, hsorted⟩ := h
  have hw : w ∉ ws := fun h => absurd (List.rel_of_pairwise_cons hsorted h) (Nat.lt_irrefl _)
  refine ⟨fun r => ?_, hsorted.of_cons⟩
  rw [List.mem_filter, decide_eq_true_iff]
  constructor
  · intro hr
    obtain ⟨h1, h2⟩ := (hmem r).mp (List.mem_cons_of_mem _ hr)
    exact ⟨⟨h1, fun he => hw (he ▸ hr)⟩, h2⟩
  · rintro ⟨⟨h1, hne⟩, h2⟩
    exact (List.mem_cons.mp ((hmem r).mpr ⟨h1, h2⟩)).resolve_left hne

end

/-- The entries of the records that are placed. -/
abbrev offEntries (now : Nat) (rs : List ClickOff) : List ClickEntry := rs.map fun r => offEntry r.chan r.note now

/-- As many records as the lane has room for are placed, the earliest first (R161). -/
theorem placeWaiting_spec {p : Port} : ∀ (n : Nat) (s : State) (ws : List ClickOff), Waits p s.click.offs ws → ws.length ≤ n →
    (∀ e ∈ (s.port p).clickLane, e.due ≤ s.now) → ∀ placed, placed = ws.take (8 - (s.port p).clickLane.length) →
      (placeWaiting p n s).port p = { s.port p with clickLane := (s.port p).clickLane ++ offEntries s.now placed } ∧
      ∀ r, r ∈ (placeWaiting p n s).click.offs ↔ r ∈ s.click.offs ∧ r ∉ placed
  | 0, s, ws, _, hn, _, placed, hp => by
    obtain rfl := List.length_eq_zero_iff.mp (Nat.le_zero.mp hn)
    obtain rfl := hp.trans List.take_nil
    exact ⟨by simp [placeWaiting], fun r => by simp [placeWaiting]⟩
  | n + 1, s, [], h, _, _, placed, hp => by
    obtain rfl := hp.trans List.take_nil
    rw [placeWaiting_of_none (nextOff_of_nil h)]
    exact ⟨by simp, fun r => by simp⟩
  | n + 1, s, w :: ws, h, hn, hdue, placed, hp => by
    have hnext := nextOff_of_cons h
    by_cases hroom : (s.port p).clickLane.length < 8
    · have hstep := placeWaiting_of_room (n := n) hnext hroom hdue
      obtain ⟨m, hm⟩ : ∃ m, 8 - (s.port p).clickLane.length = m + 1 := ⟨7 - (s.port p).clickLane.length, by omega⟩
      rw [hm, List.take_succ_cons] at hp
      have hport : (s.setPort p { s.port p with clickLane := (s.port p).clickLane ++ [offEntry w.chan w.note s.now] }).port p =
          { s.port p with clickLane := (s.port p).clickLane ++ [offEntry w.chan w.note s.now] } := port_setPort _ _ _
      have ih := placeWaiting_spec (p := p) n ((s.setPort p
          { s.port p with clickLane := (s.port p).clickLane ++ [offEntry w.chan w.note s.now] }).setOffs
          (s.click.offs.filter (fun x => decide (x ≠ w)))) ws (waits_tail h) (by simpa using hn) ?_ (ws.take m) ?_
      · rw [hstep]
        obtain ⟨ih1, ih2⟩ := ih
        rw [port_setOffs, hport] at ih1
        refine ⟨ih1.trans ?_, fun r => (ih2 r).trans ?_⟩
        · rw [hp]
          simp [offEntries]
        · show r ∈ s.click.offs.filter (fun x => decide (x ≠ w)) ∧ r ∉ ws.take m ↔ _
          rw [hp, List.mem_filter, decide_eq_true_iff, List.mem_cons, not_or, and_assoc]
      · rw [port_setOffs, hport]
        intro e he
        rcases List.mem_append.mp he with he | he
        · exact hdue e he
        · rw [List.mem_singleton.mp he]
          exact Nat.le_refl _
      · rw [port_setOffs, hport]
        refine congrArg (fun k => ws.take k) ?_
        show m = 8 - ((s.port p).clickLane ++ [_]).length
        rw [List.length_append, List.length_singleton]
        omega
    · have hzero : 8 - (s.port p).clickLane.length = 0 := by omega
      rw [hzero, List.take_zero] at hp
      subst hp
      rw [placeWaiting_of_full (by omega)]
      exact ⟨by simp, fun r => by simp⟩

/-! ### The ports at the end of a command -/

/-- A port, the timebase and the records of the port are as they were. -/
structure Untouched (p : Port) (s u : State) : Prop where
  port : u.port p = s.port p
  now : u.now = s.now
  offs : ∀ r : ClickOff, r.port = p → (r ∈ u.click.offs ↔ r ∈ s.click.offs)

theorem untouched_refl (p : Port) (s : State) : Untouched p s s := ⟨rfl, rfl, fun _ _ => Iff.rfl⟩

theorem untouched_trans {p : Port} {s t u : State} (h : Untouched p s t) (k : Untouched p t u) : Untouched p s u :=
  ⟨k.port.trans h.port, k.now.trans h.now, fun r hr => (k.offs r hr).trans (h.offs r hr)⟩

theorem placeWaiting_offs {q p : Port} (h : p ≠ q) {r : ClickOff} (hr : r.port = p) : ∀ (n : Nat) (s : State),
    r ∈ (placeWaiting q n s).click.offs ↔ r ∈ s.click.offs
  | 0, _ => Iff.rfl
  | n + 1, s => by
    unfold placeWaiting
    split
    · exact Iff.rfl
    · rename_i w hw
      split
      · refine (placeWaiting_offs h hr n _).trans ?_
        show r ∈ s.click.offs.filter (fun x => decide (x ≠ w)) ↔ _
        have hport := ((mem_waiting w).mp (earliest_mem _ hw)).2.1
        rw [List.mem_filter, decide_eq_true_iff]
        exact and_iff_left fun he => h (by rw [← hr, he, hport])
      · exact Iff.rfl

theorem kickPort_untouched {q p : Port} (h : p ≠ q) (s : State) : Untouched p s (kickPort q s) := by
  refine ⟨kickPort_ne q p h s, kickPort_now q s, fun r hr => ?_⟩
  unfold kickPort
  split
  · exact placeWaiting_offs h hr _ _
  · exact Iff.rfl

theorem kicks_untouched {p : Port} (ps : List Port) : ∀ s, p ∉ ps → Untouched p s (ps.foldl (fun s p => kickPort p s) s) := by
  induction ps with
  | nil => exact fun s _ => untouched_refl p s
  | cons q ps ih =>
    intro s hp
    obtain ⟨hq, hps⟩ := not_or.mp (mt List.mem_cons.mpr hp)
    exact untouched_trans (kickPort_untouched hq s) (ih _ hps)

/-- At the end of a command a port meets its own choice alone (R158). -/
theorem kickPorts_at (p : Port) {s : State} (h : s.init = none) :
    ∃ u, Untouched p s u ∧ Untouched p (kickPort p u) (kickPorts s) := by
  obtain ⟨as, bs, hall⟩ := List.append_of_mem (Resets.mem_allPorts p)
  have hnodup : (as ++ p :: bs).Nodup := hall ▸ (by decide : allPorts.Nodup)
  obtain ⟨-, hcons, hdisj⟩ := List.nodup_append.mp hnodup
  have has : p ∉ as := fun hp => hdisj p hp p List.mem_cons_self rfl
  have hbs : p ∉ bs := (List.nodup_cons.mp hcons).1
  refine ⟨_, kicks_untouched as s has, ?_⟩
  rw [kickPorts, if_neg (by rw [h]; exact nofun), hall, List.foldl_append, List.foldl_cons]
  exact kicks_untouched bs _ hbs

theorem finish_port (s : State) (p : Port) : (finish s).port p = (kickPorts s).port p := by
  rw [finish, startIdle_port, startIdle_port]

theorem finish_click (s : State) : (finish s).click = (kickPorts s).click := rfl

/-- A CLICK entry that begins makes room for the records that wait, the earliest due first (R161). -/
theorem kickPorts_of_click {p : Port} {s : State} {q : PortState} {ws : List ClickOff} (hi : s.init = none)
    (hq : (s.port p).choose s.now = (q, true)) (hw : Waits p s.click.offs ws) (hdue : ∀ e ∈ q.clickLane, e.due ≤ s.now) :
    (kickPorts s).port p = { q with clickLane := q.clickLane ++ offEntries s.now (ws.take (8 - q.clickLane.length)) } ∧
    ∀ r, r.port = p → (r ∈ (kickPorts s).click.offs ↔ r ∈ s.click.offs ∧ r ∉ ws.take (8 - q.clickLane.length)) := by
  obtain ⟨u, hbefore, hafter⟩ := kickPorts_at p hi
  have hchoice : (u.port p).choose u.now = (q, true) := by rw [hbefore.port, hbefore.now, hq]
  have hkick : kickPort p u = placeWaiting p u.click.offs.length (u.setPort p q) := by
    rw [kickPort, hchoice]
    exact if_pos rfl
  have hwaits : Waits p u.click.offs ws := by
    refine ⟨fun r => (hw.1 r).trans ?_, hw.2⟩
    constructor
    · exact fun ⟨h1, h2, h3⟩ => ⟨(hbefore.offs r h2).mpr h1, h2, h3⟩
    · exact fun ⟨h1, h2, h3⟩ => ⟨(hbefore.offs r h2).mp h1, h2, h3⟩
  have hnodup : ws.Nodup := hw.2.imp fun {a b} (h : a.due < b.due) (he : a = b) => Nat.lt_irrefl _ (he ▸ h)
  have hlen : ws.length ≤ u.click.offs.length := (hnodup.subperm fun r hr => ((hwaits.1 r).mp hr).1).length_le
  have hport : (u.setPort p q).port p = q := port_setPort _ _ _
  obtain ⟨h1, h2⟩ := placeWaiting_spec (p := p) u.click.offs.length (u.setPort p q) ws hwaits hlen
    (by rw [hport]; exact fun e he => hbefore.now ▸ hdue e he) _ rfl
  rw [hport] at h1 h2
  rw [← hkick] at h1 h2
  refine ⟨hafter.port.trans (h1.trans ?_), fun r hr => ((hafter.offs r hr).trans (h2 r)).trans ?_⟩
  · show ({ q with clickLane := q.clickLane ++ offEntries u.now _ } : PortState) = _
    rw [hbefore.now]
  · exact and_congr_left fun _ => hbefore.offs r hr

/-! ### The gate of a click (R96) -/

section
variable {p : Port} {c : Chan} {n : Nat} {s : State}

theorem gateExpiry_of_none (h : s.offFor p c n = none) : gateExpiry p c n s = s := by rw [gateExpiry, h]

theorem gateExpiry_of_waiting {r : ClickOff} (h : s.offFor p c n = some r) (hw : r.waiting = true) : gateExpiry p c n s = s := by
  rw [gateExpiry, h]
  exact if_pos hw

theorem gateExpiry_of_running {r : ClickOff} (h : s.offFor p c n = some r) (hw : r.waiting = false) :
    gateExpiry p c n s = offerOff r (s.reach r.due) := by
  rw [gateExpiry, h]
  exact if_neg (by rw [hw]; exact nofun)

end

/-- Settles O58: a record that is cut short meets the lane before the NOTE_ON does. -/
theorem clickTable : Obligations.ClickTable := by
  unfold Obligations.ClickTable
  refine ⟨fun x t k => ?_, fun s => ⟨clickChannelStep, fun n u h => ?_, fun n u k h => ?_, rfl⟩,
    fun x k s q hq note level hk hdue on off hon hoff new hnew => ?_, fun p ch note s => ⟨fun h => ?_, fun r hr => ⟨fun hw => ?_,
      fun n hn hw hat => ?_⟩⟩, fun p s q ws hi hq hmem hsorted hdue placed hplaced => ?_⟩
  · rw [soundsAt_iff, admits_iff]
    refine and_congr_right fun _ => ?_
    cases k with
    | accent => exact and_congr_left fun _ => clickPosition_accent
    | beat => exact (and_congr_left fun _ => clickPosition_beat).trans and_assoc
    | sub =>
      rw [clickPosition_sub]
      simp only [interval_iff, or_and_right, exists_or, and_assoc, exists_and_left, exists_eq_left]
      refine and_congr_right fun _ => ?_
      simp only [← and_assoc, ← or_and_right]
      exact and_comm
  · rw [clickChannelStep, h]
  · rw [clickChannelStep, h]
  · obtain ⟨hnote, hlevel⟩ : note = x.note k ∧ level = x.level k := by
      cases k <;> exact Prod.mk.injEq .. ▸ hk
    subst hnote hlevel hq hon hoff hnew
    refine ⟨fun hnone => ?_, fun hsome rest hrest => ?_⟩
    · rw [soundClick, cutShort_of_none hnone]
      exact ⟨fun hroom => enqueueOn_of_room hroom hdue, fun hfull => enqueueOn_of_full hfull⟩
    · obtain ⟨r, hr⟩ := Option.ne_none_iff_exists'.mp hsome
      rw [soundClick, cutShort_of_some hr, hrest]
      have hoffed := fun hroom => offerOff_of_room hr hroom hdue
      refine ⟨fun hroom => ?_, fun hseven => ?_, fun hfull => ?_⟩
      · rw [hoffed (by omega), enqueueOn_of_room]
        · rw [port_setOffs, port_setPort, setPort_setOffs, setPort_setPort, setOffs_setOffs, List.append_assoc]
          rfl
        · rw [port_setOffs, port_setPort]
          simp only [List.length_append, List.length_singleton]
          omega
        · rw [port_setOffs, port_setPort]
          rintro e he
          rcases List.mem_append.mp he with he | he
          · exact hdue e he
          · rw [List.mem_singleton.mp he]
            exact Nat.le_refl s.now
      · rw [hoffed (by omega), enqueueOn_of_full]
        · rw [port_setOffs, port_setPort, setPort_setOffs, setPort_setPort]
        · rw [port_setOffs, port_setPort]
          simp [hseven]
      · rw [offerOff_of_full hr hfull]
        exact enqueueOn_of_full (s := s.setOffs _) hfull
  · rw [exec_of_undue (c := .clickGateExpiry p ch note) (by simp [dueOf, h])]
    exact congrArg (fun u => Host.Outcome.next (finish u)) (gateExpiry_of_none h)
  · rw [exec_of_undue (c := .clickGateExpiry p ch note) (by simp [dueOf, hr, hw])]
    exact congrArg (fun u => Host.Outcome.next (finish u)) (gateExpiry_of_waiting hr hw)
  · have hexec := exec_of_at (c := .clickGateExpiry p ch note) (s := s) (d := r.due) (by simp [dueOf, hr, hw]) hat
    have heffect : effect (.clickGateExpiry p ch note) s = offerOff r { s with now := n } := by
      rw [hn]
      exact gateExpiry_of_running hr hw
    rw [heffect] at hexec
    refine ⟨fun hroom hdue => hexec.trans ?_, fun hfull => hexec.trans ?_⟩
    · exact congrArg (fun u => Host.Outcome.next (finish u)) (offerOff_of_room (s := { s with now := n }) hr hroom hdue)
    · exact congrArg (fun u => Host.Outcome.next (finish u)) (offerOff_of_full (s := { s with now := n }) hr hfull)
  · obtain ⟨h1, h2⟩ := kickPorts_of_click hi hq ⟨hmem, hsorted⟩ hdue
    rw [← hplaced] at h1 h2
    exact ⟨h1, finish_port s p, h2⟩

end Sys2Proof.Proofs.Clicks
end

section
/-! The output schedulers (chapter 9): merge slots at placement, the choice of a transmitter, the bytes of a grant, and the end of an
item. -/

namespace Sys2Proof.Proofs.Outputs

open Sys2Proof.Machine Sys2Proof.Laws Sys2Proof.Proofs.Effects Sys2Proof.Proofs.Lanes

/-! ### The one entry of a list that a key names -/

section
variable {α : Type}

/-- The first element of least measure, the list parted at it. -/
theorem earliest_split (f : α → Nat) {as bs : List α} {m : α} (ha : ∀ y ∈ as, f m < f y) (hb : ∀ y ∈ bs, f m ≤ f y) :
    earliest f (as ++ m :: bs) = some m := by
  induction as with
  | nil =>
    show earliest f (m :: bs) = some m
    rw [earliest]
    split
    · rfl
    · rename_i y hy
      exact if_pos (hb y (earliest_mem f hy))
  | cons a as ih =>
    have hrest := ih fun y hy => ha y (List.mem_cons_of_mem a hy)
    rw [List.cons_append, earliest, hrest]
    exact if_neg (Nat.not_le.mpr (ha a List.mem_cons_self))

/-- The same of the elements that pass a test. -/
theorem earliest_filter (f : α → Nat) (q : α → Bool) {as bs : List α} {m : α} (hm : q m = true)
    (ha : ∀ y ∈ as, q y = true → f m < f y) (hb : ∀ y ∈ bs, q y = true → f m ≤ f y) :
    earliest f ((as ++ m :: bs).filter q) = some m := by
  rw [List.filter_append, List.filter_cons_of_pos hm]
  exact earliest_split f (fun y hy => ha y (List.mem_of_mem_filter hy) (List.of_mem_filter hy))
    fun y hy => hb y (List.mem_of_mem_filter hy) (List.of_mem_filter hy)

end

section
variable {as bs : List MergeSlot} {m : MergeSlot}

theorem map_keyed (f : MergeSlot → MergeSlot) (h : ∀ y ∈ as ++ bs, y.key ≠ m.key) :
    (as ++ m :: bs).map (fun x => if x.key = m.key then f x else x) = as ++ f m :: bs := by
  have hkeep : ∀ xs : List MergeSlot, (∀ y ∈ xs, y.key ≠ m.key) → xs.map (fun x => if x.key = m.key then f x else x) = xs :=
    fun xs hxs => (List.map_congr_left fun y hy => if_neg (hxs y hy)).trans (List.map_id xs)
  rw [List.map_append, List.map_cons, if_pos rfl, hkeep as fun y hy => h y (List.mem_append_left _ hy),
    hkeep bs fun y hy => h y (List.mem_append_right _ hy)]

theorem filter_keyed (h : ∀ y ∈ as ++ bs, y.key ≠ m.key) :
    (as ++ m :: bs).filter (fun x => decide (x.key ≠ m.key)) = as ++ bs := by
  rw [List.filter_append, List.filter_cons_of_neg (by simp), ← List.filter_append]
  exact List.filter_eq_self.mpr fun y hy => decide_eq_true (h y hy)

theorem find_keyed (h : ∀ y ∈ as ++ bs, y.key ≠ m.key) : (as ++ m :: bs).find? (fun x => decide (x.key = m.key)) = some m := by
  have hnone : as.find? (fun x => decide (x.key = m.key)) = none :=
    List.find?_eq_none.mpr fun y hy => by simpa using h y (List.mem_append_left _ hy)
  rw [List.find?_append, hnone, Option.none_or, List.find?_cons_of_pos (by simp)]

end

/-! ### The placing of a value (R166, R167) -/

section
variable {q : PortState} {now v : Nat} {key : MergeKey} {as bs : List MergeSlot} {m : MergeSlot}

theorem elapsed_iff (m : MergeSlot) (i now : Nat) : m.elapsed i now = true ↔ ∀ e, m.sent = some e → e + i * 1000 ≤ now := by
  unfold MergeSlot.elapsed
  split
  · rename_i h
    rw [h]
    exact ⟨fun _ _ => nofun, fun _ => rfl⟩
  · rename_i t h
    rw [h, decide_eq_true_iff]
    exact ⟨fun hle e he => Option.some.inj he ▸ hle, fun hall => hall t rfl⟩

theorem place_of_waiting (hs : q.slots = as ++ m :: bs) (h : ∀ y ∈ as ++ bs, y.key ≠ m.key) (hw : m.waits = true) :
    q.place now m.key v = { q with slots := as ++ m.overwrite v now :: bs } := by
  rw [PortState.place, hs, find_keyed h]
  dsimp only
  rw [if_pos hw, map_keyed (fun x => x.overwrite v now) h]

theorem place_of_resting (hs : q.slots = as ++ m :: bs) (h : ∀ y ∈ as ++ bs, y.key ≠ m.key) (hw : m.waits = false) :
    q.place now m.key v = { q with slots := as ++ bs ++ [m.overwrite v now] } := by
  rw [PortState.place, hs, find_keyed h]
  dsimp only
  rw [if_neg (by rw [hw]; exact nofun), filter_keyed h]

theorem find_of_new (h : ∀ y ∈ q.slots, y.key ≠ key) : q.slots.find? (fun x => decide (x.key = key)) = none :=
  List.find?_eq_none.mpr fun y hy => by simpa using h y hy

/-- A slot that a key has just come to (R166). -/
abbrev newSlot (key : MergeKey) (v now : Nat) : MergeSlot := { key, value := v, state := .dirty now, sent := none }

theorem place_of_room (h : ∀ y ∈ q.slots, y.key ≠ key) (hroom : q.slots.length < 24) :
    q.place now key v = { q with slots := q.slots ++ [newSlot key v now] } := by
  rw [PortState.place, find_of_new h]
  exact if_pos hroom

theorem place_of_none (h : ∀ y ∈ q.slots, y.key ≠ key) (hfull : 24 ≤ q.slots.length) (hr : q.reusable now = none) :
    q.place now key v = { q with mergeDrop := min (q.mergeDrop + 1) 65535 } := by
  rw [PortState.place, find_of_new h]
  dsimp only
  rw [if_neg (show ¬ q.slots.length < Config.slotMax from Nat.not_lt.mpr hfull), hr]
  rfl

theorem place_of_some (h : ∀ y ∈ q.slots, y.key ≠ key) (hfull : 24 ≤ q.slots.length) (hr : q.reusable now = some m) :
    q.place now key v = { q with slots := q.slots.filter (fun x => decide (x.key ≠ m.key)) ++ [newSlot key v now] } := by
  rw [PortState.place, find_of_new h]
  dsimp only
  rw [if_neg (show ¬ q.slots.length < Config.slotMax from Nat.not_lt.mpr hfull), hr]

theorem free_iff (y : MergeSlot) : (decide (y.state = .clean) && y.elapsed q.settings.interval now) = true ↔
    y.state = .clean ∧ ∀ e, y.sent = some e → e + q.settings.interval * 1000 ≤ now := by
  rw [Bool.and_eq_true, decide_eq_true_iff, elapsed_iff]

theorem reusable_of_none (h : ∀ y ∈ q.slots, ¬ (y.state = .clean ∧ ∀ e, y.sent = some e → e + q.settings.interval * 1000 ≤ now)) :
    q.reusable now = none :=
  (earliest_none _ _).mpr (List.filter_eq_nil_iff.mpr fun y hy hq => h y hy ((free_iff y).mp hq))

theorem dirtied_iff (y : MergeSlot) (a : Nat) : y.dirtied? = some a ↔ y.state = .dirty a := by
  unfold MergeSlot.dirtied?
  split
  · rename_i t h
    rw [h]
    simp
  · rename_i h
    exact ⟨nofun, fun hd => absurd hd (h a)⟩

/-- A slot that is dirty and whose interval has run out (R167). -/
theorem ready_iff (y : MergeSlot) : (y.dirtied?.isSome && y.elapsed q.settings.interval now) = true ↔
    ∃ a, y.state = .dirty a ∧ ∀ e, y.sent = some e → e + q.settings.interval * 1000 ≤ now := by
  rw [Bool.and_eq_true, elapsed_iff, Option.isSome_iff_exists]
  simp only [dirtied_iff, exists_and_right]

end

/-! ### The choice (R163, R164) -/

section
variable {q : PortState} {now : Nat}

theorem choose_of_busy (h : q.wire ≠ none) : q.choose now = (q, false) := if_pos (Option.isSome_iff_ne_none.mpr h)

theorem choose_of_realtime (h : q.wire = none) {b : RealTime} {bs : List RealTime} (hr : q.realtime = b :: bs) :
    q.choose now = (({ q with realtime := bs } : PortState).beginByte now b.byte, false) := by
  rw [PortState.choose, if_neg (by rw [h]; exact nofun), hr]

theorem choose_of_message (h : q.wire = none) (hr : q.realtime = []) {e : InProgress} {m : Message} {ms : List Message}
    (he : q.entry = some e) (hl : e.left = m :: ms) : q.choose now = (q.beginMessage now m { e with left := ms }, false) := by
  rw [PortState.choose, if_neg (by rw [h]; exact nofun), hr]
  dsimp only
  rw [he]
  dsimp only
  rw [hl]

theorem choose_of_item (h : q.wire = none) (hr : q.realtime = []) (he : ∀ e, q.entry = some e → e.left = []) :
    q.choose now = q.chooseItem now := by
  rw [PortState.choose, if_neg (by rw [h]; exact nofun), hr]
  dsimp only
  split
  · rename_i e hsome
    rw [he e hsome]
  · rfl

theorem chooseItem_of_due {e : ClickEntry} {es : List ClickEntry} (h : q.clickLane = e :: es) (hd : e.due ≤ now) :
    q.chooseItem now = (q.grantClick now e es, true) := by
  rw [PortState.chooseItem, h]
  exact if_pos hd

theorem chooseItem_of_later (h : ∀ e es, q.clickLane = e :: es → now < e.due) : q.chooseItem now = (q.chooseLane now, false) := by
  unfold PortState.chooseItem
  split
  · rename_i e es he
    exact if_neg (Nat.not_le.mpr (h e es he))
  · rfl

theorem chooseLane_of_none (hs : q.nextSlot now = none) :
    q.chooseLane now = if q.noteEligible then q.grantNote now else q := by rw [PortState.chooseLane, hs]

theorem chooseLane_of_some {m : MergeSlot} (hs : q.nextSlot now = some m) :
    q.chooseLane now = if q.noteEligible && q.noteFirst then q.grantNote now else q.grantControl now m := by
  rw [PortState.chooseLane, hs]

theorem noteFirst_of_round (h : q.settings.laneMode = .round) : q.noteFirst = decide (q.lastGrant ≠ some .note) := by
  rw [PortState.noteFirst, h]

theorem noteFirst_of_weight (h : q.settings.laneMode = .noteFirst) : q.noteFirst = decide (q.grantCount < q.settings.weight) := by
  rw [PortState.noteFirst, h]

theorem noteEligible_iff : q.noteEligible = true ↔ q.noteLane ≠ [] ∧ (q.settings.policy = .hold → q.settleDue = none) := by
  unfold PortState.noteEligible
  rw [Bool.and_eq_true, Bool.not_eq_true', Bool.not_eq_true', Bool.and_eq_false_iff, decide_eq_false_iff_not,
    Option.isSome_eq_false_iff, Option.isNone_iff_eq_none, List.isEmpty_eq_false_iff]
  exact and_congr_right fun _ => imp_iff_not_or.symm

end

/-! ### The bytes of a grant (R162, R165, R167) -/

section
variable {q : PortState} {now : Nat}

theorem statusByte_eq {status : Nat → Chan → Byte} (h : ∀ k c, status k c = b1 (16 * k + c.val)) : status = statusByte :=
  funext fun k => funext fun c => by rw [h, statusByte, Nat.mul_comm]

theorem messageBytes_eq {bytes : Message → List Byte} (h : ∀ m, bytes m =
    if q.settings.runningStatus = true ∧ q.lastStatus = some m.status then m.data else m.status :: m.data) :
    bytes = q.messageBytes :=
  funext fun m => by
    rw [h, PortState.messageBytes]
    exact if_congr (by rw [Bool.and_eq_true, decide_eq_true_iff]) rfl rfl

theorem messages_program (c : Chan) (msb lsb : Option Nat) (g : Nat) : (NoteEntry.program c msb lsb g).messages =
    msb.toList.map (fun b => { status := statusByte 11 c, data := [0x00#8, b1 b] }) ++
    lsb.toList.map (fun b => { status := statusByte 11 c, data := [0x20#8, b1 b] }) ++
    [{ status := statusByte 12 c, data := [b1 g] }] := by
  cases msb <;> cases lsb <;> rfl

theorem lose_messageBytes (q : PortState) : q.lose.messageBytes = q.messageBytes := by
  rw [laneOnly_lose q]
  rfl

theorem grantNote_of_messages {n : NoteEntry} {ns : List NoteEntry} {m : Message} {ms : List Message} (h : q.noteLane = n :: ns)
    (hm : n.messages = m :: ms) : q.grantNote now =
      ({ q with noteLane := ns, lastGrant := some .note, grantCount := min (q.grantCount + 1) 16 } : PortState).lose.beginMessage
        now m { entry := .note n, left := ms, ofRecord := n.isProgram, emptyStatus := false } := by
  rw [PortState.grantNote, h]
  dsimp only
  rw [hm]

theorem grantControl_of_slot {as bs : List MergeSlot} {x : MergeSlot} (h : q.slots = as ++ x :: bs)
    (hk : ∀ y ∈ as ++ bs, y.key ≠ x.key) : q.grantControl now x =
      ({ q with slots := as ++ { x with state := .sending none } :: bs, lastGrant := some .control, grantCount := 0 } :
        PortState).beginMessage now (mergeMessage x.key x.value)
        { entry := .control x.key, left := [], ofRecord := false, emptyStatus := false } := by
  rw [PortState.grantControl, h, map_keyed (fun x => { x with state := .sending none }) hk]

end

/-! ### The end of what a port sends (R158, R165, R167, R169) -/

section
variable {q : PortState} {w : Wire} {n : Nat}

/-- The transmitter once the bytes on the wire have been sent (R158, R165, R168). -/
abbrev readied (q : PortState) (w : Wire) (n : Nat) : PortState := { q with
  wire := none
  lastStatus := if w.status.isSome then w.status else q.lastStatus
  keepAliveDue := if q.settings.keepAlive then some (n + 250000) else none }

theorem ending_of_single (h : w.status = none ∨ q.entry = none) : q.ending w = none := by
  unfold PortState.ending
  split
  · rename_i e he
    rcases h with h | h
    · rw [h]
      rfl
    · exact nomatch he.symm.trans h
  · rfl

theorem ending_of_more {e : InProgress} (he : q.entry = some e) (hl : e.left ≠ []) : q.ending w = none := by
  rw [PortState.ending, he]
  refine if_neg fun h => hl ?_
  exact List.isEmpty_iff.mp (Bool.and_eq_true _ _ ▸ h).2

theorem ending_of_last {e : InProgress} (hw : w.status.isSome = true) (he : q.entry = some e) (hl : e.left = []) :
    q.ending w = some e := by
  rw [PortState.ending, he]
  exact if_pos (by rw [hw, hl]; rfl)

theorem itemEnded_of_none (h : q.ending w = none) : q.itemEnded w n = readied q w n := by
  rw [PortState.itemEnded, h]
  rfl

theorem itemEnded_of_some {e : InProgress} (h : q.ending w = some e) : q.itemEnded w n = (readied q w n).entryEnded n e := by
  rw [PortState.itemEnded, h]
  rfl

theorem endsProgram_of_none (h : q.ending w = none) : q.endsProgram w = false := by rw [PortState.endsProgram, h]

theorem endsProgram_of_some {e : InProgress} (h : q.ending w = some e) : q.endsProgram w = e.reported := by
  rw [PortState.endsProgram, h]

theorem reported_of_note {e : InProgress} {k : NoteEntry} (h : e.entry = .note k) : e.reported = e.ofRecord := by
  rw [InProgress.reported, h]
  exact Bool.and_true _

theorem reported_of_click {e : InProgress} {k : ClickEntry} (h : e.entry = .click k) : e.reported = false := by
  rw [InProgress.reported, h]
  exact Bool.and_false _

theorem reported_of_control {e : InProgress} {k : MergeKey} (h : e.entry = .control k) : e.reported = false := by
  rw [InProgress.reported, h]
  exact Bool.and_false _

end

section
variable {p : Port} {s : State} {w : Wire}

theorem itemEnd_of_none (h : (s.port p).wire = none) : itemEnd p s = s := by rw [itemEnd, h]

theorem itemEnd_of_unreported (h : (s.port p).wire = some w) (hr : (s.port p).endsProgram w = false) : itemEnd p s =
    ({ s with now := max s.now w.ends } : State).setPort p ((s.port p).itemEnded w (max s.now w.ends)) := by
  rw [itemEnd, h]
  exact if_neg (by rw [show ((s.reach w.ends).port p).endsProgram w = false from hr]; exact nofun)

theorem itemEnd_of_reported (h : (s.port p).wire = some w) (hr : (s.port p).endsProgram w = true) : itemEnd p s =
    reportTransmitted p (decide (0 < (s.port p).settings.settleTime))
      (({ s with now := max s.now w.ends } : State).setPort p ((s.port p).itemEnded w (max s.now w.ends))) := by
  rw [itemEnd, h]
  exact if_pos hr

end

/-- The port with the entry that has ended, before its lane has its part (R165). -/
abbrev entryLeft (x : PortState) (e : InProgress) : PortState :=
  { x with entry := none, lastStatus := if e.emptyStatus then none else x.lastStatus }

section
variable {x : PortState} {n : Nat} {e : InProgress}

theorem entryEnded_of_click {k : ClickEntry} (h : e.entry = .click k) : x.entryEnded n e = entryLeft x e := by
  rw [PortState.entryEnded, h]

theorem entryEnded_of_control {k : MergeKey} (h : e.entry = .control k) : x.entryEnded n e =
    { entryLeft x e with slots := x.slots.map (fun m => if m.key = k then m.ended n else m) } := by
  rw [PortState.entryEnded, h]

theorem entryEnded_of_note {k : NoteEntry} (h : e.entry = .note k) (hs : e.ofRecord = false ∨ x.settings.settleTime = 0) :
    x.entryEnded n e = entryLeft x e := by
  rw [PortState.entryEnded, h]
  refine if_neg fun ⟨hrecord, htime⟩ => ?_
  rcases hs with hs | hs
  · exact absurd (hs.symm.trans hrecord) nofun
  · omega

theorem entryEnded_of_settle {k : NoteEntry} (h : e.entry = .note k) (hr : e.ofRecord = true) (hs : 0 < x.settings.settleTime) :
    x.entryEnded n e = { entryLeft x e with settleDue := some (n + x.settings.settleTime * 10000) } := by
  rw [PortState.entryEnded, h]
  exact if_pos ⟨hr, hs⟩

end

/-- The command OUTPUT_ITEM_END where no PROGRAM entry of the record has ended. -/
theorem exec_itemEnd {p : Port} {s : State} {w : Wire} {x : PortState} (hw : (s.port p).wire = some w) (hat : At w.ends s)
    (hr : (s.port p).endsProgram w = false) (hx : (s.port p).itemEnded w (max s.now w.ends) = x) :
    exec (.outputItemEnd p) s = .next (finish (({ s with now := max s.now w.ends } : State).setPort p x)) := by
  rw [exec_of_at (c := .outputItemEnd p) (s := s) (d := w.ends) (by simp [dueOf, hw]) hat, ← hx]
  exact congrArg (fun u => Host.Outcome.next (finish u)) (itemEnd_of_unreported hw hr)

/-- And where one has. -/
theorem exec_itemEnd_reported {p : Port} {s : State} {w : Wire} {x : PortState} (hw : (s.port p).wire = some w) (hat : At w.ends s)
    (hr : (s.port p).endsProgram w = true) (hx : (s.port p).itemEnded w (max s.now w.ends) = x) :
    exec (.outputItemEnd p) s = .next (finish (reportTransmitted p (decide (0 < (s.port p).settings.settleTime))
      (({ s with now := max s.now w.ends } : State).setPort p x))) := by
  rw [exec_of_at (c := .outputItemEnd p) (s := s) (d := w.ends) (by simp [dueOf, hw]) hat, ← hx]
  exact congrArg (fun u => Host.Outcome.next (finish u)) (itemEnd_of_reported hw hr)

/-- A merge slot whose message has been sent, by its state (R167). -/
theorem ended_of_dirtied {m : MergeSlot} {n a : Nat} (h : m.state = .sending (some a)) :
    m.ended n = { m with state := .dirty a, sent := some n } := by rw [MergeSlot.ended, h]

theorem ended_of_sent {m : MergeSlot} {n : Nat} (h : m.state = .sending none) :
    m.ended n = { m with state := .clean, sent := some n } := by rw [MergeSlot.ended, h]

theorem ended_of_other {m : MergeSlot} {n : Nat} (h : ∀ a, m.state ≠ .sending a) : m.ended n = m := by
  unfold MergeSlot.ended
  split
  · rename_i hm
    exact absurd hm (h _)
  · rename_i hm
    exact absurd hm (h _)
  · rfl

/-- The end of a command where a port begins no CLICK entry (R158). -/
theorem kickPorts_of_other {p : Port} {s : State} (hi : s.init = none) (h : ((s.port p).choose s.now).2 = false) :
    (kickPorts s).port p = ((s.port p).choose s.now).1 := by
  obtain ⟨u, hbefore, hafter⟩ := Clicks.kickPorts_at p hi
  have hu : (u.port p).choose u.now = (s.port p).choose s.now := by rw [hbefore.port, hbefore.now]
  rw [hafter.port, kickPort_eq p u (by rw [hu, h]), hu]

/-- Settles O59: choice, placing and end each by the branch the port takes. -/
theorem outputTable : Obligations.OutputTable := by
  unfold Obligations.OutputTable
  refine ⟨fun p s q hq => ⟨fun h => ?_, fun w n hw hn hat x hx t ht => ⟨fun h => ?_, fun e hst he => ⟨fun hl => ?_, fun hl y hy =>
      ⟨fun k hk => ?_, fun k hk => ⟨fun hr => ?_, fun hr hs => ?_, fun hr hs => ?_⟩, fun k hk => ?_⟩⟩⟩⟩, fun p s hi hc => ?_,
    fun q now => ⟨choose_of_busy, fun hw => ⟨fun b bs hr => choose_of_realtime hw hr, fun hr => ⟨?_, fun he => ?_⟩⟩⟩,
    fun q now key v => ⟨?_, ?_⟩, fun q now => ⟨noteEligible_iff, fun ready hready => ⟨?_, ?_⟩⟩,
    fun q now bytes hbytes status hstatus => ⟨?_, ?_, ?_⟩⟩
  · subst hq
    rw [exec_of_undue (c := .outputItemEnd p) (by simp [dueOf, h])]
    exact congrArg (fun u => Host.Outcome.next (finish u)) (itemEnd_of_none h)
  · subst hq hn
    have hnone := ending_of_single h
    rw [ht, hx]
    exact exec_itemEnd hw hat (endsProgram_of_none hnone) (itemEnded_of_none hnone)
  · subst hq hn
    have hnone := ending_of_more (w := w) he hl
    rw [ht, hx]
    exact exec_itemEnd hw hat (endsProgram_of_none hnone) (itemEnded_of_none hnone)
  · subst hq hn
    have hsome := ending_of_last hst he hl
    rw [ht, hy, hx]
    exact exec_itemEnd hw hat ((endsProgram_of_some hsome).trans (reported_of_click hk))
      ((itemEnded_of_some hsome).trans (entryEnded_of_click hk))
  · subst hq hn
    have hsome := ending_of_last hst he hl
    rw [ht, hy, hx]
    exact exec_itemEnd hw hat ((endsProgram_of_some hsome).trans ((reported_of_note hk).trans hr))
      ((itemEnded_of_some hsome).trans (entryEnded_of_note hk (.inl hr)))
  · subst hq hn
    have hsome := ending_of_last hst he hl
    rw [ht, hy, hx]
    have hexec := exec_itemEnd_reported hw hat ((endsProgram_of_some hsome).trans ((reported_of_note hk).trans hr))
      ((itemEnded_of_some hsome).trans (entryEnded_of_note hk (.inr hs)))
    rwa [hs] at hexec
  · subst hq hn
    have hsome := ending_of_last hst he hl
    rw [ht, hy, hx]
    have hexec := exec_itemEnd_reported hw hat ((endsProgram_of_some hsome).trans ((reported_of_note hk).trans hr))
      ((itemEnded_of_some hsome).trans (entryEnded_of_settle hk hr hs))
    rwa [decide_eq_true hs] at hexec
  · subst hq hn
    have hsome := ending_of_last hst he hl
    have hexec := exec_itemEnd hw hat ((endsProgram_of_some hsome).trans (reported_of_control hk))
      ((itemEnded_of_some hsome).trans (entryEnded_of_control hk))
    rw [ht, hy, hx]
    refine hexec.trans (congrArg (fun xs => Host.Outcome.next (finish (({ s with now := max s.now w.ends } : State).setPort p
      { entryLeft (readied (s.port p) w (max s.now w.ends)) e with slots := xs }))) (List.map_congr_left fun m _ => ?_))
    refine if_congr Iff.rfl ?_ rfl
    split
    · exact ended_of_dirtied ‹_›
    · exact ended_of_sent ‹_›
    · rename_i h1 h2
      refine ended_of_other fun a => ?_
      cases a with
      | none => exact h2
      | some a => exact h1 a
  · have h := kickPorts_of_other hi hc
    exact ⟨h, (Clicks.finish_port s p).trans h⟩
  · intro e m ms hentry hleft bytes hbytes
    rw [choose_of_message hw hr hentry hleft, PortState.beginMessage]
    have hb : q.messageBytes m = bytes := by
      rw [hbytes, PortState.messageBytes]
      exact if_congr (by rw [Bool.and_eq_true, decide_eq_true_iff]) rfl rfl
    rw [hb]
    rfl
  · rw [choose_of_item hw hr he]
    refine ⟨fun e es hlane hd => chooseItem_of_due hlane hd, fun hlater => ?_⟩
    rw [chooseItem_of_later hlater]
    refine ⟨fun hs hno => ?_, fun hs hyes => ?_, fun m hs => ⟨fun hno => ?_, fun hyes hmode => ⟨fun hl => ?_, fun hl => ?_⟩,
      fun hyes hmode => ⟨fun hl => ?_, fun hl => ?_⟩⟩⟩
    · rw [chooseLane_of_none hs, hno]
      rfl
    · rw [chooseLane_of_none hs, hyes]
      rfl
    · rw [chooseLane_of_some hs, hno]
      rfl
    · rw [chooseLane_of_some hs, noteFirst_of_round hmode, decide_eq_false (not_not.mpr hl), Bool.and_false]
      rfl
    · rw [chooseLane_of_some hs, hyes, noteFirst_of_round hmode, decide_eq_true hl]
      rfl
    · rw [chooseLane_of_some hs, noteFirst_of_weight hmode, decide_eq_false (Nat.not_lt.mpr hl), Bool.and_false]
      rfl
    · rw [chooseLane_of_some hs, hyes, noteFirst_of_weight hmode, decide_eq_true hl]
      rfl
  · rintro as m bs hs rfl hk
    refine ⟨fun a ha => ?_, fun ha => ?_, fun ha => ?_, fun a ha => ?_⟩
    · rw [place_of_waiting hs hk (by rw [MergeSlot.waits, ha]), MergeSlot.overwrite, ha]
    · rw [place_of_resting hs hk (by rw [MergeSlot.waits, ha]), MergeSlot.overwrite, ha]
    · rw [place_of_resting hs hk (by rw [MergeSlot.waits, ha]), MergeSlot.overwrite, ha]
    · rw [place_of_waiting hs hk (by rw [MergeSlot.waits, ha]), MergeSlot.overwrite, ha]
  · rintro hnew x rfl
    refine ⟨place_of_room hnew, fun free hfree => ⟨fun hfull hno => ?_, fun as m bs hfull hs hm hk ha hb => ?_⟩⟩
    · exact place_of_none hnew hfull (reusable_of_none fun y hy hy' => hno y hy ((hfree y).mpr hy'))
    · have htest : ∀ y, (decide (y.state = .clean) && y.elapsed q.settings.interval now) = true ↔ free y := fun y =>
        (free_iff y).trans (hfree y).symm
      have hreuse : q.reusable now = some m := by
        rw [PortState.reusable, hs]
        exact earliest_filter _ _ ((htest m).mpr hm) (fun y hy hq => ha y hy ((htest y).mp hq)) fun y hy hq => hb y hy ((htest y).mp hq)
      rw [place_of_some hnew hfull hreuse, hs, filter_keyed hk]
  · rw [PortState.nextSlot, earliest_none, List.filter_eq_nil_iff]
    refine forall₂_congr fun y _ => ?_
    rw [ready_iff, not_exists]
    exact forall_congr' fun a => not_congr (hready y a).symm
  · intro as m bs a hs hm ha hb
    have htest : ∀ y, (y.dirtied?.isSome && y.elapsed q.settings.interval now) = true → ∃ b, ready y b ∧ y.dirtied?.getD 0 = b := by
      intro y hy
      obtain ⟨b, hb, htime⟩ := ready_iff y |>.mp hy
      exact ⟨b, (hready y b).mpr ⟨hb, htime⟩, by rw [(dirtied_iff y b).mpr hb]; rfl⟩
    have hma : m.dirtied?.getD 0 = a := by rw [(dirtied_iff m a).mpr ((hready m a).mp hm).1]; rfl
    rw [PortState.nextSlot, hs]
    refine earliest_filter _ _ ((ready_iff m).mpr ⟨a, (hready m a).mp hm⟩) (fun y hy hq => ?_) fun y hy hq => ?_
    · obtain ⟨b, hready, hb⟩ := htest y hq
      rw [hma, hb]
      exact ha y hy b hready
    · obtain ⟨b, hready, hb'⟩ := htest y hq
      rw [hma, hb']
      exact hb y hy b hready
  · rw [messageBytes_eq hbytes, statusByte_eq hstatus]
    intro n ns m ms hlane hm x hx
    have hmessages : n.messages = m :: ms := by
      rw [hm]
      cases n with
      | program c msb lsb g => exact messages_program c msb lsb g
      | noteOn | noteOff | polyPressure | pedal | sweep => rfl
    have hsame : x.messageBytes = q.messageBytes := by
      rw [hx, lose_messageBytes]
      rfl
    rw [grantNote_of_messages hlane hmessages, ← hx, PortState.beginMessage, hsame]
    rfl
  · rw [messageBytes_eq hbytes, statusByte_eq hstatus]
    intro as x bs m hs hk hm
    have hmessage : mergeMessage x.key x.value = m := by
      rw [hm]
      unfold mergeMessage
      cases x.key.kind <;> rfl
    rw [grantControl_of_slot hs hk, hmessage]
    rfl
  · rw [messageBytes_eq hbytes, statusByte_eq hstatus]
    rintro e es m rfl
    rfl

end Sys2Proof.Proofs.Outputs
end

section
/-! What ends a command and what ends an instant: transmitters begin what waits, and entries without a place meet the full lane (R158,
R172, R178, R184). -/

namespace Sys2Proof.Proofs.Instants

open Sys2Proof.Machine Sys2Proof.Laws Sys2Proof.Proofs Sys2Proof.Proofs.Effects Sys2Proof.Proofs.Lanes Sys2Proof.Proofs.Clicks

/-! ### The choice of a port (R163) -/

/-- What a choice may move of a port. -/
def ChoiceOnly (q x : PortState) : Prop := x = { q with
  realtime := x.realtime, clickLane := x.clickLane, noteLane := x.noteLane, slots := x.slots, lastGrant := x.lastGrant
  grantCount := x.grantCount, keepAliveDue := x.keepAliveDue, sweepPending := x.sweepPending, wire := x.wire, entry := x.entry }

theorem choiceOnly_trans {q x y : PortState} (h : ChoiceOnly q x) (k : ChoiceOnly x y) : ChoiceOnly q y := by
  unfold ChoiceOnly at h k ⊢
  rw [k, h]

theorem choiceOnly_lose (q : PortState) : ChoiceOnly q q.lose := by
  unfold PortState.lose
  split
  · rfl
  · split <;> rfl

theorem choiceOnly_grantNote (q : PortState) (now : Nat) : ChoiceOnly q (q.grantNote now) := by
  unfold PortState.grantNote
  split
  · rfl
  · rename_i n ns _
    split
    · rfl
    · have hlost := choiceOnly_lose { q with noteLane := ns, lastGrant := some .note, grantCount := min (q.grantCount + 1) 16 }
      exact choiceOnly_trans (choiceOnly_trans (x := { q with
        noteLane := ns, lastGrant := some .note, grantCount := min (q.grantCount + 1) 16 }) rfl hlost) rfl

theorem choiceOnly_chooseLane (q : PortState) (now : Nat) : ChoiceOnly q (q.chooseLane now) := by
  unfold PortState.chooseLane
  split
  · split
    · exact choiceOnly_grantNote q now
    · rfl
  · split
    · exact choiceOnly_grantNote q now
    · rfl

theorem choiceOnly_chooseItem (q : PortState) (now : Nat) : ChoiceOnly q (q.chooseItem now).1 := by
  unfold PortState.chooseItem
  split
  · split
    · rfl
    · exact choiceOnly_chooseLane q now
  · exact choiceOnly_chooseLane q now

theorem choiceOnly_choose (q : PortState) (now : Nat) : ChoiceOnly q (q.choose now).1 := by
  unfold PortState.choose
  split
  · rfl
  · split
    · rfl
    · split
      · split
        · rfl
        · exact choiceOnly_chooseItem q now
      · exact choiceOnly_chooseItem q now

/-! ### The end of a command -/

/-- A property that the choice of a port and the placing of a note-off that waited do not disturb (R158, R161). -/
structure KickFree (P : State → Prop) : Prop where
  choose : ∀ s p, P s → P (s.setPort p ((s.port p).choose s.now).1)
  place : ∀ s r, r ∈ s.click.offs → r.waiting = true → (s.port r.port).clickRoom = true → P s →
    P ((s.setPort r.port ((s.port r.port).enqueueClick (offEntry r.chan r.note s.now))).setOffs
      (s.click.offs.filter (fun x => decide (x ≠ r))))

section
variable {P : State → Prop}

theorem placeWaiting_kept (h : KickFree P) (p : Port) : ∀ (n : Nat) {s : State}, P s → P (placeWaiting p n s)
  | 0, _, hs => hs
  | n + 1, s, hs => by
    unfold placeWaiting
    split
    · exact hs
    · rename_i r hr
      obtain ⟨hmem, hport, hwaits⟩ := (mem_waiting r).mp (earliest_mem _ hr)
      split
      · rename_i hroom
        rw [← hport] at hroom ⊢
        exact placeWaiting_kept h r.port n (h.place s r hmem hwaits hroom hs)
      · exact hs

theorem kickPorts_kept (h : KickFree P) {s : State} (hs : P s) : P (kickPorts s) := by
  unfold kickPorts
  split
  · exact hs
  · refine foldl_closed (fun s p hs => ?_) _ _ hs
    unfold kickPort
    split
    · exact placeWaiting_kept h p _ (h.choose s p hs)
    · exact h.choose s p hs

end

/-- What the choices of the ports may move. -/
structure Kicked (s u : State) : Prop where
  rest : { u with ports := s.ports, click := s.click } = s
  channels : u.click.channels = s.click.channels
  offs : u.click.offs.Sublist s.click.offs
  running : u.click.offs.filter (fun r => r.waiting = false) = s.click.offs.filter (fun r => r.waiting = false)
  ports : ∀ p, ChoiceOnly (s.port p) (u.port p)

/-- A step of one port. -/
theorem choiceOnly_setPort {s u : State} {p : Port} {x : PortState} (h : ∀ p, ChoiceOnly (s.port p) (u.port p))
    (hx : ChoiceOnly (u.port p) x) (p' : Port) : ChoiceOnly (s.port p') ((u.setPort p x).port p') := by
  rw [port_setPort_ite]
  split
  · rename_i he
    subst he
    exact choiceOnly_trans (h p') hx
  · exact h p'

theorem kicked_free (s : State) : KickFree (Kicked s) where
  choose u p h :=
    { rest := h.rest
      channels := h.channels, offs := h.offs, running := h.running
      ports := choiceOnly_setPort h.ports (choiceOnly_choose _ _) }
  place u r _ hw _ h :=
    { rest := h.rest
      channels := h.channels
      offs := List.filter_sublist.trans h.offs
      running := by
        rw [← h.running]
        refine (List.filter_filter ..).trans (List.filter_congr fun x _ => ?_)
        by_cases hx : x = r
        · simp [hx, hw]
        · simp [hx]
      ports := choiceOnly_setPort h.ports rfl }

theorem kickPorts_kicked (s : State) : Kicked s (kickPorts s) :=
  kickPorts_kept (kicked_free s) { rest := rfl, channels := rfl, offs := List.Sublist.refl _, running := rfl, ports := fun _ => rfl }

/-! ### The choice of a link (R184) -/

/-- What the choice of a link's transmitter may move. -/
structure LinkChoice (k x : LinkState) : Prop where
  rest : x = { k with replies := x.replies, notices := x.notices, tx := x.tx }
  notices : x.notices.Sublist k.notices
  busy : ∀ w, k.tx = some w → x.tx = some w

theorem linkChoice_choose (k : LinkState) (now : Nat) : LinkChoice k (k.choose now).1 := by
  unfold LinkState.choose
  split
  · exact ⟨rfl, List.Sublist.refl _, fun _ h => h⟩
  · rename_i hidle
    have hbusy : ∀ w (o : Option LinkWire), k.tx = some w → o = some w := fun w o h => absurd (by rw [h]; rfl) hidle
    split
    · exact ⟨rfl, List.Sublist.refl _, fun w h => hbusy w _ h⟩
    · split
      · rename_i he
        exact ⟨rfl, he ▸ List.sublist_cons_self _ _, fun w h => hbusy w _ h⟩
      · exact ⟨rfl, List.Sublist.refl _, fun _ h => h⟩

theorem started_link (s : State) (l : Link) :
    (startIdle .b (startIdle .a s)).link l = ((s.link l).choose s.now).1 := by
  cases l
  · rw [Links.startIdle_link, if_neg nofun, Links.startIdle_link, if_pos rfl]
  · rw [Links.startIdle_link, if_pos rfl, Links.startIdle_link, if_neg nofun]
    rfl

theorem started_rest (s : State) : { startIdle .b (startIdle .a s) with linkA := s.linkA, linkB := s.linkB } = s := rfl

theorem kickPorts_link (s : State) (l : Link) : (kickPorts s).link l = s.link l := by
  have h := (kickPorts_kicked s).rest
  cases l
  · exact congrArg (fun u => u.linkA) h
  · exact congrArg (fun u => u.linkB) h

theorem kickPorts_now (s : State) : (kickPorts s).now = s.now := congrArg (fun u => u.now) (kickPorts_kicked s).rest

/-- Settles the reports of an entry offered: a port has what became of it (R171, R172). -/
theorem reportOffer_port (p q : Port) (o : Offered) (s : State) : (reportOffer p o s).port q = (s.setPort p o.port).port q := by
  have hw : (withdrawOn p o.withdrawn (s.setPort p o.port)).port q = (s.setPort p o.port).port q := by
    unfold withdrawOn
    split <;> rfl
  unfold reportOffer overflowFault
  split
  · exact (raise_port _ _ _).trans hw
  · exact hw

theorem meetFull_of_none {p : Port} {s : State} (h : (s.port p).unplaced = none) : meetFull p s = s := by rw [meetFull, h]

theorem dropReport_port (p q : Port) (e : NoteEntry) (s : State) : (dropReport p e s).port q = s.port q := by
  unfold dropReport
  split <;> rfl

/-- The port once an entry that waited has met the full lane (R172). -/
abbrev metPort (q : PortState) (e : NoteEntry) : PortState :=
  (({ q with noteLane := q.places ++ q.waiting.erase e } : PortState).offerFull e).port

theorem meetFull_port {p : Port} {s : State} {e : NoteEntry} (h : (s.port p).unplaced = some e) (q : Port) :
    (meetFull p s).port q = (s.setPort p (metPort (s.port p) e)).port q := by
  unfold meetFull
  rw [h]
  dsimp only
  split
  · exact reportOffer_port _ _ _ _
  · exact (dropReport_port _ _ _ _).trans (reportOffer_port _ _ _ _)

theorem offerFull_length (q : PortState) (e : NoteEntry) : (q.offerFull e).port.noteLane.length = q.noteLane.length := by
  unfold PortState.offerFull
  split
  · rename_i c k lane hl
    have hlane := (removeNewestOn_lane hl).1
    have hperm := (metLane_perm lane q.waiting e).length_eq
    have hall := congrArg List.length (places_waiting q)
    simp only [List.length_append, List.length_singleton] at hperm hall
    simp only [List.length_append] at hperm ⊢
    omega
  · rfl

theorem metPort_length {q : PortState} {e : NoteEntry} (h : q.unplaced = some e) :
    (metPort q e).noteLane.length + 1 = q.noteLane.length := by
  rw [metPort, offerFull_length, (unplaced_perm h).length_eq]
  simp only [List.length_append, List.length_singleton]

/-- What the end of an instant may move of a port. -/
def FullOnly (q x : PortState) : Prop := x = { q with
  noteLane := x.noteLane, noteDiscard := x.noteDiscard, overflow := x.overflow, sweepPending := x.sweepPending }

theorem fullOnly_trans {q x y : PortState} (h : FullOnly q x) (k : FullOnly x y) : FullOnly q y := by
  unfold FullOnly at h k ⊢
  rw [k, h]

theorem fullOnly_metPort (q : PortState) (e : NoteEntry) : FullOnly q (metPort q e) := by
  unfold metPort PortState.offerFull
  split <;> rfl

theorem meetFull_fullOnly (p q : Port) (s : State) : FullOnly (s.port q) ((meetFull p s).port q) := by
  rcases h : (s.port p).unplaced with _ | e
  · rw [meetFull_of_none h]
    rfl
  · rw [meetFull_port h, port_setPort_ite]
    split
    · rename_i he
      subst he
      exact fullOnly_metPort _ _
    · rfl

theorem meetFull_other {p q : Port} (hq : q ≠ p) (s : State) : (meetFull p s).port q = s.port q := by
  rcases h : (s.port p).unplaced with _ | e
  · rw [meetFull_of_none h]
  · rw [meetFull_port h, port_setPort_ne _ _ _ _ hq]

/-- A property that one entry's meeting with the full lane keeps. -/
theorem meetFulls_of {P : State → Prop} {p : Port} (h : ∀ s, P s → P (meetFull p s)) {s : State} (hs : P s) : P (meetFulls p s) :=
  iterate_closed (fun s hs => h s hs) _ hs

theorem meetFulls_fullOnly (p q : Port) (s : State) : FullOnly (s.port q) ((meetFulls p s).port q) :=
  meetFulls_of (P := fun u => FullOnly (s.port q) (u.port q)) (fun u h => fullOnly_trans h (meetFull_fullOnly p q u)) rfl

theorem meetFulls_other {p q : Port} (hq : q ≠ p) (s : State) : (meetFulls p s).port q = s.port q :=
  meetFulls_of (P := fun u => u.port q = s.port q) (fun u h => (meetFull_other hq u).trans h) rfl

theorem waiting_length (q : PortState) : q.waiting.length = q.noteLane.length - 64 := List.length_drop

/-- As many meetings as entries wait leave none that the end of the instant decides. -/
theorem meetings_done (p : Port) : ∀ (n : Nat) (s : State), (s.port p).waiting.length ≤ n →
    ((Nat.iterate (meetFull p) n s).port p).unplaced = none
  | 0, s, hn => by
    rw [waiting_length] at hn
    exact unplaced_of_le (show (s.port p).noteLane.length ≤ 64 by omega)
  | n + 1, s, hn => by
    show ((Nat.iterate (meetFull p) n (meetFull p s)).port p).unplaced = none
    rcases h : (s.port p).unplaced with _ | e
    · have hfixed : Nat.iterate (meetFull p) n (meetFull p s) = s :=
        iterate_closed (P := fun u => u = s) (fun u hu => by rw [hu, meetFull_of_none h]) n (meetFull_of_none h)
      rw [hfixed, h]
    · refine meetings_done p n _ ?_
      have hlen := metPort_length h
      rw [meetFull_port h, port_setPort, waiting_length]
      rw [waiting_length] at hn
      omega

theorem meetFulls_done (p : Port) (s : State) : ((meetFulls p s).port p).unplaced = none := meetings_done p _ s (Nat.le_refl _)

theorem allMet_done (ps : List Port) : ∀ (s : State) (p : Port), p ∈ ps ∨ (s.port p).unplaced = none →
    ((ps.foldl (fun s p => meetFulls p s) s).port p).unplaced = none := by
  induction ps with
  | nil => exact fun s p h => h.resolve_left List.not_mem_nil
  | cons q ps ih =>
    intro s p h
    refine ih _ p ?_
    by_cases hp : p = q
    · subst hp
      exact .inr (meetFulls_done p s)
    · rw [meetFulls_other hp]
      exact h.imp_left fun hmem => (List.mem_cons.mp hmem).resolve_left hp

/-! ### The end of an instant (R178) -/

/-- A state that keeps the lanes, the flags, the fault record and the links of another. -/
abbrev offTheLanes (s u : State) : State :=
  { u with ports := s.ports, held := s.held, faultRecord := s.faultRecord, linkA := s.linkA, linkB := s.linkB }

/-- Entries of one instant that have met full lanes: lanes, flags, fault record and notices have moved. -/
structure Met (s u : State) : Prop where
  rest : offTheLanes s u = s
  sources : u.held.map (fun e => e.source) = s.held.map (fun e => e.source)
  links : SameLinks s u

theorem sameLinks_trans {s t u : State} (h : SameLinks s t) (k : SameLinks t u) : SameLinks s u := fun l => by
  rw [k l, h l]

theorem met_refl (s : State) : Met s s := ⟨rfl, rfl, fun _ => rfl⟩

theorem met_free (s : State) : LaneFree (Met s) where
  offered l n u h :=
    { rest := raiseOn_free (P := fun u => offTheLanes s u = s) (fun u l _ h => by cases l <;> exact h) l n u h.rest
      sources := raiseOn_free (P := fun u => u.held.map (fun e => e.source) = s.held.map (fun e => e.source))
        (fun u l _ h => by cases l <;> exact h) l n u h.sources
      links := sameLinks_trans h.links (bandOnly_raiseOn l n u).links }
  lane _ _ _ _ h := { h with }
  flags u x hx h :=
    { rest := h.rest, links := h.links
      sources := by
        have hsources := congrArg (List.map Prod.fst) hx
        rw [List.map_map, List.map_map] at hsources
        exact hsources.trans h.sources }
  fault _ _ h := { h with }

/-- The entries of every port that the end of an instant decides have met the full lane. -/
abbrev allMet (s : State) : State := allPorts.foldl (fun s p => meetFulls p s) s

theorem met_allMet (s : State) : Met s (allMet s) :=
  foldl_closed (P := Met s) (f := fun u p => meetFulls p u) (fun _ p h => meetFulls_kept (met_free s) p h) allPorts s (met_refl s)

theorem allMet_fullOnly (s : State) (q : Port) : FullOnly (s.port q) ((allMet s).port q) :=
  foldl_closed (P := fun u => FullOnly (s.port q) (u.port q)) (f := fun u p => meetFulls p u)
    (fun u p h => fullOnly_trans h (meetFulls_fullOnly p q u)) allPorts s rfl

theorem placesOk_iff (s : State) : s.anyAwaits = false ↔ PlacesOk s := by
  unfold State.anyAwaits PlacesOk
  rw [List.any_eq_false]
  refine ⟨fun h p => ?_, fun h p _ => by rw [h p]; exact nofun⟩
  exact Option.not_isSome_iff_eq_none.mp (h p (Resets.mem_allPorts p))

theorem endInstant_of_waiting {s : State} (h : ¬ PlacesOk s) :
    endInstant s = startIdle .b (startIdle .a (allMet s)) :=
  if_pos (by simpa using mt (placesOk_iff s).mp h)

/-- An instant that has ended (R178). -/
structure Ended (s u : State) : Prop where
  rest : offTheLanes s u = s
  sources : u.held.map (fun e => e.source) = s.held.map (fun e => e.source)
  ports : ∀ p, FullOnly (s.port p) (u.port p)
  links : ∀ l, u.link l = { s.link l with replies := (u.link l).replies, notices := (u.link l).notices, tx := (u.link l).tx }
  busy : ∀ l w, (s.link l).tx = some w → (u.link l).tx = some w
  placed : PlacesOk u

theorem endInstant_ended (s : State) : Ended s (endInstant s) := by
  by_cases hp : PlacesOk s
  · rw [endInstant_quiet s hp]
    exact ⟨rfl, rfl, fun _ => rfl, fun _ => rfl, fun _ _ h => h, hp⟩
  · have hmet := met_allMet s
    have hfull := allMet_fullOnly s
    have hdone : PlacesOk (allMet s) := fun p => allMet_done allPorts s p (.inl (Resets.mem_allPorts p))
    rw [endInstant_of_waiting hp]
    generalize allMet s = u at hmet hfull hdone ⊢
    have hport : ∀ p, (startIdle .b (startIdle .a u)).port p = u.port p := fun p => by rw [startIdle_port, startIdle_port]
    refine ⟨hmet.rest, hmet.sources, fun p => (hport p).symm ▸ hfull p, fun l => ?_, fun l w h => ?_,
      fun p => (congrArg PortState.unplaced (hport p)).trans (hdone p)⟩
    · have hlink := linkChoice_choose (u.link l) u.now
      rw [started_link]
      refine hlink.rest.trans ?_
      rw [hmet.links l]
    · rw [started_link]
      refine (linkChoice_choose (u.link l) u.now).busy w ?_
      rw [hmet.links l]
      exact h

theorem Ended.now {s u : State} (h : Ended s u) : u.now = s.now := congrArg (fun x => x.now) h.rest

/-- What is due stays due when the instant ends. -/
theorem dueOf_ended {s u : State} (h : Ended s u) {c : Instr} {d : Nat} (hd : dueOf c s = some d) : dueOf c u = some d := by
  have hport : ∀ p, (u.port p).wire = (s.port p).wire ∧ (u.port p).settleDue = (s.port p).settleDue ∧
      (u.port p).keepAliveDue = (s.port p).keepAliveDue ∧ (u.port p).nextInterval u.now = (s.port p).nextInterval s.now := by
    intro p
    rw [h.ports p, h.now]
    exact ⟨rfl, rfl, rfl, rfl⟩
  cases c with
  | initialisationEnd => exact (congrArg (fun x => x.init) h.rest).trans hd
  | linkInterByteTimeout l => exact (congrArg (fun x : LinkState => x.interByteDue) (h.links l)).trans hd
  | linkTransmitEnd l =>
    obtain ⟨w, hw, hends⟩ := Option.map_eq_some_iff.mp hd
    exact Option.map_eq_some_iff.mpr ⟨w, h.busy l w hw, hends⟩
  | inputWatchExpiry i => exact (congrArg (fun x : State => (x.input i).watchDue) h.rest).trans hd
  | footswitchDebounceExpiry n => exact (congrArg (fun x : State => (x.foot n).debounceDue) h.rest).trans hd
  | gridStepEnd => exact (congrArg (fun x => x.transport.stepEnd) h.rest).trans hd
  | clickGateExpiry p c n =>
    exact (congrArg (dueOf (.clickGateExpiry p c n)) h.rest).trans hd
  | outputItemEnd p => exact (congrArg (Option.map (fun w : Wire => w.ends)) (hport p).1).trans hd
  | settleTimerExpiry p => exact (hport p).2.1.trans hd
  | keepAliveExpiry p =>
    refine Eq.trans ?_ hd
    simp only [dueOf, hport p]
  | controllerIntervalExpiry p => exact (hport p).2.2.2.trans hd
  | _ => exact nomatch hd

/-- An event that is due later finds the instant ended (R178, log 37). -/
theorem exec_endInstant {c : Instr} {s : State} {d : Nat} (hd : dueOf c s = some d) (hlt : s.now < d) :
    exec c s = exec c (endInstant s) := by
  have hended := endInstant_ended s
  rw [exec_of_at (dueOf_ended hended hd) (.inr hended.placed), exec_eq, hd]
  exact congrArg (fun u => Host.Outcome.next (finish (effect c u))) (if_pos hlt)

/-- Settles O12: each end moves what its steps may move. -/
theorem transmittersTouchOnlyTheirOwn : Obligations.TransmittersTouchOnlyTheirOwn := by
  unfold Obligations.TransmittersTouchOnlyTheirOwn
  refine ⟨fun s => ?_, fun s u hu => ?_⟩
  · have hk := kickPorts_kicked s
    have hlink : ∀ l, (finish s).link l = ((s.link l).choose s.now).1 := fun l => by
      rw [finish, started_link, kickPorts_link, kickPorts_now]
    have hport : ∀ p, ChoiceOnly (s.port p) ((finish s).port p) := fun p => by
      rw [finish_port]
      exact hk.ports p
    have hclick := finish_click s
    have hrest : { finish s with ports := s.ports, click := s.click, linkA := s.linkA, linkB := s.linkB } = s :=
      congrArg (fun x : State => { x with linkA := s.linkA, linkB := s.linkB }) hk.rest
    have hread : ∀ {β : Type} (g : State → β), g { finish s with
        ports := s.ports, click := s.click, linkA := s.linkA, linkB := s.linkB } = g s := fun g => congrArg g hrest
    refine ⟨rfl, ?_⟩
    generalize finish s = u at hlink hport hclick hread ⊢
    rw [hclick]
    refine ⟨⟨hread (·.live), hread (·.liveId), hread (·.held), hread (·.pedals), hread (·.stealCount)⟩,
      ⟨hread (·.tempo), hread (·.transport)⟩, ⟨hread (·.library), hread (·.setlist)⟩, ⟨hread (·.curPos), hread (·.curScene)⟩,
      ⟨hread (·.cue), hread (·.departure)⟩, ⟨hread (·.changeover), hread (·.progMem), hread (·.audition)⟩,
      ⟨hread (·.inputs), hread (·.foots)⟩, ⟨hread (·.faultRecord), hread (·.panicCount)⟩,
      ⟨hread (·.init), hread (·.clkin), hread (·.pending)⟩, hread (·.now), hk.channels, hk.offs, hk.running, fun p => ?_, fun l => ?_⟩
    · rw [hport p]
      exact ⟨rfl, rfl, rfl, rfl, rfl, rfl, rfl, rfl, rfl⟩
    · have h := linkChoice_choose (s.link l) s.now
      rw [hlink l]
      exact ⟨h.rest, h.notices⟩
  · rw [hu]
    have h := endInstant_ended s
    refine ⟨endInstant_quiet s, h.placed, endInstant_of_waiting, fun c d => exec_endInstant, ?_⟩
    generalize endInstant s = u at h ⊢
    have hread : ∀ {β : Type} (g : State → β), g (offTheLanes s u) = g s := fun g => congrArg g h.rest
    exact ⟨hread (·.live), hread (·.liveId), h.sources, hread (·.pedals), hread (·.stealCount),
      ⟨hread (·.changeover), hread (·.progMem), hread (·.audition)⟩, hread (·.panicCount), ⟨hread (·.tempo), hread (·.transport)⟩,
      ⟨hread (·.library), hread (·.setlist)⟩, ⟨hread (·.curPos), hread (·.curScene)⟩, ⟨hread (·.cue), hread (·.departure)⟩,
      ⟨hread (·.inputs), hread (·.foots)⟩, ⟨hread (·.init), hread (·.clkin), hread (·.pending)⟩, hread (·.click), hread (·.now),
      h.ports, h.links⟩

end Sys2Proof.Proofs.Instants
end

section
/-! The timers of a port, the reports that end a changeover, and an entry offered to a NOTE lane (chapters 8 and 9). -/

namespace Sys2Proof.Proofs.PortTimers

open Sys2Proof.Machine Sys2Proof.Laws Sys2Proof.Proofs Sys2Proof.Proofs.Effects Sys2Proof.Proofs.Lanes Sys2Proof.Proofs.Outputs
open Sys2Proof.Proofs.ChangeTables Sys2Proof.Proofs.Instants

/-! ### The last element that passes a test -/

section
variable {α : Type} {t : α → Bool} {f : α → α} {as bs : List α} {x : α}

theorem modifyLast_of_none {xs : List α} (h : ∀ y ∈ xs, t y = false) : modifyLast t f xs = xs := by
  induction xs with
  | nil => rfl
  | cons y ys ih =>
    have hys : ys.any t = false := List.any_eq_false.mpr fun z hz => by rw [h z (List.mem_cons_of_mem y hz)]; exact nofun
    rw [modifyLast, if_neg (by rw [hys]; exact nofun), if_neg (by rw [h y List.mem_cons_self]; exact nofun)]

theorem modifyLast_of_last (hx : t x = true) (h : ∀ y ∈ bs, t y = false) :
    modifyLast t f (as ++ x :: bs) = as ++ f x :: bs := by
  induction as with
  | nil =>
    have hbs : bs.any t = false := List.any_eq_false.mpr fun z hz => by rw [h z hz]; exact nofun
    rw [List.nil_append, modifyLast, if_neg (by rw [hbs]; exact nofun), if_pos hx]
    rfl
  | cons a as ih =>
    have hany : (as ++ x :: bs).any t = true := List.any_eq_true.mpr ⟨x, by simp, hx⟩
    rw [List.cons_append, modifyLast, if_pos hany, ih]
    rfl

end

/-! ### Withdrawal (R23) -/

section
variable {a : Triple} {s : State}

theorem sounds_iff (e : HeldEntry) : e.sounds a = true ↔ ∃ x ∈ e.targets, x.triple = a ∧ x.sent = true := by
  simp [HeldEntry.sounds]

theorem silent_iff (e : HeldEntry) : e.sounds a = false ↔ ∀ x ∈ e.targets, x.triple = a → x.sent = false := by
  simp [HeldEntry.sounds]

theorem withdraw_of_silent (h : ∀ e ∈ s.held, ∀ x ∈ e.targets, x.triple = a → x.sent = false) : withdraw a s = s := by
  have hheld := modifyLast_of_none (f := fun e => e.setSent a false) fun e he => (silent_iff e).mpr (h e he)
  rw [withdraw, hheld]

theorem withdraw_of_sounding {hs ds : List HeldEntry} {h : HeldEntry} (hheld : s.held = hs ++ h :: ds)
    (hh : ∃ x ∈ h.targets, x.triple = a ∧ x.sent = true) (hds : ∀ y ∈ ds, ∀ x ∈ y.targets, x.triple = a → x.sent = false) :
    withdraw a s = { s with held := hs ++ { h with targets := h.targets.map (fun x =>
      if x.triple = a then { x with sent := false } else x) } :: ds } := by
  have hlast := modifyLast_of_last (f := fun e => e.setSent a false) (as := hs) ((sounds_iff h).mpr hh)
    fun y hy => (silent_iff y).mpr (hds y hy)
  rw [withdraw, hheld, hlast]
  rfl

end

/-! ### The newest NOTE_ON of a lane (R171, R172) -/

section
variable {c : Chan} {k : Nat} {as bs xs : List NoteEntry}

theorem removeNewestOn_of_none (h : ∀ x ∈ xs, x.isNoteOn = false) : removeNewestOn xs = none := by
  induction xs with
  | nil => rfl
  | cons x xs ih =>
    unfold removeNewestOn
    rw [ih fun y hy => h y (List.mem_cons_of_mem x hy)]
    cases x with
    | noteOn c k v => exact nomatch h _ List.mem_cons_self
    | noteOff | polyPressure | pedal | program | sweep => rfl

theorem removeNewestOn_of_last {v : Nat} (h : ∀ x ∈ bs, x.isNoteOn = false) :
    removeNewestOn (as ++ .noteOn c k v :: bs) = some (c, k, as ++ bs) := by
  induction as with
  | nil =>
    rw [List.nil_append]
    unfold removeNewestOn
    rw [removeNewestOn_of_none h]
    rfl
  | cons a as ih =>
    rw [List.cons_append]
    unfold removeNewestOn
    rw [ih]
    rfl

theorem isOn_iff (e : NoteEntry) : e.isOn c k = true ↔ ∃ v, e = .noteOn c k v := by
  cases e with
  | noteOn c' k' v =>
    rw [NoteEntry.isOn, decide_eq_true_iff]
    exact ⟨fun ⟨h1, h2⟩ => ⟨v, by rw [h1, h2]⟩, fun ⟨w, h⟩ => by injection h with h1 h2; exact ⟨h1, h2⟩⟩
  | noteOff | polyPressure | pedal | program | sweep => exact ⟨nofun, nofun⟩

theorem isOff_iff (e : NoteEntry) : e.isOff c k = true ↔ ∃ v, e = .noteOff c k v := by
  cases e with
  | noteOff c' k' v =>
    rw [NoteEntry.isOff, decide_eq_true_iff]
    exact ⟨fun ⟨h1, h2⟩ => ⟨v, by rw [h1, h2]⟩, fun ⟨w, h⟩ => by injection h with h1 h2; exact ⟨h1, h2⟩⟩
  | noteOn | polyPressure | pedal | program | sweep => exact ⟨nofun, nofun⟩

theorem anyOff_iff (xs : List NoteEntry) : xs.any (NoteEntry.isOff c k) = true ↔ ∃ a, NoteEntry.noteOff c k a ∈ xs := by
  rw [List.any_eq_true]
  constructor
  · rintro ⟨e, he, hoff⟩
    obtain ⟨a, rfl⟩ := (isOff_iff e).mp hoff
    exact ⟨a, he⟩
  · rintro ⟨a, ha⟩
    exact ⟨_, ha, (isOff_iff _).mpr ⟨a, rfl⟩⟩

/-- Behind every NOTE_ON of the note stands its NOTE_OFF: nothing annihilates (R171). -/
theorem annihilate_of_none (h : ∀ as w bs, xs = as ++ .noteOn c k w :: bs → ∃ a, NoteEntry.noteOff c k a ∈ bs) :
    annihilate c k xs = none := by
  induction xs with
  | nil => rfl
  | cons x xs ih =>
    have hrest : annihilate c k xs = none := ih fun as w bs hxs => h (x :: as) w bs (by rw [hxs]; rfl)
    rw [annihilate, hrest]
    refine if_neg fun hon => ?_
    obtain ⟨hx, hoff⟩ := (Bool.and_eq_true _ _).mp hon
    obtain ⟨v, rfl⟩ := (isOn_iff x).mp hx
    have hany := (anyOff_iff xs).mpr (h [] v xs rfl)
    rw [hany] at hoff
    exact nomatch hoff

/-- The newest NOTE_ON with no NOTE_OFF of the note behind it goes (R171). -/
theorem annihilate_of_last {w : Nat} (h : ∀ a, NoteEntry.noteOn c k a ∉ bs ∧ NoteEntry.noteOff c k a ∉ bs) :
    annihilate c k (as ++ .noteOn c k w :: bs) = some (as ++ bs) := by
  have hbs : annihilate c k bs = none := annihilate_of_none fun ys v zs hsplit =>
    absurd (hsplit ▸ List.mem_append_right ys List.mem_cons_self) (h v).1
  have hoff : bs.any (NoteEntry.isOff c k) = false :=
    Bool.eq_false_iff.mpr fun hany => ((anyOff_iff bs).mp hany).elim fun a ha => (h a).2 ha
  induction as with
  | nil =>
    rw [List.nil_append, annihilate, hbs]
    exact if_pos (by rw [(isOn_iff _).mpr ⟨w, rfl⟩, hoff]; rfl)
  | cons a as ih => rw [List.cons_append, annihilate, ih]; rfl

end

/-! ### What a port says of itself (R170, R173, R178) -/

section
variable {q : PortState} {now : Nat}

theorem isProgram_iff (e : NoteEntry) : e.isProgram = true ↔ ∃ c m l n, e = .program c m l n := by
  cases e with
  | program c m l n => exact ⟨fun _ => ⟨c, m, l, n, rfl⟩, fun _ => rfl⟩
  | noteOn | noteOff | polyPressure | pedal | sweep => exact ⟨nofun, nofun⟩

theorem isNoteOn_iff (e : NoteEntry) : e.isNoteOn = true ↔ ∃ c k v, e = .noteOn c k v := by
  cases e with
  | noteOn c k v => exact ⟨fun _ => ⟨c, k, v, rfl⟩, fun _ => rfl⟩
  | noteOff | polyPressure | pedal | program | sweep => exact ⟨nofun, nofun⟩

theorem anyProgram_iff (xs : List NoteEntry) : (∃ e ∈ xs, e.isProgram = true) ↔ ∃ c m l n, NoteEntry.program c m l n ∈ xs := by
  constructor
  · rintro ⟨e, he, hp⟩
    obtain ⟨c, m, l, n, rfl⟩ := (isProgram_iff e).mp hp
    exact ⟨c, m, l, n, he⟩
  · rintro ⟨c, m, l, n, h⟩
    exact ⟨_, h, rfl⟩

theorem anyNoteOn_iff (xs : List NoteEntry) : (∃ e ∈ xs, e.isNoteOn = true) ↔ ∃ c k v, NoteEntry.noteOn c k v ∈ xs := by
  constructor
  · rintro ⟨e, he, hp⟩
    obtain ⟨c, k, v, rfl⟩ := (isNoteOn_iff e).mp hp
    exact ⟨c, k, v, he⟩
  · rintro ⟨c, k, v, h⟩
    exact ⟨_, h, rfl⟩

theorem inProgress_isProgram_iff (e : InProgress) : e.isProgram = true ↔ ∃ c m l n, e.entry = .note (.program c m l n) := by
  unfold InProgress.isProgram
  split
  · rename_i n hn
    rw [isProgram_iff, hn]
    simp only [LaneEntry.note.injEq]
  · rename_i hno
    exact ⟨nofun, fun ⟨c, m, l, n, h⟩ => absurd h (hno _)⟩

theorem changing_iff : q.changing = true ↔ (∃ c m l n, NoteEntry.program c m l n ∈ q.noteLane) ∨
    (∃ e c m l n, q.entry = some e ∧ e.entry = .note (.program c m l n)) ∨ q.settleDue ≠ none := by
  unfold PortState.changing
  rw [Bool.or_eq_true, Bool.or_eq_true, List.any_eq_true, anyProgram_iff, or_assoc, Option.any_eq_true,
    Option.isSome_iff_ne_none]
  refine or_congr_right (or_congr_left (exists_congr fun e => ?_))
  rw [inProgress_isProgram_iff]
  simp only [exists_and_left]

theorem lose_of_full (h : 64 ≤ q.noteLane.length) : q.lose = q := if_pos h

theorem lose_of_none (h : q.sweepPending = []) : q.lose = q := by
  unfold PortState.lose
  split
  · rfl
  · rw [h]

theorem lose_of_some {c : Chan} {cs : List Chan} (hl : q.noteLane.length < 64) (h : q.sweepPending = c :: cs) :
    q.lose = { q with noteLane := q.noteLane ++ [.sweep c], sweepPending := cs } := by
  rw [PortState.lose, if_neg (show ¬ Config.noteLaneMax ≤ q.noteLane.length from Nat.not_le.mpr hl), h]

theorem waiting_isEmpty_iff : q.waiting.isEmpty = true ↔ q.noteLane.length ≤ 64 := by
  rw [List.isEmpty_iff, ← List.length_eq_zero_iff, waiting_length]
  omega

theorem awaits_of_program {e : NoteEntry} (he : e.isProgram = true) : q.awaits now e = true ↔
    q.sweepPending ≠ [] ∧ q.noteLane.length ≤ 64 ∧ q.grantsNow now = true := by
  rw [PortState.awaits, if_pos he, Bool.and_eq_true, Bool.and_eq_true, waiting_isEmpty_iff, Bool.not_eq_true',
    List.isEmpty_eq_false_iff]

theorem mayFree_iff : q.mayFree now = true ↔ q.wire = none ∨ (∃ w, q.wire = some w ∧ w.ends ≤ now) ∨
    (∃ c k v, NoteEntry.noteOn c k v ∈ q.noteLane) ∨ ∃ c m l n, NoteEntry.program c m l n ∈ q.noteLane := by
  have hwire : (match q.wire with | some w => decide (w.ends ≤ now) | none => true) = true ↔
      q.wire = none ∨ ∃ w, q.wire = some w ∧ w.ends ≤ now := by
    cases q.wire <;> simp
  have hlane : q.noteLane.any (fun e => e.isNoteOn || e.isProgram) = true ↔
      (∃ c k v, NoteEntry.noteOn c k v ∈ q.noteLane) ∨ ∃ c m l n, NoteEntry.program c m l n ∈ q.noteLane := by
    rw [← anyNoteOn_iff, ← anyProgram_iff, ← exists_or, List.any_eq_true]
    exact exists_congr fun e => by rw [Bool.or_eq_true, and_or_left]
  unfold PortState.mayFree
  rw [Bool.or_eq_true, hlane]
  exact (or_congr_right hwire).trans (or_comm.trans or_assoc)

theorem awaits_of_other {e : NoteEntry} (he : e.isProgram = false) : q.awaits now e = true ↔
    q.sweepPending ≠ [] ∧ (64 < q.noteLane.length ∨ q.wire = none ∨ (∃ w, q.wire = some w ∧ w.ends ≤ now) ∨
      (∃ c k v, NoteEntry.noteOn c k v ∈ q.noteLane) ∨ ∃ c m l n, NoteEntry.program c m l n ∈ q.noteLane) := by
  have hempty : q.waiting.isEmpty = false ↔ 64 < q.noteLane.length := by
    rw [Bool.eq_false_iff, ne_eq, waiting_isEmpty_iff, Nat.not_le]
  rw [PortState.awaits, if_neg (by rw [he]; exact nofun), Bool.and_eq_true, Bool.or_eq_true, mayFree_iff, Bool.not_eq_true',
    Bool.not_eq_true', hempty, List.isEmpty_eq_false_iff]

end

/-! ### Whether the next choice grants the NOTE lane (R178) -/

section
variable {q : PortState} {now : Nat}

theorem itemEnded_reads (q : PortState) (w : Wire) (now : Nat) : (q.itemEnded w now).noteLane = q.noteLane ∧
    (q.itemEnded w now).sweepPending = q.sweepPending ∧ (q.itemEnded w now).wire = none := by
  unfold PortState.itemEnded
  dsimp only
  split
  · unfold PortState.entryEnded
    dsimp only
    split
    · exact ⟨rfl, rfl, rfl⟩
    · split <;> exact ⟨rfl, rfl, rfl⟩
    · exact ⟨rfl, rfl, rfl⟩
  · exact ⟨rfl, rfl, rfl⟩

/-- A choice grants the NOTE lane or leaves it. -/
theorem choose_noteLane (q : PortState) (now : Nat) :
    q.choose now = (q.grantNote now, false) ∨ (q.choose now).1.noteLane = q.noteLane := by
  have hlane : q.chooseLane now = q.grantNote now ∨ (q.chooseLane now).noteLane = q.noteLane := by
    unfold PortState.chooseLane
    split
    · split
      · exact .inl rfl
      · exact .inr rfl
    · split
      · exact .inl rfl
      · exact .inr rfl
  have hitem : q.chooseItem now = (q.grantNote now, false) ∨ (q.chooseItem now).1.noteLane = q.noteLane := by
    have hchoice : (q.chooseLane now, false) = (q.grantNote now, false) ∨ (q.chooseLane now).noteLane = q.noteLane :=
      hlane.imp_left fun h => by rw [h]
    unfold PortState.chooseItem
    split
    · split
      · exact .inr rfl
      · exact hchoice
    · exact hchoice
  unfold PortState.choose
  split
  · exact .inr rfl
  · split
    · exact .inr rfl
    · split
      · split
        · exact .inr rfl
        · exact hitem
      · exact hitem

theorem messages_ne_nil (n : NoteEntry) : ∃ m ms, n.messages = m :: ms := by
  cases n with
  | program c msb lsb g => cases msb <;> cases lsb <;> exact ⟨_, _, rfl⟩
  | noteOn | noteOff | polyPressure | pedal | sweep => exact ⟨_, _, rfl⟩

/-- With no SWEEP pending a grant leaves the lane one entry shorter (R163, R173). -/
theorem grantNote_shorter (h : q.sweepPending = []) (hlane : q.noteLane ≠ []) :
    (q.grantNote now).noteLane.length < q.noteLane.length := by
  obtain ⟨n, ns, hq⟩ := List.exists_cons_of_ne_nil hlane
  obtain ⟨m, ms, hm⟩ := messages_ne_nil n
  have hlost := lose_of_none (q := { q with noteLane := ns, lastGrant := some .note, grantCount := min (q.grantCount + 1) 16 }) h
  rw [grantNote_of_messages hq hm, hlost, hq]
  exact Nat.lt_succ_self _

theorem grantsNow_of_busy {w : Wire} (hw : q.wire = some w) (h : now < w.ends) : q.grantsNow now = false := by
  have hdue : (q.dueEnded now).wire = some w ∧ (q.dueEnded now).noteLane = q.noteLane := by
    unfold PortState.dueEnded
    rw [hw]
    dsimp only
    rw [if_neg (Nat.not_le.mpr h)]
    exact ⟨rfl, rfl⟩
  rw [PortState.grantsNow, choose_of_busy (by rw [hdue.1]; exact nofun), hdue.2]
  exact decide_eq_false (Nat.lt_irrefl _)

/-- The port as its next choice finds it at this instant. -/
theorem grantsNow_iff {y : PortState} (hy : q.dueEnded now = y) (hlane : y.noteLane = q.noteLane) (hsweep : y.sweepPending = []) :
    q.grantsNow now = true ↔ q.noteLane ≠ [] ∧ y.choose now = (y.grantNote now, false) := by
  rw [PortState.grantsNow, hy, decide_eq_true_iff]
  constructor
  · intro hlt
    refine ⟨fun h0 => by rw [h0] at hlt; exact Nat.not_lt_zero _ hlt, (choose_noteLane y now).resolve_right fun hsame => ?_⟩
    rw [hsame, hlane] at hlt
    exact Nat.lt_irrefl _ hlt
  · rintro ⟨hne, hchoice⟩
    rw [hchoice, ← hlane]
    exact grantNote_shorter hsweep (hlane.symm ▸ hne)

theorem dueEnded_of_idle (hw : q.wire = none) : q.dueEnded now =
    { q with settleDue := q.settleDue.filter (fun d => decide (now < d)), sweepPending := [] } := by
  unfold PortState.dueEnded
  rw [hw]

theorem dueEnded_of_due {w : Wire} (hw : q.wire = some w) (h : w.ends ≤ now) : q.dueEnded now =
    ({ q with settleDue := q.settleDue.filter (fun d => decide (now < d)), sweepPending := [] } : PortState).itemEnded w now := by
  unfold PortState.dueEnded
  rw [hw]
  exact if_pos h

end

/-! ### An entry offered (R171, R172) -/

section
variable {q : PortState} {now : Nat} {e : NoteEntry}

theorem offer_of_settle {c : Chan} {k v : Nat} (he : e = .noteOn c k v) (hp : q.settings.policy = .drop) (hc : q.changing = true) :
    q.offer now e = { port := { q with settleDrop := min (q.settleDrop + 1) 65535 }, accepted := false, withdrawn := none,
                      overflowed := false } := by
  rw [he]
  exact if_pos (by rw [hp, hc]; rfl)

theorem annihilation_of_off {c : Chan} {k v : Nat}
    (h : 64 ≤ q.noteLane.length ∨ q.settings.policy ≠ .pass ∧ q.changing = true) :
    q.annihilation (.noteOff c k v) = (annihilate c k q.noteLane).map (fun lane => (c, k, lane)) := by
  refine if_pos ?_
  rw [Bool.or_eq_true, Bool.and_eq_true, decide_eq_true_iff, decide_eq_true_iff]
  exact h

theorem offer_of_annihilation {c : Chan} {k : Nat} {lane : List NoteEntry} (he : e.isNoteOn = false)
    (h : q.annihilation e = some (c, k, lane)) : q.offer now e =
      { port := ({ q with noteLane := lane } : PortState).lose, accepted := false, withdrawn := some (c, k), overflowed := false } := by
  rw [PortState.offer, if_neg (by rw [he]; exact nofun), h]

/-- An entry that no policy drops and that annihilates nothing. -/
structure Plain (q : PortState) (e : NoteEntry) : Prop where
  kept : ∀ c k v, e = .noteOn c k v → q.settings.policy ≠ .drop ∨ q.changing = false
  stays : q.annihilation e = none

theorem plain_of (hon : ∀ c k v, e = .noteOn c k v → q.settings.policy ≠ .drop ∨ q.changing = false)
    (hoff : ∀ c k v, e = .noteOff c k v → q.noteLane.length < 64 ∧ (q.settings.policy = .pass ∨ q.changing = false) ∨
      ∀ as w bs, q.noteLane = as ++ .noteOn c k w :: bs → ∃ a, NoteEntry.noteOff c k a ∈ bs) : Plain q e := by
  refine ⟨hon, ?_⟩
  unfold PortState.annihilation
  split
  · rename_i c k v
    split
    · rename_i hcond
      rcases hoff c k v rfl with ⟨hlen, hpass⟩ | hlast
      · rw [Bool.or_eq_true, Bool.and_eq_true, decide_eq_true_iff, decide_eq_true_iff] at hcond
        rcases hcond with hfull | ⟨hpolicy, hchanging⟩
        · exact absurd hlen (Nat.not_lt.mpr hfull)
        · rcases hpass with hp | hp
          · exact absurd hp hpolicy
          · exact nomatch hp.symm.trans hchanging
      · rw [annihilate_of_none hlast]
        rfl
    · rfl
  · rfl

theorem offer_of_plain (h : Plain q e) : q.offer now e =
    if q.noteLane.length < Config.noteLaneMax ∨ q.awaits now e = true then
      { port := { q with noteLane := q.noteLane ++ [e] }, accepted := true, withdrawn := none, overflowed := false }
    else q.offerFull e := by
  have hkept : ¬ (e.isNoteOn && decide (q.settings.policy = .drop) && q.changing) = true := by
    intro hall
    rw [Bool.and_eq_true, Bool.and_eq_true, decide_eq_true_iff] at hall
    obtain ⟨⟨hon, hpolicy⟩, hchanging⟩ := hall
    obtain ⟨c, k, v, rfl⟩ := (isNoteOn_iff e).mp hon
    rcases h.kept c k v rfl with hp | hp
    · exact hp hpolicy
    · exact nomatch hp.symm.trans hchanging
  rw [PortState.offer, if_neg hkept, h.stays]

theorem offer_of_place (h : Plain q e) (hroom : q.noteLane.length < 64 ∨ q.awaits now e = true) : q.offer now e =
    { port := { q with noteLane := q.noteLane ++ [e] }, accepted := true, withdrawn := none, overflowed := false } :=
  (offer_of_plain h).trans (if_pos hroom)

theorem offer_of_full (h : Plain q e) (hfull : 64 ≤ q.noteLane.length) (ha : q.awaits now e = false) :
    q.offer now e = q.offerFull e :=
  (offer_of_plain h).trans (if_neg (not_or.mpr ⟨Nat.not_lt.mpr hfull, by rw [ha]; exact nofun⟩))

/-! #### The full lane -/

theorem places_of_split {xs ws : List NoteEntry} (h : q.noteLane = xs ++ ws) (hlen : xs.length = 64) :
    q.places = xs ∧ q.waiting = ws := by
  unfold PortState.places PortState.waiting
  rw [h, show Config.noteLaneMax = xs.length from hlen.symm]
  exact ⟨List.take_left' rfl, List.drop_left' rfl⟩

theorem takeWhile_split {ps rs : List NoteEntry} (hp : ∀ x ∈ ps, x.isProgram = true)
    (hr : ∀ x, rs.head? = some x → x.isProgram = false) :
    (ps ++ rs).takeWhile NoteEntry.isProgram = ps ∧ (ps ++ rs).dropWhile NoteEntry.isProgram = rs := by
  have hstop : rs.takeWhile NoteEntry.isProgram = [] ∧ rs.dropWhile NoteEntry.isProgram = rs := by
    cases rs with
    | nil => exact ⟨rfl, rfl⟩
    | cons x xs =>
      have hx := hr x rfl
      exact ⟨List.takeWhile_cons_of_neg (by rw [hx]; exact nofun), List.dropWhile_cons_of_neg (by rw [hx]; exact nofun)⟩
  rw [List.takeWhile_append_of_pos hp, List.dropWhile_append_of_pos hp, hstop.1, hstop.2, List.append_nil]
  exact ⟨rfl, rfl⟩

theorem offerFull_of_on {xs ws as bs ps rs : List NoteEntry} {c : Chan} {k v : Nat} (h : q.noteLane = xs ++ ws) (hlen : xs.length = 64)
    (hxs : xs = as ++ .noteOn c k v :: bs) (hbs : ∀ x ∈ bs, x.isNoteOn = false) (hws : ws = ps ++ rs)
    (hp : ∀ x ∈ ps, x.isProgram = true) (hr : ∀ x, rs.head? = some x → x.isProgram = false) : q.offerFull e =
      { port := { q with noteLane := as ++ bs ++ ps ++ [e] ++ rs, noteDiscard := min (q.noteDiscard + 1) 65535 },
        accepted := true, withdrawn := some (c, k), overflowed := false } := by
  obtain ⟨hplaces, hwaiting⟩ := places_of_split h hlen
  obtain ⟨htake, hdrop⟩ := takeWhile_split hp hr
  rw [PortState.offerFull, hplaces, hxs, removeNewestOn_of_last hbs]
  dsimp only
  rw [hwaiting, hws, htake, hdrop, List.append_assoc _ [e] rs]
  rfl

theorem offerFull_of_none {xs ws : List NoteEntry} (h : q.noteLane = xs ++ ws) (hlen : xs.length = 64)
    (hxs : ∀ x ∈ xs, x.isNoteOn = false) : q.offerFull e =
      { port := { q with
          overflow := min (q.overflow + 1) 65535
          sweepPending := if e.chan ∈ q.sweepPending then q.sweepPending else q.sweepPending ++ [e.chan] },
        accepted := false, withdrawn := none, overflowed := true } := by
  rw [PortState.offerFull, (places_of_split h hlen).1, removeNewestOn_of_none hxs]
  rfl

end

/-! ### An entry meets the full lane at the end of its instant (R172, R178) -/

section
variable {p : Port} {s : State} {e : NoteEntry}

/-- The entry that the end of the instant decides, and what becomes of it. -/
theorem meetFull_of_some {o : Offered} (h : (s.port p).unplaced = some e)
    (ho : ({ s.port p with noteLane := (s.port p).places ++ (s.port p).waiting.erase e } : PortState).offerFull e = o) :
    meetFull p s = if o.accepted then reportOffer p o s else dropReport p e (reportOffer p o s) := by
  rw [meetFull, h, ← ho]

theorem unplaced_of_split {xs ws : List NoteEntry} {q : PortState} (h : q.noteLane = xs ++ ws) (hlen : xs.length = 64) :
    q.unplaced = ws.find? (fun e => !e.isProgram || xs.any NoteEntry.isNoteOn) := by
  obtain ⟨hplaces, hwaiting⟩ := places_of_split h hlen
  rw [PortState.unplaced, hplaces, hwaiting]

theorem anyOn_of_none {xs : List NoteEntry} (h : ∀ x ∈ xs, x.isNoteOn = false) : xs.any NoteEntry.isNoteOn = false :=
  List.any_eq_false.mpr fun x hx => by rw [h x hx]; exact nofun

/-- Where no NOTE_ON stands in the places, the oldest entry that is no PROGRAM entry is decided (log 37). -/
theorem unplaced_of_none {xs ps es : List NoteEntry} {q : PortState} (h : q.noteLane = xs ++ (ps ++ e :: es)) (hlen : xs.length = 64)
    (hxs : ∀ x ∈ xs, x.isNoteOn = false) (hps : ∀ x ∈ ps, x.isProgram = true) (he : e.isProgram = false) : q.unplaced = some e := by
  have hnone : ps.find? (fun e => !e.isProgram || xs.any NoteEntry.isNoteOn) = none :=
    List.find?_eq_none.mpr fun x hx => by rw [hps x hx, anyOn_of_none hxs]; exact nofun
  rw [unplaced_of_split h hlen, List.find?_append, hnone, Option.none_or, List.find?_cons_of_pos (by rw [he]; rfl)]

/-- The decided entry goes from among those that wait. -/
theorem erase_of_split {ps es : List NoteEntry} (hps : ∀ x ∈ ps, x.isProgram = true) (he : e.isProgram = false) :
    (ps ++ e :: es).erase e = ps ++ es := by
  have hmem : e ∉ ps := fun hmem => nomatch he.symm.trans (hps e hmem)
  rw [List.erase_append_right _ hmem, List.erase_cons_head]

/-- The entry to which the place of a NOTE_ON goes is the oldest that waits (R172). -/
theorem meetFull_of_on {xs ws as bs ps rs : List NoteEntry} {c : Chan} {k v : Nat} (h : (s.port p).noteLane = xs ++ ws)
    (hlen : xs.length = 64) (hxs : xs = as ++ .noteOn c k v :: bs) (hbs : ∀ x ∈ bs, x.isNoteOn = false) (hws : ws = e :: ps ++ rs)
    (hp : ∀ x ∈ ps, x.isProgram = true) (hr : ∀ x, rs.head? = some x → x.isProgram = false) : meetFull p s =
      withdraw { port := p, chan := c, key := k } (s.setPort p { s.port p with
        noteLane := as ++ bs ++ ps ++ [e] ++ rs
        noteDiscard := min ((s.port p).noteDiscard + 1) 65535 }) := by
  obtain ⟨hplaces, hwaiting⟩ := places_of_split h hlen
  have hon : xs.any NoteEntry.isNoteOn = true := by
    rw [hxs]
    exact List.any_eq_true.mpr ⟨_, List.mem_append_right _ List.mem_cons_self, rfl⟩
  have hunplaced : (s.port p).unplaced = some e := by
    rw [unplaced_of_split h hlen, hws]
    exact List.find?_cons_of_pos (by rw [hon, Bool.or_true])
  have herase : (s.port p).waiting.erase e = ps ++ rs := by
    rw [hwaiting, hws, List.cons_append, List.erase_cons_head]
  have hmet := offerFull_of_on (q := { s.port p with noteLane := (s.port p).places ++ (s.port p).waiting.erase e }) (e := e)
    (by rw [hplaces]) hlen hxs hbs herase hp hr
  rw [meetFull_of_some hunplaced hmet]
  rfl

theorem meetFull_of_drop {xs ps es : List NoteEntry} (h : (s.port p).noteLane = xs ++ (ps ++ e :: es)) (hlen : xs.length = 64)
    (hxs : ∀ x ∈ xs, x.isNoteOn = false) (hps : ∀ x ∈ ps, x.isProgram = true) (he : e.isProgram = false) : meetFull p s =
      dropReport p e (takeFault .noteLaneOverflow (.port p) (s.setPort p { s.port p with
        noteLane := xs ++ ps ++ es
        overflow := min ((s.port p).overflow + 1) 65535
        sweepPending := if e.chan ∈ (s.port p).sweepPending then (s.port p).sweepPending else (s.port p).sweepPending ++ [e.chan] })) := by
  obtain ⟨hplaces, hwaiting⟩ := places_of_split h hlen
  have hmet := offerFull_of_none (q := { s.port p with noteLane := (s.port p).places ++ (s.port p).waiting.erase e }) (e := e)
    (by rw [hplaces]) hlen hxs
  rw [meetFull_of_some (unplaced_of_none h hlen hxs hps he) hmet, hplaces, hwaiting, erase_of_split hps he, List.append_assoc]
  rfl

theorem dropReport_of_other (h : e.isNoteOn = false) (s : State) : dropReport p e s = s := by
  cases e with
  | noteOn c k v => exact nomatch h
  | noteOff | polyPressure | pedal | program | sweep => rfl

end

/-! ### What the note table and the fault record hear of an offer (R171, R172, R174) -/

section
variable {p : Port} {e : NoteEntry} {s : State}

theorem offerNote_of_silent (hw : ((s.port p).offer s.now e).withdrawn = none) (ho : ((s.port p).offer s.now e).overflowed = false) :
    offerNote p e s = s.setPort p ((s.port p).offer s.now e).port := by
  rw [offerNote, reportOffer, hw, ho]
  rfl

theorem offerNote_of_overflow (hw : ((s.port p).offer s.now e).withdrawn = none) (ho : ((s.port p).offer s.now e).overflowed = true) :
    offerNote p e s = takeFault .noteLaneOverflow (.port p) (s.setPort p ((s.port p).offer s.now e).port) := by
  rw [offerNote, reportOffer, hw, ho]
  rfl

theorem offerNote_of_withdrawal {c : Chan} {k : Nat} (hw : ((s.port p).offer s.now e).withdrawn = some (c, k))
    (ho : ((s.port p).offer s.now e).overflowed = false) : offerNote p e s =
      withdraw { port := p, chan := c, key := k } (s.setPort p ((s.port p).offer s.now e).port) := by
  rw [offerNote, reportOffer, hw, ho]
  rfl

end

/-! ### The reports to the record (R143 to R145) -/

section
variable {p : Port} {s : State} {r : Changeover}

theorem reportTransmitted_of_none (k : Bool) (h : s.changeover = none) : reportTransmitted p k s = s := by
  rw [reportTransmitted, h]

theorem reportSettleEnd_of_none (h : s.changeover = none) : reportSettleEnd p s = s := by rw [reportSettleEnd, h]

theorem listed_iff (ps : List PortEntry) : ps.any (fun e => decide (e.port = p)) = true ↔ ∃ e ∈ ps, e.port = p := by simp

theorem reportTransmitted_of_other (k : Bool) (h : s.changeover = some r) (hp : ¬ ∃ e ∈ r.ports, e.port = p) :
    reportTransmitted p k s = s := by
  rw [reportTransmitted, h]
  exact if_neg (mt (listed_iff r.ports).mp hp)

theorem reportSettleEnd_of_other (h : s.changeover = some r) (hp : ¬ ∃ e ∈ r.ports, e.port = p) : reportSettleEnd p s = s := by
  rw [reportSettleEnd, h]
  exact if_neg (mt (listed_iff r.ports).mp hp)

theorem reportTransmitted_of_listed (k : Bool) (h : s.changeover = some r) (hp : ∃ e ∈ r.ports, e.port = p) :
    reportTransmitted p k s = completeIfDone { s with
      changeover := some (r.mapEntry p (fun e => { e with outstanding := e.outstanding - 1, settling := k })) } := by
  rw [reportTransmitted, h]
  exact if_pos ((listed_iff r.ports).mpr hp)

theorem reportSettleEnd_of_listed (h : s.changeover = some r) (hp : ∃ e ∈ r.ports, e.port = p) :
    reportSettleEnd p s = completeIfDone { s with changeover := some (r.mapEntry p (fun e => { e with settling := false })) } := by
  rw [reportSettleEnd, h]
  exact if_pos ((listed_iff r.ports).mpr hp)

/-- A record completes where no entry of its port list has anything left (R145). -/
theorem completed_eq {w : Changeover → State}
    (hdone : ∀ x : Changeover, (∀ e ∈ x.ports, e.outstanding = 0 ∧ e.settling = false) → w x =
      { raise (.change .done x 0 0 (s.sceneName x.slot x.scene)) { s with changeover := some x } with changeover := none })
    (hleft : ∀ x : Changeover, (∃ e ∈ x.ports, 0 < e.outstanding ∨ e.settling = true) → w x = { s with changeover := some x })
    (x : Changeover) : completeIfDone { s with changeover := some x } = w x := by
  by_cases h : ∀ e ∈ x.ports, e.outstanding = 0 ∧ e.settling = false
  · rw [completeIfDone_of_done (r := x) rfl h, hdone x h]
    rfl
  · have hsome : ∃ e ∈ x.ports, 0 < e.outstanding ∨ e.settling = true := by
      by_contra hno
      refine h fun e he => ?_
      have hnone := not_exists.mp hno e
      cases hs : e.settling with
      | true => exact absurd ⟨he, .inr hs⟩ hnone
      | false => exact ⟨Nat.le_zero.mp (Nat.not_lt.mp fun hlt => hnone ⟨he, .inl hlt⟩), rfl⟩
    rw [completeIfDone_of_left (r := x) rfl hsome, hleft x hsome]

end

/-! ### The timers of a port (R167 to R169) -/

section
variable {p : Port} {s : State}

theorem settleExpiry_of_none (h : (s.port p).settleDue = none) : settleExpiry p s = s := by rw [settleExpiry, h]

theorem settleExpiry_of_some {d : Nat} (h : (s.port p).settleDue = some d) : settleExpiry p s =
    reportSettleEnd p (({ s with now := max s.now d } : State).setPort p { s.port p with settleDue := none }) := by
  rw [settleExpiry, h]
  rfl

theorem keepAliveExpiry_of_none (h : (s.port p).keepAliveDue = none ∨ (s.port p).wire ≠ none) : keepAliveExpiry p s = s := by
  unfold keepAliveExpiry
  split
  · rfl
  · rename_i d hd
    exact if_pos (Option.isSome_iff_ne_none.mpr (h.resolve_left (by rw [hd]; exact nofun)))

theorem keepAliveExpiry_of_some {d : Nat} (h : (s.port p).keepAliveDue = some d) (hw : (s.port p).wire = none) :
    keepAliveExpiry p s = ({ s with now := max s.now d } : State).setPort p ((s.port p).beginByte (max s.now d) 0xFE#8) := by
  rw [keepAliveExpiry, h]
  exact if_neg (by rw [hw]; exact nofun)

theorem intervalExpiry_of_none (h : (s.port p).nextInterval s.now = none) : intervalExpiry p s = s := by rw [intervalExpiry, h]

theorem intervalExpiry_of_some {d : Nat} (h : (s.port p).nextInterval s.now = some d) :
    intervalExpiry p s = { s with now := max s.now d } := by
  rw [intervalExpiry, h]
  rfl

end

section
variable {q : PortState} {now : Nat}

/-- A slot that is dirty and whose interval still runs (R167). -/
theorem pausing_iff (y : MergeSlot) : (y.dirtied?.isSome && !y.elapsed q.settings.interval now) = true ↔
    (∃ a, y.state = .dirty a) ∧ ∃ e, y.sent = some e ∧ now < e + q.settings.interval * 1000 := by
  rw [Bool.and_eq_true, Option.isSome_iff_exists, Bool.not_eq_true', ← Bool.not_eq_true, elapsed_iff]
  simp only [dirtied_iff, not_forall, Nat.not_le, exists_prop]

theorem nextInterval_of_none (h : ∀ m ∈ q.slots, ∀ a, m.state = .dirty a → ∀ e, m.sent = some e →
    e + q.settings.interval * 1000 ≤ now) : q.nextInterval now = none := by
  have hnone : q.slots.filter (fun m => m.dirtied?.isSome && !m.elapsed q.settings.interval now) = [] :=
    List.filter_eq_nil_iff.mpr fun m hm hq => by
      obtain ⟨⟨a, ha⟩, e, he, hlt⟩ := (pausing_iff m).mp hq
      exact Nat.not_le.mpr hlt (h m hm a ha e he)
  rw [PortState.nextInterval, hnone]
  rfl

theorem nextInterval_of_some {m : MergeSlot} {a e : Nat} (hm : m ∈ q.slots) (ha : m.state = .dirty a) (he : m.sent = some e)
    (hlt : now < e + q.settings.interval * 1000) (hleast : ∀ m' ∈ q.slots, ∀ a' e', m'.state = .dirty a' → m'.sent = some e' →
      now < e' + q.settings.interval * 1000 → e ≤ e') : q.nextInterval now = some (e + q.settings.interval * 1000) := by
  have hmem : m ∈ q.slots.filter (fun m => m.dirtied?.isSome && !m.elapsed q.settings.interval now) :=
    List.mem_filter.mpr ⟨hm, (pausing_iff m).mpr ⟨⟨a, ha⟩, e, he, hlt⟩⟩
  rw [PortState.nextInterval]
  rcases hy : earliest (fun m => m.sent.getD 0)
    (q.slots.filter (fun m => m.dirtied?.isSome && !m.elapsed q.settings.interval now)) with _ | y
  · rw [earliest_none] at hy
    rw [hy] at hmem
    exact absurd hmem List.not_mem_nil
  · obtain ⟨hy1, hy2⟩ := earliest_some _ _ _ hy
    obtain ⟨hslot, hpause⟩ := List.mem_filter.mp hy1
    obtain ⟨⟨a', ha'⟩, e', he', hlt'⟩ := (pausing_iff y).mp hpause
    have hle := hleast y hslot a' e' ha' he' hlt'
    have hge := hy2 m hmem
    rw [he, he'] at hge
    rw [hy, Option.map_some, he']
    exact congrArg (fun n => some (n + q.settings.interval * 1000)) (Nat.le_antisymm hge hle)

end

/-- Settles O60: what the lane, the note table and the record make of an entry, each case from its own split of the lane. -/
theorem portTimersTable : Obligations.PortTimersTable := by
  unfold Obligations.PortTimersTable
  refine ⟨fun p s q hq => ⟨fun h => ?_, fun d h hat => ?_, fun h => ?_, fun d n h hw hn hat => ?_, fun h => ?_,
      fun m a e n hm ha he hn hlt hplaces hleast => ?_⟩, fun p s => ⟨fun h k => ⟨reportTransmitted_of_none k h,
      reportSettleEnd_of_none h⟩, fun r hr => ⟨fun hp k => ?_, fun hp w hdone hleft => ⟨fun k => ?_, ?_⟩⟩⟩,
    fun q => ⟨changing_iff, lose_of_full, fun hl => ⟨lose_of_none, fun c cs => lose_of_some hl⟩⟩,
    fun q now => ⟨fun w => grantsNow_of_busy, fun x y hx hidle hdue => ?_⟩, fun q now e => ⟨awaits_of_program, awaits_of_other⟩,
    fun q now e o ho => ⟨fun c k v he hp hc => ho.trans (offer_of_settle he hp hc), fun c k v he hcond as w bs hlane hbs => ?_,
      fun hon hoff => ⟨fun hroom => ?_, fun hfull ha => ?_, fun xs ws hlane hlen ha => ⟨fun as c k v bs ps rs hxs hbs hws hps hrs => ?_,
        fun hxs => ?_⟩⟩⟩, fun a s => ⟨withdraw_of_silent, fun hs h ds => withdraw_of_sounding⟩, fun p s => ?_,
    fun p s q hq => ⟨fun h => ?_, fun xs ws hlane hlen => ⟨fun hxs hws => ?_, fun as c k v bs e ps rs hxs hbs hws hps hrs => ?_,
      fun ps e es hxs hws hps he t ht => ⟨fun c k v hon => ?_, fun hoff => ?_⟩⟩⟩,
    fun p e s o ho t ht => ⟨by rw [ho]; rfl, fun hw hov => ?_, fun hw hov => ?_, fun c k hw hov a ha => ⟨fun hsilent => ?_,
      fun hs h ds hheld hh hds => ?_⟩⟩⟩
  · subst hq
    rw [exec_of_undue (c := .settleTimerExpiry p) h]
    exact congrArg (fun u => Host.Outcome.next (finish u)) (settleExpiry_of_none h)
  · subst hq
    rw [exec_of_at (c := .settleTimerExpiry p) h hat]
    exact congrArg (fun u => Host.Outcome.next (finish u)) (settleExpiry_of_some h)
  · subst hq
    have hnone : dueOf (.keepAliveExpiry p) s = none := by
      rw [dueOf]
      rcases h with h | h
      · rw [h, ite_self]
      · rw [if_pos (Option.isSome_iff_ne_none.mpr h)]
    rw [exec_of_undue hnone]
    exact congrArg (fun u => Host.Outcome.next (finish u)) (keepAliveExpiry_of_none h)
  · subst hq hn
    have hsome : dueOf (.keepAliveExpiry p) s = some d := by rw [dueOf, if_neg (by rw [hw]; exact nofun), h]
    rw [exec_of_at hsome hat]
    exact congrArg (fun u => Host.Outcome.next (finish u)) (keepAliveExpiry_of_some h hw)
  · subst hq
    have hnone := nextInterval_of_none h
    rw [exec_of_undue (c := .controllerIntervalExpiry p) hnone]
    exact congrArg (fun u => Host.Outcome.next (finish u)) (intervalExpiry_of_none hnone)
  · subst hq hn
    have hsome := nextInterval_of_some hm ha he hlt hleast
    rw [exec_of_at (c := .controllerIntervalExpiry p) hsome (.inr hplaces)]
    refine (congrArg (fun u => Host.Outcome.next (finish u)) (intervalExpiry_of_some hsome)).trans ?_
    rw [Nat.max_eq_right (Nat.le_of_lt hlt)]
  · have hno : ¬ ∃ e ∈ r.ports, e.port = p := fun ⟨e, he, hpe⟩ => hp e he hpe
    exact ⟨reportTransmitted_of_other k hr hno, reportSettleEnd_of_other hr hno⟩
  · rw [reportTransmitted_of_listed k hr hp, completed_eq hdone hleft]
    rfl
  · rw [reportSettleEnd_of_listed hr hp, completed_eq hdone hleft]
    rfl
  · rcases hw : q.wire with _ | w
    · have hy : q.dueEnded now = y := by rw [dueEnded_of_idle hw, hidle hw, hx]
      rw [hidle hw] at hy ⊢
      exact grantsNow_iff hy (by rw [hx]) (by rw [hx])
    · obtain ⟨hends, hyx⟩ := hdue w hw
      have hy : q.dueEnded now = y := by rw [dueEnded_of_due hw hends, hyx, hx]
      obtain ⟨hlane, hsweep, -⟩ := itemEnded_reads x w now
      exact grantsNow_iff hy (by rw [hyx, hlane, hx]) (by rw [hyx, hsweep, hx])
  · have hann : q.annihilation e = some (c, k, as ++ bs) := by
      rw [he, annihilation_of_off hcond, hlane, annihilate_of_last hbs]
      rfl
    exact ho.trans (offer_of_annihilation (by rw [he]; rfl) hann)
  · exact ho.trans (offer_of_place (plain_of hon hoff) (.inl hroom))
  · exact ho.trans (offer_of_place (plain_of hon hoff) (.inr ha))
  · have hfull : 64 ≤ q.noteLane.length := by rw [hlane, List.length_append]; omega
    exact (ho.trans (offer_of_full (plain_of hon hoff) hfull ha)).trans (offerFull_of_on hlane hlen hxs hbs hws hps hrs)
  · have hfull : 64 ≤ q.noteLane.length := by rw [hlane, List.length_append]; omega
    exact (ho.trans (offer_of_full (plain_of hon hoff) hfull ha)).trans (offerFull_of_none hlane hlen hxs)
  · rw [meetFulls, waiting_length]
  · subst hq
    exact meetFull_of_none (unplaced_of_le h)
  · subst hq
    refine meetFull_of_none ?_
    rw [unplaced_of_split hlane hlen]
    exact List.find?_eq_none.mpr fun x hx => by rw [hws x hx, anyOn_of_none hxs]; exact nofun
  · subst hq
    exact meetFull_of_on hlane hlen hxs hbs hws hps hrs
  · subst hq
    rw [hws] at hlane
    rw [meetFull_of_drop hlane hlen hxs hps he, ← ht, hon]
    rfl
  · subst hq
    rw [hws] at hlane
    rw [meetFull_of_drop hlane hlen hxs hps he, ← ht, dropReport_of_other hoff]
  · rw [ho] at hw hov
    rw [offerNote_of_silent hw hov, ← ho, ← ht]
  · rw [ho] at hw hov
    rw [offerNote_of_overflow hw hov, ← ho, ← ht]
  · rw [ho] at hw hov
    rw [offerNote_of_withdrawal hw hov, ← ho, ← ht, ← ha]
    exact withdraw_of_silent (by rw [ht]; exact hsilent)
  · rw [ho] at hw hov
    rw [offerNote_of_withdrawal hw hov, ← ho, ← ht, ← ha]
    exact withdraw_of_sounding (by rw [ht]; exact hheld) hh hds

end Sys2Proof.Proofs.PortTimers
end

section
/-! The note table (chapter 2): release, note-on with steal and claim, note-off, pressure and the pedal records. -/

namespace Sys2Proof.Proofs.NoteTables

open Sys2Proof.Machine Sys2Proof.Laws Sys2Proof.Proofs Sys2Proof.Proofs.Lanes Sys2Proof.Proofs.PortTimers

/-! ### Holders and sounding triples (R22) -/

section
variable {held : List HeldEntry} {t : Triple}

theorem soundingIn_iff : soundingIn held t = true ↔ ∃ e ∈ held, ∃ x ∈ e.targets, x.triple = t ∧ x.sent = true := by
  unfold soundingIn
  rw [List.any_eq_true]
  simp only [sounds_iff]

theorem silentIn_iff : soundingIn held t = false ↔ ∀ e ∈ held, ∀ x ∈ e.targets, x.triple = t → x.sent = false := by
  unfold soundingIn
  rw [List.any_eq_false]
  simp only [Bool.not_eq_true, silent_iff]

theorem lists_iff (e : HeldEntry) : e.lists t = true ↔ ∃ x ∈ e.targets, x.triple = t := by
  simp [HeldEntry.lists]

theorem holderCount_eq : holderCount held t = (held.filter (fun e => decide (∃ x ∈ e.targets, x.triple = t))).length := by
  unfold holderCount
  refine congrArg List.length (List.filter_congr fun e _ => ?_)
  exact Bool.eq_iff_iff.mpr ((lists_iff e).trans decide_eq_true_iff.symm)

theorem holderCount_zero_iff : holderCount held t = 0 ↔ ∀ e ∈ held, ∀ x ∈ e.targets, x.triple ≠ t := by
  unfold holderCount
  rw [List.length_eq_zero_iff, List.filter_eq_nil_iff]
  refine forall₂_congr fun e _ => ?_
  rw [lists_iff]
  exact ⟨fun h x hx ht => h ⟨x, hx, ht⟩, fun h ⟨x, hx, ht⟩ => h x hx ht⟩

end

/-! ### The entry of a source (R20) -/

/-- A table at the entry of a source. -/
structure EntryAt (src : Source) (held as : List HeldEntry) (e : HeldEntry) (bs : List HeldEntry) : Prop where
  held : held = as ++ e :: bs
  source : e.source = src
  others : ∀ y ∈ as ++ bs, y.source ≠ src

section
variable {src : Source} {s : State} {held as bs : List HeldEntry} {e : HeldEntry}

theorem EntryAt.map (h : EntryAt src held as e bs) (f : HeldEntry → HeldEntry) :
    held.map (fun y => if y.source = src then f y else y) = as ++ f e :: bs := by
  have hkeep : ∀ xs : List HeldEntry, (∀ y ∈ xs, y.source ≠ src) → xs.map (fun y => if y.source = src then f y else y) = xs :=
    fun xs hxs => (List.map_congr_left fun y hy => if_neg (hxs y hy)).trans (List.map_id xs)
  rw [h.held, List.map_append, List.map_cons, if_pos h.source, hkeep as fun y hy => h.others y (List.mem_append_left _ hy),
    hkeep bs fun y hy => h.others y (List.mem_append_right _ hy)]

theorem EntryAt.filter (h : EntryAt src held as e bs) : held.filter (fun y => decide (y.source ≠ src)) = as ++ bs := by
  rw [h.held, List.filter_append, List.filter_cons_of_neg (by rw [h.source]; simp), ← List.filter_append]
  exact List.filter_eq_self.mpr fun y hy => decide_eq_true (h.others y hy)

theorem EntryAt.entryOf (h : EntryAt src s.held as e bs) : s.entryOf src = some e := by
  have hnone : as.find? (fun y => decide (y.source = src)) = none :=
    List.find?_eq_none.mpr fun y hy => by simpa using h.others y (List.mem_append_left _ hy)
  rw [State.entryOf, h.held, List.find?_append, hnone, Option.none_or]
  exact List.find?_cons_of_pos (decide_eq_true h.source)

theorem entryOf_source (h : s.entryOf src = some e) : e.source = src := by
  simpa using List.find?_some h

theorem entryOf_mem (h : s.entryOf src = some e) : e ∈ s.held := List.mem_of_find?_eq_some h

theorem entryOf_none_iff : s.entryOf src = none ↔ ∀ y ∈ s.held, y.source ≠ src := by
  rw [State.entryOf, List.find?_eq_none]
  simp only [decide_eq_true_eq, ne_eq]

/-- A table with no two entries of one source, parted at one of them. -/
theorem entryAt_of_nodup (hn : (held.map (fun e => e.source)).Nodup) (hheld : held = as ++ e :: bs) :
    EntryAt e.source held as e bs := by
  refine ⟨hheld, rfl, fun y hy he => ?_⟩
  rw [hheld] at hn
  have hperm : ((as ++ e :: bs).map (fun e => e.source)).Perm ((e :: (as ++ bs)).map (fun e => e.source)) :=
    List.perm_middle.map _
  have hnodup := hperm.nodup_iff.mp hn
  rw [List.map_cons, List.nodup_cons] at hnodup
  exact hnodup.1 (List.mem_map.mpr ⟨y, hy, he⟩)

theorem at_of_entry (hn : (s.held.map (fun e => e.source)).Nodup) (h : s.entryOf src = some e) :
    ∃ as bs, EntryAt src s.held as e bs := by
  obtain ⟨as, bs, hheld⟩ := List.append_of_mem (entryOf_mem h)
  exact ⟨as, bs, entryOf_source h ▸ entryAt_of_nodup hn hheld⟩

end

/-! ### Release (R24) -/

section
variable {src : Source} {v : Nat} {s u : State} {as bs : List HeldEntry} {e : HeldEntry} {ts us : List HeldTarget} {x : HeldTarget}

/-- The entry without its releasing target. -/
theorem drop_split (ht : e.targets = ts ++ x :: us) (hx : ∀ y ∈ ts ++ us, y.triple ≠ x.triple) :
    e.drop x.triple = { e with targets := ts ++ us } := by
  rw [HeldEntry.drop, ht, List.filter_append, List.filter_cons_of_neg (by simp), ← List.filter_append,
    List.filter_eq_self.mpr fun y hy => decide_eq_true (hx y hy)]

theorem entry_sounds (ht : e.targets = ts ++ x :: us) (hx : ∀ y ∈ ts ++ us, y.triple ≠ x.triple) : e.sounds x.triple = x.sent := by
  refine Bool.eq_iff_iff.mpr ((sounds_iff e).trans ?_)
  rw [ht]
  constructor
  · rintro ⟨z, hz, htriple, hsent⟩
    have hzx : z = x := by
      by_contra hne
      refine hx z ?_ htriple
      rw [List.mem_append] at hz ⊢
      exact hz.imp_right fun h => (List.mem_cons.mp h).resolve_left hne
    rwa [← hzx]
  · exact fun h => ⟨x, by simp, rfl, h⟩

/-- A table sounds a triple by the entry that releases it or by another. -/
theorem sounding_split (h : EntryAt src s.held as e bs) (t : Triple) :
    soundingIn s.held t = (e.sounds t || soundingIn (as ++ bs) t) := by
  rw [h.held]
  unfold soundingIn
  rw [List.any_append, List.any_cons, List.any_append, Bool.or_left_comm]

/-- What a release turns on: who else lists the triple and who sounds it. -/
theorem releaseTarget_eq (h : EntryAt src s.held as e bs) (ht : e.targets = ts ++ x :: us)
    (hx : ∀ y ∈ ts ++ us, y.triple ≠ x.triple) (hu : u = { s with held := as ++ { e with targets := ts ++ us } :: bs }) :
    releaseTarget src v x.triple s =
      if holderCount u.held x.triple = 0 then
        if soundingIn s.held x.triple then offerNote x.triple.port (.noteOff x.triple.chan x.triple.key v) u else u
      else if x.sent && !soundingIn u.held x.triple then handOn x.triple u else u := by
  have hheld : s.held.map (fun y => if y.source = src then y.drop x.triple else y) = u.held := by
    rw [h.map fun y => y.drop x.triple, drop_split ht hx, hu]
  have hstate : ({ s with held := u.held } : State) = u := by rw [hu]
  unfold releaseTarget
  dsimp only
  rw [hheld, hstate, h.entryOf, Option.any_some, entry_sounds ht hx]

theorem mem_released {y : HeldEntry} {e' : HeldEntry} : y ∈ as ++ e' :: bs ↔ y = e' ∨ y ∈ as ++ bs := by
  rw [List.mem_append, List.mem_cons, List.mem_append]
  exact or_left_comm

/-- The entry that releases no longer lists the triple: whether one does depends on the others. -/
theorem released_all {q : HeldTarget → Prop} (hx : ∀ y ∈ ts ++ us, y.triple ≠ x.triple) :
    (∀ y ∈ as ++ { e with targets := ts ++ us } :: bs, ∀ z ∈ y.targets, z.triple = x.triple → q z) ↔
      ∀ y ∈ as ++ bs, ∀ z ∈ y.targets, z.triple = x.triple → q z := by
  constructor
  · exact fun h y hy => h y (mem_released.mpr (.inr hy))
  · rintro h y hy z hz ht
    rcases mem_released.mp hy with rfl | hy
    · exact absurd ht (hx z hz)
    · exact h y hy z hz ht

end

/-- Releases of targets in list order, the entry then removed (R24). -/
theorem releaseEntry_of_none {src : Source} {v : Nat} {s : State} (h : s.entryOf src = none) : releaseEntry src v s = s := by
  rw [releaseEntry, h]

theorem releaseTargets_eq (src : Source) (v : Nat) (ts : List HeldTarget) (s : State) :
    releaseTargets src v (ts.map (fun x => x.triple)) s = ts.foldl (fun u x => releaseTarget src v x.triple u) s :=
  List.foldl_map

theorem releaseEntry_of_some {src : Source} {v : Nat} {s : State} {e : HeldEntry} (h : s.entryOf src = some e) :
    releaseEntry src v s = removeEntry src (e.targets.foldl (fun u x => releaseTarget src v x.triple u) s) := by
  rw [releaseEntry, h, ← releaseTargets_eq]

theorem sources_released (src : Source) (v : Nat) (ts : List HeldTarget) (s : State) :
    sources (ts.foldl (fun u x => releaseTarget src v x.triple u) s).held = sources s.held :=
  sources_foldl _ (fun _ x => sources_releaseTarget src v x.triple _) ts s

/-! ### Steal (R26) -/

theorem stealVictim_of {held as bs : List HeldEntry} {v : HeldEntry} (h : held = as ++ v :: bs)
    (hv : v.state = .sustained ∧ (∀ y ∈ as, y.state = .down) ∨ as = [] ∧ ∀ y ∈ held, y.state = .down) :
    stealVictim held = some v := by
  have hfind : ∀ xs : List HeldEntry, (∀ y ∈ xs, y.state = .down) → xs.find? (fun e => decide (e.state = .sustained)) = none :=
    fun xs hxs => List.find?_eq_none.mpr fun y hy => by rw [hxs y hy]; exact nofun
  unfold stealVictim
  rcases hv with ⟨hs, has⟩ | ⟨rfl, hall⟩
  · have hfound : (v :: bs).find? (fun e => decide (e.state = .sustained)) = some v := List.find?_cons_of_pos (decide_eq_true hs)
    rw [h, List.find?_append, hfind as has, Option.none_or, hfound]
  · rw [hfind held hall, h]
    rfl

theorem steal_of {i : Input} {s : State} {v : HeldEntry} (h : stealVictim s.held = some v) : steal i s =
    takeFault .heldTableSteal (.input i) (raise (.steal v.source v.state v.scene)
      { releaseEntry v.source 64 s with stealCount := min ((releaseEntry v.source 64 s).stealCount + 1) 65535 }) := by
  rw [steal, h]
  rfl

theorem stealCountFree (n : Nat) : LaneFree (fun u => u.stealCount = n) :=
  { offered := raiseOn_free (fun u l _ h => by cases l <;> exact h), lane := fun _ _ _ _ h => h, flags := fun _ _ _ h => h
    fault := fun _ _ h => h }

theorem releaseEntry_stealCount (src : Source) (v : Nat) (s : State) : (releaseEntry src v s).stealCount = s.stealCount := by
  rcases h : s.entryOf src with _ | e
  · rw [releaseEntry_of_none h]
  · rw [releaseEntry, h]
    exact releaseTargets_of (stealCountFree s.stealCount) src v (fun _ _ h => h) _ rfl

/-! ### Claim (R25) -/

section
variable {src : Source} {x : HeldTarget} {s : State}

theorem othersSound_iff (src : Source) (t : Triple) (held : List HeldEntry) :
    soundingIn (held.filter (fun e => decide (e.source ≠ src))) t = true ↔
      ∃ y ∈ held, y.source ≠ src ∧ ∃ z ∈ y.targets, z.triple = t ∧ z.sent = true := by
  rw [soundingIn_iff]
  simp only [List.mem_filter, decide_eq_true_eq, and_assoc]

/-- The state that the NOTE_ON of a claim meets: a triple that another entry sounds has had its NOTE_OFF (R25). -/
abbrev retriggered (src : Source) (t : Triple) (s : State) : State :=
  if soundingIn (s.held.filter (fun e => decide (e.source ≠ src))) t then offerNote t.port (.noteOff t.chan t.key 64) s else s

theorem claim_eq (src : Source) (x : HeldTarget) (s : State) : claim src x s =
    if acceptsNote x.triple.port (.noteOn x.triple.chan x.triple.key x.velocity) (retriggered src x.triple s) then
      { offerNote x.triple.port (.noteOn x.triple.chan x.triple.key x.velocity) (retriggered src x.triple s) with
        held := (offerNote x.triple.port (.noteOn x.triple.chan x.triple.key x.velocity) (retriggered src x.triple s)).held.map
          (fun e => if e.source = src then e.setSent x.triple true else e) }
    else offerNote x.triple.port (.noteOn x.triple.chan x.triple.key x.velocity) (retriggered src x.triple s) := rfl

end

/-! ### A lane with room -/

theorem setPort_self (s : State) (p : Port) : s.setPort p (s.port p) = s := by
  unfold State.setPort State.port
  rw [Fin.getElem_fin, Vector.set_getElem_self]

section
variable {src : Source} {s : State} {e : HeldEntry} {as bs : List HeldEntry} {x : HeldTarget}

/-- No other entry lists what a sole holder does. -/
theorem others_of_sole (h : EntryAt src s.held as e bs) (ht : e.targets = [x]) (hc : holderCount s.held x.triple = 1) :
    ∀ y ∈ as ++ bs, ∀ z ∈ y.targets, z.triple ≠ x.triple := by
  have he : e.lists x.triple = true := (lists_iff e).mpr ⟨x, by rw [ht]; exact List.mem_singleton_self x, rfl⟩
  refine holderCount_zero_iff.mp ?_
  have hcons : (e :: bs).filter (fun e => e.lists x.triple) = e :: bs.filter (fun e => e.lists x.triple) :=
    List.filter_cons_of_pos he
  rw [h.held] at hc
  unfold holderCount at hc ⊢
  rw [List.filter_append, List.length_append, hcons, List.length_cons] at hc
  rw [List.filter_append, List.length_append]
  omega

/-- The release of a sole sounding holder with room in the lane (R24). -/
theorem releaseEntry_of_sole {v : Nat} (h : EntryAt src s.held as e bs) (ht : e.targets = [x]) (hx : x.sent = true)
    (hc : holderCount s.held x.triple = 1) (hroom : (s.port x.triple.port).noteLane.length < 64) (hcalm : calm (s.port x.triple.port)) :
    releaseEntry src v s = { s.setPort x.triple.port { s.port x.triple.port with
        noteLane := (s.port x.triple.port).noteLane ++ [.noteOff x.triple.chan x.triple.key v] } with
      held := s.held.filter (fun y => decide (y.source ≠ src)) } := by
  have hothers := others_of_sole h ht hc
  have hnone : ∀ y ∈ ([] : List HeldTarget) ++ [], y.triple ≠ x.triple := fun y hy => nomatch hy
  have hzero : holderCount (as ++ { e with targets := [] } :: bs) x.triple = 0 :=
    holderCount_zero_iff.mpr fun y hy => by
      rcases mem_released.mp hy with rfl | hy
      · exact fun z hz => nomatch hz
      · exact hothers y hy
  have hsounds : soundingIn s.held x.triple = true := by
    rw [sounding_split h, entry_sounds (ts := []) (us := []) ht hnone, hx]
    rfl
  have hleft : EntryAt src (as ++ { e with targets := [] } :: bs) as { e with targets := [] } bs := ⟨rfl, h.source, h.others⟩
  have hreleased : releaseTarget src v x.triple s = offerNote x.triple.port (.noteOff x.triple.chan x.triple.key v)
      { s with held := as ++ { e with targets := [] } :: bs } :=
    (releaseTarget_eq (ts := []) (us := []) h ht hnone rfl).trans ((if_pos hzero).trans (if_pos hsounds))
  rw [releaseEntry_of_some h.entryOf, ht, List.foldl_cons, List.foldl_nil, hreleased,
    (offerNote_room x.triple.port _ { s with held := as ++ { e with targets := [] } :: bs } hroom hcalm).1]
  refine congrArg (fun xs => ({ s.setPort x.triple.port { s.port x.triple.port with
    noteLane := (s.port x.triple.port).noteLane ++ [.noteOff x.triple.chan x.triple.key v] } with held := xs } : State)) ?_
  exact hleft.filter.trans h.filter.symm

/-- An entry as a note-on creates it (R25). -/
abbrev newEntry (src : Source) (scene : Nat) (x : HeldTarget) (sent : Bool) : HeldEntry :=
  { source := src, state := .down, scene, targets := [{ x with sent }] }

/-- The NOTE_OFF that goes before the NOTE_ON of a triple that sounds. -/
abbrev offBefore (held : List HeldEntry) (t : Triple) : List NoteEntry :=
  if soundingIn held t then [.noteOff t.chan t.key 64] else []

/-- The claim of the one target of a new entry, with room in the lane (R25). -/
theorem claim_of_room {scene : Nat} {hs : List HeldEntry} (hheld : s.held = hs ++ [newEntry src scene x false])
    (hno : ∀ y ∈ hs, y.source ≠ src)
    (hroom : (s.port x.triple.port).noteLane.length + (offBefore hs x.triple).length < 64) (hcalm : calm (s.port x.triple.port)) :
    claim src x s = { s.setPort x.triple.port { s.port x.triple.port with
        noteLane := (s.port x.triple.port).noteLane ++ offBefore hs x.triple ++ [.noteOn x.triple.chan x.triple.key x.velocity] } with
      held := hs ++ [newEntry src scene x true] } := by
  have hat : EntryAt src s.held hs (newEntry src scene x false) [] := ⟨hheld, rfl, fun y hy => hno y (by simpa using hy)⟩
  have hothers : s.held.filter (fun e => decide (e.source ≠ src)) = hs := by rw [hat.filter, List.append_nil]
  have hbefore : retriggered src x.triple s = s.setPort x.triple.port { s.port x.triple.port with
      noteLane := (s.port x.triple.port).noteLane ++ offBefore hs x.triple } := by
    unfold retriggered offBefore
    rw [hothers]
    by_cases hsound : soundingIn hs x.triple = true
    · rw [if_pos hsound, if_pos hsound, (offerNote_room _ _ _ (by omega) hcalm).1]
    · rw [if_neg hsound, if_neg hsound, List.append_nil]
      exact (setPort_self s x.triple.port).symm
  have hcalm' : calm { s.port x.triple.port with noteLane := (s.port x.triple.port).noteLane ++ offBefore hs x.triple } := by
    unfold offBefore
    split
    · exact calm_off _ _ _ _ hcalm
    · rw [List.append_nil]
      exact hcalm
  have hon := offerNote_room x.triple.port (.noteOn x.triple.chan x.triple.key x.velocity) (s.setPort x.triple.port
    { s.port x.triple.port with noteLane := (s.port x.triple.port).noteLane ++ offBefore hs x.triple })
    (by rw [port_setPort]; simpa using hroom) (by rw [port_setPort]; exact hcalm')
  rw [port_setPort, setPort_setPort] at hon
  rw [claim_eq, hbefore, if_pos hon.2, hon.1]
  refine congrArg (fun xs => ({ s.setPort x.triple.port { s.port x.triple.port with
    noteLane := (s.port x.triple.port).noteLane ++ offBefore hs x.triple ++
      [.noteOn x.triple.chan x.triple.key x.velocity] } with held := xs } : State)) ?_
  refine (hat.map fun e => e.setSent x.triple true).trans ?_
  simp [HeldEntry.setSent]

end

/-! ### Note-on (R25) -/

section
variable {i : Input} {c : Chan} {key v scene : Nat} {s u m : State} {a : Layers}

theorem noteOn_of_none (ha : a = layers s.live i c key v) (h : a.targets = []) : noteOn i c key v s = countSkips i a s := by
  rw [noteOn, ← ha]
  exact if_pos (by rw [h]; rfl)

/-- The scene of the live scene identity (R3). -/
abbrev liveScene (s : State) : Nat := (s.liveId.map Prod.snd).getD 0

theorem noteOn_of_some (ha : a = layers s.live i c key v) (h : a.targets ≠ []) : noteOn i c key v s =
    recordNoteOn { input := i, chan := c, key } (liveScene s) a.targets (countSkips i a s) := by
  have hlive : (countSkips i a s).liveId = s.liveId := rfl
  rw [noteOn, ← ha, if_neg (by rw [List.isEmpty_iff]; exact h), hlive, liveScene]
  cases s.liveId <;> rfl

theorem makeRoom_of_room (h : s.held.length < 96) : makeRoom i s = s := if_neg (Nat.not_le.mpr h)

theorem makeRoom_of_full (h : 96 ≤ s.held.length) : makeRoom i s = steal i s := if_pos h

end

/-! ### Note-off and pressure (R27, R28, R30) -/

section
variable {i : Input} {c : Chan} {key v : Nat} {s : State} {src : Source} {e : HeldEntry}

theorem noteOff_of_none (hs : src = { input := i, chan := c, key }) (h : s.entryOf src = none) :
    noteOff i c key v s = countOrphan i s := by
  subst hs
  rw [noteOff, h]

theorem noteOff_of_sustained (hs : src = { input := i, chan := c, key }) (h : s.entryOf src = some e) (he : e.state = .sustained) :
    noteOff i c key v s = s := by
  subst hs
  rw [noteOff, h]
  dsimp only
  rw [he]

theorem noteOff_of_up (hs : src = { input := i, chan := c, key }) (h : s.entryOf src = some e) (he : e.state = .down)
    (hp : (s.pedal i c).down = false) : noteOff i c key v s = releaseEntry src v s := by
  subst hs
  rw [noteOff, h]
  dsimp only
  rw [he]
  exact if_neg (by rw [hp]; exact nofun)

theorem noteOff_of_pedal (hs : src = { input := i, chan := c, key }) (h : s.entryOf src = some e) (he : e.state = .down)
    (hp : (s.pedal i c).down = true) : noteOff i c key v s = noteOffPedalled src v e s := by
  subst hs
  rw [noteOff, h]
  dsimp only
  rw [he]
  exact if_pos hp

theorem pedalled_of_modules (h : ∀ x ∈ e.targets, x.pedal = .module) : noteOffPedalled src v e s = removeEntry src
    ((e.targets.filter (fun x => decide (x.pedal = .module))).foldl (fun u x => releaseTarget src v x.triple u) s) := by
  rw [noteOffPedalled, releaseTargets_eq]
  exact if_pos (List.all_eq_true.mpr fun x hx => decide_eq_true (h x hx))

theorem pedalled_of_chip (h : ∃ x ∈ e.targets, x.pedal = .chip) : ∀ r,
    r = (e.targets.filter (fun x => decide (x.pedal = .module))).foldl (fun u x => releaseTarget src v x.triple u) s →
    noteOffPedalled src v e s = { r with held := r.held.map (fun x => if x.source = src then { x with state := .sustained } else x) } := by
  rintro r rfl
  obtain ⟨x, hx, hchip⟩ := h
  rw [noteOffPedalled, releaseTargets_eq]
  refine if_neg fun hall => ?_
  have hmodule := of_decide_eq_true (List.all_eq_true.mp hall x hx)
  exact nomatch hchip.symm.trans hmodule

/-- The note-off of an entry whose targets all release is its release whole (R27, R28). -/
theorem noteOff_of_whole (hs : src = { input := i, chan := c, key }) (h : s.entryOf src = some e) (he : e.state = .down)
    (hp : (s.pedal i c).down = false ∨ ∀ x ∈ e.targets, x.pedal = .module) : noteOff i c key v s = releaseEntry src v s := by
  cases hdown : (s.pedal i c).down with
  | false => exact noteOff_of_up hs h he hdown
  | true =>
    have hmodules := hp.resolve_left (by rw [hdown]; exact nofun)
    have hall : e.targets.filter (fun x => decide (x.pedal = .module)) = e.targets :=
      List.filter_eq_self.mpr fun x hx => decide_eq_true (hmodules x hx)
    rw [noteOff_of_pedal hs h he hdown, pedalled_of_modules hmodules, hall, releaseEntry_of_some h]

theorem polyPressure_of_none (hs : src = { input := i, chan := c, key }) (h : s.entryOf src = none) :
    polyPressure i c key v s = s := by
  subst hs
  rw [polyPressure, h]

theorem polyPressure_of_some (hs : src = { input := i, chan := c, key }) (h : s.entryOf src = some e) :
    polyPressure i c key v s = e.targets.foldl (fun u x => pressTarget src v x.triple u) s := by
  subst hs
  rw [polyPressure, h]
  exact List.foldl_map

theorem pressTarget_eq (src : Source) (v : Nat) (t : Triple) (s : State) : pressTarget src v t s =
    if (s.entryOf src).any (fun h => h.targets.any (fun y =>
      decide (y.triple = t ∧ y.forward.poly = true ∧ y.sent = true)))
    then offerNote t.port (.polyPressure t.chan t.key v) s else s := by
  have htest : (fun y : HeldTarget => decide (y.triple = t ∧ y.forward.poly = true ∧ y.sent = true)) =
      fun y => decide (y.triple = t) && y.forward.poly && y.sent := by
    funext y
    simp [Bool.and_assoc]
  rw [pressTarget, htest]

/-- No target takes pressure (R30). -/
theorem polyPressure_of_silent (hs : src = { input := i, chan := c, key }) (h : s.entryOf src = some e)
    (hno : ∀ x ∈ e.targets, x.forward.poly = false ∨ x.sent = false) : polyPressure i c key v s = s := by
  have hstep : ∀ t, pressTarget src v t s = s := by
    intro t
    rw [pressTarget_eq, h]
    refine if_neg fun hany => ?_
    obtain ⟨x, hx, htest⟩ := List.any_eq_true.mp hany
    obtain ⟨-, hpoly, hsent⟩ := of_decide_eq_true htest
    rcases hno x hx with h0 | h0
    · exact nomatch h0.symm.trans hpoly
    · exact nomatch h0.symm.trans hsent
  rw [polyPressure_of_some hs h]
  exact foldl_closed (P := fun u => u = s) (fun u x hu => by rw [hu, hstep]) e.targets s rfl

end

/-! ### Pedal entries (R32, R33) -/

/-- Entries by source and state. -/
abbrev stamps (held : List HeldEntry) : List (Source × HeldState) := held.map fun e => (e.source, e.state)

theorem modifyLast_map {α β : Type} (q : α → Bool) {f : α → α} {g : α → β} (hf : ∀ e, g (f e) = g e) :
    ∀ xs, (modifyLast q f xs).map g = xs.map g
  | [] => rfl
  | x :: xs => by
    unfold modifyLast
    split
    · exact congrArg (g x :: ·) (modifyLast_map q hf xs)
    · split
      · exact congrArg (· :: xs.map g) (hf x)
      · rfl

theorem stamps_offerNote (p : Port) (e : NoteEntry) (s : State) : stamps (offerNote p e s).held = stamps s.held := by
  have hw : ∀ w (u : State), stamps (withdrawOn p w u).held = stamps u.held := by
    intro w u
    unfold withdrawOn
    split
    · rfl
    · exact modifyLast_map (f := fun e : HeldEntry => e.setSent _ false) (g := fun e => (e.source, e.state)) _ (fun _ => rfl) _
  unfold offerNote reportOffer overflowFault
  split
  · rw [held_takeFault, hw]
    rfl
  · rw [hw]
    rfl

theorem stamps_sendPedals (d : Bool) (ds : List (Port × Chan)) (s : State) : stamps (sendPedals d ds s).held = stamps s.held :=
  foldl_closed (P := fun u => stamps u.held = stamps s.held) (fun _ _ h => (stamps_offerNote _ _ _).trans h) ds s rfl

theorem sustainedOf_eq (i : Input) (c : Chan) (held : List HeldEntry) : sustainedOf i c held =
    ((stamps held).filter (fun x => decide (x.1.input = i ∧ x.1.chan = c ∧ x.2 = .sustained))).map Prod.fst := by
  unfold sustainedOf stamps
  rw [List.filter_map, List.map_map]
  rfl

theorem offer_pedal {q : PortState} {now : Nat} {c : Chan} {d : Bool} (h : q.noteLane.length < 64) : q.offer now (.pedal c d) =
    { port := { q with noteLane := q.noteLane ++ [.pedal c d] }, accepted := true, withdrawn := none, overflowed := false } :=
  offer_of_place ⟨nofun, rfl⟩ (.inl h)

theorem offerNote_pedal {p : Port} {c : Chan} {d : Bool} {s : State} (h : (s.port p).noteLane.length < 64) :
    offerNote p (.pedal c d) s = s.setPort p { s.port p with noteLane := (s.port p).noteLane ++ [.pedal c d] } := by
  rw [offerNote, offer_pedal h]
  rfl

/-- The pairs of a list that are at one port. -/
abbrev pairsAt (p : Port) (ds : List (Port × Chan)) : List (Port × Chan) := ds.filter (fun d => decide (d.1 = p))

theorem sendPedals_of_room (down : Bool) (ds : List (Port × Chan)) : ∀ s : State,
    (∀ p, (s.port p).noteLane.length + (pairsAt p ds).length ≤ 64) →
    sendPedals down ds s = { s with ports := (sendPedals down ds s).ports } ∧
    ∀ p, (sendPedals down ds s).port p = { s.port p with
      noteLane := (s.port p).noteLane ++ (pairsAt p ds).map (fun d => NoteEntry.pedal d.2 down) } := by
  induction ds with
  | nil => exact fun s _ => ⟨rfl, fun p => by simp [sendPedals]⟩
  | cons d ds ih =>
    intro s hroom
    have hcons : pairsAt d.1 (d :: ds) = d :: pairsAt d.1 ds := List.filter_cons_of_pos (decide_eq_true rfl)
    have hhead := hroom d.1
    rw [hcons, List.length_cons] at hhead
    have hstep : offerNote d.1 (.pedal d.2 down) s = s.setPort d.1
        { s.port d.1 with noteLane := (s.port d.1).noteLane ++ [.pedal d.2 down] } := offerNote_pedal (by omega)
    have hsend : sendPedals down (d :: ds) s = sendPedals down ds (s.setPort d.1
        { s.port d.1 with noteLane := (s.port d.1).noteLane ++ [.pedal d.2 down] }) := by
      rw [← hstep]
      rfl
    obtain ⟨hrest, hports⟩ := ih (s.setPort d.1
        { s.port d.1 with noteLane := (s.port d.1).noteLane ++ [.pedal d.2 down] }) fun p => by
      rw [port_setPort_ite]
      split
      · rename_i hp
        rw [hp, List.length_append, List.length_singleton]
        omega
      · rename_i hp
        have hother := hroom p
        rwa [pairsAt, List.filter_cons_of_neg (by simpa using fun h : d.1 = p => hp h.symm)] at hother
    rw [hsend]
    refine ⟨hrest, fun p => (hports p).trans ?_⟩
    rw [port_setPort_ite]
    split
    · rename_i hp
      rw [hp, hcons]
      simp
    · rename_i hp
      rw [pairsAt, pairsAt, List.filter_cons_of_neg (by simpa using fun h : d.1 = p => hp h.symm)]

/-! ### Pedal records (R31 to R35) -/

section
variable {i : Input} {c : Chan} {s : State}

theorem askPedal_of_same {down : Bool} (h : (s.pedal i c).down = down) : askPedal i c down s = s := if_pos h

theorem askPedal_of_down (h : (s.pedal i c).down = false) : askPedal i c true s =
    sendPedals true (pedalDestinations s.live i c) (s.setPedal i c { down := true, pairs := pedalDestinations s.live i c }) := by
  rw [askPedal, if_neg (by rw [h]; exact nofun)]
  rfl

theorem askPedal_of_up (h : (s.pedal i c).down = true) : askPedal i c false s = pedalUp i c s := by
  rw [askPedal, if_neg (by rw [h]; exact nofun)]
  rfl

/-- The record while its PEDAL 0 entries go and its SUSTAINED entries are released (R33). -/
abbrev lifting (i : Input) (c : Chan) (s : State) : State :=
  (sendPedals false (s.pedal i c).pairs s).setPedal i c { down := true, pairs := [] }

theorem lifting_sustained (i : Input) (c : Chan) (s : State) : sustainedOf i c (lifting i c s).held = sustainedOf i c s.held := by
  rw [sustainedOf_eq, sustainedOf_eq]
  exact congrArg (fun xs : List (Source × HeldState) =>
    (xs.filter (fun x => decide (x.1.input = i ∧ x.1.chan = c ∧ x.2 = .sustained))).map Prod.fst) (stamps_sendPedals _ _ s)

theorem pedalUp_eq (i : Input) (c : Chan) (s : State) : pedalUp i c s =
    (releaseEntries (sustainedOf i c s.held) (lifting i c s)).setPedal i c { down := false, pairs := [] } := by
  rw [← lifting_sustained]
  rfl

/-- The sources of the entries that no pedal kept (R33). -/
theorem lifted_sources (h : HeldOk s) : sources (releaseEntries (sustainedOf i c s.held) (lifting i c s)).held =
    (s.held.filter (fun e => decide (¬ (e.source.input = i ∧ e.source.chan = c ∧ e.state = .sustained)))).map
      (fun e => e.source) := by
  have hsources : sources (lifting i c s).held = sources s.held := sources_sendPedals _ _ _
  rw [sources_releaseEntries, hsources]
  unfold sources
  rw [List.filter_map]
  refine congrArg _ (List.filter_congr fun e he => decide_eq_decide.mpr (not_congr ?_))
  unfold sustainedOf
  simp only [List.mem_map, List.mem_filter, decide_eq_true_eq]
  constructor
  · rintro ⟨y, ⟨hy, hsustained⟩, hsource⟩
    rwa [← List.inj_on_of_nodup_map h.2 hy he hsource]
  · exact fun hsustained => ⟨e, ⟨he, hsustained⟩, rfl⟩

theorem lifted_pedal {j : Input} {d : Chan} (hne : j ≠ i ∨ d ≠ c) :
    (releaseEntries (sustainedOf i c s.held) (lifting i c s)).pedal j d = s.pedal j d := by
  have hreleased := (releaseEntries_closed (padOut (lifting i c s)) (sustainedOf i c s.held) ⟨rfl, rfl⟩).1
  have hsent := (sendPedals_closed (padOut s) false (s.pedal i c).pairs ⟨rfl, rfl⟩).1
  rw [pedal_of hreleased, pedal_set, if_neg (by tauto), pedal_of hsent]

end

/-! #### Pedal carry (R35) -/

/-- The pairs of the live table that are new to a record. -/
abbrev newPairs (i : Input) (c : Chan) (s : State) : List (Port × Chan) :=
  (pedalDestinations s.live i c).filter (fun d => decide (d ∉ (s.pedal i c).pairs))

section
variable {i j : Input} {c d : Chan} {s : State}

theorem carryPedal_of_up (h : (s.pedal i c).down = false) : carryPedal i c s = s := if_neg (by rw [h]; exact nofun)

theorem carryPedal_of_down (h : (s.pedal i c).down = true) : carryPedal i c s = sendPedals true (newPairs i c s)
    (s.setPedal i c { down := true, pairs := (s.pedal i c).pairs ++ newPairs i c s }) := if_pos h

theorem sendPedals_pedals (b : Bool) (ds : List (Port × Chan)) (s : State) : (sendPedals b ds s).pedals = s.pedals :=
  (sendPedals_closed (padOut s) b ds ⟨rfl, rfl⟩).1

theorem liveFree (x : List Zone) : LaneFree (fun u => u.live = x) :=
  { offered := raiseOn_free (fun u l _ h => by cases l <;> exact h), lane := fun _ _ _ _ h => h, flags := fun _ _ _ h => h
    fault := fun _ _ h => h }

/-- A record after its carry. -/
abbrev carried (i : Input) (c : Chan) (s : State) : PedalRecord :=
  if (s.pedal i c).down then { down := true, pairs := (s.pedal i c).pairs ++ newPairs i c s } else s.pedal i c

theorem carryPedal_pedal (i : Input) (c : Chan) (s : State) (j : Input) (d : Chan) :
    (carryPedal i c s).pedal j d = if j = i ∧ d = c then carried i c s else s.pedal j d := by
  by_cases h : (s.pedal i c).down = true
  · rw [carryPedal_of_down h, pedal_of (sendPedals_pedals _ _ _), pedal_set, carried, if_pos h]
  · rw [carryPedal_of_up (Bool.eq_false_iff.mpr h), carried, if_neg h]
    split
    · rename_i hjd
      rw [hjd.1, hjd.2]
    · rfl

theorem carryPedal_live (i : Input) (c : Chan) (s : State) : (carryPedal i c s).live = s.live := by
  unfold carryPedal
  dsimp only
  split
  · exact sendPedals_kept (liveFree s.live) _ _ rfl
  · rfl

/-- The carries of other records leave a record and the live table. -/
theorem carries_other {x : Input × Chan} (xs : List (Input × Chan)) : ∀ s : State, x ∉ xs →
    (xs.foldl (fun u x => carryPedal x.1 x.2 u) s).pedal x.1 x.2 = s.pedal x.1 x.2 ∧
    (xs.foldl (fun u x => carryPedal x.1 x.2 u) s).live = s.live := by
  induction xs with
  | nil => exact fun s _ => ⟨rfl, rfl⟩
  | cons y ys ih =>
    intro s hx
    obtain ⟨hy, hys⟩ := not_or.mp (mt List.mem_cons.mpr hx)
    obtain ⟨h1, h2⟩ := ih (carryPedal y.1 y.2 s) hys
    refine ⟨h1.trans ?_, h2.trans (carryPedal_live _ _ _)⟩
    rw [carryPedal_pedal, if_neg fun h => hy (Prod.ext h.1 h.2)]

theorem mem_allSources (i : Input) (c : Chan) : (i, c) ∈ allSources := by
  refine List.mem_flatMap.mpr ⟨i, ?_, List.mem_map.mpr ⟨c, ?_, rfl⟩⟩
  · exact List.mem_finRange i
  · exact List.mem_finRange c

theorem pedalCarry_pedal (i : Input) (c : Chan) (s : State) : (pedalCarry s).pedal i c = carried i c s := by
  obtain ⟨as, bs, hall⟩ := List.append_of_mem (mem_allSources i c)
  have hnodup : (as ++ (i, c) :: bs).Nodup := hall ▸ (by decide : allSources.Nodup)
  obtain ⟨-, hcons, hdisj⟩ := List.nodup_append.mp hnodup
  have has : (i, c) ∉ as := fun h => hdisj _ h _ List.mem_cons_self rfl
  have hbs : (i, c) ∉ bs := (List.nodup_cons.mp hcons).1
  rw [pedalCarry, hall, List.foldl_append, List.foldl_cons]
  obtain ⟨hpedal, hlive⟩ := carries_other as s has
  refine (carries_other bs _ hbs).1.trans ?_
  rw [carryPedal_pedal, if_pos ⟨rfl, rfl⟩, carried, newPairs, hpedal, hlive]

end

/-! ### The whole table of cases -/

/-- A release, by who else holds the triple and who sounds it (R24). -/
theorem releaseTarget_cases {src : Source} {v : Nat} {s u : State} {as bs : List HeldEntry} {e : HeldEntry} {ts us : List HeldTarget}
    {x : HeldTarget} (h : EntryAt src s.held as e bs) (ht : e.targets = ts ++ x :: us) (hx : ∀ y ∈ ts ++ us, y.triple ≠ x.triple)
    (hu : u = { s with held := as ++ { e with targets := ts ++ us } :: bs }) :
    ((∀ y ∈ as ++ bs, ∀ z ∈ y.targets, z.triple ≠ x.triple) → releaseTarget src v x.triple s =
      if x.sent then offerNote x.triple.port (.noteOff x.triple.chan x.triple.key v) u else u) ∧
    ((∃ y ∈ as ++ bs, ∃ z ∈ y.targets, z.triple = x.triple) →
      ((x.sent = false ∨ soundingIn (as ++ bs) x.triple = true) → releaseTarget src v x.triple s = u) ∧
      (x.sent = true → soundingIn (as ++ bs) x.triple = false → releaseTarget src v x.triple s = handOn x.triple u)) := by
  have hrelease := releaseTarget_eq (v := v) h ht hx hu
  have hheld : u.held = as ++ { e with targets := ts ++ us } :: bs := by rw [hu]
  have hzero : holderCount u.held x.triple = 0 ↔ ∀ y ∈ as ++ bs, ∀ z ∈ y.targets, z.triple ≠ x.triple := by
    rw [holderCount_zero_iff, hheld]
    exact released_all (q := fun _ => False) hx
  have hsounds : soundingIn u.held x.triple = soundingIn (as ++ bs) x.triple := by
    refine Bool.eq_iff_iff.mpr (not_iff_not.mp ?_)
    rw [Bool.not_eq_true, Bool.not_eq_true, silentIn_iff, silentIn_iff, hheld]
    exact released_all (q := fun z => z.sent = false) hx
  rw [hsounds] at hrelease
  refine ⟨fun hno => ?_, fun ⟨y, hy, z, hz, htriple⟩ => ?_⟩
  · have hquiet : soundingIn (as ++ bs) x.triple = false :=
      silentIn_iff.mpr fun y hy z hz htriple => absurd htriple (hno y hy z hz)
    rw [hrelease, if_pos (hzero.mpr hno), sounding_split h, entry_sounds ht hx, hquiet, Bool.or_false]
  · rw [hrelease, if_neg fun h0 => hzero.mp h0 y hy z hz htriple]
    refine ⟨fun hcase => if_neg ?_, fun hsent hquiet => if_pos (by rw [hsent, hquiet]; rfl)⟩
    rcases hcase with h0 | h1
    · rw [h0]
      exact nofun
    · rw [h1, Bool.not_true, Bool.and_false]
      exact nofun

theorem handOn_of_last {t : Triple} {s : State} {cs ds : List HeldEntry} {h : HeldEntry} (hheld : s.held = cs ++ h :: ds)
    (hh : ∃ z ∈ h.targets, z.triple = t) (hds : ∀ y ∈ ds, ∀ z ∈ y.targets, z.triple ≠ t) : handOn t s =
      { s with held := cs ++ { h with targets := h.targets.map (fun z => if z.triple = t then { z with sent := true } else z) } :: ds } := by
  have hlast := modifyLast_of_last (f := fun e => e.setSent t true) (as := cs) ((lists_iff h).mpr hh)
    fun y hy => Bool.eq_false_iff.mpr fun hl => ((lists_iff y).mp hl).elim fun z hz => hds y hy z hz.1 hz.2
  rw [handOn, hheld, hlast]
  rfl

/-- The rest of the table once the entry of a source is gone is short of full. -/
theorem rest_length {s : State} {src : Source} {as bs : List HeldEntry} {e : HeldEntry} (h : EntryAt src s.held as e bs)
    (hok : HeldOk s) : (s.held.filter (fun y => decide (y.source ≠ src))).length < 96 := by
  have hlen : s.held.length ≤ 96 := hok.1
  rw [h.filter, List.length_append]
  rw [h.held, List.length_append, List.length_cons] at hlen
  omega

theorem recordNoteOn_eq {i : Input} {c : Chan} {key : Nat} {src : Source} (hs : src = { input := i, chan := c, key }) (scene : Nat)
    (ts : List HeldTarget) (u : State) : recordNoteOn src scene ts u =
      ts.foldl (fun y x => claim src x y) (createEntry src scene ts (makeRoom i (releaseEntry src 64 u))) := by
  rw [hs]
  rfl

theorem noteOn_recorded {i : Input} {c : Chan} {key v : Nat} {src : Source} {s u : State} {a : Layers}
    (hs : src = { input := i, chan := c, key }) (ha : a = layers s.live i c key v) (hu : u = countSkips i a s)
    (h : a.targets ≠ []) : noteOn i c key v s = recordNoteOn src (liveScene s) a.targets u := by
  rw [noteOn_of_some ha h, hs, hu]

/-- The one target of a note-on with room in its lane, the table as its source's entry has left it (R25). -/
theorem recordNoteOn_of_room {i : Input} {c : Chan} {key scene : Nat} {src : Source} {u r : State} {x : HeldTarget}
    (hs : src = { input := i, chan := c, key }) (hr : releaseEntry src 64 u = r) (hlen : r.held.length < 96)
    (hno : ∀ y ∈ r.held, y.source ≠ src)
    (hroom : (r.port x.triple.port).noteLane.length + (offBefore r.held x.triple).length < 64) (hcalm : calm (r.port x.triple.port)) :
    recordNoteOn src scene [x] u = { r.setPort x.triple.port { r.port x.triple.port with
        noteLane := (r.port x.triple.port).noteLane ++ offBefore r.held x.triple ++
          [.noteOn x.triple.chan x.triple.key x.velocity] } with
      held := r.held ++ [newEntry src scene x true] } := by
  rw [recordNoteOn_eq hs, hr, makeRoom_of_room hlen, List.foldl_cons, List.foldl_nil]
  exact claim_of_room (s := createEntry src scene [x] r) rfl hno hroom hcalm

section
variable {i : Input} {c : Chan} {key v : Nat} {src : Source} {s u : State} {a : Layers} {x : HeldTarget}

/-- A note-on of one target, its source without an entry (R25). -/
theorem noteOn_of_new (hs : src = { input := i, chan := c, key }) (ha : a = layers s.live i c key v) (hu : u = countSkips i a s)
    (hx : a.targets = [x]) (hroom : (s.port x.triple.port).noteLane.length + 2 ≤ 64) (hcalm : calm (s.port x.triple.port))
    (hnone : s.entryOf src = none) (hlen : s.held.length < 96) : noteOn i c key v s =
      { u.setPort x.triple.port { s.port x.triple.port with
          noteLane := (s.port x.triple.port).noteLane ++ offBefore s.held x.triple ++
            [.noteOn x.triple.chan x.triple.key x.velocity] } with
        held := s.held ++ [newEntry src (liveScene s) x true] } := by
  have hoff : (offBefore s.held x.triple).length ≤ 1 := by
    unfold offBefore
    split <;> simp
  have hheld : u.held = s.held := by rw [hu]; rfl
  have hport : u.port x.triple.port = s.port x.triple.port := by rw [hu]; rfl
  have hrecord := recordNoteOn_of_room (scene := liveScene s) hs (releaseEntry_of_none (s := u) (by rw [hu]; exact hnone))
    (by rw [hheld]; exact hlen) (by rw [hheld]; exact entryOf_none_iff.mp hnone) (x := x) (by rw [hheld, hport]; omega)
    (by rw [hport]; exact hcalm)
  rw [hheld, hport] at hrecord
  rw [noteOn_recorded hs ha hu (by rw [hx]; exact List.cons_ne_nil _ _), hx, hrecord]

/-- A note-on of one target that the source's entry held alone: its NOTE_OFF goes first (R25). -/
theorem noteOn_of_replaced {e : HeldEntry} {y : HeldTarget} (hs : src = { input := i, chan := c, key })
    (ha : a = layers s.live i c key v) (hu : u = countSkips i a s) (hx : a.targets = [x])
    (hroom : (s.port x.triple.port).noteLane.length + 2 ≤ 64) (hcalm : calm (s.port x.triple.port)) (he : s.entryOf src = some e)
    (hok : HeldOk s) (hy : e.targets = [y]) (hxy : y.triple = x.triple) (hsent : y.sent = true)
    (hsole : holderCount s.held y.triple = 1) : noteOn i c key v s =
      { u.setPort x.triple.port { s.port x.triple.port with
          noteLane := (s.port x.triple.port).noteLane ++
            [.noteOff x.triple.chan x.triple.key 64, .noteOn x.triple.chan x.triple.key x.velocity] } with
        held := s.held.filter (fun z => decide (z.source ≠ src)) ++ [newEntry src (liveScene s) x true] } := by
  obtain ⟨as, bs, hat⟩ := at_of_entry hok.2 he
  have hheld : u.held = s.held := by rw [hu]; rfl
  have hport : u.port x.triple.port = s.port x.triple.port := by rw [hu]; rfl
  have hothers := others_of_sole hat hy hsole
  have hreleased := releaseEntry_of_sole (v := 64) (s := u) (by rw [hheld]; exact hat) hy hsent (by rw [hheld]; exact hsole)
    (by rw [hxy, hport]; omega) (by rw [hxy, hport]; exact hcalm)
  rw [hxy, hheld, hport] at hreleased
  rw [hxy] at hothers
  have hquiet : offBefore (s.held.filter (fun z => decide (z.source ≠ src))) x.triple = [] := by
    refine if_neg ?_
    rw [Bool.not_eq_true, silentIn_iff, hat.filter]
    exact fun y hy z hz htriple => absurd htriple (hothers y hy z hz)
  obtain ⟨r, hr⟩ : ∃ r : State, r = { u.setPort x.triple.port { s.port x.triple.port with
      noteLane := (s.port x.triple.port).noteLane ++ [.noteOff x.triple.chan x.triple.key 64] } with
    held := s.held.filter (fun z => decide (z.source ≠ src)) } := ⟨_, rfl⟩
  have hrport : r.port x.triple.port = { s.port x.triple.port with
      noteLane := (s.port x.triple.port).noteLane ++ [.noteOff x.triple.chan x.triple.key 64] } := by
    rw [hr]
    exact port_setPort _ _ _
  have hrheld : r.held = s.held.filter (fun z => decide (z.source ≠ src)) := by rw [hr]
  have hrecord := recordNoteOn_of_room (scene := liveScene s) (x := x) hs (hreleased.trans hr.symm)
    (by rw [hrheld]; exact rest_length hat hok) (by rw [hrheld]; exact fun z hz => of_decide_eq_true (List.mem_filter.mp hz).2)
    (by rw [hrheld, hrport, hquiet, List.length_append]; simp only [List.length_singleton, List.length_nil]; omega)
    (by rw [hrport]; exact calm_off _ _ _ _ hcalm)
  rw [hrport, hrheld, hquiet, List.append_nil, List.append_assoc] at hrecord
  rw [noteOn_recorded hs ha hu (by rw [hx]; exact List.cons_ne_nil _ _), hx, hrecord, hr]
  exact congrArg (fun w : State => { w with held := s.held.filter (fun z : HeldEntry => decide (z.source ≠ src)) ++
    [newEntry src (liveScene s) x true] }) (setPort_setPort u x.triple.port _ _)

end

/-- Settles O54: releases by their holders, the rest by the state of the entry and its pedal. -/
theorem noteTable : Obligations.NoteTable := by
  unfold Obligations.NoteTable
  have hscene' : ∀ {s : State} {scene : Nat}, (scene = match s.liveId with | some (_, n) => n | none => 0) → scene = liveScene s := by
    intro s scene h
    rw [h, liveScene]
    cases s.liveId <;> rfl
  refine ⟨fun held t => ⟨soundingIn_iff, holderCount_eq⟩, fun src v s as bs e ts us x hheld hsource hothers ht hx u hu => ?_,
    fun src v s => ⟨releaseEntry_of_none, fun e r he hr => ⟨?_, ?_⟩⟩, fun i s as bs v hheld hv => ?_,
    fun src x s u t ht hoff hno w hw => ?_,
    fun i c key v s src hsrc => ⟨fun a ha u hu => ⟨fun hempty => (noteOn_of_none ha hempty).trans hu.symm,
      fun scene hscene => ⟨fun hsome r hr m hroom hfull => ?_,
      fun x p hx hp hroom hcalm => ⟨fun hnone hlen off hoff => ?_, fun e y he hok hy hxy hsent hsole => ?_⟩⟩⟩,
      fun hnone => ⟨noteOff_of_none hsrc hnone, polyPressure_of_none hsrc hnone⟩,
      fun e he => ⟨noteOff_of_sustained hsrc he, noteOff_of_up hsrc he, fun hdown hpedal r hr => ⟨fun hall => ?_, fun hchip => ?_⟩,
        fun x p hx hp hroom hcalm => ⟨fun hdown hpedal hok hsent hsole => ?_, fun hsent hpoly => ?_⟩⟩⟩,
    fun i c key v s src hsrc e he => ⟨?_, polyPressure_of_silent hsrc he⟩, fun down ds s => ⟨rfl, fun hroom => ?_⟩,
    fun i c s x hx => ⟨fun down h => askPedal_of_same (hx ▸ h), fun h ds hds => ?_, fun h => ?_, fun fresh hfresh => ⟨fun h => ?_,
      fun h => ?_, ?_⟩⟩, fun s => rfl⟩
  · obtain ⟨hsole, hshared⟩ := releaseTarget_cases (v := v) ⟨hheld, hsource, hothers⟩ ht hx hu
    refine ⟨hsole, fun hothers => ⟨fun hcase => (hshared hothers).1 (hcase.imp_right soundingIn_iff.mpr),
      fun hsent hsilent cs h ds hcs hh hds => ?_⟩⟩
    rw [(hshared hothers).2 hsent (silentIn_iff.mpr hsilent), handOn_of_last hcs hh hds, hu]
  · rw [releaseEntry_of_some he, ← hr]
    rfl
  · rw [hr]
    exact sources_released src v e.targets s
  · refine ⟨_, rfl, fun hok => ?_, ?_⟩
    · have hat := entryAt_of_nodup hok.2 hheld
      have hleft := sources_releaseEntry v.source 64 s
      unfold sources at hleft
      rw [List.filter_map] at hleft
      exact hleft.trans (congrArg (List.map fun y => y.source) hat.filter)
    · rw [steal_of (stealVictim_of hheld hv), releaseEntry_stealCount]
  · subst ht
    have hbefore : retriggered src x.triple s = u := by
      unfold retriggered
      by_cases hsound : soundingIn (s.held.filter (fun e => decide (e.source ≠ src))) x.triple = true
      · rw [if_pos hsound]
        exact (hoff ((othersSound_iff _ _ _).mp hsound)).symm
      · rw [if_neg hsound]
        refine (hno fun y hy hne z hz htriple => Bool.eq_false_iff.mpr fun hsent => hsound ?_).symm
        exact (othersSound_iff _ _ _).mpr ⟨y, hy, hne, z, hz, htriple, hsent⟩
    rw [claim_eq, hbefore, ← hw]
    exact ⟨fun hrefused => if_neg (by rw [hrefused]; exact nofun), fun haccepted => if_pos haccepted⟩
  · have hm : makeRoom i r = m := by
      rcases Nat.lt_or_ge r.held.length 96 with hlt | hge
      · rw [makeRoom_of_room hlt, hroom hlt]
      · rw [makeRoom_of_full hge, hfull hge]
    rw [noteOn_recorded hsrc ha hu hsome, recordNoteOn_eq hsrc, ← hr, hm, hscene' hscene]
    rfl
  · subst hp
    rw [hoff, hscene' hscene]
    exact noteOn_of_new hsrc ha hu hx hroom hcalm hnone hlen
  · subst hp
    rw [hscene' hscene]
    exact noteOn_of_replaced hsrc ha hu hx hroom hcalm he hok hy hxy hsent hsole
  · rw [noteOff_of_pedal hsrc he hdown hpedal, pedalled_of_modules hall, ← hr]
    rfl
  · rw [noteOff_of_pedal hsrc he hdown hpedal]
    exact pedalled_of_chip hchip r hr
  · subst hp
    obtain ⟨as, bs, hat⟩ := at_of_entry hok.2 he
    have hall : (s.pedal i c).down = false ∨ ∀ y ∈ e.targets, y.pedal = .module := by
      rw [hx]
      exact hpedal.imp_right fun h y hy => (List.mem_singleton.mp hy).symm ▸ h
    rw [noteOff_of_whole hsrc he hdown hall, releaseEntry_of_sole hat hx hsent hsole hroom hcalm]
  · subst hp
    have htest : (s.entryOf src).any (fun h => h.targets.any (fun y =>
        decide (y.triple = x.triple ∧ y.forward.poly = true ∧ y.sent = true))) = true := by
      rw [he, Option.any_some, hx]
      simp [hpoly, hsent]
    rw [polyPressure_of_some hsrc he, hx, List.foldl_cons, List.foldl_nil, pressTarget_eq, if_pos htest,
      (offerNote_room _ _ _ hroom hcalm).1]
  · rw [polyPressure_of_some hsrc he]
    exact congrArg (fun f => e.targets.foldl f s) (funext fun u => funext fun x => pressTarget_eq src v x.triple u)
  · obtain ⟨hrest, hports⟩ := sendPedals_of_room down ds s hroom
    exact ⟨_, rfl, hrest, hports⟩
  · subst hx hds
    exact askPedal_of_down h
  · subst hx
    refine ⟨_, (askPedal_of_up h).trans (pedalUp_eq i c s), rfl, lifted_sources, fun j d hne => lifted_pedal hne⟩
  · subst hx
    exact carryPedal_of_up h
  · subst hx hfresh
    exact carryPedal_of_down h
  · subst hx hfresh
    exact pedalCarry_pedal i c s

end Sys2Proof.Proofs.NoteTables
end

section
/-! What every step keeps, read action by action: a law that each action of a unit keeps is kept by every command. The closures of
the model's own laws (`AllFree`) ask for any write to a field; here the writes come from what the actions do, so that a law may read
the tempo unit, the held targets, the click note-offs or the count of untransmitted PROGRAM entries. -/

namespace Sys2Proof.Proofs.Actions

open Sys2Proof.Machine Sys2Proof.Laws Sys2Proof.Proofs.Lanes

/-! ### What an action may do -/

/-- An entry in transmission with no message left has its last one on the wire (R158). -/
def WireOk (q : PortState) : Prop := ∀ e, q.entry = some e → e.left = [] → ∃ w b, q.wire = some w ∧ w.status = some b

/-- A port changes, its PROGRAM entries not yet transmitted apart and its settle running on. -/
structure PortKept (q x : PortState) : Prop where
  ok : PortOk q → PortOk x
  wire : WireOk q → WireOk x
  count : WireOk q → x.untransmitted = q.untransmitted
  settle : q.settleDue ≠ none → x.settleDue ≠ none

/-- A tempo that is staged or set is within its range (R70, R71). -/
def ValueOk (v : StagedValue) : Prop := ∀ x, v = .tempo x → Config.tempoMin ≤ x ∧ x ≤ Config.tempoMax

/-- No action of a unit disturbs a property: the note table's, the ports', the click's, the tempo unit's, the arbiter's and the
library's. -/
structure ActionFree (P : State → Prop) : Prop extends TableFree P where
  links : ∀ s l x, P s → P (s.setLink l x)
  port : ∀ s p x, PortKept (s.port p) x → P s → P (s.setPort p x)
  steals : ∀ s x, P s → P { s with stealCount := x }
  foots : ∀ s x, P s → P { s with foots := x }
  panics : ∀ s x, P s → P { s with panicCount := x }
  now : ∀ s x, P s → P { s with now := x }
  transport : ∀ s x, P s → P { s with transport := x }
  channels : ∀ s x, P s → P { s with click := { s.click with channels := x } }
  noOffs : ∀ s, P s → P (s.setOffs [])
  sound : ∀ c k s, P s → P (soundClick c k s)
  gate : ∀ p c n s, P s → P (gateExpiry p c n s)
  kick : ∀ s, P s → P (kickPorts s)
  evaluate : ∀ d s, P s → P (evaluateBeat d s)
  begin : ∀ s, P s → P (beginStep s)
  fresh : ∀ s, P s → P (clearAccumulator s)
  take : ∀ v d s, ValueOk v → P s → P (takeTempo v d s)
  tap : ∀ s, P s → P (takeTap s)
  clearTempo : ∀ s, P s → P (clearTempo s)
  enter : ∀ s c, s.transport.mode ≠ .stopped → Resolves s c → P s → P { s with cue := some c }
  cancel : ∀ s, P s → P { s with cue := none, departure := none }
  trigger : ∀ c s, s.cue = some c ∨ Resolves s c → P s → P (triggerCue c s).1
  scene : ∀ t s, t.kind = .scene → Stays s t → P s → P (takeTrigger t s).1
  audition : ∀ s x, P s → P { s with audition := x }
  soft : ∀ s, P s → P (softResetAll s)
  library : ∀ s n x, SlotEdit s n x → P s → P (s.setSlot n x)
  insert : ∀ s p n, p ≤ s.setlist.length → P s →
    P (mapPositions (raiseFrom p) { s with setlist := s.setlist.take p ++ n :: s.setlist.drop p })
  remove : ∀ s p, p < s.setlist.length → s.protectedPosition p = false → P s →
    P (mapPositions (lowerAbove p) { s with setlist := s.setlist.take p ++ s.setlist.drop (p + 1) })
  clear : ∀ s, s.curPos = none → s.cue = none → P s → P { s with setlist := [] }
  itemEnd : ∀ p s, P s → P (itemEnd p s)
  settle : ∀ p s, P s → P (settleExpiry p s)
  panicPort : ∀ p s, P s → P (panicPort p s)

/-! ### Ports -/

theorem PortKept.refl (q : PortState) : PortKept q q := ⟨id, id, fun _ => rfl, id⟩

theorem PortKept.trans {q x y : PortState} (h : PortKept q x) (k : PortKept x y) : PortKept q y :=
  ⟨k.ok ∘ h.ok, k.wire ∘ h.wire, fun hw => (k.count (h.wire hw)).trans (h.count hw), k.settle ∘ h.settle⟩

/-- What leaves transmitter, settle timer and NOTE lane as they are. -/
theorem PortKept.ofSame {q x : PortState} (hok : PortOk q → PortOk x) (hlane : x.noteLane = q.noteLane) (hentry : x.entry = q.entry)
    (hwire : x.wire = q.wire) (hsettle : x.settleDue = q.settleDue) : PortKept q x where
  ok := hok
  wire := by unfold WireOk; rw [hentry, hwire]; exact id
  count := fun _ => by unfold PortState.untransmitted; rw [hlane, hentry]
  settle := by rw [hsettle]; exact id

theorem NoteStep.kept {q x : PortState} (h : NoteStep q x) : PortKept q x where
  ok := h.ok
  wire := by
    have hx := h.frame
    unfold LaneOnly at hx
    rw [hx]
    exact id
  count := fun _ => by
    have hx : x.entry = q.entry := by rw [h.frame]
    unfold PortState.untransmitted
    rw [h.programs.length_eq, hx]
  settle := by rw [h.frame]; exact id

theorem kept_offerRealtimes (bs : List RealTime) : ∀ q : PortState, PortKept q (bs.foldl PortState.offerRealtime q) := by
  induction bs with
  | nil => exact PortKept.refl
  | cons b bs ih =>
    intro q
    refine PortKept.trans ?_ (ih (q.offerRealtime b))
    unfold PortState.offerRealtime
    split
    · rename_i hroom
      exact .ofSame (fun h => ⟨by simp only [List.length_append, List.length_singleton]; omega, h.click, h.note, h.merge, h.grants, h.sweeps, h.programs⟩)
        rfl rfl rfl rfl
    · exact .ofSame (fun h => ⟨h.realtime, h.click, h.note, h.merge, h.grants, h.sweeps, h.programs⟩) rfl rfl rfl rfl

theorem kept_place (q : PortState) (now : Nat) (key : MergeKey) (v : Nat) : PortKept q (q.place now key v) := by
  have hsame : (q.place now key v).noteLane = q.noteLane ∧ (q.place now key v).entry = q.entry ∧
      (q.place now key v).wire = q.wire ∧ (q.place now key v).settleDue = q.settleDue := by
    unfold PortState.place
    repeat' split
    all_goals exact ⟨rfl, rfl, rfl, rfl⟩
  obtain ⟨hlane, hentry, hwire, hsettle⟩ := hsame
  exact .ofSame (place_ok now key v) hlane hentry hwire hsettle

/-- A single byte begins on an idle wire (R168). -/
theorem kept_beginByte {q : PortState} (hw : q.wire = none) (now : Nat) (b : Byte) : PortKept q (q.beginByte now b) where
  ok := beginByte_ok now b
  wire := fun h e he hl => by
    obtain ⟨w, _, hw', _⟩ := h e he hl
    exact nomatch hw.symm.trans hw'
  count := fun _ => rfl
  settle := id

theorem kept_configure (q : PortState) (now : Nat) (x : PortSettings) : PortKept q (q.configure now x) :=
  .ofSame (fun h => ⟨h.realtime, h.click, h.note, h.merge, h.grants, h.sweeps, h.programs⟩) rfl rfl rfl rfl

theorem kept_enqueueClick {q : PortState} (e : ClickEntry) (h : q.clickRoom = true) : PortKept q (q.enqueueClick e) :=
  .ofSame (enqueueClick_ok e h) rfl rfl rfl rfl

/-! ### Notices, clock and click -/

section
variable {P : State → Prop}

theorem sendClock_kept (h : ActionFree P) (bs : List RealTime) {s : State} (hs : P s) : P (sendClock bs s) := by
  refine foldl_closed (fun s p hs => ?_) _ _ hs
  unfold clockPort
  split
  · exact h.port _ _ _ (kept_offerRealtimes bs _) hs
  · exact hs

theorem stopByteFrom_kept (h : ActionFree P) (m : TransportMode) {s : State} (hs : P s) : P (stopByteFrom m s) := by
  unfold stopByteFrom
  split
  · exact sendClock_kept h _ hs
  · exact hs

theorem clickStep_kept (h : ActionFree P) {s : State} (hs : P s) : P (clickStep s) := by
  refine foldl_closed (fun s n hs => ?_) _ _ hs
  unfold clickChannelStep
  split
  · exact h.sound _ _ _ hs
  · exact hs

theorem routeControl_kept (h : ActionFree P) (i : Input) (c : Chan) (k : MergeKind) (v : Nat) {s : State} (hs : P s) :
    P (routeControl i c k v s) := foldl_closed (fun _ _ hs => h.port _ _ _ (kept_place _ _ _ _) hs) _ _ hs

/-! ### Beats and steps -/

theorem struckDownbeat_kept (h : ActionFree P) {s : State} (hs : P s) : P (clickStep (takeMeter (evaluateBeat true s))) :=
  clickStep_kept h (h.transport _ _ (h.evaluate _ _ hs))

theorem runningDownbeat_kept (h : ActionFree P) (b : Option RealTime) {s : State} (hs : P s) : P (runningDownbeat b s) :=
  h.begin _ (raise_closed h.offered _ (raise_closed h.offered _ (sendClock_kept h _ (struckDownbeat_kept h hs))))

theorem runningBeat_kept (h : ActionFree P) {s : State} (hs : P s) : P (runningBeat s) :=
  h.begin _ (raise_closed h.offered _ (sendClock_kept h _ (clickStep_kept h (h.evaluate _ _ hs))))

theorem countInDownbeat_kept (h : ActionFree P) {s : State} (hs : P s) : P (countInDownbeat s) :=
  h.begin _ (struckDownbeat_kept h hs)

theorem countInBeat_kept (h : ActionFree P) {s : State} (hs : P s) : P (countInBeat s) :=
  h.begin _ (clickStep_kept h (h.evaluate _ _ hs))

theorem plainStep_kept (h : ActionFree P) {s : State} (hs : P s) : P (plainStep s) := by
  unfold plainStep
  dsimp only
  refine h.begin _ ?_
  split
  · exact sendClock_kept h _ (clickStep_kept h hs)
  · exact clickStep_kept h hs

theorem continueAfter_kept (h : ActionFree P) (k : Cont) {s : State} (hs : P s) : P (continueAfter k s) := by
  cases k
  · exact hs
  · exact runningDownbeat_kept h _ hs
  · exact countInDownbeat_kept h hs
  · exact hs

/-! ### The arbiter -/

theorem enterCue_kept (h : ActionFree P) (c : Change) {s : State} (hc : Resolves s c) (hs : P s) : P (enterCue c s).1 := by
  unfold enterCue
  split
  · exact continueAfter_kept h _ (h.trigger c s (.inr hc) hs)
  · rename_i hn
    exact raise_closed h.offered _ (h.enter s c (fun hm => hn (Or.inr hm)) hc hs)

theorem takeCue_kept (h : ActionFree P) (q : CueRequest) {s : State} (hs : P s) : P (takeCue q s).1 := by
  unfold takeCue
  split
  · exact hs
  · split
    · exact hs
    · rename_i hr
      exact enterCue_kept h _ (resolves_of hr) hs

theorem stageCue_kept (h : ActionFree P) (f : CueForm) (o : Origin) {s : State} (hs : P s) : P (stageCue f o s) := by
  have htaken := takeCue_kept h { claimant := .stage, form := f, timing := none, source := o } hs
  unfold stageCue
  split <;> rename_i heq <;> rw [heq] at htaken
  · exact htaken
  · exact raise_closed h.offered _ htaken

theorem handEvent_kept (h : ActionFree P) (d : Bool) {s : State} (hs : P s) : P (handEvent d s).1 := by
  unfold handEvent
  split
  · rename_i hc
    split
    · exact h.trigger _ _ (.inl hc) hs
    · exact hs
  · exact hs

theorem stopBy_kept (h : ActionFree P) (c : Cause) (o : Option Origin) {s : State} (hs : P s) : P (stopBy c o s) := by
  have hcleared : P (clearTempo (stopByteFrom s.transport.mode (restTransport s))) :=
    h.clearTempo _ (stopByteFrom_kept h _ (h.transport _ _ hs))
  refine raise_closed h.offered _ ?_
  unfold cueOnStop
  split
  · rename_i hc
    exact h.trigger _ _ (.inl hc) hcleared
  · exact hcleared

/-! ### The transport -/

theorem downbeatFromChange_kept (h : ActionFree P) (b : Option RealTime) {s : State} (hs : P s) : P (downbeatFromChange b s) := by
  unfold downbeatFromChange
  dsimp only
  split
  · exact runningDownbeat_kept h _ (handEvent_kept h _ hs)
  · exact continueAfter_kept h _ (handEvent_kept h _ hs)

theorem enterHeld_kept (h : ActionFree P) {s : State} (hs : P s) : P (enterHeld s) := by
  unfold enterHeld raiseTransport
  exact raise_closed h.offered _ (sendClock_kept h _ (h.transport _ _ hs))

theorem downbeat_kept (h : ActionFree P) (b : Option RealTime) {s : State} (hs : P s) : P (downbeat b s) := by
  unfold downbeat
  split
  · exact enterHeld_kept h hs
  · split
    · exact stopBy_kept h _ _ hs
    · exact downbeatFromChange_kept h _ hs

theorem beat_kept (h : ActionFree P) {s : State} (hs : P s) : P (beat s) := by
  unfold beat
  dsimp only
  split
  · exact runningBeat_kept h (handEvent_kept h _ hs)
  · exact continueAfter_kept h _ (handEvent_kept h _ hs)

theorem startTransport_kept (h : ActionFree P) (k : Bool) (o : Origin) {s : State} (hs : P s) : P (startTransport k o s).1 := by
  unfold startTransport
  split
  · exact hs
  · dsimp only
    split
    · exact countInDownbeat_kept h (raise_closed h.offered _ (h.fresh _ (h.transport _ _ hs)))
    · exact downbeat_kept h _ (raise_closed h.offered _ (h.fresh _ (h.transport _ _ hs)))

theorem stopTransport_kept (h : ActionFree P) (o : Origin) {s : State} (hs : P s) : P (stopTransport o s).1 := by
  unfold stopTransport
  split
  · exact h.clearTempo _ hs
  · exact stopBy_kept h _ _ hs

theorem holdTransport_kept (h : ActionFree P) (o : Origin) {s : State} (hs : P s) : P (holdTransport o s).1 := by
  unfold holdTransport
  split
  · split
    · exact hs
    · exact raise_closed h.offered _ (h.transport _ _ hs)
  · exact hs

theorem goTransport_kept (h : ActionFree P) (o : Origin) {s : State} (hs : P s) : P (goTransport o s).1 := by
  unfold goTransport
  split
  · split
    · exact stopBy_kept h _ _ hs
    · exact downbeatFromChange_kept h _ (raise_closed h.offered _ (h.fresh _ (h.transport _ _ hs)))
  · exact hs

theorem extendBar_kept (h : ActionFree P) (o : Origin) {s : State} (hs : P s) : P (extendBar o s).1 := by
  unfold extendBar
  split
  · split
    · exact raise_closed h.offered _ (h.transport _ _ hs)
    · exact hs
  · exact hs

theorem beginBar_kept (h : ActionFree P) {s : State} (hs : P s) : P (beginBar s) := by
  unfold beginBar
  split
  · exact downbeat_kept h _ (h.transport _ _ hs)
  · split
    · exact downbeat_kept h _ (raise_closed h.offered _ (h.transport _ _ hs))
    · exact countInDownbeat_kept h (h.transport _ _ hs)

theorem beginStepInBar_kept (h : ActionFree P) {s : State} (hs : P s) : P (beginStepInBar s) := by
  unfold beginStepInBar
  dsimp only
  split
  · split
    · exact beat_kept h (h.transport _ _ hs)
    · exact countInBeat_kept h (h.transport _ _ hs)
  · exact plainStep_kept h (h.transport _ _ hs)

theorem stepEnds_kept (h : ActionFree P) {s : State} (hs : P s) : P (stepEnds s) := by
  unfold stepEnds nextStep
  split
  · exact hs
  · split
    · split
      · exact beginBar_kept h (h.now _ _ hs)
      · exact beginStepInBar_kept h (h.now _ _ hs)
    · exact hs

/-! ### Inputs, lines, PANIC -/

theorem handController_kept (h : ActionFree P) (i : Input) (c : Chan) (n v : Nat) {s : State} (hs : P s) :
    P (handController i c n v s) := by
  unfold handController
  split
  · exact askPedal_kept h.toTableFree _ _ _ hs
  · split
    · exact hs
    · split
      · split
        · exact stageCue_kept h _ _ hs
        · exact hs
      · split
        · split
          · exact stageCue_kept h _ _ hs
          · exact hs
        · exact routeControl_kept h _ _ _ _ hs

theorem handTwo_kept (h : ActionFree P) (i : Input) (c : Chan) (k x y : Nat) {s : State} (hs : P s) : P (handTwo i c k x y s) := by
  unfold handTwo
  split
  · exact noteOff_kept h.toTableFree _ _ _ _ hs
  · split
    · exact noteOff_kept h.toTableFree _ _ _ _ hs
    · exact noteOn_kept h.toTableFree _ _ _ _ hs
  · exact polyPressure_kept h.toLaneFree _ _ _ _ hs
  · exact handController_kept h _ _ _ _ hs
  · exact routeControl_kept h _ _ _ _ hs
  · exact hs

theorem handOne_kept (h : ActionFree P) (i : Input) (c : Chan) (k x : Nat) {s : State} (hs : P s) : P (handOne i c k x s) := by
  unfold handOne handProgram
  split
  · split
    · exact stageCue_kept h _ _ hs
    · exact hs
  · exact routeControl_kept h _ _ _ _ hs
  · exact hs

theorem handOver_kept (h : ActionFree P) (i : Input) (m : Message) {s : State} (hs : P s) : P (handOver i m s) := by
  unfold handOver
  split
  · exact handTwo_kept h _ _ _ _ _ hs
  · exact handOne_kept h _ _ _ _ hs
  · exact hs

theorem setWatch_kept (h : ActionFree P) (i : Input) (w : WatchState) (due : Option Nat) {s : State} (hs : P s) :
    P (setWatch i w due s) := raise_closed h.offered _ (h.inputs _ _ hs)

theorem feedWatch_kept (h : ActionFree P) (i : Input) (b : Byte) {s : State} (hs : P s) : P (feedWatch i b s) := by
  unfold feedWatch
  dsimp only
  split
  · split
    · split
      · exact setWatch_kept h _ _ _ hs
      · exact hs
    · exact h.inputs _ _ hs
    · split
      · exact setWatch_kept h _ _ _ hs
      · exact setWatch_kept h _ _ _ hs
  · exact hs

theorem inputByte_kept (h : ActionFree P) (i : Input) (b : Byte) (k : Bool) {s : State} (hs : P s) : P (inputByte i b k s) := by
  unfold inputByte parseByte framingError
  dsimp only
  split
  · exact hs
  · split
    · split
      · exact handOver_kept h _ _ (h.inputs _ _ (feedWatch_kept h _ _ hs))
      · exact h.inputs _ _ (feedWatch_kept h _ _ hs)
    · exact takeFault_kept h.toLaneFree _ _ (h.inputs _ _ hs)

theorem watchExpiry_kept (h : ActionFree P) (i : Input) {s : State} (hs : P s) : P (watchExpiry i s) := by
  unfold watchExpiry
  split
  · exact hs
  · exact takeFault_kept h.toLaneFree _ _ (setWatch_kept h _ _ _ (loseInput_kept h.toTableFree _ (h.now _ _ hs)))

theorem panicAll_kept (h : ActionFree P) (o : Origin) {s : State} (hs : P s) : P (panicAll o s) :=
  raise_closed h.offered _ (h.panics _ _ (h.noOffs _
    (foldl_closed (fun _ p hs => h.panicPort p _ hs) _ _ (emptyNoteTable_kept h.toTableFree hs))))

theorem press_kept (h : ActionFree P) (n : FootLine) {s : State} (hs : P s) : P (press n s) := by
  unfold press
  split
  · exact hs
  · exact stageCue_kept h _ _ hs
  · exact stageCue_kept h _ _ hs
  · exact stageCue_kept h _ _ hs
  · exact h.tap _ hs
  · split
    · exact startTransport_kept h _ _ hs
    · exact stopTransport_kept h _ hs
  · split
    · exact holdTransport_kept h _ hs
    · exact goTransport_kept h _ hs
    · exact hs
  · exact panicAll_kept h _ hs
  · split
    · exact askPedal_kept h.toTableFree _ _ _ hs
    · exact hs

theorem release_kept (h : ActionFree P) (n : FootLine) {s : State} (hs : P s) : P (release n s) := by
  unfold release
  split
  · exact askPedal_kept h.toTableFree _ _ _ hs
  · exact hs

theorem debounceExpiry_kept (h : ActionFree P) (n : FootLine) {s : State} (hs : P s) : P (debounceExpiry n s) := by
  unfold debounceExpiry
  split
  · exact hs
  · dsimp only
    split
    · exact press_kept h _ (h.foots _ _ (h.now _ _ hs))
    · exact release_kept h _ (h.foots _ _ (h.now _ _ hs))

/-! ### The ports' timers -/

theorem keepAliveExpiry_kept (h : ActionFree P) (p : Port) {s : State} (hs : P s) : P (keepAliveExpiry p s) := by
  unfold keepAliveExpiry
  split
  · exact hs
  · split
    · exact hs
    · rename_i hidle
      exact h.port (s.reach _) _ _ (kept_beginByte (q := s.port p) (by simpa using hidle) _ _) (h.now _ _ hs)

theorem intervalExpiry_kept (h : ActionFree P) (p : Port) {s : State} (hs : P s) : P (intervalExpiry p s) :=
  intervalExpiry_closed h.now p hs

end

end Sys2Proof.Proofs.Actions
end

section
/-! The owners of the requests, the links and whole commands: what each action keeps, a step keeps. -/

namespace Sys2Proof.Proofs.Actions

open Sys2Proof.Machine Sys2Proof.Laws Sys2Proof.Proofs Sys2Proof.Proofs.Lanes

section
variable {P : State → Prop}

/-! ### The song library -/

theorem changeSlot_kept (h : ActionFree P) (l : Link) (n : SlotNo) (x : Slot) {s : State} (hx : SlotEdit s n x) (hs : P s) :
    P (changeSlot l n x s) := h.offered _ _ _ (h.library _ _ _ hx hs)

/-- SONG_OPEN in a slot that is not IN USE edits it (R107). -/
theorem slotEdit_opened {s : State} {l : Link} {f : List Byte} {n : SlotNo} {g : Song} (hg : songHeader f = some (n, g))
    (hnone : s.ownedSlot l = none) (hi : ∀ x, s.slot n = .ready x → s.inUse n = false) : SlotEdit s n (.building l g none) := by
  obtain ⟨-, hno⟩ := songHeader_new hg
  exact {
    safe := fun _ => ⟨songHeader_ok hg, nofun⟩
    zones := .inl (by simp [Slot.zoneItems, hno])
    programs := .inl (by simp [Slot.programItems, hno])
    owner := fun m hm => .inr (by
      obtain rfl : l = m := by simpa [Slot.ownedBy] using hm
      exact hnone)
    idle := hi }

theorem songOpen_kept (h : ActionFree P) (l : Link) (f : List Byte) {s : State} (hs : P s) : P (songOpen l f s).1 := by
  unfold songOpen
  split
  · exact hs
  · rename_i n g hg
    split
    · exact hs
    · rename_i hnone
      have hnone' : s.ownedSlot l = none := by simpa using hnone
      split
      · exact hs
      · split
        · exact hs
        · rename_i huse
          exact changeSlot_kept h _ _ _ (slotEdit_opened hg hnone' fun _ _ => by simpa using huse) hs
      · rename_i hempty
        exact changeSlot_kept h _ _ _ (slotEdit_opened hg hnone' fun _ hr => nomatch hempty.symm.trans hr) hs

theorem songErase_kept (h : ActionFree P) (l : Link) (f : List Byte) {s : State} (hs : P s) : P (songErase l f s).1 := by
  unfold songErase
  split
  · split
    · exact hs
    · split
      · exact hs
      · rename_i hslot
        split
        · exact changeSlot_kept h _ _ _ (slotEdit_empty fun _ hr => nomatch hslot.symm.trans hr) hs
        · exact hs
      · split
        · exact hs
        · rename_i huse
          exact changeSlot_kept h _ _ _ (slotEdit_empty fun _ _ => by simpa using huse) hs
  · exact hs

/-- A segment that fits edits the OPEN slot (R108). -/
theorem slotEdit_segment {s : State} {l : Link} {n : SlotNo} {g : Song} {c : Option Nat} {f : List Byte} {x : Segment}
    (hslot : s.slot n = .building l g c) (hx : segmentRecord f = some x) (hroom : ¬ Config.segmentMax ≤ g.segments.length)
    (hord : g.inOrder x = true) : SlotEdit s n (.building l { g with segments := g.segments ++ [x] } c) :=
  slotEdit_open hslot
    (fun hok => by
      rw [hslot] at hok
      exact ⟨addSegment_ok hok.1 (segmentRecord_ok hx) hroom hord, hok.2⟩)
    (.inl (by rw [hslot]; exact Nat.le_refl _)) (.inl (by rw [hslot]; exact Nat.le_refl _)) (by simp [Slot.ownedBy])

theorem songSegment_kept (h : ActionFree P) (l : Link) (f : List Byte) {s : State} (hs : P s) : P (songSegment l f s).1 := by
  unfold songSegment
  split
  · exact hs
  · rename_i hown
    split
    · exact hs
    · rename_i hx
      split
      · exact hs
      · rename_i hroom
        split
        · rename_i hord
          exact h.library s _ _ (slotEdit_segment (ownedSong_slot hown) hx hroom hord) hs
        · exact hs

/-- A scene that is begun edits the OPEN slot and takes no item (R109). -/
theorem slotEdit_scene {s : State} {l : Link} {n : SlotNo} {g : Song} {c : Option Nat} {f : List Byte} {x : Scene}
    (hslot : s.slot n = .building l g c) (hx : sceneHeader f = some x) (hroom : ¬ Config.sceneMax ≤ g.scenes.length) :
    SlotEdit s n (.building l { g with scenes := g.scenes ++ [x] } (some g.scenes.length)) := by
  obtain ⟨hz, ha⟩ := sceneHeader_new hx
  refine slotEdit_open hslot (fun hok => ?_) (.inl ?_) (.inl ?_) (by simp [Slot.ownedBy])
  · rw [hslot] at hok
    exact ⟨addScene_ok hok.1 (sceneHeader_ok hx) hroom, by simp⟩
  · rw [hslot]
    simp [Slot.zoneItems, hz]
  · rw [hslot]
    simp [Slot.programItems, ha]

theorem sceneBegin_kept (h : ActionFree P) (l : Link) (f : List Byte) {s : State} (hs : P s) : P (sceneBegin l f s).1 := by
  unfold sceneBegin
  split
  · exact hs
  · rename_i hown
    split
    · exact hs
    · rename_i hx
      split
      · exact hs
      · rename_i hroom
        exact h.library s _ _ (slotEdit_scene (ownedSong_slot hown) hx hroom) hs

/-- A scene put in the place of the one under the cursor, with at most one item more, edits the OPEN slot (R110, R111). -/
theorem slotEdit_put {s : State} {l : Link} {n : SlotNo} {g : Song} {k : Nat} {sc : Scene} (x : Scene)
    (hown : s.ownedScene l = some (n, g, k, sc)) (hx : SceneOk sc → SceneOk x)
    (hz : x.zones.length ≤ sc.zones.length ∨ x.zones.length ≤ sc.zones.length + 1 ∧ s.zoneFree ≠ 0)
    (ha : x.assignments.length ≤ sc.assignments.length ∨
      x.assignments.length ≤ sc.assignments.length + 1 ∧ s.programFree ≠ 0) :
    SlotEdit s n (.building l { g with scenes := g.scenes.set k x } (some k)) := by
  obtain ⟨hslot, hk⟩ := ownedScene_slot hown
  have ez := sum_map_set (fun sc : Scene => sc.zones.length) x g.scenes k sc hk
  have ea := sum_map_set (fun sc : Scene => sc.assignments.length) x g.scenes k sc hk
  refine slotEdit_open hslot (fun hok => ?_) ?_ ?_ (by simp [Slot.ownedBy])
  · rw [hslot] at hok
    exact ⟨setScene_ok k hok.1 (hx (hok.1.scenes.2 sc (List.mem_of_getElem? hk))), by simpa using hok.2⟩
  · rw [hslot]
    dsimp only [Slot.zoneItems]
    exact hz.imp (fun _ => by omega) (fun hmore => ⟨by omega, hmore.2⟩)
  · rw [hslot]
    dsimp only [Slot.programItems]
    exact ha.imp (fun _ => by omega) (fun hmore => ⟨by omega, hmore.2⟩)

theorem sceneZone_kept (h : ActionFree P) (l : Link) (f : List Byte) {s : State} (hs : P s) : P (sceneZone l f s).1 := by
  unfold sceneZone
  split
  · exact hs
  · rename_i hown
    split
    · exact hs
    · rename_i hz
      split
      · exact hs
      · rename_i hroom
        split
        · exact hs
        · rename_i hpool
          exact h.library _ _ _ (slotEdit_put _ hown (fun hsc => addZone_ok hsc (zoneRecord_ok hz) hroom)
            (.inr ⟨by simp, hpool⟩) (.inl (Nat.le_refl _))) hs

theorem sceneProgram_kept (h : ActionFree P) (l : Link) (f : List Byte) {s : State} (hs : P s) : P (sceneProgram l f s).1 := by
  unfold sceneProgram
  split
  · exact hs
  · rename_i hown
    split
    · exact hs
    · rename_i ha
      split
      · rename_i hold
        exact h.library _ _ _ (slotEdit_put _ hown (fun hsc => setAssignment_ok hsc (assignmentRecord_ok ha) hold)
          (.inl (Nat.le_refl _)) (.inl (by simp))) hs
      · rename_i hnew
        split
        · exact hs
        · rename_i hroom
          split
          · exact hs
          · rename_i hpool
            exact h.library _ _ _ (slotEdit_put _ hown (fun hsc => addAssignment_ok hsc (assignmentRecord_ok ha) hnew hroom)
              (.inl (Nat.le_refl _)) (.inr ⟨by simp, hpool⟩)) hs

theorem songClose_kept (h : ActionFree P) (l : Link) {s : State} (hs : P s) : P (songClose l s).1 := by
  unfold songClose
  split
  · exact hs
  · rename_i hown
    have hslot := ownedSong_slot hown
    split
    · exact hs
    · rename_i hclose
      refine changeSlot_kept h _ _ _ (slotEdit_open hslot (fun hok => ?_) (.inl ?_) (.inl ?_) (by simp [Slot.ownedBy])) hs
      · rw [hslot] at hok
        exact ⟨hok.1, hclose⟩
      · rw [hslot]
        exact Nat.le_refl _
      · rw [hslot]
        exact Nat.le_refl _

/-! ### Setlist, cue and auditions -/

theorem setInsert_kept (h : ActionFree P) (f : List Byte) {s : State} (hs : P s) : P (setInsert f s).1 := by
  unfold setInsert
  split
  · split
    · split
      · exact hs
      · split
        · exact hs
        · rename_i hp _
          exact h.insert s _ _ (Nat.le_of_not_lt hp) hs
    · exact hs
  · exact hs

theorem setRemove_kept (h : ActionFree P) (f : List Byte) {s : State} (hs : P s) : P (setRemove f s).1 := by
  unfold setRemove
  split
  · split
    · exact hs
    · split
      · exact hs
      · split
        · exact hs
        · rename_i hp hprot
          exact h.remove s _ (Nat.lt_of_not_le hp) (by simpa using hprot) hs
  · exact hs

theorem setClear_kept (h : ActionFree P) {s : State} (hs : P s) : P (setClear s).1 := by
  unfold setClear
  split
  · exact hs
  · rename_i hc
    simp only [Bool.or_eq_true, not_or, Option.isSome_iff_ne_none, ne_eq, not_not] at hc
    exact h.clear s hc.1 hc.2 hs

theorem cueRequest_kept (h : ActionFree P) (l : Link) (f : List Byte) {s : State} (hs : P s) : P (cueRequest l f s).1 := by
  unfold cueRequest
  split
  · split
    · rename_i form timing _ _
      have htaken := takeCue_kept h { claimant := claimantOf l, form := form, timing := timing, source := .link l } hs
      split <;> rename_i heq <;> rw [heq] at htaken <;> exact htaken
    · exact hs
  · exact hs

theorem cueCancel_kept (h : ActionFree P) (l : Link) {s : State} (hs : P s) : P (cueCancel l s).1 := by
  unfold cueCancel
  split
  · split
    · exact raise_closed h.offered _ (h.cancel s hs)
    · exact hs
  · split <;> exact hs

theorem auditionRequest_kept (h : ActionFree P) (l : Link) (f : List Byte) {s : State} (hs : P s) :
    P (auditionRequest l f s).1 := by
  unfold auditionRequest
  split
  · split
    · exact hs
    · split
      · exact hs
      · split
        · rename_i hp hk
          split
          · dsimp only
            exact h.scene _ _ rfl (stays_audition _ _ hp hk _) (h.audition s _ hs)
          · exact hs
        · exact hs
  · exact hs

theorem auditionEnd_kept (h : ActionFree P) (l : Link) {s : State} (hs : P s) : P (auditionEnd l s).1 := by
  unfold auditionEnd
  split
  · exact hs
  · split
    · rename_i hp hk
      dsimp only
      exact h.scene _ _ rfl (stays_audition _ _ hp hk _) (h.audition s _ hs)
    · exact h.audition s _ hs

/-! ### Settings, counters and tempo -/

theorem footswitchSet_kept (h : ActionFree P) (f : List Byte) {s : State} (hs : P s) : P (footswitchSet f s).1 := by
  have hlet : ∀ n, P (letGo n s) := by
    intro n
    unfold letGo
    split
    · split
      · exact askPedal_kept h.toTableFree _ _ _ hs
      · exact hs
    · exact hs
  unfold footswitchSet
  split
  · exact hs
  · exact h.foots _ _ (hlet _)

theorem inputSet_kept (h : ActionFree P) (f : List Byte) {s : State} (hs : P s) : P (inputSetRequest f s).1 := by
  unfold inputSetRequest setWatchOn
  split
  · exact hs
  · dsimp only
    split
    · exact h.inputs _ _ hs
    · split
      · exact raise_closed h.offered _ (h.inputs _ _ (h.inputs _ _ hs))
      · exact h.inputs _ _ (h.inputs _ _ hs)

theorem outputSet_kept (h : ActionFree P) (f : List Byte) {s : State} (hs : P s) : P (outputSetRequest f s).1 := by
  unfold outputSetRequest
  split
  · exact hs
  · exact h.port _ _ _ (kept_configure _ _ _) hs

theorem clickSet_kept (h : ActionFree P) (f : List Byte) {s : State} (hs : P s) : P (clickSetRequest f s).1 := by
  unfold clickSetRequest
  split
  · exact hs
  · exact h.channels _ _ hs

theorem noticeMask_kept (h : ActionFree P) (l : Link) (f : List Byte) {s : State} (hs : P s) : P (noticeMask l f s).1 := by
  unfold noticeMask
  split
  · split
    · exact hs
    · exact h.links _ _ _ hs
  · exact hs

theorem linkNote_kept (h : ActionFree P) (l : Link) (f : List Byte) {s : State} (hs : P s) : P (linkNote l f s).1 := by
  unfold linkNote
  split
  · exact hs
  · exact h.offered _ _ _ hs

theorem clearGroup_kept (h : ActionFree P) (g : CounterGroup) {s : State} (hs : P s) : P (clearGroup g s) := by
  cases g with
  | input i => exact h.inputs _ _ hs
  | output p =>
    exact h.port s p _ (.ofSame (fun q => ⟨q.realtime, q.click, q.note, q.merge, q.grants, q.sweeps, q.programs⟩) rfl rfl rfl rfl) hs
  | global =>
    exact h.panics _ 0 (h.steals _ 0 (h.links _ .b s.linkB.clearCounters (h.links s .a s.linkA.clearCounters hs)))

theorem countersGet_kept (h : ActionFree P) (f : List Byte) {s : State} (hs : P s) : P (countersGet f s).1 := by
  unfold countersGet
  split
  · split
    · dsimp only
      split
      · exact clearGroup_kept h _ hs
      · exact hs
    · exact hs
  · exact hs

theorem tempoSet_kept (h : ActionFree P) (f : List Byte) {s : State} (hs : P s) : P (tempoSet f s).1 := by
  unfold tempoSet
  split
  · split
    · exact h.take .clear _ _ nofun hs
    · split
      · rename_i t ht
        refine h.take (.tempo t) _ _ (fun x hx => ?_) hs
        obtain rfl := StagedValue.tempo.inj hx
        exact tempoIn_some ht
      · exact hs
  · exact hs

theorem startRequest_kept (h : ActionFree P) (l : Link) (f : List Byte) {s : State} (hs : P s) : P (startRequest l f s).1 := by
  unfold startRequest
  split
  · split
    · exact startTransport_kept h _ _ hs
    · exact hs
  · exact hs

/-! ### Frames and links -/

theorem serve_kept (h : ActionFree P) (l : Link) (k : ReqKind) (f : List Byte) {s : State} (hs : P s) : P (serve l k f s).1 := by
  cases k with
  | start => exact startRequest_kept h l f hs
  | stop => exact stopTransport_kept h _ hs
  | hold => exact holdTransport_kept h _ hs
  | go => exact goTransport_kept h _ hs
  | extend => exact extendBar_kept h _ hs
  | tempoSet => exact tempoSet_kept h f hs
  | tap => exact h.tap _ hs
  | clickSet => exact clickSet_kept h f hs
  | songOpen => exact songOpen_kept h l f hs
  | songSegment => exact songSegment_kept h l f hs
  | sceneBegin => exact sceneBegin_kept h l f hs
  | sceneZone => exact sceneZone_kept h l f hs
  | sceneProgram => exact sceneProgram_kept h l f hs
  | songClose => exact songClose_kept h l hs
  | songErase => exact songErase_kept h l f hs
  | songQuery => exact songQuery_closed f hs
  | setInsert => exact setInsert_kept h f hs
  | setRemove => exact setRemove_kept h f hs
  | setClear => exact setClear_kept h hs
  | setQuery => exact hs
  | cue => exact cueRequest_kept h l f hs
  | cueCancel => exact cueCancel_kept h l hs
  | audition => exact auditionRequest_kept h l f hs
  | auditionEnd => exact auditionEnd_kept h l hs
  | outputSet => exact outputSet_kept h f hs
  | inputSet => exact inputSet_kept h f hs
  | footswitchSet => exact footswitchSet_kept h f hs
  | noticeMask => exact noticeMask_kept h l f hs
  | linkNote => exact linkNote_kept h l f hs
  | statusGet => exact statusGet_closed f hs
  | countersGet => exact countersGet_kept h f hs
  | faultGet => exact hs
  | faultClear =>
    dsimp only [serve, faultClear]
    exact h.fault s none hs
  | panic =>
    dsimp only [serve]
    exact panicAll_kept h _ hs
  | softReset =>
    dsimp only [serve]
    exact h.soft _ hs

theorem answerFrame_kept (h : ActionFree P) (l : Link) (f : Frame) {s : State} (hs : P s) : P (answerFrame l f s).1 := by
  unfold answerFrame
  split
  · exact hs
  · split
    · exact serve_kept h _ _ _ hs
    · exact hs

/-- No write to a link and to the fault record disturbs a property, nor does the answer to a frame outside initialisation. -/
structure LinkFree (P : State → Prop) : Prop where
  links : ∀ s l x, P s → P (s.setLink l x)
  fault : ∀ s x, P s → P { s with faultRecord := x }
  now : ∀ s x, P s → P { s with now := x }
  answer : ∀ l f s, s.init = none → P s → P (answerFrame l f s).1

theorem ActionFree.link (h : ActionFree P) : LinkFree P :=
  { links := h.links, fault := h.fault, now := h.now, answer := fun l f _ _ hs => answerFrame_kept h l f hs }

theorem linkFault_kept (h : LinkFree P) (c : FaultClass) (x : FaultSource) {s : State} (hs : P s) : P (takeFault c x s) :=
  raise_closed (raiseOn_free h.links) _ (h.fault _ _ hs)

theorem countBadFrame_kept (h : LinkFree P) (l : Link) {s : State} (hs : P s) : P (countBadFrame l s) :=
  linkFault_kept h _ _ (h.links s l _ hs)

theorem takeFrame_kept (h : LinkFree P) (l : Link) (f : Frame) {s : State} (hs : P s) : P (takeFrame l f s) := by
  have htaken : P (countTaken l s) := h.links s l _ hs
  unfold takeFrame
  dsimp only
  split
  · split
    · exact h.links _ l _ htaken
    · rename_i hinit
      exact h.links _ l _ (h.answer l f _ (by simpa using hinit) htaken)
  · exact h.links _ l _ (countBadFrame_kept h l htaken)

theorem frameComplete_kept (h : LinkFree P) (l : Link) (f : Frame) {s : State} (hs : P s) : P (frameComplete l f s) := by
  unfold frameComplete
  split
  · exact takeFrame_kept h l f hs
  · split
    · exact h.links s l _ hs
    · exact linkFault_kept h _ _ (h.links s l _ hs)

theorem dropFrame_kept (h : LinkFree P) (l : Link) {s : State} (hs : P s) : P (dropFrame l s) :=
  countBadFrame_kept h l (h.links s l _ hs)

theorem hunt_kept (h : LinkFree P) (l : Link) (b : Byte) {s : State} (hs : P s) : P (hunt l b s) := by
  unfold hunt
  split
  · exact h.links s l _ hs
  · exact hs

theorem linkByte_kept (h : LinkFree P) (l : Link) (b : Byte) (k : Bool) {s : State} (hs : P s) : P (linkByte l b k s) := by
  unfold linkByte takeLinkByte
  split
  · split
    · exact hunt_kept h l b hs
    · split
      · exact h.links s l _ hs
      · exact hunt_kept h l b (dropFrame_kept h l hs)
    · split <;> exact h.links s l _ hs
    · exact frameComplete_kept h l _ (h.links s l _ hs)
  · split
    · exact hs
    · exact dropFrame_kept h l hs

theorem interByteTimeout_kept (h : LinkFree P) (l : Link) {s : State} (hs : P s) : P (interByteTimeout l s) := by
  unfold interByteTimeout
  split
  · exact hs
  · exact dropFrame_kept h l (h.now s _ hs)

theorem takeBuffered_kept (h : LinkFree P) (l : Link) {s : State} (hs : P s) : P (takeBuffered l s) := by
  unfold takeBuffered
  split
  · exact hs
  · exact takeFrame_kept h l _ (h.links s l _ hs)

theorem transmitEnd_kept (h : LinkFree P) (l : Link) {s : State} (hs : P s) : P (transmitEnd l s) := by
  unfold transmitEnd
  split
  · exact hs
  · dsimp only
    split
    · exact takeBuffered_kept h l (h.links _ l _ (h.now s _ hs))
    · exact h.links _ l _ (h.now s _ hs)

/-! ### Commands and steps -/

theorem finish_kept (h : ActionFree P) {s : State} (hs : P s) : P (finish s) := h.links _ .b _ (h.links _ .a _ (h.kick _ hs))

theorem endInstant_kept (h : ActionFree P) {s : State} (hs : P s) : P (endInstant s) := by
  unfold endInstant
  split
  · exact h.links _ .b _ (h.links _ .a _ (foldl_closed (fun _ p hs => meetFulls_kept h.toLaneFree p hs) _ _ hs))
  · exact hs

theorem upTo_kept (h : ActionFree P) (due : Option Nat) {s : State} (hs : P s) : P (s.upTo due) := by
  unfold State.upTo
  split
  · exact hs
  · split
    · exact endInstant_kept h hs
    · exact hs

/-- The effect of a command keeps what actions, resets and the end of initialisation keep. -/
theorem effect_kept (h : ActionFree P) (c : Instr) {s : State} (hreset : ∀ a b, c = .pinReset a b → P (pinResetAll a b s))
    (hend : c = .initialisationEnd → P (endInitialisation s)) (hs : P s) : P (Effects.effect c s) := by
  cases c
  case pinReset a b => exact hreset a b rfl
  case initialisationEnd => exact hend rfl
  case linkByteReceived => exact linkByte_kept h.link _ _ _ hs
  case linkInterByteTimeout => exact interByteTimeout_kept h.link _ hs
  case linkTransmitEnd => exact transmitEnd_kept h.link _ hs
  case inputByteReceived => exact inputByte_kept h _ _ _ hs
  case inputWatchExpiry => exact watchExpiry_kept h _ hs
  case footswitchLineChange => exact lineChange_closed h.foots _ _ hs
  case footswitchDebounceExpiry => exact debounceExpiry_kept h _ hs
  case gridStepEnd => exact stepEnds_kept h hs
  case clickGateExpiry => exact h.gate _ _ _ _ hs
  case outputItemEnd => exact h.itemEnd _ _ hs
  case settleTimerExpiry => exact h.settle _ _ hs
  case keepAliveExpiry => exact keepAliveExpiry_kept h _ hs
  case controllerIntervalExpiry => exact intervalExpiry_kept h _ hs
  all_goals exact frameComplete_kept h.link _ _ hs

/-- A step keeps what every action, every reset and the end of initialisation keep. -/
theorem step_kept (h : ActionFree P) (hreset : ∀ a b s, P s → P (pinResetAll a b s)) (hend : ∀ s, P s → P (endInitialisation s))
    (hp : ∀ s x, P s → P { s with pending := x }) {s t : State} (hst : step s = .next t) (hs : P s) : P t := by
  obtain ⟨-, rfl⟩ | ⟨c, rest, -, rfl⟩ := Effects.step_cases hst
  · exact h.now _ _ (endInstant_kept h hs)
  · have hdue := upTo_kept h (dueOf c { s with pending := rest }) (hp s rest hs)
    exact finish_kept h (effect_kept h c (fun a b _ => hreset a b _ hdue) (fun _ => hend _ hdue) hdue)

end

end Sys2Proof.Proofs.Actions
end

section
/-! Two ways to the closure of the actions: a law of `AllFree`, which any write to the tempo unit and the lanes keeps, and a law that reads
neither the tempo unit nor the show, for which the arbiter's and the library's actions are plain writes. -/

namespace Sys2Proof.Proofs.Actions

open Sys2Proof.Machine Sys2Proof.Laws Sys2Proof.Proofs Sys2Proof.Proofs.Lanes

section
variable {P : State → Prop}

/-! ### From the closure by fields -/

theorem NoteFree.table (h : NoteFree P) : TableFree P where
  offered := h.offered
  lane := fun s p _ hx hs => h.port s p _ hx.ok hs
  flags := fun s x hx hs => h.held s x (sublist_of_eq (by
    have hsrc := congrArg (List.map Prod.fst) hx
    rwa [List.map_map, List.map_map] at hsrc)) hs
  fault := h.fault
  release := fun src v _ hs => releaseEntry_closed h.toOutFree src v hs
  sustain := fun src v _ e _ hs => noteOffPedalled_closed h.toOutFree src v e hs
  record := fun src n ts _ _ _ _ hs => recordNoteOn_closed h src n ts hs
  emptied := fun s hs => h.held s [] (List.nil_sublist _) hs
  pedals := h.pedals
  inputs := h.inputs

/-- A law that the units keep by fields, and that does not read the transport, is kept action by action. -/
theorem AllFree.actions (h : AllFree P) (ht : ∀ s x, P s → P { s with transport := x }) : ActionFree P where
  toTableFree := NoteFree.table h.toNoteFree
  links := h.links
  port := fun s p x hx hs => h.port s p x hx.ok hs
  steals := h.steals
  foots := h.foots
  panics := h.panics
  now := h.now
  transport := ht
  channels := fun s _ hs => h.click s _ hs
  noOffs := fun s hs => h.click s _ hs
  sound := fun c k _ hs => soundClick_closed h.beat c k hs
  gate := fun p c n _ hs => gateExpiry_closed h.beat h.now p c n hs
  kick := fun _ hs => kickPorts_closed h.port h.click hs
  evaluate := fun d _ hs => evaluateBeat_closed h.beat d hs
  begin := fun s hs => ht { s with tempo := { s.tempo with acc := (stepDuration s.tempo.current s.tempo.acc).2 } } _ (h.tempo s _ hs)
  fresh := fun s hs => h.tempo s _ hs
  take := fun v d _ _ hs => takeTempo_closed h.beat v d hs
  tap := fun _ hs => takeTap_closed h.beat hs
  clearTempo := fun _ hs => clearTempo_closed h.beat hs
  enter := h.enter
  cancel := h.cancel
  trigger := h.trigger
  scene := h.scene
  audition := h.audition
  soft := h.soft
  library := h.library
  insert := h.insert
  remove := h.remove
  clear := h.clear
  itemEnd := fun p _ hs => itemEnd_closed h.record h.port h.now p hs
  settle := fun p _ hs => settleExpiry_closed h.record h.port h.now p hs
  panicPort := fun p s hs => by
    unfold panicPort
    dsimp only
    split
    · exact reportSettleEnd_closed h.record _ (h.port _ _ _ panicked_ok hs)
    · exact h.port _ _ _ panicked_ok hs

/-! ### A law that reads neither the tempo unit nor the show -/

/-- No write to the tempo unit, the show or the selection disturbs a property; the note table's, the ports' and the click's actions keep
it, and a trigger does if the move of its selection does. -/
structure PlainFree (P : State → Prop) : Prop extends TableFree P where
  links : ∀ s l x, P s → P (s.setLink l x)
  port : ∀ s p x, PortKept (s.port p) x → P s → P (s.setPort p x)
  steals : ∀ s x, P s → P { s with stealCount := x }
  foots : ∀ s x, P s → P { s with foots := x }
  panics : ∀ s x, P s → P { s with panicCount := x }
  now : ∀ s x, P s → P { s with now := x }
  transport : ∀ s x, P s → P { s with transport := x }
  tempo : ∀ s x, P s → P { s with tempo := x }
  selection : ∀ s x y, P s → P { s with curPos := x, curScene := y }
  cue : ∀ s x y, P s → P { s with cue := x, departure := y }
  audition : ∀ s x, P s → P { s with audition := x }
  slots : ∀ s n x, P s → P (s.setSlot n x)
  setlist : ∀ s x, P s → P { s with setlist := x }
  positions : ∀ s f, P s → P (mapPositions f s)
  channels : ∀ s x, P s → P { s with click := { s.click with channels := x } }
  noOffs : ∀ s, P s → P (s.setOffs [])
  sound : ∀ c k s, P s → P (soundClick c k s)
  gate : ∀ p c n s, P s → P (gateExpiry p c n s)
  kick : ∀ s, P s → P (kickPorts s)
  send : ∀ t s, (∀ s, P s → P (moveSelection t s).1) → P s → P (takeTrigger t s).1
  soft : ∀ s, P s → P (softResetAll s)
  itemEnd : ∀ p s, P s → P (itemEnd p s)
  settle : ∀ p s, P s → P (settleExpiry p s)
  panicPort : ∀ p s, P s → P (panicPort p s)

/-- A clock byte changes a lane of real-time bytes alone. -/
theorem sendClock_plain (h : PlainFree P) (bs : List RealTime) {s : State} (hs : P s) : P (sendClock bs s) := by
  refine foldl_closed (fun s p hs => ?_) _ _ hs
  unfold clockPort
  split
  · exact h.port _ _ _ (kept_offerRealtimes bs _) hs
  · exact hs

theorem clearTempo_plain (h : PlainFree P) {s : State} (hs : P s) : P (clearTempo s) :=
  raiseTempo_closed h.offered _ (h.tempo _ _ hs)

theorem clearFor_plain (h : PlainFree P) (k : Cont) {s : State} (hs : P s) : P (clearFor k s) := by
  unfold clearFor clearAccumulator
  split
  · exact h.tempo _ _ hs
  · exact h.tempo _ _ hs
  · exact hs

theorem stopByteFor_plain (h : PlainFree P) (k : Cont) (m : TransportMode) {s : State} (hs : P s) : P (stopByteFor k m s) := by
  unfold stopByteFor stopByteFrom
  split
  · exact hs
  · split
    · exact sendClock_plain h _ hs
    · exact hs

theorem reposition_plain (h : PlainFree P) {s : State} (hs : P s) : P (reposition s).1 := by
  unfold reposition
  split
  · exact h.transport _ _ hs
  · exact raise_closed h.offered _ (clearFor_plain h _ (stopByteFor_plain h _ _ (h.transport _ _ hs)))

theorem moveSelection_plain (h : PlainFree P) (t : Trigger) {s : State} (hs : P s) : P (moveSelection t s).1 := by
  unfold moveSelection
  split
  · exact h.selection s s.curPos _ hs
  · exact reposition_plain h (clearTempo_plain h (h.selection _ _ _ hs))

theorem takeTrigger_plain (h : PlainFree P) (t : Trigger) {s : State} (hs : P s) : P (takeTrigger t s).1 :=
  h.send t s (fun _ hs => moveSelection_plain h t hs) hs

theorem takeTempo_plain (h : PlainFree P) (v : StagedValue) (d : StagedDue) {s : State} (hs : P s) : P (takeTempo v d s) := by
  unfold takeTempo
  dsimp only
  split
  · exact raiseTempo_closed h.offered _ (h.tempo s _ hs)
  · exact raiseTempo_closed h.offered _ (h.tempo s _ hs)

theorem takeTap_plain (h : PlainFree P) {s : State} (hs : P s) : P (takeTap s) := by
  unfold takeTap
  dsimp only
  split
  · exact h.tempo _ _ hs
  · split
    · exact hs
    · split
      · exact takeTempo_plain h _ _ (h.tempo s _ hs)
      · exact h.tempo _ _ hs

/-- Such a law is kept action by action. -/
theorem PlainFree.actions (h : PlainFree P) : ActionFree P where
  toTableFree := h.toTableFree
  links := h.links
  port := h.port
  steals := h.steals
  foots := h.foots
  panics := h.panics
  now := h.now
  transport := h.transport
  channels := h.channels
  noOffs := h.noOffs
  sound := h.sound
  gate := h.gate
  kick := h.kick
  evaluate := fun _ s hs => raiseTempo_closed h.offered _ (h.tempo s _ hs)
  begin := fun s hs =>
    h.transport { s with tempo := { s.tempo with acc := (stepDuration s.tempo.current s.tempo.acc).2 } } _ (h.tempo s _ hs)
  fresh := fun s hs => h.tempo s _ hs
  take := fun v d _ _ hs => takeTempo_plain h v d hs
  tap := fun _ hs => takeTap_plain h hs
  clearTempo := fun _ hs => clearTempo_plain h hs
  enter := fun s _ _ _ hs => h.cue s _ s.departure hs
  cancel := fun s hs => h.cue s none none hs
  trigger := fun _ _ _ hs => takeTrigger_plain h _ (h.audition _ _ (raise_closed h.offered _ (h.cue _ _ _ hs)))
  scene := fun t _ _ _ hs => takeTrigger_plain h t hs
  audition := h.audition
  soft := h.soft
  library := fun s n x _ hs => h.slots s n x hs
  insert := fun s _ _ _ hs => h.positions _ _ (h.setlist s _ hs)
  remove := fun s _ _ _ hs => h.positions _ _ (h.setlist s _ hs)
  clear := fun s _ _ hs => h.setlist s _ hs
  itemEnd := h.itemEnd
  settle := h.settle
  panicPort := h.panicPort

end

end Sys2Proof.Proofs.Actions
end

section
/-! The held-note table (R20). Its law reads the sources and the targets of its entries, their outlines; a release takes one source's
outline away, and a note-on adds one behind the others, after the oldest has made room. -/

namespace Sys2Proof.Proofs.HeldTable

open Sys2Proof.Machine Sys2Proof.Laws Sys2Proof.Proofs Sys2Proof.Proofs.Lanes Sys2Proof.Proofs.Actions Sys2Proof.Proofs.NoteTables

/-! ### At most 96 entries, no two of one source -/

theorem raiseOn_held (l : Link) (n : Notice) (s : State) : (raiseOn l n s).held = s.held :=
  raiseOn_free (P := fun u => u.held = s.held) (fun u l x hu => by cases l <;> exact hu) l n s rfl

/-- A property of the sources in the table that survives the loss of some. -/
theorem outFree_sources {Q : List Source → Prop} (hQ : ∀ xs ys, xs.Sublist ys → Q ys → Q xs) : OutFree (fun u => Q (sources u.held)) where
  offered := fun l n s hs => by rwa [raiseOn_held]
  port := fun _ _ _ _ hs => hs
  held := fun _ _ hx hs => hQ _ _ hx hs
  fault := fun _ _ hs => hs

/-- After a release no entry of the source is left (R24). -/
theorem releaseEntry_gone (src : Source) (v : Nat) (s : State) : src ∉ sources (releaseEntry src v s).held := by
  intro hmem
  obtain ⟨e, he, hsrc⟩ := List.mem_map.mp hmem
  unfold releaseEntry at he
  split at he
  · rename_i hnone
    exact entryOf_none_iff.mp hnone e he hsrc
  · simp only [removeEntry, List.mem_filter, decide_eq_true_eq] at he
    exact he.2 hsrc

theorem releaseEntry_sublist (src : Source) (v : Nat) (s : State) : (sources (releaseEntry src v s).held).Sublist (sources s.held) :=
  releaseEntry_closed (outFree_sources (Q := fun xs => xs.Sublist (sources s.held)) fun _ _ h hy => h.trans hy) src v
    (List.Sublist.refl _)

/-- A table with entries has one to steal (R26). -/
theorem stealVictim_some {held : List HeldEntry} (h : held ≠ []) : ∃ e, stealVictim held = some e ∧ e ∈ held := by
  unfold stealVictim
  split
  · rename_i e he
    exact ⟨e, rfl, List.mem_of_find?_eq_some he⟩
  · obtain ⟨e, es, rfl⟩ := List.exists_cons_of_ne_nil h
    exact ⟨e, rfl, List.mem_cons_self⟩

/-- A steal takes an entry from a table that has one (R26). -/
theorem steal_length {i : Input} {s : State} (h : s.held ≠ []) : (sources (steal i s).held).length < (sources s.held).length := by
  obtain ⟨e, he, hmem⟩ := stealVictim_some h
  have hreleased : (sources (releaseEntry e.source Config.offVelocity s).held).length < (sources s.held).length := by
    refine lt_of_le_of_ne (releaseEntry_sublist _ _ s).length_le fun hlen => ?_
    refine releaseEntry_gone e.source Config.offVelocity s ?_
    rw [(releaseEntry_sublist e.source Config.offVelocity s).eq_of_length hlen]
    exact List.mem_map_of_mem hmem
  have hfree := outFree_sources (Q := fun xs => xs.length < (sources s.held).length)
    fun _ _ h hy => lt_of_le_of_lt h.length_le hy
  unfold steal
  rw [he]
  exact takeFault_closed hfree _ _ (raise_closed hfree.offered _ hreleased)

/-- A note-on finds room for its entry (R25 step 2). -/
theorem makeRoom_length {i : Input} {s : State} (h : s.held.length ≤ Config.heldMax) : (makeRoom i s).held.length < Config.heldMax := by
  unfold makeRoom
  split
  · rename_i hfull
    have hne : s.held ≠ [] := fun hnil => by
      rw [hnil] at hfull
      exact absurd hfull (by decide)
    have hless := steal_length (i := i) hne
    simp only [sources, List.length_map] at hless
    omega
  · omega

/-- The new entry of a source that has none in the table keeps the law. -/
theorem heldOk_create (src : Source) (n : Nat) (ts : List HeldTarget) {s : State} (h : HeldOk s) (hroom : s.held.length < Config.heldMax)
    (hnew : src ∉ sources s.held) : HeldOk (createEntry src n ts s) := by
  obtain ⟨-, hnodup⟩ := h
  refine ⟨by simp only [createEntry, List.length_append, List.length_singleton]; omega, ?_⟩
  rw [createEntry, List.map_append, List.nodup_append]
  refine ⟨hnodup, List.nodup_singleton _, fun a ha b hb hab => ?_⟩
  obtain rfl := List.mem_singleton.mp hb
  exact hnew (hab ▸ ha)

theorem heldOk_outFree : OutFree HeldOk where
  offered := fun l n s hs => by unfold HeldOk; rwa [raiseOn_held]
  port := fun _ _ _ _ hs => hs
  held := fun s x hx hs => by
    obtain ⟨hlen, hnodup⟩ := hs
    have hle := hx.length_le
    simp only [sources, List.length_map] at hle
    exact ⟨le_trans hle hlen, hnodup.sublist hx⟩
  fault := fun _ _ hs => hs

theorem heldOk_noteFree : NoteFree HeldOk where
  toOutFree := heldOk_outFree
  create := fun s src n ts hs => by
    have hreleased := releaseEntry_closed heldOk_outFree src Config.offVelocity hs
    have hgone := makeRoom_closed (outFree_sources (Q := fun xs => src ∉ xs) fun _ _ h hy hx => hy (h.subset hx))
      (fun _ _ h => h) src.input (releaseEntry_gone src Config.offVelocity s)
    exact heldOk_create src n ts (makeRoom_closed heldOk_outFree (fun _ _ h => h) _ hreleased) (makeRoom_length hreleased.1) hgone
  pedals := fun _ _ hs => hs
  steals := fun _ _ hs => hs
  inputs := fun _ _ hs => hs

/-! ### One to four distinct targets -/

/-- The targets of an entry by its outline: distinct, at most four, and at least one. -/
def OutlineOk (o : Source × List Triple) : Prop := 1 ≤ o.2.length ∧ o.2.length ≤ 4 ∧ o.2.Nodup

theorem targetsOk_iff (s : State) : TargetsOk s ↔ ∀ o ∈ s.held.map outline, OutlineOk o := by
  unfold TargetsOk OutlineOk
  simp only [List.forall_mem_map, List.length_map]

/-- The table while the entry of a source loses targets, those given apart (R24, R28). -/
def Losing (src : Source) (kept : List Triple) (s : State) : Prop :=
  ∀ o ∈ s.held.map outline, (o.1 ≠ src → 1 ≤ o.2.length) ∧ o.2.length ≤ 4 ∧ o.2.Nodup ∧ (o.1 = src → ∀ t ∈ kept, t ∈ o.2)

theorem outlines_kept {Q : List (Source × List Triple) → Prop} : LaneFree (fun u => Q (u.held.map outline)) where
  offered := fun l n s hs => by rwa [raiseOn_held]
  lane := fun _ _ _ _ hs => hs
  flags := fun s x hx hs => by
    show Q (x.map outline)
    rwa [hx]
  fault := fun _ _ hs => hs

theorem losing_laneFree (src : Source) (kept : List Triple) : LaneFree (Losing src kept) :=
  outlines_kept (Q := fun os => ∀ o ∈ os, (o.1 ≠ src → 1 ≤ o.2.length) ∧ o.2.length ≤ 4 ∧ o.2.Nodup ∧ (o.1 = src → ∀ t ∈ kept, t ∈ o.2))

theorem targetsOk_laneFree : LaneFree TargetsOk := by
  have h := outlines_kept (Q := fun os => ∀ o ∈ os, OutlineOk o)
  simp only [← targetsOk_iff] at h
  exact h

theorem outline_drop (e : HeldEntry) (t : Triple) : outline (e.drop t) = (e.source, (e.targets.map (fun x => x.triple)).filter (fun x => decide (x ≠ t))) := by
  unfold outline HeldEntry.drop
  rw [List.filter_map]
  rfl

/-- The loss of a target that is not to be kept. -/
theorem losing_drop {src : Source} {kept : List Triple} {t : Triple} (ht : t ∉ kept) (s : State) (h : Losing src kept s) :
    Losing src kept { s with held := s.held.map (fun e => if e.source = src then e.drop t else e) } := by
  intro o ho
  simp only [List.map_map, List.mem_map, Function.comp_apply] at ho
  obtain ⟨e, he, rfl⟩ := ho
  obtain ⟨hsome, hfour, hnodup, hkept⟩ := h (outline e) (List.mem_map_of_mem he)
  split
  · rename_i hsrc
    rw [outline_drop]
    refine ⟨fun hne => absurd hsrc hne, le_trans (List.length_filter_le _ _) hfour, hnodup.filter _, fun _ x hx => ?_⟩
    exact List.mem_filter.mpr ⟨hkept hsrc x hx, decide_eq_true fun e : x = t => ht (e ▸ hx)⟩
  · exact ⟨hsome, hfour, hnodup, hkept⟩

theorem losing_releaseTargets (src : Source) (v : Nat) {kept ts : List Triple} (hd : ∀ t ∈ ts, t ∉ kept) {s : State}
    (h : Losing src kept s) : Losing src kept (releaseTargets src v ts s) :=
  List.foldlRecOn ts _ h fun _ hu t ht => releaseTarget_of (losing_laneFree src kept) src v t (losing_drop (hd t ht)) hu

/-- A table whose entries have their targets may begin to lose some that one source's entry has. -/
theorem losing_of_targetsOk {src : Source} {kept : List Triple} {s : State} (h : TargetsOk s)
    (hk : ∀ e ∈ s.held, e.source = src → ∀ t ∈ kept, t ∈ e.targets.map (fun x => x.triple)) : Losing src kept s := by
  intro o ho
  obtain ⟨e, he, rfl⟩ := List.mem_map.mp ho
  obtain ⟨hsome, hfour, hnodup⟩ := h e he
  exact ⟨fun _ => by simpa using hsome, by simpa using hfour, hnodup, hk e he⟩

/-- Once the entry that loses them is gone, the others have their targets. -/
theorem targetsOk_removeEntry {src : Source} {kept : List Triple} {s : State} (h : Losing src kept s) : TargetsOk (removeEntry src s) := by
  intro e he
  simp only [removeEntry, List.mem_filter, decide_eq_true_eq] at he
  obtain ⟨hmem, hne⟩ := he
  obtain ⟨hsome, hfour, hnodup, -⟩ := h (outline e) (List.mem_map_of_mem hmem)
  exact ⟨by simpa using hsome hne, by simpa using hfour, hnodup⟩

/-- Nor has the entry lost all where a target is kept. -/
theorem targetsOk_of_losing {src : Source} {t : Triple} {s : State} (h : Losing src [t] s) : TargetsOk s := by
  rw [targetsOk_iff]
  intro o ho
  obtain ⟨hsome, hfour, hnodup, hkept⟩ := h o ho
  refine ⟨?_, hfour, hnodup⟩
  by_cases hsrc : o.1 = src
  · exact List.length_pos_of_mem (hkept hsrc t List.mem_cons_self)
  · exact hsome hsrc

theorem targetsOk_release (src : Source) (v : Nat) (s : State) (h : TargetsOk s) : TargetsOk (releaseEntry src v s) := by
  unfold releaseEntry
  split
  · exact h
  · exact targetsOk_removeEntry (losing_releaseTargets src v (kept := []) (fun _ _ => List.not_mem_nil)
      (losing_of_targetsOk h fun _ _ _ _ ht => absurd ht List.not_mem_nil))

/-- The entries of one source, in a table that has no two, are the one found. -/
theorem entry_unique {src : Source} {s : State} {e y : HeldEntry} (hn : (s.held.map (fun e => e.source)).Nodup)
    (he : s.entryOf src = some e) (hy : y ∈ s.held) (hsrc : y.source = src) : y = e :=
  List.inj_on_of_nodup_map hn hy (entryOf_mem he) (hsrc.trans (entryOf_source he).symm)

/-- A note-off under the pedal releases the MODULE targets; an entry of another target keeps that one (R28). -/
theorem targetsOk_sustain (src : Source) (v : Nat) (s : State) (e : HeldEntry) (he : s.entryOf src = some e) (hh : HeldOk s)
    (h : TargetsOk s) : TargetsOk (noteOffPedalled src v e s) := by
  obtain ⟨-, -, hdistinct⟩ := h e (entryOf_mem he)
  unfold noteOffPedalled
  dsimp only
  split
  · exact targetsOk_removeEntry (losing_releaseTargets src v (kept := []) (fun _ _ => List.not_mem_nil)
      (losing_of_targetsOk h fun _ _ _ _ ht => absurd ht List.not_mem_nil))
  · rename_i hall
    obtain ⟨x, hx, hchip⟩ : ∃ x ∈ e.targets, x.pedal ≠ .module := by simpa using hall
    have hlost : Losing src [x.triple] (releaseTargets src v
        ((e.targets.filter (fun x => decide (x.pedal = .module))).map (fun x => x.triple)) s) := by
      refine losing_releaseTargets src v (fun t ht hk => ?_) (losing_of_targetsOk h fun y hy hsrc t ht => ?_)
      · obtain ⟨y, hy, rfl⟩ := List.mem_map.mp ht
        simp only [List.mem_filter, decide_eq_true_eq] at hy
        exact hchip (List.inj_on_of_nodup_map hdistinct hy.1 hx (List.mem_singleton.mp hk) ▸ hy.2)
      · obtain rfl := entry_unique hh.2 he hy hsrc
        obtain rfl := List.mem_singleton.mp ht
        exact List.mem_map_of_mem hx
    refine targetsOk_laneFree.flags _ _ (flagStep_map (fun y => ?_) _) (targetsOk_of_losing hlost)
    split <;> rfl

/-- A layer list of one to four distinct targets makes an entry of them (R25). -/
theorem targetsOk_record (src : Source) (n : Nat) (ts : List HeldTarget) (s : State) (hsome : 1 ≤ ts.length) (hfour : ts.length ≤ 4)
    (hnodup : (ts.map (fun x => x.triple)).Nodup) (h : TargetsOk s) : TargetsOk (recordNoteOn src n ts s) := by
  have hroom : TargetsOk (makeRoom src.input (releaseEntry src Config.offVelocity s)) := by
    unfold makeRoom steal
    split
    · split
      · exact targetsOk_release _ _ _ h
      · exact takeFault_kept targetsOk_laneFree _ _ (raise_closed targetsOk_laneFree.offered _
          (targetsOk_release _ _ _ (targetsOk_release _ _ _ h)))
    · exact targetsOk_release _ _ _ h
  refine claims_kept targetsOk_laneFree src ts fun e he => ?_
  rcases List.mem_append.mp he with he | he
  · exact hroom e he
  · obtain rfl := List.mem_singleton.mp he
    simp only [List.length_map, List.map_map]
    exact ⟨hsome, hfour, hnodup⟩

/-! ### The whole law -/

/-- The law of the held-note table, its second part where `b` holds. -/
def TableOk (b : Prop) (s : State) : Prop := HeldOk s ∧ (b → TargetsOk s)

section
variable {b : Prop}

/-- It reads the table alone. -/
theorem tableOk_of {s t : State} (h : t.held = s.held) (hs : TableOk b s) : TableOk b t := by
  unfold TableOk HeldOk TargetsOk at hs ⊢
  rwa [h]

theorem tableOk_laneFree : LaneFree (TableOk b) where
  offered := fun l n s hs => tableOk_of (raiseOn_held l n s) hs
  lane := fun s _ _ _ hs => tableOk_of (s := s) rfl hs
  flags := fun s x hx hs => ⟨(NoteFree.table heldOk_noteFree).flags s x hx hs.1, fun hb => targetsOk_laneFree.flags s x hx (hs.2 hb)⟩
  fault := fun s _ hs => tableOk_of (s := s) rfl hs

theorem tableOk_tableFree : TableFree (TableOk b) where
  toLaneFree := tableOk_laneFree
  release := fun src v s hs => ⟨releaseEntry_closed heldOk_outFree src v hs.1, fun hb => targetsOk_release src v s (hs.2 hb)⟩
  sustain := fun src v s e he hs =>
    ⟨noteOffPedalled_closed heldOk_outFree src v e hs.1, fun hb => targetsOk_sustain src v s e he hs.1 (hs.2 hb)⟩
  record := fun src n ts s h1 h4 hd hs =>
    ⟨recordNoteOn_closed heldOk_noteFree src n ts hs.1, fun hb => targetsOk_record src n ts s h1 h4 hd (hs.2 hb)⟩
  emptied := fun _ _ => ⟨⟨Nat.zero_le _, List.nodup_nil⟩, fun _ _ he => absurd he List.not_mem_nil⟩
  pedals := fun s _ hs => tableOk_of (s := s) rfl hs
  inputs := fun s _ hs => tableOk_of (s := s) rfl hs

theorem tableOk_beatFree : BeatFree (TableOk b) where
  offered := tableOk_laneFree.offered
  port := fun s _ _ _ hs => tableOk_of (s := s) rfl hs
  tempo := fun s _ hs => tableOk_of (s := s) rfl hs
  sameMode := fun s _ _ _ hs => tableOk_of (s := s) rfl hs
  click := fun s _ hs => tableOk_of (s := s) rfl hs

theorem tableOk_recordFree : RecordFree (TableOk b) where
  offered := tableOk_laneFree.offered
  changeover := fun s _ _ hs => tableOk_of (s := s) rfl hs

theorem tableOk_quietFree : QuietFree (TableOk b) where
  offered := tableOk_laneFree.offered
  quiet := fun s _ _ _ hs => tableOk_of (s := s) rfl hs
  flags := tableOk_laneFree.flags
  fault := tableOk_laneFree.fault
  changeover := fun s _ hs => tableOk_of (s := s) rfl hs
  progMem := fun s _ hs => tableOk_of (s := s) rfl hs
  pedals := tableOk_tableFree.pedals
  live := fun s _ _ hs => tableOk_of (s := s) rfl hs

theorem tableOk_plainFree : PlainFree (TableOk b) where
  toTableFree := tableOk_tableFree
  links := fun s l x hs => tableOk_of (s := s) (by cases l <;> rfl) hs
  port := fun s _ _ _ hs => tableOk_of (s := s) rfl hs
  steals := fun s _ hs => tableOk_of (s := s) rfl hs
  foots := fun s _ hs => tableOk_of (s := s) rfl hs
  panics := fun s _ hs => tableOk_of (s := s) rfl hs
  now := fun s _ hs => tableOk_of (s := s) rfl hs
  transport := fun s _ hs => tableOk_of (s := s) rfl hs
  tempo := fun s _ hs => tableOk_of (s := s) rfl hs
  selection := fun s _ _ hs => tableOk_of (s := s) rfl hs
  cue := fun s _ _ hs => tableOk_of (s := s) rfl hs
  audition := fun s _ hs => tableOk_of (s := s) rfl hs
  slots := fun s _ _ hs => tableOk_of (s := s) rfl hs
  setlist := fun s _ hs => tableOk_of (s := s) rfl hs
  positions := fun s _ hs => tableOk_of (s := s) rfl hs
  channels := fun s _ hs => tableOk_of (s := s) rfl hs
  noOffs := fun s hs => tableOk_of (s := s) rfl hs
  sound := fun c k _ hs => soundClick_closed tableOk_beatFree c k hs
  gate := fun p c n _ hs => gateExpiry_closed tableOk_beatFree (fun s _ hs => tableOk_of (s := s) rfl hs) p c n hs
  kick := fun _ hs => kickPorts_closed tableOk_beatFree.port tableOk_beatFree.click hs
  send := fun t _ hm hs => takeTrigger_kept tableOk_quietFree.send t hm hs
  soft := fun s _ => by
    obtain ⟨ps, is, hsoft⟩ := Resets.softResetAll_walked s
    rw [hsoft]
    exact ⟨⟨Nat.zero_le _, List.nodup_nil⟩, fun _ _ he => absurd he List.not_mem_nil⟩
  itemEnd := fun p _ hs => itemEnd_closed tableOk_recordFree tableOk_beatFree.port (fun s _ hs => tableOk_of (s := s) rfl hs) p hs
  settle := fun p _ hs => settleExpiry_closed tableOk_recordFree tableOk_beatFree.port (fun s _ hs => tableOk_of (s := s) rfl hs) p hs
  panicPort := fun p s hs => by
    unfold panicPort
    dsimp only
    split
    · exact reportSettleEnd_closed tableOk_recordFree _ (tableOk_of (s := s) rfl hs)
    · exact tableOk_of (s := s) rfl hs

end

/-- Settles O6: the table's actions keep its law, and nothing else moves a source or a target. -/
theorem heldTableStaysSafe : Obligations.HeldTableStaysSafe := by
  unfold Obligations.HeldTableStaysSafe
  intro s t hst hs
  have hreset : ∀ c1 c0 u, TableOk (TargetsOk s) (pinResetAll c1 c0 u) := fun c1 c0 u => by
    obtain ⟨fs, hpin⟩ := Resets.pinResetAll_eq c1 c0 u
    rw [hpin]
    exact ⟨⟨Nat.zero_le _, List.nodup_nil⟩, fun _ _ he => absurd he List.not_mem_nil⟩
  have hend : ∀ u, TableOk (TargetsOk s) u → TableOk (TargetsOk s) (endInitialisation u) := fun u hu => by
    refine tableOk_of ?_ hu
    unfold endInitialisation
    split
    · rfl
    · rw [mapPorts_eq, mapFoots_eq]
      rfl
  exact step_kept tableOk_plainFree.actions (fun c1 c0 u _ => hreset c1 c0 u) hend (fun u _ hu => tableOk_of (s := u) rfl hu) hst
    ⟨hs, id⟩

end Sys2Proof.Proofs.HeldTable
end

section
/-! The choice of a port leaves the PROGRAM entries that have not been transmitted as they are; and what the click does, taken apart
into its writes to a port and to the list of note-offs. -/

namespace Sys2Proof.Proofs.Actions

open Sys2Proof.Machine Sys2Proof.Laws Sys2Proof.Proofs Sys2Proof.Proofs.Lanes Sys2Proof.Proofs.Instants

/-! ### The choice of a port (R163) -/

section
variable {q x : PortState}

theorem laneOnly_settle (h : LaneOnly q x) : x.settleDue = q.settleDue := by rw [h]

/-- An IDLE port whose last entry has been sent begins a message of another. -/
theorem kept_of_begun (hw : q.wire = none) (hok : PortOk q → PortOk x) (hx : ∃ w b, x.wire = some w ∧ w.status = some b)
    (hend : ∀ e, q.entry = some e → e.left = []) (hcount : q.entry = none → x.untransmitted = q.untransmitted)
    (hs : x.settleDue = q.settleDue) : PortKept q x where
  ok := hok
  wire := fun _ _ _ _ => hx
  count := fun h => hcount (by
    by_contra hsome
    obtain ⟨e, he⟩ := Option.ne_none_iff_exists'.mp hsome
    obtain ⟨w, _, hw', -⟩ := h e he (hend e he)
    exact nomatch hw.symm.trans hw')
  settle := by rw [hs]; exact id

theorem untransmitted_of_noEntry (h : q.entry = none) : q.untransmitted = (q.noteLane.filter NoteEntry.isProgram).length := by
  unfold PortState.untransmitted
  rw [h]
  rfl

/-- The entry granted leaves the lane and is the one in transmission. -/
theorem grantNote_count (now : Nat) (h : q.entry = none) : (q.grantNote now).untransmitted = q.untransmitted := by
  rw [untransmitted_of_noEntry h]
  unfold PortState.grantNote
  split
  · exact untransmitted_of_noEntry h
  · rename_i n ns hlane
    split
    · exact untransmitted_of_noEntry h
    · rw [hlane]
      show (List.filter _ (PortState.lose _).noteLane).length + (Option.filter InProgress.reported (some _)).toList.length = _
      rw [lose_programs]
      cases hn : n.isProgram <;> simp [InProgress.reported, hn]

theorem kept_grantNote (now : Nat) (hw : q.wire = none) (hend : ∀ e, q.entry = some e → e.left = []) :
    PortKept q (q.grantNote now) := by
  by_cases hsame : q.grantNote now = q
  · rw [hsame]
    exact .refl q
  · refine kept_of_begun hw (grantNote_ok now) ?_ hend (grantNote_count now) ?_
    · unfold PortState.grantNote at hsame ⊢
      split
      · simp_all
      · split
        · simp_all
        · exact ⟨_, _, rfl, rfl⟩
    · unfold PortState.grantNote
      split
      · rfl
      · split
        · rfl
        · show (PortState.lose _).settleDue = _
          rw [laneOnly_settle (laneOnly_lose _)]

theorem kept_grantControl (now : Nat) (m : MergeSlot) (hw : q.wire = none) (hend : ∀ e, q.entry = some e → e.left = []) :
    PortKept q (q.grantControl now m) :=
  kept_of_begun hw (grantControl_ok now m) ⟨_, _, rfl, rfl⟩ hend (fun he => (untransmitted_of_noEntry he).symm) rfl

theorem kept_grantClick (now : Nat) {e : ClickEntry} {es : List ClickEntry} (hlane : q.clickLane = e :: es) (hw : q.wire = none)
    (hend : ∀ e, q.entry = some e → e.left = []) : PortKept q (q.grantClick now e es) := by
  refine kept_of_begun hw (fun h => ?_) ⟨_, _, rfl, rfl⟩ hend (fun he => (untransmitted_of_noEntry he).symm) rfl
  have hlen := h.click
  rw [hlane, List.length_cons] at hlen
  exact ⟨h.realtime, Nat.le_of_succ_le hlen, h.note, h.merge, h.grants, h.sweeps, h.programs⟩

theorem kept_chooseLane (now : Nat) (hw : q.wire = none) (hend : ∀ e, q.entry = some e → e.left = []) :
    PortKept q (q.chooseLane now) := by
  unfold PortState.chooseLane
  split
  · split
    · exact kept_grantNote now hw hend
    · exact kept_grantControl now _ hw hend
  · split
    · exact kept_grantNote now hw hend
    · exact .refl q

theorem kept_chooseItem (now : Nat) (hw : q.wire = none) (hend : ∀ e, q.entry = some e → e.left = []) :
    PortKept q (q.chooseItem now).1 := by
  unfold PortState.chooseItem
  split
  · rename_i hlane
    split
    · exact kept_grantClick now hlane hw hend
    · exact kept_chooseLane now hw hend
  · exact kept_chooseLane now hw hend

/-- The next message of the entry in transmission. -/
theorem kept_nextMessage (now : Nat) {e : InProgress} {m : Message} {ms : List Message} (he : q.entry = some e) :
    PortKept q (q.beginMessage now m { e with left := ms }) where
  ok := fun h => ⟨h.realtime, h.click, h.note, h.merge, h.grants, h.sweeps, h.programs⟩
  wire := fun _ _ _ _ => ⟨_, _, rfl, rfl⟩
  count := fun _ => by
    unfold PortState.untransmitted
    rw [he]
    show _ + (Option.filter InProgress.reported (some { e with left := ms })).toList.length = _
    have hsame : InProgress.reported { e with left := ms } = e.reported := rfl
    simp only [Option.filter, hsame, PortState.beginMessage]
    cases e.reported <;> rfl
  settle := id

theorem kept_choose (q : PortState) (now : Nat) : PortKept q (q.choose now).1 := by
  unfold PortState.choose
  split
  · exact .refl q
  · rename_i hidle
    have hw : q.wire = none := by simpa using hidle
    split
    · rename_i b bs hreal
      refine PortKept.trans (x := { q with realtime := bs }) (.ofSame (fun h => ?_) rfl rfl rfl rfl) (kept_beginByte (q := { q with realtime := bs }) hw now _)
      have hlen := h.realtime
      rw [hreal, List.length_cons] at hlen
      exact ⟨Nat.le_of_succ_le hlen, h.click, h.note, h.merge, h.grants, h.sweeps, h.programs⟩
    · split
      · rename_i e he
        split
        · exact kept_nextMessage now he
        · rename_i hleft
          refine kept_chooseItem now hw fun e' he' => ?_
          obtain rfl := Option.some.inj (he.symm.trans he')
          exact hleft
      · rename_i hnone
        exact kept_chooseItem now hw fun e he => nomatch hnone.symm.trans he

end

/-! ### The writes of the click (R95, R96, R161) -/

/-- No change of a port that keeps its untransmitted entries and no write to the click disturbs a property. -/
structure ClickWrites (P : State → Prop) : Prop where
  port : ∀ s p x, PortKept (s.port p) x → P s → P (s.setPort p x)
  click : ∀ s x, P s → P { s with click := x }

section
variable {P : State → Prop}

theorem offerOff_written (h : ClickWrites P) (r : ClickOff) {s : State} (hs : P s) : P (offerOff r s) := by
  unfold offerOff
  split
  · rename_i hroom
    exact h.click _ _ (h.port _ _ _ (kept_enqueueClick _ hroom) hs)
  · exact h.click _ _ hs

theorem soundClick_written (h : ClickWrites P) (c : ClickChannel) (k : ClickPosition) {s : State} (hs : P s) :
    P (soundClick c k s) := by
  have hcut : P (cutShort c.port c.chan (c.note k) s) := by
    unfold cutShort
    split
    · exact offerOff_written h _ hs
    · exact hs
  unfold soundClick enqueueOn
  split
  · rename_i hroom
    exact h.click _ _ (h.port _ _ _ (kept_enqueueClick _ hroom) hcut)
  · exact h.port _ _ _ (.ofSame (fun h => ⟨h.realtime, h.click, h.note, h.merge, h.grants, h.sweeps, h.programs⟩) rfl rfl rfl rfl) hcut

theorem gateExpiry_written (h : ClickWrites P) (hn : ∀ s x, P s → P { s with now := x }) (p : Port) (c : Chan) (n : Nat)
    {s : State} (hs : P s) : P (gateExpiry p c n s) := by
  unfold gateExpiry
  split
  · exact hs
  · split
    · exact hs
    · exact offerOff_written h _ (hn _ _ hs)

theorem ClickWrites.kick (h : ClickWrites P) : KickFree P where
  choose := fun _ _ hs => h.port _ _ _ (kept_choose _ _) hs
  place := fun _ _ _ _ hroom hs => h.click _ _ (h.port _ _ _ (kept_enqueueClick _ hroom) hs)

end

end Sys2Proof.Proofs.Actions
end

section
/-! The ranges of the tempo unit (R60 to R77). The chosen tempo is an override, a segment's tempo or a ramp value, each within its range; the
ramp's counter stays below its segment's ramp beats because the map in use changes only where the tempo unit is cleared. -/

namespace Sys2Proof.Proofs.TempoRanges

open Sys2Proof.Machine Sys2Proof.Laws Sys2Proof.Proofs Sys2Proof.Proofs.Lanes Sys2Proof.Proofs.Actions

/-! ### The map in use -/

/-- A tempo within the range of R60. -/
def InRange (v : Nat) : Prop := Config.tempoMin ≤ v ∧ v ≤ Config.tempoMax

theorem segmentOk_default : SegmentOk defaultSegment :=
  ⟨⟨by decide, by decide⟩, ⟨by decide, by decide, .inl rfl⟩, ⟨by decide, by decide⟩, ⟨by decide, by decide⟩, nofun⟩

/-- Every segment of the map in use is in its ranges (R63). -/
theorem mapInUse_ok {s : State} (h : LibraryOk s) {g : Segment} (hg : g ∈ s.mapInUse) : SegmentOk g := by
  unfold State.mapInUse at hg
  split at hg
  · rename_i x hx
    split at hg
    · exact List.mem_singleton.mp hg ▸ segmentOk_default
    · obtain ⟨n, -, hn⟩ := Option.bind_eq_some_iff.mp hx
      have hslot := h n
      unfold Slot.song? at hn
      split at hn
      · rename_i y hy
        obtain rfl := Option.some.inj hn
        rw [hy] at hslot
        exact hslot.1.segments.2 g hg
      · exact nomatch hn
  · exact List.mem_singleton.mp hg ▸ segmentOk_default

/-- The segment in force, or the default one, is in its ranges. -/
theorem segment_ok {s : State} (h : LibraryOk s) (n : Nat) : SegmentOk ((s.mapInUse[n]?).getD defaultSegment) := by
  rcases hn : s.mapInUse[n]? with _ | g
  · exact segmentOk_default
  · exact mapInUse_ok h (List.mem_of_getElem? hn)

theorem firstSegment_ok {s : State} (h : LibraryOk s) : SegmentOk s.firstSegment := by
  unfold State.firstSegment
  rcases hmap : s.mapInUse with _ | ⟨g, gs⟩
  · exact segmentOk_default
  · exact mapInUse_ok h (g := g) (by rw [hmap]; exact List.mem_cons_self)

theorem segmentInUse_ok {s : State} (h : LibraryOk s) {g : Segment} (hg : s.segmentInUse = some g) : SegmentOk g := by
  obtain ⟨n, -, hn⟩ := Option.bind_eq_some_iff.mp hg
  exact mapInUse_ok h (List.mem_of_getElem? hn)

/-! ### The chosen tempo (R66, R67) -/

theorem rampEnd_ok {g : Segment} (h : SegmentOk g) : InRange g.rampEnd := by
  unfold Segment.rampEnd
  rcases ht : g.rampTarget with _ | v
  · exact h.tempo
  · exact h.target v ht

/-- A rounded share of a difference is no larger than the difference. -/
theorem share_le {d k n : Nat} (h : k < n) : (2 * d * k + n) / (2 * n) ≤ d := by
  rw [Nat.div_le_iff_le_mul_add_pred (by omega)]
  have hk : d * k ≤ d * n := Nat.mul_le_mul_left d (Nat.le_of_lt h)
  calc 2 * d * k + n = 2 * (d * k) + n := by ring
    _ ≤ 2 * (d * n) + (2 * n - 1) := by omega
    _ = 2 * n * d + (2 * n - 1) := by ring

/-- A ramp value lies between the tempos it runs between. -/
theorem rampValue_ok {g : Segment} {k : Nat} (h : SegmentOk g) (hk : k < g.rampBeats) : InRange (g.rampValue k) := by
  obtain ⟨hlo, hhi⟩ := h.tempo
  obtain ⟨hlo', hhi'⟩ := rampEnd_ok h
  unfold InRange
  rcases le_or_gt g.tempo g.rampEnd with hup | hdown
  · rw [Grid.rampValue_of_le hup]
    have hshare := share_le (d := g.rampEnd - g.tempo) hk
    generalize (2 * (g.rampEnd - g.tempo) * k + g.rampBeats) / (2 * g.rampBeats) = q at *
    omega
  · rw [Grid.rampValue_of_lt hdown]
    have hshare := share_le (d := g.tempo - g.rampEnd) hk
    generalize (2 * (g.tempo - g.rampEnd) * k + g.rampBeats) / (2 * g.rampBeats) = q at *
    omega

/-- What the tempo unit holds apart from T and its accumulator is in its ranges, for a map. -/
structure UnitOk (t : TempoState) (map : List Segment) : Prop where
  override : ∀ v, t.override = some v → InRange v
  staged : ∀ x v, t.staged = some x → x.value = .tempo v → InRange v
  taps : t.taps.length ≤ 3 ∧ ∀ d ∈ t.taps, Config.tapMin ≤ d ∧ d ≤ Config.tapMax
  ramp : ∀ k g, t.ramp = .ramping k → t.segment.bind (fun n => map[n]?) = some g → k < g.rampBeats

/-- T is in its range and the accumulator below it (R60). -/
def PaceOk (t : TempoState) : Prop := InRange t.current ∧ t.acc < t.current

theorem tempoOk_iff (s : State) : TempoOk s ↔ PaceOk s.tempo ∧ UnitOk s.tempo s.mapInUse :=
  ⟨fun h => ⟨⟨h.current, h.accumulator⟩, h.override, h.staged, h.taps, h.ramp⟩,
    fun ⟨hpace, hunit⟩ => ⟨hpace.1, hpace.2, hunit.override, hunit.staged, hunit.taps, hunit.ramp⟩⟩

/-- A tempo unit in its ranges chooses a tempo in its range. -/
theorem chosenTempo_ok {s : State} (hl : LibraryOk s) (h : UnitOk s.tempo s.mapInUse) : InRange s.chosenTempo := by
  unfold State.chosenTempo
  split
  · rename_i v hv
    exact h.override v hv
  · split
    · exact (firstSegment_ok hl).tempo
    · rename_i g hg
      have hok := segmentInUse_ok hl hg
      split
      · rename_i k hk
        exact rampValue_ok hok (h.ramp k g hk hg)
      · exact rampEnd_ok hok
      · exact hok.tempo

/-! ### What the unit's actions leave -/

theorem paceOk_take {t : TempoState} {v : Nat} (h : PaceOk t) (hv : InRange v) : PaceOk (t.take v) := by
  unfold TempoState.take
  split
  · exact h
  · exact ⟨hv, lt_of_lt_of_le (show 0 < Config.tempoMin by decide) hv.1⟩

theorem unitOk_take {t : TempoState} {map : List Segment} (v : Nat) (h : UnitOk t map) : UnitOk (t.take v) map := by
  unfold TempoState.take
  split
  · exact h
  · exact ⟨h.override, h.staged, h.taps, h.ramp⟩

/-- The unit takes the tempo that it chooses. -/
theorem tempoOk_chosen {s : State} {t : TempoState} (hl : LibraryOk s) (hp : PaceOk t) (hu : UnitOk t s.mapInUse) :
    TempoOk { s with tempo := t.take (State.chosenTempo { s with tempo := t }) } :=
  (tempoOk_iff _).mpr ⟨paceOk_take hp (chosenTempo_ok (s := { s with tempo := t }) hl hu), unitOk_take _ hu⟩

theorem unitOk_setOverride {t : TempoState} {map : List Segment} {v : Nat} (h : UnitOk t map) (hv : InRange v) :
    UnitOk (t.setOverride v) map := by
  refine ⟨fun x hx => Option.some.inj hx ▸ hv, h.staged, h.taps, fun k g hk => ?_⟩
  simp only [TempoState.setOverride] at hk
  split at hk
  · exact nomatch hk
  · rename_i hother
    exact absurd hk (hother k)

theorem unitOk_noOverride {t : TempoState} {map : List Segment} (h : UnitOk t map) : UnitOk { t with override := none } map :=
  ⟨nofun, h.staged, h.taps, h.ramp⟩

theorem unitOk_noStaged {t : TempoState} {map : List Segment} (h : UnitOk t map) : UnitOk { t with staged := none } map :=
  ⟨h.override, nofun, h.taps, h.ramp⟩

/-- A segment that begins has its ramp ahead of it (R67). -/
theorem unitOk_beginSegment {t : TempoState} {map : List Segment} (n : Nat) {g : Segment} (h : UnitOk t map) (hg : SegmentOk g)
    (hn : ∀ x, map[n]? = some x → x = g) : UnitOk (t.beginSegment n g) map := by
  refine ⟨fun v hv => h.override v ?_, h.staged, h.taps, fun k x hk hx => ?_⟩
  · simp only [TempoState.beginSegment] at hv
    split at hv
    · exact hv
    · exact nomatch hv
  · obtain rfl := hn x hx
    simp only [TempoState.beginSegment] at hk
    split at hk
    · exact nomatch hk
    · rename_i hbars
      generalize (if n = 0 then t.override else none).isSome = overridden at hk
      cases overridden with
      | true => exact nomatch hk
      | false =>
        obtain rfl := RampState.ramping.inj hk
        exact Nat.mul_pos (Nat.pos_of_ne_zero hbars) hg.meter.1

/-- A beat of the ramp stays below the ramp's beats, or arrives (R67). -/
theorem unitOk_advance {t : TempoState} {map : List Segment} {g : Segment} (h : UnitOk t map)
    (hg : t.segment.bind (fun n => map[n]?) = some g) : UnitOk { t with ramp := advanceRamp g t.ramp } map := by
  refine ⟨h.override, h.staged, h.taps, fun k x hk hx => ?_⟩
  obtain rfl := Option.some.inj (hg.symm.trans hx)
  simp only [advanceRamp] at hk
  split at hk
  · split at hk
    · exact nomatch hk
    · obtain rfl := RampState.ramping.inj hk
      omega
  · rename_i hother
    exact absurd hk (hother k)

theorem segmentStep_ok {s : State} (d : Bool) (hl : LibraryOk s) (h : TempoOk s) :
    PaceOk (s.segmentStep d) ∧ UnitOk (s.segmentStep d) s.mapInUse := by
  obtain ⟨hpace, hunit⟩ := (tempoOk_iff s).mp h
  unfold State.segmentStep
  dsimp only
  split
  · refine ⟨hpace, unitOk_beginSegment _ hunit (segment_ok hl _) fun x hx => ?_⟩
    rw [hx, Option.getD_some]
  · split
    · rename_i g hg
      exact ⟨hpace, unitOk_advance hunit hg⟩
    · exact ⟨hpace, hunit⟩

theorem applyStaged_ok {t : TempoState} {map : List Segment} (d : Bool) (hp : PaceOk t) (h : UnitOk t map) :
    PaceOk (t.applyStaged d) ∧ UnitOk (t.applyStaged d) map := by
  unfold TempoState.applyStaged
  split
  · exact ⟨hp, h⟩
  · rename_i x hx
    split
    · split
      · rename_i v hv
        exact ⟨hp, unitOk_noStaged (unitOk_setOverride h (h.staged x v hx hv))⟩
      · exact ⟨hp, unitOk_noStaged (unitOk_noOverride h)⟩
    · exact ⟨hp, h⟩

/-- T is in its range whatever the tempo map becomes, once the unit is cleared (R76, R77). -/
theorem tempoOk_cleared {s : State} (hl : LibraryOk s) (hp : PaceOk s.tempo)
    (ht : s.tempo.taps.length ≤ 3 ∧ ∀ d ∈ s.tempo.taps, Config.tapMin ≤ d ∧ d ≤ Config.tapMax) :
    TempoOk { s with
      tempo := ({ s.tempo with segment := none, ramp := .none, override := none, staged := none } : TempoState).take
        s.firstSegment.tempo } :=
  (tempoOk_iff _).mpr ⟨paceOk_take hp (firstSegment_ok hl).tempo, unitOk_take _ ⟨nofun, nofun, ht, nofun⟩⟩

theorem tempoOk_begin {s : State} (h : TempoOk s) : TempoOk (beginStep s) := by
  obtain ⟨hpace, hunit⟩ := (tempoOk_iff s).mp h
  have hpos : 0 < s.tempo.current := lt_of_lt_of_le (by decide) h.current.1
  exact (tempoOk_iff _).mpr ⟨⟨hpace.1, ((Tempo.stepDurations_exact _ hpos).1 _ hpace.2).1⟩, hunit.override, hunit.staged, hunit.taps, hunit.ramp⟩

/-! ### Taps (R73, R74) -/

theorem sum_bounds {lo hi : Nat} : ∀ {ds : List Nat}, (∀ d ∈ ds, lo ≤ d ∧ d ≤ hi) → lo * ds.length ≤ ds.sum ∧ ds.sum ≤ hi * ds.length
  | [], _ => ⟨Nat.le_refl _, Nat.le_refl _⟩
  | d :: ds, h => by
    obtain ⟨hlo, hhi⟩ := sum_bounds fun x hx => h x (List.mem_cons_of_mem d hx)
    obtain ⟨hd, hd'⟩ := h d List.mem_cons_self
    rw [List.sum_cons, List.length_cons, Nat.mul_add, Nat.mul_add]
    omega

theorem tapTempo_ok {ds : List Nat} (hne : ds ≠ []) (h : ∀ d ∈ ds, Config.tapMin ≤ d ∧ d ≤ Config.tapMax) : InRange (tapTempo ds) := by
  obtain ⟨hlo, hhi⟩ := sum_bounds h
  have hpos := List.length_pos_iff.mpr hne
  unfold tapTempo InRange Config.tapDividend Config.tempoMin Config.tempoMax
  unfold Config.tapMin at hlo
  unfold Config.tapMax at hhi
  generalize ds.sum = total at *
  generalize ds.length = n at *
  constructor
  · rw [Nat.le_div_iff_mul_le (by omega)]
    omega
  · rw [Nat.div_le_iff_le_mul_add_pred (by omega)]
    omega

theorem joinTap_ok {ds : List Nat} {d : Nat} (h : ds.length ≤ 3 ∧ ∀ x ∈ ds, Config.tapMin ≤ x ∧ x ≤ Config.tapMax)
    (hd : Config.tapMin ≤ d ∧ d ≤ Config.tapMax) :
    joinTap ds d ≠ [] ∧ (joinTap ds d).length ≤ 3 ∧ ∀ x ∈ joinTap ds d, Config.tapMin ≤ x ∧ x ≤ Config.tapMax := by
  have hall : ∀ x ∈ ds ++ [d], Config.tapMin ≤ x ∧ x ≤ Config.tapMax := fun x hx =>
    (List.mem_append.mp hx).elim (h.2 x) fun hlast => List.mem_singleton.mp hlast ▸ hd
  have hlen : (ds ++ [d]).length = ds.length + 1 := by simp
  unfold joinTap
  split
  · refine ⟨List.ne_nil_of_length_pos ?_, ?_, fun x hx => hall x (List.mem_of_mem_drop hx)⟩ <;>
      rw [List.length_drop, hlen] <;> omega
  · exact ⟨by simp, by omega, hall⟩

/-! ### The law with the library's -/

/-- The two laws that the tempo unit's actions keep together. -/
def Tuned (s : State) : Prop := LibraryOk s ∧ TempoOk s

/-- A change that keeps tempo unit and current song keeps the law, if the library stays safe. -/
theorem tuned_edit {s t : State} (hl : LibraryOk t) (ht : t.tempo = s.tempo) (hsong : t.currentSong = s.currentSong) (h : Tuned s) :
    Tuned t := by
  have hmap : t.mapInUse = s.mapInUse := by
    unfold State.mapInUse
    rw [hsong]
  refine ⟨hl, ?_⟩
  rw [tempoOk_iff, ht, hmap]
  exact (tempoOk_iff s).mp h.2

/-- The law reads the library, the tempo unit and the current song. -/
theorem tuned_of {s t : State} (hl : t.library = s.library) (ht : t.tempo = s.tempo) (hsong : t.currentSong = s.currentSong)
    (h : Tuned s) : Tuned t := tuned_edit (Library.libraryOk_reads s t hl h.1) ht hsong h

theorem tuned_offered (l : Link) (n : Notice) (s : State) (h : Tuned s) : Tuned (raiseOn l n s) :=
  raiseOn_free (fun s l _ hs => tuned_of (s := s) (by cases l <;> rfl) (by cases l <;> rfl) (by cases l <;> rfl) hs) l n s h

theorem tuned_clearTempo {s : State} (h : Tuned s) : Tuned (clearTempo s) :=
  raiseTempo_closed tuned_offered _ ⟨h.1, tempoOk_cleared h.1 ⟨h.2.current, h.2.accumulator⟩ h.2.taps⟩

theorem tuned_evaluate (d : Bool) {s : State} (h : Tuned s) : Tuned (evaluateBeat d s) := by
  refine raiseTempo_closed tuned_offered _ ⟨h.1, ?_⟩
  have hstep : PaceOk (if s.transport.mode = .countIn then s.tempo else s.segmentStep d) ∧
      UnitOk (if s.transport.mode = .countIn then s.tempo else s.segmentStep d) s.mapInUse := by
    split
    · exact (tempoOk_iff s).mp h.2
    · exact segmentStep_ok d h.1 h.2
  obtain ⟨hp, hu⟩ := applyStaged_ok d hstep.1 hstep.2
  exact tempoOk_chosen h.1 hp hu

theorem tuned_take (v : StagedValue) (due : StagedDue) {s : State} (hv : ValueOk v) (h : Tuned s) : Tuned (takeTempo v due s) := by
  obtain ⟨hpace, hunit⟩ := (tempoOk_iff s).mp h.2
  unfold takeTempo
  dsimp only
  split
  · refine raiseTempo_closed tuned_offered _ ⟨h.1, tempoOk_chosen h.1 ?_ ?_⟩
    · cases v <;> exact hpace
    · cases v with
      | tempo x => exact unitOk_setOverride hunit (hv x rfl)
      | clear => exact unitOk_noOverride hunit
  · refine raiseTempo_closed tuned_offered _ ⟨h.1, (tempoOk_iff _).mpr ⟨hpace, hunit.override, fun y x hy hx => ?_, hunit.taps, hunit.ramp⟩⟩
    obtain rfl := Option.some.inj hy
    exact hv x hx

/-- The tap series changes within its bounds. -/
theorem tuned_taps {s : State} (last : Option Nat) {ds : List Nat}
    (hd : ds.length ≤ 3 ∧ ∀ d ∈ ds, Config.tapMin ≤ d ∧ d ≤ Config.tapMax) (h : Tuned s) :
    Tuned { s with tempo := { s.tempo with lastTap := last, taps := ds } } :=
  ⟨h.1, ⟨h.2.current, h.2.accumulator, h.2.override, h.2.staged, hd, h.2.ramp⟩⟩

theorem tuned_tap {s : State} (h : Tuned s) : Tuned (takeTap s) := by
  have hfresh := tuned_taps (some s.now) (ds := []) ⟨by decide, fun _ hd => absurd hd List.not_mem_nil⟩ h
  unfold takeTap
  dsimp only
  split
  · exact hfresh
  · split
    · exact h
    · rename_i hlo
      split
      · rename_i hhi
        obtain ⟨hne, hbounds⟩ := joinTap_ok h.2.taps ⟨Nat.le_of_not_lt hlo, hhi⟩
        exact tuned_take _ _ (fun x hx => StagedValue.tempo.inj hx ▸ tapTempo_ok hne hbounds.2) (tuned_taps _ hbounds h)
      · exact hfresh

/-! ### What does not touch the tempo unit -/

theorem tuned_quietFree : QuietFree Tuned where
  offered := tuned_offered
  quiet := fun s _ _ _ h => tuned_of (s := s) rfl rfl rfl h
  flags := fun s _ _ h => tuned_of (s := s) rfl rfl rfl h
  fault := fun s _ h => tuned_of (s := s) rfl rfl rfl h
  changeover := fun s _ h => tuned_of (s := s) rfl rfl rfl h
  progMem := fun s _ h => tuned_of (s := s) rfl rfl rfl h
  pedals := fun s _ h => tuned_of (s := s) rfl rfl rfl h
  live := fun s _ _ h => tuned_of (s := s) rfl rfl rfl h

theorem tuned_tableFree : TableFree Tuned :=
  .ofHeld tuned_quietFree.toLaneFree (fun s _ h => tuned_of (s := s) rfl rfl rfl h) tuned_quietFree.pedals
    (fun s _ h => tuned_of (s := s) rfl rfl rfl h) (fun s _ h => tuned_of (s := s) rfl rfl rfl h)

theorem tuned_portFree : PortFree Tuned := fun s _ _ _ h => tuned_of (s := s) rfl rfl rfl h

theorem tuned_clickWrites : ClickWrites Tuned where
  port := fun s _ _ _ h => tuned_of (s := s) rfl rfl rfl h
  click := fun s _ h => tuned_of (s := s) rfl rfl rfl h

theorem tuned_recordFree : RecordFree Tuned where
  offered := tuned_offered
  changeover := fun s _ _ h => tuned_of (s := s) rfl rfl rfl h

theorem tuned_now (s : State) (x : Nat) (h : Tuned s) : Tuned { s with now := x } := tuned_of (s := s) rfl rfl rfl h

theorem tuned_transport (s : State) (x : TransportState) (h : Tuned s) : Tuned { s with transport := x } :=
  tuned_of (s := s) rfl rfl rfl h

theorem tuned_fresh (s : State) (h : Tuned s) : Tuned (clearAccumulator s) :=
  ⟨h.1, ⟨h.2.current, lt_of_lt_of_le (show 0 < Config.tempoMin by decide) h.2.current.1, h.2.override, h.2.staged, h.2.taps, h.2.ramp⟩⟩

/-! ### Song changes and the edits of the show -/

/-- A new selection under a tempo unit that is cleared (R77). -/
theorem tuned_select {s : State} (p k : Option Nat) (h : Tuned s) : Tuned (clearTempo { s with curPos := p, curScene := k }) :=
  raiseTempo_closed tuned_offered _
    ⟨h.1, tempoOk_cleared (s := { s with curPos := p, curScene := k }) h.1 ⟨h.2.current, h.2.accumulator⟩ h.2.taps⟩

theorem tuned_reposition {s : State} (h : Tuned s) : Tuned (reposition s).1 := by
  have hstop : ∀ k m u, Tuned u → Tuned (stopByteFor k m u) := fun k m u hu => by
    unfold stopByteFor
    split
    · exact hu
    · exact stopByteFrom_closed tuned_portFree m hu
  have hclear : ∀ k u, Tuned u → Tuned (clearFor k u) := fun k u hu => by
    unfold clearFor
    split
    · exact tuned_fresh u hu
    · exact tuned_fresh u hu
    · exact hu
  unfold reposition
  split
  · exact tuned_transport _ _ h
  · exact raise_closed tuned_offered _ (hclear _ _ (hstop _ _ _ (tuned_transport _ _ h)))

theorem tuned_moveSelection (t : Trigger) {s : State} (h : Tuned s) : Tuned (moveSelection t s).1 := by
  unfold moveSelection
  split
  · exact tuned_of (s := s) rfl rfl rfl h
  · exact tuned_reposition (tuned_select _ _ h)

theorem tuned_takeTrigger (t : Trigger) {s : State} (h : Tuned s) : Tuned (takeTrigger t s).1 :=
  takeTrigger_kept tuned_quietFree.send t (fun _ hs => tuned_moveSelection t hs) h

theorem tuned_triggerCue (c : Change) {s : State} (h : Tuned s) : Tuned (triggerCue c s).1 := by
  have hraised := raise_closed tuned_offered (State.cueNotice { s with cue := none, departure := some c } .triggered c none c.displaced)
    (tuned_of (s := s) (t := { s with cue := none, departure := some c }) rfl rfl rfl h)
  refine tuned_takeTrigger c.trigger ?_
  generalize raise (State.cueNotice { s with cue := none, departure := some c } .triggered c none c.displaced)
    { s with cue := none, departure := some c } = u at hraised ⊢
  exact tuned_of (s := u) rfl rfl rfl hraised

theorem tuned_soft {s : State} (h : Tuned s) : Tuned (softResetAll s) := by
  obtain ⟨ps, is, hsoft⟩ := Resets.softResetAll_walked s
  have hfirst := (firstSegment_ok h.1).tempo
  rw [hsoft]
  exact ⟨h.1, (tempoOk_iff _).mpr ⟨⟨hfirst, lt_of_lt_of_le (show 0 < Config.tempoMin by decide) hfirst.1⟩, nofun, nofun,
    ⟨Nat.zero_le _, fun _ hd => absurd hd List.not_mem_nil⟩, nofun⟩⟩

/-! ### The whole law -/

theorem showOk_actions : ActionFree ShowOk := AllFree.actions Shown.showOk_allFree fun s _ h => showOk_of (s := s) rfl h

theorem tuned_actions : ActionFree (fun s => ShowOk s ∧ Tuned s) := by
  have hs := showOk_actions
  have ht := tuned_tableFree
  have hc := tuned_clickWrites
  exact {
    offered := fun l n s h => ⟨hs.offered l n s h.1, ht.offered l n s h.2⟩
    lane := fun s p x hx h => ⟨hs.lane s p x hx h.1, ht.lane s p x hx h.2⟩
    flags := fun s x hx h => ⟨hs.flags s x hx h.1, ht.flags s x hx h.2⟩
    fault := fun s x h => ⟨hs.fault s x h.1, ht.fault s x h.2⟩
    release := fun src v s h => ⟨hs.release src v s h.1, ht.release src v s h.2⟩
    sustain := fun src v s e he h => ⟨hs.sustain src v s e he h.1, ht.sustain src v s e he h.2⟩
    record := fun src n ts s h1 h4 hd h => ⟨hs.record src n ts s h1 h4 hd h.1, ht.record src n ts s h1 h4 hd h.2⟩
    emptied := fun s h => ⟨hs.emptied s h.1, ht.emptied s h.2⟩
    pedals := fun s x h => ⟨hs.pedals s x h.1, ht.pedals s x h.2⟩
    inputs := fun s x h => ⟨hs.inputs s x h.1, ht.inputs s x h.2⟩
    links := fun s l x h =>
      ⟨hs.links s l x h.1, tuned_of (s := s) (by cases l <;> rfl) (by cases l <;> rfl) (by cases l <;> rfl) h.2⟩
    port := fun s p x hx h => ⟨hs.port s p x hx h.1, hc.port s p x hx h.2⟩
    steals := fun s x h => ⟨hs.steals s x h.1, tuned_of (s := s) rfl rfl rfl h.2⟩
    foots := fun s x h => ⟨hs.foots s x h.1, tuned_of (s := s) rfl rfl rfl h.2⟩
    panics := fun s x h => ⟨hs.panics s x h.1, tuned_of (s := s) rfl rfl rfl h.2⟩
    now := fun s x h => ⟨hs.now s x h.1, tuned_now s x h.2⟩
    transport := fun s x h => ⟨hs.transport s x h.1, tuned_transport s x h.2⟩
    channels := fun s x h => ⟨hs.channels s x h.1, hc.click s _ h.2⟩
    noOffs := fun s h => ⟨hs.noOffs s h.1, hc.click s _ h.2⟩
    sound := fun c k s h => ⟨hs.sound c k s h.1, soundClick_written hc c k h.2⟩
    gate := fun p c n s h => ⟨hs.gate p c n s h.1, gateExpiry_written hc tuned_now p c n h.2⟩
    kick := fun s h => ⟨hs.kick s h.1, Instants.kickPorts_kept hc.kick h.2⟩
    evaluate := fun d s h => ⟨hs.evaluate d s h.1, tuned_evaluate d h.2⟩
    begin := fun s h => ⟨hs.begin s h.1, h.2.1, tempoOk_begin h.2.2⟩
    fresh := fun s h => ⟨hs.fresh s h.1, tuned_fresh s h.2⟩
    take := fun v d s hv h => ⟨hs.take v d s hv h.1, tuned_take v d hv h.2⟩
    tap := fun s h => ⟨hs.tap s h.1, tuned_tap h.2⟩
    clearTempo := fun s h => ⟨hs.clearTempo s h.1, tuned_clearTempo h.2⟩
    enter := fun s c hm hr h => ⟨hs.enter s c hm hr h.1, tuned_of (s := s) rfl rfl rfl h.2⟩
    cancel := fun s h => ⟨hs.cancel s h.1, tuned_of (s := s) rfl rfl rfl h.2⟩
    trigger := fun c s hr h => ⟨hs.trigger c s hr h.1, tuned_triggerCue c h.2⟩
    scene := fun t s hk hstay h => ⟨hs.scene t s hk hstay h.1, tuned_takeTrigger t h.2⟩
    audition := fun s x h => ⟨hs.audition s x h.1, tuned_of (s := s) rfl rfl rfl h.2⟩
    soft := fun s h => ⟨hs.soft s h.1, tuned_soft h.2⟩
    library := fun s n x hx h => ⟨hs.library s n x hx h.1,
      tuned_edit (s := s) (slotOk_set s n x hx.safe h.2.1) rfl (Rest.currentSong_setSlot hx h.1) h.2⟩
    insert := fun s p n hp h => ⟨hs.insert s p n hp h.1, tuned_of (s := s) rfl rfl
      (Rest.currentSong_mapPositions h.1 fun _ _ _ hm => getElem?_insert hp hm) h.2⟩
    remove := fun s p hp hfree h => ⟨hs.remove s p hp hfree h.1, tuned_of (s := s) rfl rfl
      (Rest.currentSong_mapPositions h.1 fun _ _ hq hm => getElem?_remove hp (fun e => (Shown.free_position hfree).1 (e ▸ hq)) hm) h.2⟩
    clear := fun s hp hcue h => ⟨hs.clear s hp hcue h.1, tuned_of (s := s) rfl rfl
      ((Rest.currentSong_of_none (s := { s with setlist := [] }) hp).trans (Rest.currentSong_of_none hp).symm) h.2⟩
    itemEnd := fun p s h => ⟨hs.itemEnd p s h.1, itemEnd_closed tuned_recordFree tuned_portFree tuned_now p h.2⟩
    settle := fun p s h => ⟨hs.settle p s h.1, settleExpiry_closed tuned_recordFree tuned_portFree tuned_now p h.2⟩
    panicPort := fun p s h => ⟨hs.panicPort p s h.1, by
      unfold panicPort
      dsimp only
      split
      · exact reportSettleEnd_closed tuned_recordFree _ (tuned_portFree _ _ _ panicked_ok h.2)
      · exact tuned_portFree _ _ _ panicked_ok h.2⟩ }

theorem tuned_reset : Tuned State.reset :=
  ⟨Library.libraryOk_reset, ⟨⟨by decide, by decide⟩, by decide, nofun, nofun,
    ⟨by decide, fun _ hd => absurd hd List.not_mem_nil⟩, nofun⟩⟩

theorem tuned_pinReset (a b : Bool) (s : State) : Tuned (pinResetAll a b s) := by
  obtain ⟨fs, hpin⟩ := Resets.pinResetAll_eq a b s
  rw [hpin]
  exact tuned_of (s := State.reset) rfl rfl rfl tuned_reset

theorem tuned_endInitialisation (s : State) (h : Tuned s) : Tuned (endInitialisation s) := by
  unfold endInitialisation
  split
  · exact h
  · rw [mapPorts_eq, mapFoots_eq]
    exact tuned_of (s := s) rfl rfl rfl h

/-- Settles O27: the accumulator makes the steps exact, and every action of the tempo unit keeps its ranges for the map in use. -/
theorem stepDurationsAreExact : Obligations.StepDurationsAreExact := by
  unfold Obligations.StepDurationsAreExact
  refine ⟨Tempo.stepDurations_exact, fun s t hl hs ht hst => ?_⟩
  have hend : ∀ u, ShowOk u ∧ Tuned u → ShowOk (endInitialisation u) ∧ Tuned (endInitialisation u) := fun u hu =>
    ⟨Shown.showOk_endInitialisation u hu.1, tuned_endInitialisation u hu.2⟩
  exact (step_kept tuned_actions (fun a b u _ => ⟨Shown.showOk_pinReset a b u, tuned_pinReset a b u⟩) hend
    (fun u _ hu => ⟨showOk_of (s := u) rfl hu.1, tuned_of (s := u) rfl rfl rfl hu.2⟩) hst ⟨hs, hl, ht⟩).2.2

end Sys2Proof.Proofs.TempoRanges
end

section
/-! The changeover record and the ports (R137, R147). The port list is a ledger: for each port it holds the number of PROGRAM entries that
have not been transmitted. Every action moves a PROGRAM entry and its count together. -/

namespace Sys2Proof.Proofs.Ledger

open Sys2Proof.Machine Sys2Proof.Laws Sys2Proof.Proofs Sys2Proof.Proofs.Lanes Sys2Proof.Proofs.Actions

/-! ### Port lists -/

/-- The outstanding count that a port list holds for a port. -/
def owed (ps : List PortEntry) (p : Port) : Nat :=
  ((ps.filter (fun e => decide (e.port = p))).map (fun e => e.outstanding)).sum

/-- The entries of one port change, and stay that port's. -/
def mapAt (p : Port) (f : PortEntry → PortEntry) (ps : List PortEntry) : List PortEntry :=
  ps.map (fun e => if e.port = p then f e else e)

section
variable {p : Port} {f : PortEntry → PortEntry} {ps : List PortEntry}

theorem owed_append (ps xs : List PortEntry) (p : Port) : owed (ps ++ xs) p = owed ps p + owed xs p := by
  simp [owed]

theorem owed_cons_self (e : PortEntry) (ps : List PortEntry) : owed (e :: ps) e.port = e.outstanding + owed ps e.port := by
  simp [owed]

theorem owed_cons_ne {e : PortEntry} (h : e.port ≠ p) (ps : List PortEntry) : owed (e :: ps) p = owed ps p := by
  simp [owed, h]

theorem owed_of_absent (h : ∀ e ∈ ps, e.port ≠ p) : owed ps p = 0 := by
  have hnil : ps.filter (fun e => decide (e.port = p)) = [] := List.filter_eq_nil_iff.mpr fun e he => by simpa using h e he
  rw [owed, hnil]
  rfl

/-- A port with one entry is owed what it says. -/
theorem owed_of_mem : ∀ {ps : List PortEntry} {e : PortEntry}, (ps.map (fun e => e.port)).Nodup → e ∈ ps → owed ps e.port = e.outstanding
  | x :: ps, e, hn, he => by
    rw [List.map_cons, List.nodup_cons] at hn
    obtain ⟨hfresh, hrest⟩ := hn
    rcases List.mem_cons.mp he with rfl | he
    · rw [owed_cons_self, owed_of_absent fun y hy hport => hfresh (List.mem_map.mpr ⟨y, hy, hport⟩), Nat.add_zero]
    · rw [owed_cons_ne (fun hport => hfresh (List.mem_map.mpr ⟨e, he, hport.symm⟩)), owed_of_mem hrest he]

theorem mapAt_ports (hf : ∀ e, (f e).port = e.port) : (mapAt p f ps).map (fun e => e.port) = ps.map (fun e => e.port) := by
  unfold mapAt
  rw [List.map_map]
  exact List.map_congr_left fun e _ => by dsimp only [Function.comp]; split; exacts [hf e, rfl]

theorem owed_mapAt_ne (hf : ∀ e, (f e).port = e.port) {p' : Port} (h : p' ≠ p) : owed (mapAt p f ps) p' = owed ps p' := by
  unfold mapAt
  induction ps with
  | nil => rfl
  | cons e ps ih =>
    rw [List.map_cons]
    by_cases he : e.port = p
    · rw [if_pos he, owed_cons_ne (by rw [hf, he]; exact h.symm), owed_cons_ne (by rw [he]; exact h.symm), ih]
    · rw [if_neg he]
      simp only [owed, List.filter_cons] at ih ⊢
      split
      · rw [List.map_cons, List.map_cons, List.sum_cons, List.sum_cons, ih]
      · exact ih

/-- Entries with nothing left owe nothing. -/
theorem owed_undone (ps : List PortEntry) (p : Port) :
    owed (ps.filter (fun e => decide (0 < e.outstanding) || e.settling)) p = owed ps p := by
  induction ps with
  | nil => rfl
  | cons e ps ih =>
    rw [List.filter_cons]
    simp only [owed, List.filter_cons] at ih ⊢
    split
    · rw [List.filter_cons]
      split
      · rw [List.map_cons, List.map_cons, List.sum_cons, List.sum_cons, ih]
      · exact ih
    · rename_i hdone
      have hzero : e.outstanding = 0 := by
        have h := mt (fun h : 0 < e.outstanding => by simp [h]) hdone
        omega
      rw [ih]
      split
      · rw [List.map_cons, List.sum_cons, hzero, Nat.zero_add]
      · rfl

end

/-! ### The ledger -/

/-- The port list of the active record, empty with none active. -/
def ledger (s : State) : List PortEntry := s.changeover.elim [] (fun r => r.ports)

/-- A port list agrees with the ports. -/
structure LedgerOk (ps : List PortEntry) (q : Port → PortState) : Prop where
  ports : (ps.map (fun e => e.port)).Nodup
  counts : ∀ p, owed ps p = (q p).untransmitted
  settling : ∀ e ∈ ps, e.settling = true → (q e.port).settleDue ≠ none

section
variable {ps : List PortEntry} {q x : Port → PortState} {p : Port} {f : PortEntry → PortEntry}

/-- A port keeps its untransmitted entries, and its settle where its entry waits for that. -/
theorem LedgerOk.atPort (h : LedgerOk ps q) (hx : ∀ p', p' ≠ p → x p' = q p') (hc : (x p).untransmitted = (q p).untransmitted)
    (hs : ∀ e ∈ ps, e.port = p → e.settling = true → (x p).settleDue ≠ none) : LedgerOk ps x where
  ports := h.ports
  counts := fun p' => by
    by_cases hp : p' = p
    · subst hp
      rw [hc, h.counts]
    · rw [hx p' hp, h.counts]
  settling := fun e he hset => by
    by_cases hp : e.port = p
    · rw [hp]
      exact hs e he hp hset
    · rw [hx _ hp]
      exact h.settling e he hset

/-- The entry of a listed port changes with the port. -/
theorem LedgerOk.mapAt (h : LedgerOk ps q) (hf : ∀ e, (f e).port = e.port) (hx : ∀ p', p' ≠ p → x p' = q p')
    (hmem : ∃ e ∈ ps, e.port = p) (hc : ∀ e ∈ ps, e.port = p → (f e).outstanding = (x p).untransmitted)
    (hs : ∀ e ∈ ps, e.port = p → (f e).settling = true → (x p).settleDue ≠ none) : LedgerOk (mapAt p f ps) x where
  ports := by
    rw [mapAt_ports hf]
    exact h.ports
  counts := fun p' => by
    by_cases hp : p' = p
    · subst hp
      obtain ⟨e, he, hport⟩ := hmem
      have hin : f e ∈ Ledger.mapAt p' f ps := List.mem_map.mpr ⟨e, he, if_pos hport⟩
      have howed := owed_of_mem (by rw [mapAt_ports hf]; exact h.ports) hin
      rwa [hf, hport, hc e he hport] at howed
    · rw [owed_mapAt_ne hf hp, hx p' hp, h.counts]
  settling := fun y hy hset => by
    obtain ⟨e, he, rfl⟩ := List.mem_map.mp hy
    split at hset
    · rename_i hport
      rw [if_pos hport, hf, hport]
      exact hs e he hport hset
    · rename_i hport
      rw [if_neg hport, hx _ hport]
      exact h.settling e he hset

/-- A port that is not listed joins the list with its one untransmitted entry. -/
theorem LedgerOk.append (h : LedgerOk ps q) (hx : ∀ p', p' ≠ p → x p' = q p') (habsent : ∀ e ∈ ps, e.port ≠ p)
    (hc : (x p).untransmitted = 1) : LedgerOk (ps ++ [{ port := p, outstanding := 1, settling := false }]) x where
  ports := by
    rw [List.map_append, List.nodup_append]
    refine ⟨h.ports, List.nodup_singleton _, fun a ha b hb hab => ?_⟩
    obtain ⟨e, he, rfl⟩ := List.mem_map.mp ha
    exact habsent e he (hab.trans (List.mem_singleton.mp hb))
  counts := fun p' => by
    rw [owed_append]
    by_cases hp : p' = p
    · subst hp
      rw [owed_of_absent habsent, hc]
      simp [owed]
    · rw [hx p' hp, h.counts, owed_of_absent (ps := [_]) fun e he => by rw [List.mem_singleton.mp he]; exact Ne.symm hp, Nat.add_zero]
  settling := fun e he hset => by
    rcases List.mem_append.mp he with he | he
    · rw [hx _ (habsent e he)]
      exact h.settling e he hset
    · rw [List.mem_singleton.mp he] at hset
      exact nomatch hset

/-- Entries with nothing left may go (R145, R146). -/
theorem LedgerOk.undone (h : LedgerOk ps q) : LedgerOk (ps.filter (fun e => decide (0 < e.outstanding) || e.settling)) q where
  ports := h.ports.sublist (List.filter_sublist.map _)
  counts := fun p => by rw [owed_undone, h.counts]
  settling := fun e he hset => h.settling e (List.mem_of_mem_filter he) hset

/-- A list with nothing left agrees with the ports as none does. -/
theorem LedgerOk.finished (h : LedgerOk ps q) (hdone : ∀ e ∈ ps, e.outstanding = 0 ∧ e.settling = false) : LedgerOk [] q := by
  have hnil : ps.filter (fun e => decide (0 < e.outstanding) || e.settling) = [] :=
    List.filter_eq_nil_iff.mpr fun e he => by simp [hdone e he]
  rw [← hnil]
  exact h.undone

/-- A port with an untransmitted entry is listed. -/
theorem LedgerOk.listed (h : LedgerOk ps q) (hc : (q p).untransmitted ≠ 0) : ∃ e ∈ ps, e.port = p := by
  by_contra hnone
  refine hc ?_
  rw [← h.counts, owed_of_absent fun e he hp => hnone ⟨e, he, hp⟩]

theorem LedgerOk.count_of (h : LedgerOk ps q) {e : PortEntry} (he : e ∈ ps) (hp : e.port = p) : e.outstanding = (q p).untransmitted := by
  subst hp
  rw [← h.counts, owed_of_mem h.ports he]

end

/-! ### The ports and the ledger of a state -/

/-- Safe ports, with what transmits on its wire, and a ledger that agrees with them. -/
structure Booked (s : State) : Prop where
  ports : PortsOk s
  wires : ∀ p, WireOk (s.port p)
  ledger : LedgerOk (ledger s) s.port

theorem outstandingOn_eq (s : State) (p : Port) : s.outstandingOn p = owed (ledger s) p := by
  unfold State.outstandingOn ledger
  rcases s.changeover with _ | r <;> rfl

theorem booked_iff (s : State) : Booked s ↔ PortsOk s ∧ RecordOk s := by
  constructor
  · intro h
    refine ⟨h.ports, fun r hr => ?_, fun p => ?_, fun r hr e he => ?_, fun p => h.wires p⟩
    · have hports := h.ledger.ports
      rwa [Ledger.ledger, hr] at hports
    · rw [outstandingOn_eq, h.ledger.counts]
    · exact h.ledger.settling e (by rw [Ledger.ledger, hr]; exact he)
  · rintro ⟨hok, hrec⟩
    refine ⟨hok, hrec.wires, ?_, fun p => by rw [← outstandingOn_eq, hrec.counts], fun e he => ?_⟩
    · unfold ledger
      rcases hr : s.changeover with _ | r
      · exact List.nodup_nil
      · exact hrec.ports r hr
    · unfold ledger at he
      rcases hr : s.changeover with _ | r
      · rw [hr] at he
        exact absurd he List.not_mem_nil
      · rw [hr] at he
        exact hrec.settling r hr e he

/-- The law reads the ports and the ledger. -/
theorem booked_of {s t : State} (hp : t.ports = s.ports) (hl : ledger t = ledger s) (h : Booked s) : Booked t := by
  have hport : t.port = s.port := by
    funext p
    unfold State.port
    rw [hp]
  exact ⟨fun p => by rw [hport]; exact h.ports p, fun p => by rw [hport]; exact h.wires p, by rw [hl, hport]; exact h.ledger⟩

theorem ledger_of_some {s : State} {r : Changeover} (h : s.changeover = some r) : ledger s = r.ports := by
  rw [ledger, h]
  rfl

theorem setPort_port_ne (s : State) (p : Port) (x : PortState) : ∀ p', p' ≠ p → (s.setPort p x).port p' = s.port p' :=
  fun _ h => port_setPort_ne _ _ _ _ h

/-- One port changes safely, and the ledger with it. -/
theorem booked_setPort {s t : State} {p : Port} {x : PortState} (h : Booked s) (hport : t.port = (s.setPort p x).port)
    (hok : PortOk x) (hw : WireOk x) (hl : LedgerOk (ledger t) (s.setPort p x).port) : Booked t := by
  refine ⟨fun p' => ?_, fun p' => ?_, hport ▸ hl⟩
  · rw [hport, port_setPort_ite]
    split
    · exact hok
    · exact h.ports p'
  · rw [hport, port_setPort_ite]
    split
    · exact hw
    · exact h.wires p'

theorem booked_port (s : State) (p : Port) (x : PortState) (hx : PortKept (s.port p) x) (h : Booked s) : Booked (s.setPort p x) := by
  refine booked_setPort h rfl (hx.ok (h.ports p)) (hx.wire (h.wires p)) (h.ledger.atPort (setPort_port_ne s p x) ?_ fun e he hp hset => ?_)
  · rw [port_setPort]
    exact hx.count (h.wires p)
  · rw [port_setPort]
    exact hx.settle (hp ▸ h.ledger.settling e he hset)

theorem booked_offered (l : Link) (n : Notice) (s : State) (h : Booked s) : Booked (raiseOn l n s) :=
  raiseOn_free (fun s l _ hs => booked_of (s := s) (by cases l <;> rfl) (by cases l <;> rfl) hs) l n s h

/-! ### Reports to the record (R143 to R145) -/

theorem booked_complete {s : State} (h : Booked s) : Booked (completeIfDone s) := by
  unfold completeIfDone
  split
  · exact h
  · rename_i r hr
    split
    · rename_i hdone
      have hledger := h.ledger
      rw [ledger_of_some hr] at hledger
      have hempty : Booked { s with changeover := none } :=
        ⟨h.ports, h.wires, hledger.finished ((ChangeTables.allDone_iff r).mp hdone)⟩
      exact booked_of (s := { s with changeover := none }) (raise_ports _ s) rfl hempty
    · exact h

section
variable {s : State} {p : Port} {x : PortState}

/-- A PROGRAM entry has been transmitted, and the record hears of it (R143). -/
theorem booked_transmitted (k : Bool) (h : Booked s) (hok : PortOk x) (hw : WireOk x)
    (hc : x.untransmitted + 1 = (s.port p).untransmitted) (hs : k = true → x.settleDue ≠ none) :
    Booked (reportTransmitted p k (s.setPort p x)) := by
  have hlisted := h.ledger.listed (p := p) (by omega)
  obtain ⟨e, he, hport⟩ := hlisted
  rcases hr : s.changeover with _ | r
  · rw [ledger, hr] at he
    exact absurd he List.not_mem_nil
  · rw [ledger_of_some hr] at he
    have hledger := h.ledger
    rw [ledger_of_some hr] at hledger
    rw [PortTimers.reportTransmitted_of_listed (s := s.setPort p x) k hr ⟨e, he, hport⟩]
    refine booked_complete (booked_setPort h rfl hok hw (hledger.mapAt (fun _ => rfl) (setPort_port_ne s p x) ⟨e, he, hport⟩ ?_ ?_))
    · intro y hy hyp
      rw [port_setPort]
      have hcount := hledger.count_of hy hyp
      dsimp only
      omega
    · intro y _ _ hk
      rw [port_setPort]
      exact hs hk

/-- A settle has ended, and the record hears of it (R144). -/
theorem booked_settleEnd (h : Booked s) (hok : PortOk x) (hw : WireOk x) (hc : x.untransmitted = (s.port p).untransmitted) :
    Booked (reportSettleEnd p (s.setPort p x)) := by
  have hkept : (∀ e ∈ ledger s, e.port ≠ p) → Booked (s.setPort p x) := fun habsent =>
    booked_setPort h rfl hok hw (h.ledger.atPort (setPort_port_ne s p x) (by rw [port_setPort]; exact hc)
      fun e he hp _ => absurd hp (habsent e he))
  rcases hr : s.changeover with _ | r
  · rw [PortTimers.reportSettleEnd_of_none (s := s.setPort p x) hr]
    refine hkept fun e he => ?_
    rw [ledger, hr] at he
    exact absurd he List.not_mem_nil
  · have hledger := h.ledger
    rw [ledger_of_some hr] at hledger hkept
    by_cases hp : ∃ e ∈ r.ports, e.port = p
    · rw [PortTimers.reportSettleEnd_of_listed (s := s.setPort p x) hr hp]
      refine booked_complete (booked_setPort h rfl hok hw (hledger.mapAt (fun _ => rfl) (setPort_port_ne s p x) hp ?_ fun _ _ _ hset => nomatch hset))
      intro y hy hyp
      rw [port_setPort, hc, ← hledger.count_of hy hyp]
    · rw [PortTimers.reportSettleEnd_of_other (s := s.setPort p x) hr hp]
      exact hkept fun e he hep => hp ⟨e, he, hep⟩

end

end Sys2Proof.Proofs.Ledger
end

section
/-! The ledger under the ports' events and under a trigger: the end of a PROGRAM entry, a settle end, PANIC and SOFT_RESET, and the
assignments of a scene with the entries they withdraw and enqueue (R142 to R147). -/

namespace Sys2Proof.Proofs.Ledger

open Sys2Proof.Machine Sys2Proof.Laws Sys2Proof.Proofs Sys2Proof.Proofs.Lanes Sys2Proof.Proofs.Actions Sys2Proof.Proofs.Outputs

/-! ### The end of an item (R158, R169) -/

section
variable {q : PortState} {w : Wire} {e : InProgress}

theorem ending_entry (h : q.ending w = some e) : q.entry = some e := by
  unfold PortState.ending at h
  split at h
  · rename_i x hx
    split at h
    · exact hx.trans h
    · exact nomatch h
  · exact nomatch h

theorem entryEnded_reads (x : PortState) (now : Nat) (e : InProgress) : (x.entryEnded now e).noteLane = x.noteLane ∧
    (x.entryEnded now e).entry = none ∧ (x.settleDue ≠ none → (x.entryEnded now e).settleDue ≠ none) := by
  unfold PortState.entryEnded
  dsimp only
  split
  · exact ⟨rfl, rfl, id⟩
  · split
    · exact ⟨rfl, rfl, fun _ => nofun⟩
    · exact ⟨rfl, rfl, id⟩
  · exact ⟨rfl, rfl, id⟩

/-- The end of an entry of the record starts the settle timer where there is a settle time (R169). -/
theorem entryEnded_settles (x : PortState) (now : Nat) (h : e.reported = true) (ht : 0 < x.settings.settleTime) :
    (x.entryEnded now e).settleDue ≠ none := by
  unfold InProgress.reported at h
  obtain ⟨hrecord, hnote⟩ := Bool.and_eq_true_iff.mp h
  split at hnote
  · rename_i n hn
    rw [entryEnded_of_settle hn hrecord ht]
    exact nofun
  · exact nomatch hnote

theorem itemEnded_count (now : Nat) (h : q.ending w = some e) :
    (q.itemEnded w now).untransmitted + (if e.reported then 1 else 0) = q.untransmitted := by
  obtain ⟨hlane, hentry, -⟩ := entryEnded_reads (readied q w now) now e
  rw [itemEnded_of_some h, untransmitted_of_noEntry hentry, hlane]
  unfold PortState.untransmitted
  rw [ending_entry h, Option.filter_some]
  cases e.reported <;> rfl

/-- The port once its item has ended waits for its next message, or for an entry. -/
theorem itemEnded_wire (hw : q.wire = some w) (now : Nat) (h : WireOk q) : WireOk (q.itemEnded w now) := by
  rcases hend : q.ending w with _ | e
  · rw [itemEnded_of_none hend]
    intro x hx hleft
    obtain ⟨v, b, hv, hb⟩ := h x hx hleft
    obtain rfl := Option.some.inj (hw.symm.trans hv)
    rw [ending_of_last (q := q) (by rw [hb]; rfl) hx hleft] at hend
    exact nomatch hend
  · rw [itemEnded_of_some hend]
    intro x hx
    rw [(entryEnded_reads (readied q w now) now e).2.1] at hx
    exact nomatch hx

theorem itemEnded_settle (now : Nat) (h : q.settleDue ≠ none) : (q.itemEnded w now).settleDue ≠ none := by
  rcases hend : q.ending w with _ | e
  · rw [itemEnded_of_none hend]
    exact h
  · rw [itemEnded_of_some hend]
    exact (entryEnded_reads (readied q w now) now e).2.2 h

/-- The end of an item that is no PROGRAM entry of the record. -/
theorem kept_itemEnded (hw : q.wire = some w) (now : Nat) (h : q.endsProgram w = false) : PortKept q (q.itemEnded w now) where
  ok := itemEnded_ok w now
  wire := itemEnded_wire hw now
  count := fun _ => by
    rcases hend : q.ending w with _ | e
    · rw [itemEnded_of_none hend]
      rfl
    · rw [endsProgram_of_some hend] at h
      have hcount := itemEnded_count now hend
      rwa [h] at hcount
  settle := itemEnded_settle now

end

theorem booked_now (s : State) (n : Nat) (h : Booked s) : Booked { s with now := n } := booked_of (s := s) rfl rfl h

theorem booked_itemEnd (p : Port) (s : State) (h : Booked s) : Booked (itemEnd p s) := by
  unfold itemEnd
  split
  · exact h
  · rename_i w hw
    have hreach : Booked (s.reach w.ends) := booked_now s _ h
    dsimp only
    split
    · rename_i hprogram
      rcases hend : (s.port p).ending w with _ | e
      · rw [show ((s.reach w.ends).port p).endsProgram w = _ from endsProgram_of_none hend] at hprogram
        exact nomatch hprogram
      · rw [show ((s.reach w.ends).port p).endsProgram w = _ from endsProgram_of_some hend] at hprogram
        have hcount := itemEnded_count (s.reach w.ends).now hend
        rw [hprogram, if_pos rfl] at hcount
        refine booked_transmitted _ hreach (itemEnded_ok w _ (h.ports p)) (itemEnded_wire hw _ (h.wires p)) hcount fun hs => ?_
        show ((s.port p).itemEnded w _).settleDue ≠ none
        rw [itemEnded_of_some hend]
        exact entryEnded_settles _ _ hprogram (of_decide_eq_true hs)
    · rename_i hother
      have hfalse : (s.port p).endsProgram w = false := Bool.eq_false_iff.mpr hother
      exact booked_port _ p _ (kept_itemEnded hw _ hfalse) hreach

theorem booked_settleExpiry (p : Port) (s : State) (h : Booked s) : Booked (settleExpiry p s) := by
  unfold settleExpiry
  split
  · exact h
  · rename_i d _
    exact booked_settleEnd (s := s.reach d) (booked_now s _ h)
      ⟨(h.ports p).realtime, (h.ports p).click, (h.ports p).note, (h.ports p).merge, (h.ports p).grants, (h.ports p).sweeps,
        (h.ports p).programs⟩ (h.wires p) rfl

/-- PANIC keeps the PROGRAM entries of a lane. -/
theorem panicked_count (q : PortState) : ({ q with
    noteLane := q.noteLane.filter NoteEntry.isProgram, clickLane := [], sweepPending := [],
    settleDue := none } : PortState).sweepAll.untransmitted = q.untransmitted := by
  unfold PortState.untransmitted
  show (((q.noteLane.filter NoteEntry.isProgram) ++ sweeps).filter NoteEntry.isProgram).length + _ = _
  rw [List.filter_append, sweeps_noProgram, List.append_nil, List.filter_filter]
  simp only [Bool.and_self]
  rfl

theorem booked_panicPort (p : Port) (s : State) (h : Booked s) : Booked (panicPort p s) := by
  unfold panicPort
  dsimp only
  split
  · exact booked_settleEnd h (panicked_ok (h.ports p)) (h.wires p) (panicked_count _)
  · rename_i hstopped
    have hdue : (s.port p).settleDue = none := by simpa using hstopped
    refine booked_port s p _ ?_ h
    exact { ok := panicked_ok, wire := id, count := fun _ => panicked_count _, settle := fun hs => absurd hdue hs }

/-! ### Resets -/

/-- Ports with nothing untransmitted, and no record. -/
theorem booked_empty {s : State} (hp : PortsOk s) (hw : ∀ p, WireOk (s.port p)) (hc : ∀ p, (s.port p).untransmitted = 0)
    (hr : s.changeover = none) : Booked s := by
  have hledger : ledger s = [] := by
    rw [ledger, hr]
    rfl
  exact ⟨hp, hw, by rw [hledger]; exact ⟨List.nodup_nil, fun p => (hc p).symm, fun _ he => absurd he List.not_mem_nil⟩⟩

theorem softReset_count (q : PortState) : q.softReset.untransmitted = 0 := by
  unfold PortState.untransmitted
  have hlane : q.softReset.noteLane.filter NoteEntry.isProgram = [] := sweeps_noProgram
  have hentry : q.softReset.entry = q.entry.map (fun e => { e with ofRecord := false, emptyStatus := true }) := rfl
  rw [hlane, hentry]
  rcases q.entry with _ | e
  · rfl
  · rfl

theorem softReset_wire {q : PortState} (h : WireOk q) : WireOk q.softReset := by
  intro x hx hleft
  obtain ⟨e, he, rfl⟩ := Option.map_eq_some_iff.mp (show q.entry.map _ = some x from hx)
  exact h e he hleft

theorem booked_soft (s : State) (h : Booked s) : Booked (softResetAll s) := by
  obtain ⟨ps, is, hsoft⟩ := Resets.softResetAll_walked s
  refine booked_empty (fun p => ?_) (fun p => ?_) (fun p => ?_) ?_
  · rw [Resets.softResetAll_port]
    exact softReset_ok
  · rw [Resets.softResetAll_port]
    exact softReset_wire (h.wires p)
  · rw [Resets.softResetAll_port, softReset_count]
  · rw [hsoft]
    rfl

/-! ### The assignments of a scene (R142) -/

theorem ledger_mapped {s t : State} (g : List PortEntry → List PortEntry) (hg : s.changeover ≠ none)
    (h : t.changeover = s.changeover.map (fun r => { r with ports := g r.ports })) : ledger t = g (ledger s) := by
  obtain ⟨r, hr⟩ := Option.ne_none_iff_exists'.mp hg
  rw [ledger, ledger, h, hr]
  rfl

theorem isProgramOn_chan {c : Chan} {x : NoteEntry} (hx : x.isProgram = true) : x.isProgramOn c = (x.chan == c) := by
  cases x with
  | program c' _ _ _ => rfl
  | noteOn | noteOff | polyPressure | pedal | sweep => exact nomatch hx

/-- The PROGRAM entries of a lane but those of one channel: one less where there is one. -/
theorem withdrawn_count {lane : List NoteEntry} {c : Chan} (hn : ((lane.filter NoteEntry.isProgram).map NoteEntry.chan).Nodup)
    (hc : lane.any (NoteEntry.isProgramOn c) = true) :
    ((lane.filter (fun e => !e.isProgramOn c)).filter NoteEntry.isProgram).length + 1 = (lane.filter NoteEntry.isProgram).length := by
  obtain ⟨e, he, hon⟩ := List.any_eq_true.mp hc
  have hprogram : e.isProgram = true := by
    obtain ⟨b, l, k, rfl⟩ := (ChangeTables.isProgramOn_iff c e).mp hon
    rfl
  have hchan : e.chan = c := by
    obtain ⟨b, l, k, rfl⟩ := (ChangeTables.isProgramOn_iff c e).mp hon
    rfl
  have hmem : e ∈ lane.filter NoteEntry.isProgram := List.mem_filter.mpr ⟨he, hprogram⟩
  rw [List.filter_comm]
  generalize hL : lane.filter NoteEntry.isProgram = programs at *
  have hall : ∀ x ∈ programs, x.isProgramOn c = (x.chan == c) := fun x hx => by
    rw [← hL] at hx
    exact isProgramOn_chan (List.mem_filter.mp hx).2
  have hone : programs.countP (fun x => x.isProgramOn c) = 1 := by
    rw [List.countP_congr (q := fun x => x.chan == c) fun x hx => by rw [hall x hx]]
    have hcount := List.count_eq_one_of_mem hn (hchan ▸ List.mem_map_of_mem (f := NoteEntry.chan) hmem)
    rwa [List.count, List.countP_map] at hcount
  have hsplit := List.length_eq_countP_add_countP (l := programs) (fun x => x.isProgramOn c)
  rw [List.countP_eq_length_filter (p := fun x => decide ¬ _)] at hsplit
  simp only [Bool.not_eq_true, Bool.decide_eq_false] at hsplit
  omega

/-- The PROGRAM entry of a channel leaves the lane, and its count the ledger (R142 step 1). -/
theorem booked_withdraw (p : Port) (c : Chan) {s : State} (hr : s.changeover ≠ none) (h : Booked s) : Booked (withdrawProgram p c s) := by
  rcases hany : (s.port p).noteLane.any (NoteEntry.isProgramOn c) with _ | _
  · rwa [ChangeTables.withdrawProgram_of_none hany]
  · rw [ChangeTables.withdrawProgram_of_some hany, ChangeTables.lowerOutstanding_eq]
    have hlane := laneOnly_trans (x := { s.port p with noteLane := (s.port p).noteLane.filter (fun e => !e.isProgramOn c) }) rfl
      (laneOnly_lose _)
    have hcount : (({ s.port p with noteLane := (s.port p).noteLane.filter (fun e => !e.isProgramOn c) } :
        PortState).lose).untransmitted + 1 = (s.port p).untransmitted := by
      have hless := withdrawn_count (h.ports p).programs hany
      unfold PortState.untransmitted
      rw [lose_programs, show PortState.entry (PortState.lose _) = (s.port p).entry by rw [hlane]]
      dsimp only
      omega
    have hwire : WireOk ({ s.port p with noteLane := (s.port p).noteLane.filter (fun e => !e.isProgramOn c) } : PortState).lose := by
      rw [hlane]
      exact h.wires p
    have hok := withdrawn_ok hany (h.ports p)
    have hsettle : (({ s.port p with noteLane := (s.port p).noteLane.filter (fun e => !e.isProgramOn c) } :
        PortState).lose).settleDue = (s.port p).settleDue := laneOnly_settle hlane
    generalize ({ s.port p with noteLane := (s.port p).noteLane.filter (fun e => !e.isProgramOn c) } : PortState).lose = x at *
    refine booked_setPort h rfl hok hwire ?_
    rw [ledger_mapped (s := s) (mapAt p (fun x => { x with outstanding := x.outstanding - 1 })) hr rfl]
    refine h.ledger.mapAt (fun _ => rfl) (setPort_port_ne s p x) (h.ledger.listed (by omega)) (fun e he hp => ?_) fun e he hp hset => ?_
    · have howed := h.ledger.count_of he hp
      rw [port_setPort]
      dsimp only
      omega
    · rw [port_setPort, hsettle]
      exact hp ▸ h.ledger.settling e he hset

/-- What an offered PROGRAM entry leaves of its port. -/
structure Offering (q x : PortState) (accepted : Bool) : Prop where
  ok : PortOk x
  wire : WireOk x
  count : x.untransmitted = q.untransmitted + (if accepted then 1 else 0)
  settle : x.settleDue = q.settleDue

theorem offering {q : PortState} (now : Nat) {e : NoteEntry} (he : e.isProgram = true) (hj : Joins e q.noteLane) (hok : PortOk q)
    (hw : WireOk q) : Offering q (q.offer now e).port (q.offer now e).accepted := by
  have hlane := laneOnly_offer q now e
  refine ⟨offer_ok now hj hok, by rw [hlane]; exact hw, ?_, laneOnly_settle hlane⟩
  have hentry : (q.offer now e).port.entry = q.entry := by rw [hlane]
  unfold PortState.untransmitted
  rw [(offer_programs q now e).length_eq, hentry]
  split
  · rw [List.filter_append, List.filter_cons_of_pos he, List.filter_nil, List.length_append, List.length_singleton]
    omega
  · omega

/-- An assignment's entry joins the lane and its count the ledger, or neither (R142 steps 2 and 3). -/
theorem booked_assign {r : Changeover} (w : Sending) (a : Assignment) (hr : ChangeTables.SameTarget r w.state) (h : Booked w.state) :
    Booked (w.assign a).state := by
  by_cases htold : w.state.program a.port a.chan = some a.setting
  · rwa [ChangeTables.assign_of_told htold]
  obtain ⟨f, hf, -⟩ := hr
  have hy := booked_withdraw a.port a.chan (by rw [hf]; exact nofun) h
  obtain ⟨f', hf', -⟩ := ChangeTables.withdrawProgram_sameTarget (r := f) a.port a.chan ⟨f, hf, rfl⟩
  have hjoins := withdrawProgram_joins a.port a w.state
  generalize hw : withdrawProgram a.port a.chan w.state = y at hy hf' hjoins
  have hoffer := offering y.now (e := a.entry) rfl hjoins (hy.ports a.port) (hy.wires a.port)
  have hport : ∀ v, ((offerNote a.port a.entry y).setProgram a.port a.chan v).port =
      (y.setPort a.port ((y.port a.port).offer y.now a.entry).port).port :=
    fun _ => funext fun p => Instants.reportOffer_port _ _ _ _
  have hsettle : ∀ e ∈ ledger y, e.port = a.port → e.settling = true →
      ((y.setPort a.port ((y.port a.port).offer y.now a.entry).port).port a.port).settleDue ≠ none := fun e he hp hset => by
    rw [port_setPort, hoffer.settle]
    exact hp ▸ hy.ledger.settling e he hset
  rcases hacc : acceptsNote a.port a.entry y with _ | _
  · rw [ChangeTables.assign_of_refused htold hw hacc]
    refine booked_setPort hy (hport none) hoffer.ok hoffer.wire ?_
    have hledger : ledger ((offerNote a.port a.entry y).setProgram a.port a.chan none) = ledger y :=
      congrArg (fun c => Option.elim c [] Changeover.ports) (ChangeTables.offerNote_changeover _ _ _)
    rw [hledger]
    refine hy.ledger.atPort (setPort_port_ne _ _ _) ?_ hsettle
    have hcount := hoffer.count
    rw [show ((y.port a.port).offer y.now a.entry).accepted = false from hacc] at hcount
    rw [port_setPort]
    exact hcount
  · rw [ChangeTables.assign_of_accepted htold hw hacc, ChangeTables.joinPort_eq]
    have hcount := hoffer.count
    rw [show ((y.port a.port).offer y.now a.entry).accepted = true from hacc, if_pos rfl] at hcount
    refine booked_setPort hy (hport (some a.setting)) hoffer.ok hoffer.wire ?_
    rw [ledger_mapped (s := y) (fun ps => if ∃ x ∈ ps, x.port = a.port then
        mapAt a.port (fun x => { x with outstanding := x.outstanding + 1 }) ps
      else ps ++ [{ port := a.port, outstanding := 1, settling := false }]) (by rw [hf']; exact nofun)
      (congrArg (Option.map _) (ChangeTables.offerNote_changeover _ _ _))]
    split
    · rename_i hlisted
      refine hy.ledger.mapAt (fun _ => rfl) (setPort_port_ne _ _ _) hlisted (fun e he hp => ?_) hsettle
      rw [port_setPort, hcount, hy.ledger.count_of he hp]
    · rename_i hlisted
      have habsent : ∀ e ∈ ledger y, e.port ≠ a.port := fun e he hp => hlisted ⟨e, he, hp⟩
      refine hy.ledger.append (setPort_port_ne _ _ _) habsent ?_
      rw [port_setPort, hcount, ← hy.ledger.counts, owed_of_absent habsent]

end Sys2Proof.Proofs.Ledger
end

section
/-! The start-up of the unit (R41, R53, R80, R175): during initialisation frames are answered BUSY, inputs and lines start nothing, and no
timer that a player's event needs runs, so the law stands; and what it gives for the ports at the end of initialisation. -/

namespace Sys2Proof.Proofs.StartUp

open Sys2Proof.Machine Sys2Proof.Laws Sys2Proof.Proofs Sys2Proof.Proofs.Actions

/-! ### The law of the start-up -/

/-- Outside initialisation the law says nothing. -/
theorem startOk_of_started {s : State} (h : s.init = none) : StartOk s := by
  have hno : ¬ s.init.isSome = true := by
    rw [h]
    exact nofun
  exact ⟨fun hi => absurd hi hno, fun hi => absurd hi hno, fun hi => absurd hi hno, fun hi => absurd hi hno⟩

/-- The law reads the step in progress, the timers of inputs and lines, and the NOTE lanes. -/
theorem startOk_of {s t : State} (hi : t.init = s.init) (hstep : t.transport.stepEnd = s.transport.stepEnd) (hin : t.inputs = s.inputs)
    (hfoot : t.foots = s.foots) (hlane : ∀ p, (t.port p).noteLane = (s.port p).noteLane) (h : StartOk s) : StartOk t where
  grid := by rw [hi, hstep]; exact h.grid
  watches := by unfold State.input; rw [hi, hin]; exact h.watches
  lines := by unfold State.foot; rw [hi, hfoot]; exact h.lines
  lanes := by rw [hi]; exact fun hs p => (hlane p).trans (h.lanes hs p)

theorem startOk_setLink (s : State) (l : Link) (x : LinkState) (h : StartOk s) : StartOk (s.setLink l x) := by
  cases l <;> exact startOk_of (s := s) rfl rfl rfl rfl (fun _ => rfl) h

theorem startOk_now (s : State) (n : Nat) (h : StartOk s) : StartOk { s with now := n } :=
  startOk_of (s := s) rfl rfl rfl rfl (fun _ => rfl) h

theorem startOk_setPort {s : State} {p : Port} {x : PortState} (hx : x.noteLane = (s.port p).noteLane) (h : StartOk s) :
    StartOk (s.setPort p x) := by
  refine startOk_of (s := s) rfl rfl rfl rfl (fun p' => ?_) h
  rw [port_setPort_ite]
  split
  · rename_i hp
    rw [hx, hp]
  · rfl

/-! ### What leaves the initialisation as it is -/

/-- No unit reads or writes whether initialisation is in progress. -/
theorem init_actions (x : Option Nat) : ActionFree (fun s => s.init = x) := by
  have hblock : BlockFree (fun s : State => s.init = x) := {
    links := fun s l _ h => by cases l <;> exact h
    port := fun _ _ _ _ h => h
    held := fun _ _ h => h
    fault := fun _ _ h => h
    pedals := fun _ _ h => h
    steals := fun _ _ h => h
    inputs := fun _ _ h => h
    tempo := fun _ _ h => h
    transport := fun _ _ _ h => h
    click := fun _ _ h => h
    live := fun _ _ _ h => h
    selection := fun _ _ _ h => h
    changeover := fun _ _ h => h
    progMem := fun _ _ h => h
    audition := fun _ _ h => h
    cue := fun _ _ _ h => h
    library := fun _ _ _ _ h => h
    setlist := fun _ _ h => h
    foots := fun _ _ h => h
    panics := fun _ _ h => h
    now := fun _ _ h => h }
  exact AllFree.actions hblock.all fun _ _ h => h

theorem startOk_linkFree : LinkFree StartOk where
  links := startOk_setLink
  fault := fun s _ h => startOk_of (s := s) rfl rfl rfl rfl (fun _ => rfl) h
  now := startOk_now
  answer := fun l f _ hi _ => startOk_of_started (answerFrame_kept (init_actions none) l f hi)

theorem startOk_recordFree : RecordFree StartOk where
  offered := raiseOn_free startOk_setLink
  changeover := fun s _ _ h => startOk_of (s := s) rfl rfl rfl rfl (fun _ => rfl) h

/-! ### The events of the ports -/

theorem startOk_itemEnd (p : Port) {s : State} (h : StartOk s) : StartOk (itemEnd p s) := by
  unfold itemEnd
  split
  · exact h
  · rename_i w _
    have hended := startOk_setPort (s := s.reach w.ends) (p := p)
      (PortTimers.itemEnded_reads ((s.reach w.ends).port p) w (s.reach w.ends).now).1 (startOk_now s _ h)
    dsimp only
    split
    · exact reportTransmitted_closed startOk_recordFree p _ hended
    · exact hended

theorem startOk_settleExpiry (p : Port) {s : State} (h : StartOk s) : StartOk (settleExpiry p s) := by
  unfold settleExpiry
  split
  · exact h
  · exact reportSettleEnd_closed startOk_recordFree p (startOk_setPort (s := s.reach _) rfl (startOk_now s _ h))

theorem startOk_keepAliveExpiry (p : Port) {s : State} (h : StartOk s) : StartOk (keepAliveExpiry p s) := by
  unfold keepAliveExpiry
  split
  · exact h
  · split
    · exact h
    · exact startOk_setPort (s := s.reach _) rfl (startOk_now s _ h)

theorem startOk_gateExpiry (p : Port) (c : Chan) (n : Nat) {s : State} (h : StartOk s) : StartOk (gateExpiry p c n s) := by
  have hoff : ∀ r u, StartOk u → StartOk (offerOff r u) := fun r u hu => by
    unfold offerOff
    split
    · exact startOk_of (s := u.setPort _ _) rfl rfl rfl rfl (fun _ => rfl) (startOk_setPort (s := u) (p := r.port) rfl hu)
    · exact startOk_of (s := u) rfl rfl rfl rfl (fun _ => rfl) hu
  unfold gateExpiry
  split
  · exact h
  · split
    · exact h
    · exact hoff _ _ (startOk_now s _ h)

/-! ### Commands -/

/-- During initialisation a line takes its level alone (R53). -/
theorem startOk_lineChange (n : FootLine) (v : Level) {s : State} (hi : s.init.isSome = true) (h : StartOk s) :
    StartOk (lineChange n v s) := by
  unfold lineChange
  by_cases hv : (s.foot n).level = v
  · rwa [if_pos hv]
  · rw [if_neg hv, if_pos hi]
    refine ⟨h.grid, h.watches, fun _ m => ?_, h.lanes⟩
    by_cases hm : m = n
    · subst hm
      rw [foot_setFoot]
      exact h.lines hi m
    · rw [foot_setFoot_ne _ _ _ _ hm]
      exact h.lines hi m

theorem startOk_reset (a b : Bool) (s : State) : StartOk (pinResetAll a b s) := by
  have hfoot := Resets.pinResetAll_foot a b s
  obtain ⟨fs, hpin⟩ := Resets.pinResetAll_eq a b s
  rw [hpin] at hfoot ⊢
  refine ⟨fun _ => rfl, fun _ i => ?_, fun _ n => ?_, fun _ p => ?_⟩
  · simp [State.input, State.reset, InputState.reset]
  · rw [hfoot n]
    rfl
  · simp [State.port, State.reset, PortState.reset]

theorem endInitialisation_init (s : State) : (endInitialisation s).init = none := by
  unfold endInitialisation
  split
  · assumption
  · rw [mapPorts_eq, mapFoots_eq]

/-- A command keeps the law of the start-up. -/
theorem startOk_effect (c : Instr) {s : State} (h : StartOk s) : StartOk (Effects.effect c s) := by
  by_cases hreset : ∃ a b, c = .pinReset a b
  · obtain ⟨a, b, rfl⟩ := hreset
    exact startOk_reset a b s
  by_cases hend : c = .initialisationEnd
  · subst hend
    exact startOk_of_started (endInitialisation_init s)
  rcases hi : s.init with _ | d
  · exact startOk_of_started (effect_kept (init_actions none) c (fun a b hc => absurd ⟨a, b, hc⟩ hreset) (fun hc => absurd hc hend) hi)
  have hsome : s.init.isSome = true := by
    rw [hi]
    rfl
  cases c
  case pinReset a b => exact absurd ⟨a, b, rfl⟩ hreset
  case initialisationEnd => exact absurd rfl hend
  case linkByteReceived => exact linkByte_kept startOk_linkFree _ _ _ h
  case linkInterByteTimeout => exact interByteTimeout_kept startOk_linkFree _ h
  case linkTransmitEnd => exact transmitEnd_kept startOk_linkFree _ h
  case inputByteReceived =>
    dsimp only [Effects.effect, inputByte]
    rwa [if_pos hsome]
  case inputWatchExpiry i =>
    dsimp only [Effects.effect, watchExpiry]
    rwa [h.watches hsome i]
  case footswitchLineChange => exact startOk_lineChange _ _ hsome h
  case footswitchDebounceExpiry n =>
    dsimp only [Effects.effect, debounceExpiry]
    rwa [h.lines hsome n]
  case gridStepEnd =>
    dsimp only [Effects.effect, stepEnds]
    rwa [h.grid hsome]
  case clickGateExpiry => exact startOk_gateExpiry _ _ _ h
  case outputItemEnd => exact startOk_itemEnd _ h
  case settleTimerExpiry => exact startOk_settleExpiry _ h
  case keepAliveExpiry => exact startOk_keepAliveExpiry _ h
  case controllerIntervalExpiry => exact intervalExpiry_closed startOk_now _ h
  all_goals exact frameComplete_kept startOk_linkFree _ _ h

theorem startOk_finish {s : State} (h : StartOk s) : StartOk (finish s) := by
  rcases hi : s.init with _ | d
  · exact startOk_of_started (finish_kept (init_actions none) hi)
  · have hkick : kickPorts s = s := if_pos (by rw [hi]; rfl)
    unfold finish startIdle
    rw [hkick]
    exact startOk_setLink _ _ _ (startOk_setLink _ _ _ h)

theorem startOk_endInstant {s : State} (h : StartOk s) : StartOk (endInstant s) := by
  rcases hi : s.init with _ | d
  · exact startOk_of_started (endInstant_kept (init_actions none) hi)
  · rwa [endInstant_quiet s fun p => unplaced_of_le (by
      rw [h.lanes (by rw [hi]; rfl) p]
      exact Nat.zero_le _)]

theorem startOk_upTo (due : Option Nat) {s : State} (h : StartOk s) : StartOk (s.upTo due) := by
  unfold State.upTo
  split
  · exact h
  · split
    · exact startOk_endInstant h
    · exact h

theorem startOk_step {s t : State} (hst : step s = .next t) (h : StartOk s) : StartOk t := by
  obtain ⟨-, rfl⟩ | ⟨c, rest, -, rfl⟩ := Effects.step_cases hst
  · exact startOk_now _ _ (startOk_endInstant h)
  · exact startOk_finish (startOk_effect c (startOk_upTo _ (startOk_of (s := s) rfl rfl rfl rfl (fun _ => rfl) h)))

/-- A step keeps what every action and every reset keep, and what the end of initialisation does after a start by the law. -/
theorem step_kept_started {P : State → Prop} (h : ActionFree P) (hreset : ∀ a b s, P (pinResetAll a b s))
    (hend : ∀ s, StartOk s → P s → P (endInitialisation s)) (hp : ∀ s x, P s → P { s with pending := x }) {s t : State}
    (hst : step s = .next t) (hstart : StartOk s) (hs : P s) : P t := by
  obtain ⟨-, rfl⟩ | ⟨c, rest, -, rfl⟩ := Effects.step_cases hst
  · exact h.now _ _ (endInstant_kept h hs)
  · have hdue := upTo_kept h (dueOf c { s with pending := rest }) (hp s rest hs)
    have hbegun := startOk_upTo (dueOf c { s with pending := rest })
      (startOk_of (s := s) (t := { s with pending := rest }) rfl rfl rfl rfl (fun _ => rfl) hstart)
    exact finish_kept h (effect_kept h c (fun a b _ => hreset a b _) (fun _ => hend _ hbegun hdue) hdue)

end Sys2Proof.Proofs.StartUp
end

section
/-! Ports, click note-offs and the changeover record under every step (chapter 9, R96, R137, R147): the closures of the three laws, and the
statement. -/

namespace Sys2Proof.Proofs.PortLaws

open Sys2Proof.Machine Sys2Proof.Laws Sys2Proof.Proofs Sys2Proof.Proofs.Lanes Sys2Proof.Proofs.Actions Sys2Proof.Proofs.StartUp
  Sys2Proof.Proofs.Ledger

/-! ### The end of initialisation -/

/-- Initialisation ends with the sweep of every port. -/
theorem endInitialisation_port {s : State} {d : Nat} (h : s.init = some d) (p : Port) :
    (endInitialisation s).port p = (s.port p).sweepAll := by
  rw [Resets.endInitialisation_of_some h, mapPorts_port, Resets.mapFoots_port]
  rfl

theorem endInitialisation_changeover (s : State) : (endInitialisation s).changeover = s.changeover := by
  unfold endInitialisation
  split
  · rfl
  · rw [mapPorts_eq, mapFoots_eq]
    rfl

theorem portsOk_endInitialisation (s : State) (hstart : StartOk s) (h : PortsOk s) : PortsOk (endInitialisation s) := by
  rcases hi : s.init with _ | d
  · rwa [Resets.endInitialisation_of_none hi]
  · intro p
    rw [endInitialisation_port hi]
    refine sweepAll_ok (h p) ?_
    rw [hstart.lanes (by rw [hi]; rfl) p]
    exact Nat.zero_le _

theorem swept_count (q : PortState) : q.sweepAll.untransmitted = q.untransmitted := by
  unfold PortState.untransmitted
  show ((q.noteLane ++ sweeps).filter NoteEntry.isProgram).length + _ = _
  rw [List.filter_append, sweeps_noProgram, List.append_nil]
  rfl

theorem booked_endInitialisation (s : State) (hstart : StartOk s) (h : Booked s) : Booked (endInitialisation s) := by
  have hports := portsOk_endInitialisation s hstart h.ports
  rcases hi : s.init with _ | d
  · rwa [Resets.endInitialisation_of_none hi]
  · have hledger : ledger (endInitialisation s) = ledger s := by
      rw [ledger, endInitialisation_changeover, ledger]
    refine ⟨hports, fun p => ?_, hledger ▸ ?_⟩
    · rw [endInitialisation_port hi]
      exact h.wires p
    · refine ⟨h.ledger.ports, fun p => ?_, fun e he hset => ?_⟩
      · rw [endInitialisation_port hi, swept_count]
        exact h.ledger.counts p
      · rw [endInitialisation_port hi]
        exact h.ledger.settling e he hset

/-! ### Safe ports -/

theorem portsOk_of {s t : State} (h : t.port = s.port) (hs : PortsOk s) : PortsOk t := fun p => by
  rw [h]
  exact hs p

theorem portsOk_actions : ActionFree PortsOk := by
  have hblock : BlockFree PortsOk := {
    links := fun s l _ h => portsOk_of (s := s) (by cases l <;> rfl) h
    port := fun s p x hx h => portOk_set s p x hx h
    held := fun s _ h => portsOk_of (s := s) rfl h
    fault := fun s _ h => portsOk_of (s := s) rfl h
    pedals := fun s _ h => portsOk_of (s := s) rfl h
    steals := fun s _ h => portsOk_of (s := s) rfl h
    inputs := fun s _ h => portsOk_of (s := s) rfl h
    tempo := fun s _ h => portsOk_of (s := s) rfl h
    transport := fun s _ _ h => portsOk_of (s := s) rfl h
    click := fun s _ h => portsOk_of (s := s) rfl h
    live := fun s _ _ h => portsOk_of (s := s) rfl h
    selection := fun s _ _ h => portsOk_of (s := s) rfl h
    changeover := fun s _ h => portsOk_of (s := s) rfl h
    progMem := fun s _ h => portsOk_of (s := s) rfl h
    audition := fun s _ h => portsOk_of (s := s) rfl h
    cue := fun s _ _ h => portsOk_of (s := s) rfl h
    library := fun s _ _ _ h => portsOk_of (s := s) rfl h
    setlist := fun s _ h => portsOk_of (s := s) rfl h
    foots := fun s _ h => portsOk_of (s := s) rfl h
    panics := fun s _ h => portsOk_of (s := s) rfl h
    now := fun s _ h => portsOk_of (s := s) rfl h }
  exact AllFree.actions hblock.all fun s _ h => portsOk_of (s := s) rfl h

/-! ### The ledger -/

theorem booked_laneFree : LaneFree Booked where
  offered := booked_offered
  lane := fun s p x hx h => booked_port s p x (NoteStep.kept hx) h
  flags := fun s _ _ h => booked_of (s := s) rfl rfl h
  fault := fun s _ h => booked_of (s := s) rfl rfl h

theorem booked_tableFree : TableFree Booked :=
  .ofHeld booked_laneFree (fun s _ h => booked_of (s := s) rfl rfl h) (fun s _ h => booked_of (s := s) rfl rfl h)
    (fun s _ h => booked_of (s := s) rfl rfl h) (fun s _ h => booked_of (s := s) rfl rfl h)

theorem booked_clickWrites : ClickWrites Booked where
  port := booked_port
  click := fun s _ h => booked_of (s := s) rfl rfl h

/-- The ledger while a trigger's record stands. -/
def Sent (r : Changeover) (s : State) : Prop := Booked s ∧ ChangeTables.SameTarget r s

theorem sent_laneFree (r : Changeover) : LaneFree (Sent r) := by
  have hrecord : ∀ x, LaneFree (fun u => u.changeover = x) := ChangeTables.recordFree
  exact {
    offered := fun l n s h => by
      obtain ⟨hbooked, f, hf, hr⟩ := h
      exact ⟨booked_offered l n s hbooked, f, (hrecord (some f)).offered l n s hf, hr⟩
    lane := fun s p x hx h => ⟨booked_laneFree.lane s p x hx h.1, h.2⟩
    flags := fun s x hx h => ⟨booked_laneFree.flags s x hx h.1, h.2⟩
    fault := fun s x h => ⟨booked_laneFree.fault s x h.1, h.2⟩ }

/-- The new record takes over what the old one has left undone (R139, R146). -/
theorem ledger_newRecord (t : Trigger) (s : State) :
    (s.newRecord t).ports = (ledger s).filter (fun e => decide (0 < e.outstanding) || e.settling) := by
  rw [ChangeTables.newRecord_eq]
  rfl

theorem booked_assigns {r : Changeover} (xs : List Assignment) : ∀ w : Sending, Sent r w.state → Sent r (xs.foldl Sending.assign w).state := by
  induction xs with
  | nil => exact fun _ h => h
  | cons x xs ih => exact fun w h => ih _ ⟨booked_assign w x h.2 h.1, ChangeTables.assign_sameTarget w x h.2⟩

theorem booked_assignAll {r : Changeover} (n : SlotNo) (k : Nat) {s : State} (h : Sent r s) : Sent r (assignAll n k s).state := by
  unfold assignAll
  exact booked_assigns _ _ h

theorem booked_trigger (t : Trigger) (s : State) (hm : ∀ s, Booked s → Booked (moveSelection t s).1) (h : Booked s) :
    Booked (takeTrigger t s).1 := by
  have hsuper : Booked (raiseSuperseded s) := raiseSuperseded_closed booked_offered h
  have hledger : ledger (raiseSuperseded s) = ledger s :=
    raiseSuperseded_closed (P := fun u => ledger u = ledger s)
      (fun l n u hu => (congrArg (fun c => Option.elim c [] Changeover.ports)
        ((ChangeTables.recordFree u.changeover).offered l n u rfl)).trans hu) rfl
  have hstarted : Sent (s.newRecord t) { raiseSuperseded s with changeover := some (s.newRecord t) } := by
    refine ⟨⟨hsuper.ports, hsuper.wires, ?_⟩, s.newRecord t, rfl, rfl⟩
    show LedgerOk (s.newRecord t).ports _
    rw [ledger_newRecord, ← hledger]
    exact hsuper.ledger.undone
  have hraised := raiseStarted_closed (sent_laneFree _).offered t hstarted
  have hmoved : Sent (s.newRecord t) (selected t s) := by
    obtain ⟨hbooked, f, hf, hr⟩ := hraised
    exact ⟨hm _ hbooked, f, (ChangeTables.moveSelection_changeover t _).trans hf, hr⟩
  rw [takeTrigger_eq]
  generalize s.newRecord t = r at hmoved
  generalize selected t s = u at hmoved ⊢
  have hlive : Sent r (replaceLive t.slot t.scene u) :=
    pedalCarry_kept (sent_laneFree _) (fun v _ hv => ⟨booked_of (s := v) rfl rfl hv.1, hv.2⟩)
      ⟨booked_of (s := u) rfl rfl hmoved.1, hmoved.2⟩
  exact booked_complete (booked_assignAll _ _ hlive).1

theorem ledger_positions (f : Nat → Nat) (s : State) : ledger (mapPositions f s) = ledger s := by
  unfold ledger mapPositions
  rcases s.changeover with _ | r <;> rfl

theorem booked_plainFree : PlainFree Booked where
  toTableFree := booked_tableFree
  links := fun s l _ h => booked_of (s := s) (by cases l <;> rfl) (by cases l <;> rfl) h
  port := booked_port
  steals := fun s _ h => booked_of (s := s) rfl rfl h
  foots := fun s _ h => booked_of (s := s) rfl rfl h
  panics := fun s _ h => booked_of (s := s) rfl rfl h
  now := booked_now
  transport := fun s _ h => booked_of (s := s) rfl rfl h
  tempo := fun s _ h => booked_of (s := s) rfl rfl h
  selection := fun s _ _ h => booked_of (s := s) rfl rfl h
  cue := fun s _ _ h => booked_of (s := s) rfl rfl h
  audition := fun s _ h => booked_of (s := s) rfl rfl h
  slots := fun s _ _ h => booked_of (s := s) rfl rfl h
  setlist := fun s _ h => booked_of (s := s) rfl rfl h
  positions := fun s f h => booked_of (s := s) rfl (ledger_positions f s) h
  channels := fun s _ h => booked_of (s := s) rfl rfl h
  noOffs := fun s h => booked_of (s := s) rfl rfl h
  sound := fun c k _ h => soundClick_written booked_clickWrites c k h
  gate := fun p c n _ h => gateExpiry_written booked_clickWrites booked_now p c n h
  kick := fun _ h => Instants.kickPorts_kept booked_clickWrites.kick h
  send := booked_trigger
  soft := booked_soft
  itemEnd := booked_itemEnd
  settle := booked_settleExpiry
  panicPort := booked_panicPort

theorem booked_pinReset (a b : Bool) (s : State) : Booked (pinResetAll a b s) := by
  obtain ⟨fs, hpin⟩ := Resets.pinResetAll_eq a b s
  have hreset : ∀ p, (pinResetAll a b s).port p = PortState.reset := fun p => by
    rw [hpin]
    simp [State.port, State.reset]
  refine booked_empty (fun p => ?_) (fun p => ?_) (fun p => ?_) (by rw [hpin]; rfl)
  · rw [hreset]
    exact reset_ok
  · rw [hreset]
    exact nofun
  · rw [hreset]
    rfl

/-! ### Click note-offs (R96) -/

/-- What tells one pending note-off from another. -/
abbrev offKey (r : ClickOff) : Port × Chan × Nat := (r.port, r.chan, r.note)

theorem clickOk_of {s t : State} (h : (t.click.offs.map offKey).Sublist (s.click.offs.map offKey)) (hs : ClickOk s) : ClickOk t :=
  List.Nodup.sublist h hs

theorem clickOk_offerOff (r : ClickOff) {s : State} (h : ClickOk s) : ClickOk (offerOff r s) := by
  unfold offerOff
  split
  · exact clickOk_of (s := s) (List.filter_sublist.map _) h
  · refine clickOk_of (s := s) (sublist_of_eq ?_) h
    show (List.map (fun x => if x.isFor r.port r.chan r.note then { x with waiting := true } else x) s.click.offs).map offKey = _
    rw [List.map_map]
    exact List.map_congr_left fun x _ => by dsimp only [Function.comp]; split <;> rfl

theorem clickOk_cutShort (p : Port) (c : Chan) (n : Nat) {s : State} (h : ClickOk s) : ClickOk (cutShort p c n s) := by
  unfold cutShort
  split
  · exact clickOk_offerOff _ h
  · exact h

/-- Where the lane has room still, no record of the note is left (R96 step 1). -/
theorem cutShort_clears {p : Port} {c : Chan} {n : Nat} {s : State} (h : ((cutShort p c n s).port p).clickRoom = true) :
    (p, c, n) ∉ (cutShort p c n s).click.offs.map offKey := by
  intro hmem
  obtain ⟨x, hx, hkey⟩ := List.mem_map.mp hmem
  have hfor : x.isFor p c n = true := decide_eq_true (by simpa [offKey] using hkey)
  rcases hoff : s.offFor p c n with _ | r
  · rw [Clicks.cutShort_of_none hoff] at hx
    exact absurd hfor (List.find?_eq_none.mp hoff x hx)
  · rw [Clicks.cutShort_of_some hoff] at h hx
    obtain ⟨rfl, rfl, rfl⟩ := Clicks.offFor_some hoff
    unfold offerOff at h hx
    split at hx
    · have hgone := (List.mem_filter.mp (show x ∈ s.click.offs.filter _ from hx)).2
      rw [hfor] at hgone
      exact nomatch hgone
    · rename_i hfull
      rw [if_neg hfull] at h
      exact hfull h

theorem clickOk_sound (c : ClickChannel) (k : ClickPosition) (s : State) (h : ClickOk s) : ClickOk (soundClick c k s) := by
  have hcut := clickOk_cutShort c.port c.chan (c.note k) h
  unfold soundClick enqueueOn
  split
  · rename_i hroom
    have hclear := cutShort_clears hroom
    generalize cutShort c.port c.chan (c.note k) s = u at *
    unfold ClickOk
    show (List.map offKey (u.click.offs ++ [_])).Nodup
    rw [List.map_append, List.nodup_append]
    refine ⟨hcut, List.nodup_singleton _, fun x hx y hy hxy => hclear ?_⟩
    have hkey : x = (c.port, c.chan, c.note k) := hxy.trans (List.mem_singleton.mp hy)
    exact hkey ▸ hx
  · exact hcut

theorem clickOk_gate (p : Port) (c : Chan) (n : Nat) (s : State) (h : ClickOk s) : ClickOk (gateExpiry p c n s) := by
  unfold gateExpiry
  split
  · exact h
  · split
    · exact h
    · exact clickOk_offerOff _ h

theorem clickOk_quietFree : QuietFree ClickOk where
  offered := raiseOn_free fun _ l _ h => by cases l <;> exact h
  quiet := fun _ _ _ _ h => h
  flags := fun _ _ _ h => h
  fault := fun _ _ h => h
  changeover := fun _ _ h => h
  progMem := fun _ _ h => h
  pedals := fun _ _ h => h
  live := fun _ _ _ h => h

theorem clickOk_recordFree : RecordFree ClickOk :=
  { offered := clickOk_quietFree.offered, changeover := fun _ _ _ h => h }

theorem clickOk_none {s : State} (h : s.click.offs = []) : ClickOk s := by
  unfold ClickOk
  rw [h]
  exact List.nodup_nil

theorem clickOk_plainFree : PlainFree ClickOk where
  toTableFree := .ofHeld clickOk_quietFree.toLaneFree (fun _ _ h => h) (fun _ _ h => h) (fun _ _ h => h) (fun _ _ h => h)
  links := fun _ l _ h => by cases l <;> exact h
  port := fun _ _ _ _ h => h
  steals := fun _ _ h => h
  foots := fun _ _ h => h
  panics := fun _ _ h => h
  now := fun _ _ h => h
  transport := fun _ _ h => h
  tempo := fun _ _ h => h
  selection := fun _ _ _ h => h
  cue := fun _ _ _ h => h
  audition := fun _ _ h => h
  slots := fun _ _ _ h => h
  setlist := fun _ _ h => h
  positions := fun _ _ h => h
  channels := fun _ _ h => h
  noOffs := fun _ _ => clickOk_none rfl
  sound := clickOk_sound
  gate := clickOk_gate
  kick := fun s h => clickOk_of (s := s) ((Instants.kickPorts_kicked s).offs.map _) h
  send := fun t _ hm h => takeTrigger_kept clickOk_quietFree.send t hm h
  soft := fun s _ => by
    obtain ⟨ps, is, hsoft⟩ := Resets.softResetAll_walked s
    rw [hsoft]
    exact clickOk_none rfl
  itemEnd := fun p _ h => itemEnd_closed clickOk_recordFree (fun _ _ _ _ h => h) (fun _ _ h => h) p h
  settle := fun p _ h => settleExpiry_closed clickOk_recordFree (fun _ _ _ _ h => h) (fun _ _ h => h) p h
  panicPort := fun p s h => by
    unfold panicPort
    dsimp only
    split
    · exact reportSettleEnd_closed clickOk_recordFree _ h
    · exact h

theorem clickOk_step {s t : State} (hst : step s = .next t) (h : ClickOk s) : ClickOk t := by
  refine step_kept clickOk_plainFree.actions (fun a b u _ => ?_) (fun u hu => ?_) (fun _ _ h => h) hst h
  · obtain ⟨fs, hpin⟩ := Resets.pinResetAll_eq a b u
    rw [hpin]
    exact clickOk_none rfl
  · unfold endInitialisation
    split
    · exact hu
    · rw [mapPorts_eq, mapFoots_eq]
      exact hu

/-! ### The statement -/

/-- Settles O5: the lanes by their ports' own laws, the click note-offs by their keys, and the record by the ledger it is. -/
theorem portsStaySafe : Obligations.PortsStaySafe := by
  unfold Obligations.PortsStaySafe
  intro s t hst
  refine ⟨fun hp hstart => ⟨?_, startOk_step hst hstart⟩, clickOk_step hst, fun hempty => ?_, fun hp hstart hr => ?_⟩
  · exact step_kept_started portsOk_actions (fun a b u => (booked_pinReset a b u).ports) portsOk_endInitialisation
      (fun u _ h => portsOk_of (s := u) rfl h) hst hstart hp
  · obtain ⟨-, rfl⟩ | ⟨c, rest, hfront, -⟩ := Effects.step_cases hst
    · exact (Instants.endInstant_ended s).placed
    · exact nomatch hempty.symm.trans hfront
  · exact ((booked_iff t).mp (step_kept_started booked_plainFree.actions booked_pinReset booked_endInitialisation
      (fun u _ h => booked_of (s := u) rfl rfl h) hst hstart ((booked_iff s).mpr ⟨hp, hr⟩))).2

end Sys2Proof.Proofs.PortLaws
end
